-- ==== Sys2Proof/Word.lean ====
section
/-! DEFINITION. The words of the block: u8 and u16 (00_scope.md R7, R8). A u1 is a Bool, 1 = true (decision D45). -/

namespace Sys2Proof

/-- u8: commands, data bytes, register bytes, lengths (R6 BYTE_W, LEN_W). -/
abbrev Byte := BitVec 8

/-- u16: the year field of a time record (R40). -/
abbrev Half := BitVec 16

end Sys2Proof
end

