-- ==== Sys2Proof/Config.lean ====
section
/-! DEFINITION. What an implementation fixes (00_scope.md R6) and the free values: the port responder's answers that no
script gives (60_exceptions.md R721). -/

namespace Sys2Proof

/-- What is known of one line's level: 0, 1 or X (10_state.md R22). -/
inductive Line where
  | low
  | high
  | x
deriving DecidableEq, Repr

/-- The direction of the data line as the block last set it (10_state.md R22). -/
inductive Dir where
  | out
  | inp
  | x
deriving DecidableEq, Repr

/-- INIT_LINE_LEVELS (decision D25) is OPEN, "X if unconstrained": this model leaves it unconstrained. Log entry 5. -/
def Config.initLine : Line := .x

/-- The data line's direction before the first frame, part of INIT_LINE_LEVELS (10_state.md R45). Log entry 5. -/
def Config.initDir : Dir := .x

/-- BUS_RECOVERY_ON_FAIL (decision D9, 90_conflicts.md C5): false for the block specified here. Log entry 18. -/
def Config.busRecoveryOnFail : Bool := false

/-- FREE VALUE: whether the responder answers ok to the pin event that draws number `k` (U4). Log entry 2. -/
opaque Config.freeOk : Nat → Bool

/-- FREE VALUE: the level of draw number `k` (U3; 20_memory.md R85 "a draw"). Log entry 2. -/
opaque Config.freeLevel : Nat → Bool

/-- FREE VALUE: HOUR_ENC of a format code that is neither H12 nor H24; 43_bcd_codec.md R403 gives no formula for it, and
only an unvalidated record given to TIME_ENCODE can hold one. A function of its operands. Log entry 20. -/
opaque Config.hourEncOther : Byte → Bool → Byte → Byte

end Sys2Proof
end

