-- ==== Sys2Proof/Syntax.lean ====
section
/-! DEFINITION. The instructions: one constructor per row of spec/opcode_table.json, the 29 requests of
30_encoding.md R110 and the 27 command-byte rows of R101 to R104 and R120. -/

namespace Sys2Proof

/-- The Time Record (10_state.md R40). `format` is the raw code: H24 = 0x00, H12 = 0x01, any other invalid;
`amPm` is AM = false, PM = true (decision D17). -/
structure TimeRecord where
  year : Half
  month : Byte
  week : Byte
  date : Byte
  hour : Byte
  minute : Byte
  second : Byte
  format : Byte
  amPm : Bool
deriving DecidableEq, Repr

/-- The seven register bytes TIME_DECODE takes, in address order (43_bcd_codec.md R406). -/
structure TimeBytes where
  second : Byte
  minute : Byte
  hour : Byte
  date : Byte
  month : Byte
  week : Byte
  year : Byte
deriving DecidableEq, Repr

/-- Every row of the opcode table.

In a public request `handle` says whether the handle is present, and `slot` whether the output slot is
(60_exceptions.md R701); a record or a write buffer that may be absent is an Option, none = absent.
The wire rows (`cmd…`) are the frames their command byte heads (30_encoding.md R106). -/
inductive Instr where
  -- public requests (30_encoding.md R110)
  | init (handle : Bool)
  | deinit (handle : Bool)
  | setTime (handle : Bool) (rec : Option TimeRecord)
  | getTime (handle : Bool) (slot : Bool)
  | setOscillator (handle : Bool) (en : Bool)
  | getOscillator (handle : Bool) (slot : Bool)
  | setWriteProtect (handle : Bool) (en : Bool)
  | getWriteProtect (handle : Bool) (slot : Bool)
  | setCharge (handle : Bool) (v : Byte)
  | getCharge (handle : Bool) (slot : Bool)
  | writeRam (handle : Bool) (addr n : Byte) (wbuf : Option (List Byte))
  | readRam (handle : Bool) (slot : Bool) (addr n : Byte)
  | clockBurstWrite (handle : Bool) (n : Byte) (wbuf : Option (List Byte))
  | clockBurstRead (handle : Bool) (slot : Bool) (n : Byte)
  | ramBurstWrite (handle : Bool) (n : Byte) (wbuf : Option (List Byte))
  | ramBurstRead (handle : Bool) (slot : Bool) (n : Byte)
  | setReg (handle : Bool) (reg n : Byte) (wbuf : Option (List Byte))
  | getReg (handle : Bool) (slot : Bool) (reg n : Byte)
  -- internal requests (30_encoding.md R110), with no guard
  | engWriteByte (c v : Byte)
  | engReadByte (c : Byte)
  | regWriteMultiple (start n : Byte) (wbuf : List Byte)
  | regReadMultiple (start n : Byte)
  | regBurstWrite (bc n : Byte) (wbuf : List Byte)
  | regBurstRead (bc n : Byte)
  | hexToBcd (v : Byte)
  | bcdToHex (v : Byte)
  | timeValidate (rec : TimeRecord)
  | timeEncode (rec : TimeRecord) (old : Byte)
  | timeDecode (b : TimeBytes)
  -- wire commands (30_encoding.md R101 to R104, R120)
  | cmdWrSecond (v : Byte)
  | cmdRdSecond
  | cmdWrMinute (v : Byte)
  | cmdRdMinute
  | cmdWrHour (v : Byte)
  | cmdRdHour
  | cmdWrDate (v : Byte)
  | cmdRdDate
  | cmdWrMonth (v : Byte)
  | cmdRdMonth
  | cmdWrWeek (v : Byte)
  | cmdRdWeek
  | cmdWrYear (v : Byte)
  | cmdRdYear
  | cmdWrControl (v : Byte)
  | cmdRdControl
  | cmdWrCharge (v : Byte)
  | cmdRdCharge
  | cmdWrClockBurst (n : Byte) (wbuf : List Byte)
  | cmdRdClockBurst (n : Byte)
  | cmdWrRamBurst (n : Byte) (wbuf : List Byte)
  | cmdRdRamBurst (n : Byte)
  | cmdWrRamSlot (a : BitVec 5) (v : Byte)
  | cmdRdRamSlot (a : BitVec 5)
  | cmdWrClockGeneric (idx : BitVec 5) (v : Byte)
  | cmdRdClockGeneric (idx : BitVec 5)
  /-- A code with marker 0: `low` is its bits 6:0; `data` is the byte of a write frame, none for a read frame. -/
  | cmdReservedMarker0 (low : BitVec 7) (data : Option Byte)
deriving DecidableEq, Repr

/-- The two encoded forms: request records and command bytes (30_encoding.md, opening). -/
inductive Space where
  | request
  | command
deriving DecidableEq, Repr

/-- Which encoded form an instruction has. -/
def Instr.space : Instr → Space
  | .cmdWrSecond _ | .cmdRdSecond | .cmdWrMinute _ | .cmdRdMinute | .cmdWrHour _ | .cmdRdHour
  | .cmdWrDate _ | .cmdRdDate | .cmdWrMonth _ | .cmdRdMonth | .cmdWrWeek _ | .cmdRdWeek
  | .cmdWrYear _ | .cmdRdYear | .cmdWrControl _ | .cmdRdControl | .cmdWrCharge _ | .cmdRdCharge
  | .cmdWrClockBurst _ _ | .cmdRdClockBurst _ | .cmdWrRamBurst _ _ | .cmdRdRamBurst _
  | .cmdWrRamSlot _ _ | .cmdRdRamSlot _ | .cmdWrClockGeneric _ _ | .cmdRdClockGeneric _
  | .cmdReservedMarker0 _ _ => .command
  | .init _ | .deinit _ | .setTime _ _ | .getTime _ _ | .setOscillator _ _ | .getOscillator _ _
  | .setWriteProtect _ _ | .getWriteProtect _ _ | .setCharge _ _ | .getCharge _ _
  | .writeRam _ _ _ _ | .readRam _ _ _ _ | .clockBurstWrite _ _ _ | .clockBurstRead _ _ _
  | .ramBurstWrite _ _ _ | .ramBurstRead _ _ _ | .setReg _ _ _ _ | .getReg _ _ _ _
  | .engWriteByte _ _ | .engReadByte _ | .regWriteMultiple _ _ _ | .regReadMultiple _ _
  | .regBurstWrite _ _ _ | .regBurstRead _ _ | .hexToBcd _ | .bcdToHex _
  | .timeValidate _ | .timeEncode _ _ | .timeDecode _ => .request

end Sys2Proof
end

