-- ==== Sys2Proof/WellFormed.lean ====
section
/-! DEFINITION. Which instructions are well formed: |wbuf| = n (30_encoding.md R120 (b), decision D37), and a
command-byte row's operands inside its own row of the table (R102, R101, R106). A width outside u1, u8 or u16 cannot
be written; a record that holds one is refused by the decoder. -/

namespace Sys2Proof

/-- A write buffer that is present has exactly `n` bytes (R44, R120 (b)). An absent one is the source's null
argument and is not ill-formed. -/
def bufferFits (n : Byte) : Option (List Byte) → Bool
  | none => true
  | some b => b.length == n.toNat

/-- Well-formedness, one arm per constructor. -/
def Instr.wellFormed : Instr → Bool
  | .writeRam _ _ n w | .clockBurstWrite _ n w | .ramBurstWrite _ n w | .setReg _ _ n w => bufferFits n w
  | .regWriteMultiple _ n w | .regBurstWrite _ n w | .cmdWrClockBurst n w | .cmdWrRamBurst n w => bufferFits n (some w)
  | .cmdWrRamSlot a _ | .cmdRdRamSlot a => decide (a.toNat ≤ 30)
  | .cmdWrClockGeneric i _ | .cmdRdClockGeneric i => decide (9 ≤ i.toNat ∧ i.toNat ≤ 30)
  | .cmdReservedMarker0 low data => data.isSome == !low.getLsbD 0
  | .init _ | .deinit _ | .setTime _ _ | .getTime _ _ | .setOscillator _ _ | .getOscillator _ _
  | .setWriteProtect _ _ | .getWriteProtect _ _ | .setCharge _ _ | .getCharge _ _ | .readRam _ _ _ _
  | .clockBurstRead _ _ _ | .ramBurstRead _ _ _ | .getReg _ _ _ _
  | .engWriteByte _ _ | .engReadByte _ | .regReadMultiple _ _ | .regBurstRead _ _
  | .hexToBcd _ | .bcdToHex _ | .timeValidate _ | .timeEncode _ _ | .timeDecode _
  | .cmdWrSecond _ | .cmdRdSecond | .cmdWrMinute _ | .cmdRdMinute | .cmdWrHour _ | .cmdRdHour
  | .cmdWrDate _ | .cmdRdDate | .cmdWrMonth _ | .cmdRdMonth | .cmdWrWeek _ | .cmdRdWeek
  | .cmdWrYear _ | .cmdRdYear | .cmdWrControl _ | .cmdRdControl | .cmdWrCharge _ | .cmdRdCharge
  | .cmdRdClockBurst _ | .cmdRdRamBurst _ => true

/-- The instruction is well formed. -/
abbrev Instr.WellFormed (i : Instr) : Prop := i.wellFormed = true

end Sys2Proof
end

