-- ==== Sys2Proof/Decode.lean ====
section
/-! DEFINITION. The two encoded forms (30_encoding.md): the command byte (R100 to R104) and the request record (R110).
The decoder is total and rejects by name; the encoder is written from the same tables. The spec gives a record's tag and
its operands, not their layout in bytes: that layout is the model's own (log entry 6). -/

namespace Sys2Proof

/-! ## The command byte (R100 to R104) -/

/-- A bank select bit, an index and a read/write selector as one command byte:
`0x80 | (bank << 6) | (idx << 1) | rw` (R101). -/
def cmdByte (bank : Bool) (idx : BitVec 5) (rw : Bool) : Byte :=
  0x80#8 ||| ((BitVec.ofBool bank).setWidth 8 <<< 6) ||| (idx.setWidth 8 <<< 1) ||| (BitVec.ofBool rw).setWidth 8

/-- The marker of a command byte, bit 7 (R100). -/
def cmdMarker (c : Byte) : Bool := c.getLsbD 7

/-- The bank of a command byte, bit 6: true = RAM (R100). -/
def cmdBank (c : Byte) : Bool := c.getLsbD 6

/-- The index of a command byte, bits 5:1 (R100). -/
def cmdIdx (c : Byte) : BitVec 5 := c.extractLsb' 1 5

/-- The selector of a command byte, bit 0: true = read (R100). -/
def cmdRw (c : Byte) : Bool := c.getLsbD 0

/-- REG_INDEX (00_scope.md R6, decision D3). -/
def idxSecond : BitVec 5 := 0
/-- REG_INDEX of the minute register (decision D3). -/
def idxMinute : BitVec 5 := 1
/-- REG_INDEX of the hour register (decision D3). -/
def idxHour : BitVec 5 := 2
/-- REG_INDEX of the date register (decision D3). -/
def idxDate : BitVec 5 := 3
/-- REG_INDEX of the month register (decision D3). -/
def idxMonth : BitVec 5 := 4
/-- REG_INDEX of the week register (decision D3). -/
def idxWeek : BitVec 5 := 5
/-- REG_INDEX of the year register (decision D3). -/
def idxYear : BitVec 5 := 6
/-- REG_INDEX of the control register (decision D3). -/
def idxControl : BitVec 5 := 7
/-- REG_INDEX of the charge register (decision D3). -/
def idxCharge : BitVec 5 := 8
/-- BURST_INDEX, in both banks (decision D4). -/
def idxBurst : BitVec 5 := 31

/-! ## Request tags (R110) -/

/-- The 29 request tags of R110. -/
inductive Tag where
  | init
  | deinit
  | setTime
  | getTime
  | setOscillator
  | getOscillator
  | setWriteProtect
  | getWriteProtect
  | setCharge
  | getCharge
  | writeRam
  | readRam
  | clockBurstWrite
  | clockBurstRead
  | ramBurstWrite
  | ramBurstRead
  | setReg
  | getReg
  | engWriteByte
  | engReadByte
  | regWriteMultiple
  | regReadMultiple
  | regBurstWrite
  | regBurstRead
  | hexToBcd
  | bcdToHex
  | timeValidate
  | timeEncode
  | timeDecode
deriving DecidableEq, Repr

/-- The tag values of R110 (decision D2). -/
def Tag.code : Tag → Byte
  | .init => 0x01#8
  | .deinit => 0x02#8
  | .setTime => 0x10#8
  | .getTime => 0x11#8
  | .setOscillator => 0x20#8
  | .getOscillator => 0x21#8
  | .setWriteProtect => 0x22#8
  | .getWriteProtect => 0x23#8
  | .setCharge => 0x24#8
  | .getCharge => 0x25#8
  | .writeRam => 0x30#8
  | .readRam => 0x31#8
  | .clockBurstWrite => 0x40#8
  | .clockBurstRead => 0x41#8
  | .ramBurstWrite => 0x42#8
  | .ramBurstRead => 0x43#8
  | .setReg => 0x50#8
  | .getReg => 0x51#8
  | .engWriteByte => 0x80#8
  | .engReadByte => 0x81#8
  | .regWriteMultiple => 0x82#8
  | .regReadMultiple => 0x83#8
  | .regBurstWrite => 0x84#8
  | .regBurstRead => 0x85#8
  | .hexToBcd => 0x90#8
  | .bcdToHex => 0x91#8
  | .timeValidate => 0x92#8
  | .timeEncode => 0x93#8
  | .timeDecode => 0x94#8

/-- Every tag, in the table's order. -/
def Tag.all : List Tag :=
  [.init, .deinit, .setTime, .getTime, .setOscillator, .getOscillator,
   .setWriteProtect, .getWriteProtect, .setCharge, .getCharge, .writeRam, .readRam,
   .clockBurstWrite, .clockBurstRead, .ramBurstWrite, .ramBurstRead, .setReg, .getReg,
   .engWriteByte, .engReadByte, .regWriteMultiple, .regReadMultiple, .regBurstWrite, .regBurstRead,
   .hexToBcd, .bcdToHex, .timeValidate, .timeEncode, .timeDecode]

/-- The tag a byte spells, none for a byte that is no tag of R110. -/
def Tag.ofByte (b : Byte) : Option Tag := Tag.all.find? fun t => t.code == b

/-! ## Reading a record -/

/-- Why a record is refused (R120 (a), (b)). -/
inductive Reject where
  /-- The tag is none of R110 (R120 (a)). -/
  | unknownTag (tag : Byte)
  /-- The record ends before its last operand. -/
  | truncated
  /-- Bytes follow the last operand. -/
  | trailing
  /-- A reserved absence flag is set: it names an operand the request does not have. -/
  | badFlags
  /-- A u1 operand that is not one bit (R120 (b)). -/
  | badBit
  /-- `|wbuf| ≠ n` (R120 (b), decision D37). -/
  | bufferLength
deriving DecidableEq, Repr

/-- A parser: it takes bytes from the head of the list, or rejects by name. -/
abbrev Parser (α : Type) := StateT (List Byte) (Except Reject) α

/-- Reject the record. -/
def reject {α : Type} (r : Reject) : Parser α := fun _ => .error r

/-- One byte. -/
def pByte : Parser Byte
  | [] => .error .truncated
  | b :: bs => .ok (b, bs)

/-- A u1 operand, held in one byte: 0 or 1. -/
def pBit : Parser Bool := do
  let b ← pByte
  if b = 0#8 then return false
  if b = 1#8 then return true
  reject .badBit

/-- The absence flags of a public request: bit 0 = the handle is absent, bit 1 = the record, buffer or output slot is
absent (only where the request has one). The answer says what is PRESENT: (handle, slot). -/
def pFlags (hasSlot : Bool) : Parser (Bool × Bool) := do
  let f ← pByte
  if f.toNat < (if hasSlot then 4 else 2) then return (!f.getLsbD 0, !f.getLsbD 1)
  reject .badFlags

/-- The absence flags of a request that has no operand or output slot: is the handle present? -/
def pHandle : Parser Bool := do
  let p ← pFlags false
  return p.1

/-- `k` bytes. -/
def pBytes : Nat → Parser (List Byte)
  | 0 => return []
  | k + 1 => do
    let b ← pByte
    let rest ← pBytes k
    return b :: rest

/-- A write buffer: a length byte, which must be `n`, and that many bytes. -/
def pBuffer (n : Byte) : Parser (List Byte) := do
  let l ← pByte
  if l = n then pBytes l.toNat else reject .bufferLength

/-- A write buffer that may be absent. -/
def pOptBuffer (present : Bool) (n : Byte) : Parser (Option (List Byte)) := do
  if present then
    let w ← pBuffer n
    return some w
  else return none

/-- A Time Record, in the order of 10_state.md R40; the year's low byte comes first. -/
def pRecord : Parser TimeRecord := do
  let yearLow ← pByte
  let yearHigh ← pByte
  let month ← pByte
  let week ← pByte
  let date ← pByte
  let hour ← pByte
  let minute ← pByte
  let second ← pByte
  let format ← pByte
  let amPm ← pBit
  return { year := yearHigh ++ yearLow, month, week, date, hour, minute, second, format, amPm }

/-- A Time Record that may be absent. -/
def pOptRecord (present : Bool) : Parser (Option TimeRecord) := do
  if present then
    let r ← pRecord
    return some r
  else return none

/-- The seven bytes of TIME_DECODE, in address order (43_bcd_codec.md R406). -/
def pTimeBytes : Parser TimeBytes := do
  let second ← pByte
  let minute ← pByte
  let hour ← pByte
  let date ← pByte
  let month ← pByte
  let week ← pByte
  let year ← pByte
  return { second, minute, hour, date, month, week, year }

/-- The operands of the request `tag` spells, in the order of R110's operand column. -/
def pOperands : Tag → Parser Instr
  | .init => do
    let h ← pHandle
    return .init h
  | .deinit => do
    let h ← pHandle
    return .deinit h
  | .setTime => do
    let (h, p) ← pFlags true
    let r ← pOptRecord p
    return .setTime h r
  | .getTime => do
    let (h, p) ← pFlags true
    return .getTime h p
  | .setOscillator => do
    let h ← pHandle
    let en ← pBit
    return .setOscillator h en
  | .getOscillator => do
    let (h, p) ← pFlags true
    return .getOscillator h p
  | .setWriteProtect => do
    let h ← pHandle
    let en ← pBit
    return .setWriteProtect h en
  | .getWriteProtect => do
    let (h, p) ← pFlags true
    return .getWriteProtect h p
  | .setCharge => do
    let h ← pHandle
    let v ← pByte
    return .setCharge h v
  | .getCharge => do
    let (h, p) ← pFlags true
    return .getCharge h p
  | .writeRam => do
    let (h, p) ← pFlags true
    let addr ← pByte
    let n ← pByte
    let w ← pOptBuffer p n
    return .writeRam h addr n w
  | .readRam => do
    let (h, p) ← pFlags true
    let addr ← pByte
    let n ← pByte
    return .readRam h p addr n
  | .clockBurstWrite => do
    let (h, p) ← pFlags true
    let n ← pByte
    let w ← pOptBuffer p n
    return .clockBurstWrite h n w
  | .clockBurstRead => do
    let (h, p) ← pFlags true
    let n ← pByte
    return .clockBurstRead h p n
  | .ramBurstWrite => do
    let (h, p) ← pFlags true
    let n ← pByte
    let w ← pOptBuffer p n
    return .ramBurstWrite h n w
  | .ramBurstRead => do
    let (h, p) ← pFlags true
    let n ← pByte
    return .ramBurstRead h p n
  | .setReg => do
    let (h, p) ← pFlags true
    let reg ← pByte
    let n ← pByte
    let w ← pOptBuffer p n
    return .setReg h reg n w
  | .getReg => do
    let (h, p) ← pFlags true
    let reg ← pByte
    let n ← pByte
    return .getReg h p reg n
  | .engWriteByte => do
    let c ← pByte
    let v ← pByte
    return .engWriteByte c v
  | .engReadByte => do
    let c ← pByte
    return .engReadByte c
  | .regWriteMultiple => do
    let start ← pByte
    let n ← pByte
    let w ← pBuffer n
    return .regWriteMultiple start n w
  | .regReadMultiple => do
    let start ← pByte
    let n ← pByte
    return .regReadMultiple start n
  | .regBurstWrite => do
    let bc ← pByte
    let n ← pByte
    let w ← pBuffer n
    return .regBurstWrite bc n w
  | .regBurstRead => do
    let bc ← pByte
    let n ← pByte
    return .regBurstRead bc n
  | .hexToBcd => do
    let v ← pByte
    return .hexToBcd v
  | .bcdToHex => do
    let v ← pByte
    return .bcdToHex v
  | .timeValidate => do
    let r ← pRecord
    return .timeValidate r
  | .timeEncode => do
    let r ← pRecord
    let old ← pByte
    return .timeEncode r old
  | .timeDecode => do
    let b ← pTimeBytes
    return .timeDecode b

/-- A request record (R110): the tag, then its operands. -/
def parseRequest : Parser Instr := do
  let tag ← pByte
  match Tag.ofByte tag with
  | some t => pOperands t
  | none => reject (.unknownTag tag)

/-! ## Reading a command byte and its data (R100, R106) -/

/-- The write row of a command code with the marker set, for its data byte (R104, R102, R101). -/
def writeRow (bank : Bool) (idx : BitVec 5) (v : Byte) : Instr :=
  if bank then .cmdWrRamSlot idx v
  else if idx = idxSecond then .cmdWrSecond v
  else if idx = idxMinute then .cmdWrMinute v
  else if idx = idxHour then .cmdWrHour v
  else if idx = idxDate then .cmdWrDate v
  else if idx = idxMonth then .cmdWrMonth v
  else if idx = idxWeek then .cmdWrWeek v
  else if idx = idxYear then .cmdWrYear v
  else if idx = idxControl then .cmdWrControl v
  else if idx = idxCharge then .cmdWrCharge v
  else .cmdWrClockGeneric idx v

/-- The read row of a command code with the marker set (R104, R102, R101). -/
def readRow (bank : Bool) (idx : BitVec 5) : Instr :=
  if bank then .cmdRdRamSlot idx
  else if idx = idxSecond then .cmdRdSecond
  else if idx = idxMinute then .cmdRdMinute
  else if idx = idxHour then .cmdRdHour
  else if idx = idxDate then .cmdRdDate
  else if idx = idxMonth then .cmdRdMonth
  else if idx = idxWeek then .cmdRdWeek
  else if idx = idxYear then .cmdRdYear
  else if idx = idxControl then .cmdRdControl
  else if idx = idxCharge then .cmdRdCharge
  else .cmdRdClockGeneric idx

/-- A wire command: the command byte, then what its frame needs: the data byte of a write, nothing for a read, the
count (and the bytes) of a burst. The direction is the command's own selector (R106). -/
def parseCommand : Parser Instr := do
  let c ← pByte
  if cmdMarker c = false then
    if cmdRw c then return .cmdReservedMarker0 (c.setWidth 7) none
    let v ← pByte
    return .cmdReservedMarker0 (c.setWidth 7) (some v)
  else if cmdIdx c = idxBurst then
    let n ← pByte
    if cmdRw c then return if cmdBank c then .cmdRdRamBurst n else .cmdRdClockBurst n
    let w ← pBytes n.toNat
    return if cmdBank c then .cmdWrRamBurst n w else .cmdWrClockBurst n w
  else if cmdRw c then return readRow (cmdBank c) (cmdIdx c)
  else
    let v ← pByte
    return writeRow (cmdBank c) (cmdIdx c) v

/-- The parser of a space: it reads the instruction at the head of a byte list. -/
def parse : Space → Parser Instr
  | .request => parseRequest
  | .command => parseCommand

/-- The instruction a whole record spells. Total on any bytes; what is no instruction is rejected by name. -/
def decode (sp : Space) (bs : List Byte) : Except Reject Instr :=
  match parse sp bs with
  | .ok (i, []) => .ok i
  | .ok (_, _ :: _) => .error .trailing
  | .error r => .error r

/-! ## The encoder -/

/-- A u1 in a byte. -/
def eBit (b : Bool) : Byte := if b then 1#8 else 0#8

/-- The absence flags, from what is present. -/
def eFlags (handle slot : Bool) : Byte := eBit (!handle) ||| (eBit (!slot) <<< 1)

/-- A write buffer: its length byte and its bytes. -/
def eBuffer (w : List Byte) : List Byte := BitVec.ofNat 8 w.length :: w

/-- A write buffer that may be absent. -/
def eOptBuffer : Option (List Byte) → List Byte
  | none => []
  | some w => eBuffer w

/-- A Time Record, in the order `pRecord` reads. -/
def eRecord (r : TimeRecord) : List Byte :=
  [r.year.setWidth 8, (r.year >>> 8).setWidth 8, r.month, r.week, r.date, r.hour, r.minute, r.second, r.format, eBit r.amPm]

/-- A Time Record that may be absent. -/
def eOptRecord : Option TimeRecord → List Byte
  | none => []
  | some r => eRecord r

/-- Seven register bytes, in address order. -/
def TimeBytes.toList (b : TimeBytes) : List Byte := [b.second, b.minute, b.hour, b.date, b.month, b.week, b.year]

/-- The first byte of an instruction: its request tag (R110), or its command byte (R101 to R104, R120). -/
def leadByte : Instr → Byte
  | .init _ => Tag.code .init
  | .deinit _ => Tag.code .deinit
  | .setTime _ _ => Tag.code .setTime
  | .getTime _ _ => Tag.code .getTime
  | .setOscillator _ _ => Tag.code .setOscillator
  | .getOscillator _ _ => Tag.code .getOscillator
  | .setWriteProtect _ _ => Tag.code .setWriteProtect
  | .getWriteProtect _ _ => Tag.code .getWriteProtect
  | .setCharge _ _ => Tag.code .setCharge
  | .getCharge _ _ => Tag.code .getCharge
  | .writeRam _ _ _ _ => Tag.code .writeRam
  | .readRam _ _ _ _ => Tag.code .readRam
  | .clockBurstWrite _ _ _ => Tag.code .clockBurstWrite
  | .clockBurstRead _ _ _ => Tag.code .clockBurstRead
  | .ramBurstWrite _ _ _ => Tag.code .ramBurstWrite
  | .ramBurstRead _ _ _ => Tag.code .ramBurstRead
  | .setReg _ _ _ _ => Tag.code .setReg
  | .getReg _ _ _ _ => Tag.code .getReg
  | .engWriteByte _ _ => Tag.code .engWriteByte
  | .engReadByte _ => Tag.code .engReadByte
  | .regWriteMultiple _ _ _ => Tag.code .regWriteMultiple
  | .regReadMultiple _ _ => Tag.code .regReadMultiple
  | .regBurstWrite _ _ _ => Tag.code .regBurstWrite
  | .regBurstRead _ _ => Tag.code .regBurstRead
  | .hexToBcd _ => Tag.code .hexToBcd
  | .bcdToHex _ => Tag.code .bcdToHex
  | .timeValidate _ => Tag.code .timeValidate
  | .timeEncode _ _ => Tag.code .timeEncode
  | .timeDecode _ => Tag.code .timeDecode
  | .cmdWrSecond _ => cmdByte false idxSecond false
  | .cmdRdSecond => cmdByte false idxSecond true
  | .cmdWrMinute _ => cmdByte false idxMinute false
  | .cmdRdMinute => cmdByte false idxMinute true
  | .cmdWrHour _ => cmdByte false idxHour false
  | .cmdRdHour => cmdByte false idxHour true
  | .cmdWrDate _ => cmdByte false idxDate false
  | .cmdRdDate => cmdByte false idxDate true
  | .cmdWrMonth _ => cmdByte false idxMonth false
  | .cmdRdMonth => cmdByte false idxMonth true
  | .cmdWrWeek _ => cmdByte false idxWeek false
  | .cmdRdWeek => cmdByte false idxWeek true
  | .cmdWrYear _ => cmdByte false idxYear false
  | .cmdRdYear => cmdByte false idxYear true
  | .cmdWrControl _ => cmdByte false idxControl false
  | .cmdRdControl => cmdByte false idxControl true
  | .cmdWrCharge _ => cmdByte false idxCharge false
  | .cmdRdCharge => cmdByte false idxCharge true
  | .cmdWrClockBurst _ _ => cmdByte false idxBurst false
  | .cmdRdClockBurst _ => cmdByte false idxBurst true
  | .cmdWrRamBurst _ _ => cmdByte true idxBurst false
  | .cmdRdRamBurst _ => cmdByte true idxBurst true
  | .cmdWrRamSlot a _ => cmdByte true a false
  | .cmdRdRamSlot a => cmdByte true a true
  | .cmdWrClockGeneric i _ => cmdByte false i false
  | .cmdRdClockGeneric i => cmdByte false i true
  | .cmdReservedMarker0 low _ => low.setWidth 8

/-- The bytes after the first. -/
def operandBytes : Instr → List Byte
  | .init h | .deinit h => [eFlags h true]
  | .setTime h r => eFlags h r.isSome :: eOptRecord r
  | .getTime h p | .getOscillator h p | .getWriteProtect h p | .getCharge h p => [eFlags h p]
  | .setOscillator h en | .setWriteProtect h en => [eFlags h true, eBit en]
  | .setCharge h v => [eFlags h true, v]
  | .writeRam h a n w | .setReg h a n w => eFlags h w.isSome :: a :: n :: eOptBuffer w
  | .readRam h p a n | .getReg h p a n => [eFlags h p, a, n]
  | .clockBurstWrite h n w | .ramBurstWrite h n w => eFlags h w.isSome :: n :: eOptBuffer w
  | .clockBurstRead h p n | .ramBurstRead h p n => [eFlags h p, n]
  | .engWriteByte c v => [c, v]
  | .engReadByte c => [c]
  | .regWriteMultiple s n w | .regBurstWrite s n w => s :: n :: eBuffer w
  | .regReadMultiple s n | .regBurstRead s n => [s, n]
  | .hexToBcd v | .bcdToHex v => [v]
  | .timeValidate r => eRecord r
  | .timeEncode r old => eRecord r ++ [old]
  | .timeDecode b => b.toList
  | .cmdWrSecond v | .cmdWrMinute v | .cmdWrHour v | .cmdWrDate v | .cmdWrMonth v
  | .cmdWrWeek v | .cmdWrYear v | .cmdWrControl v | .cmdWrCharge v
  | .cmdWrRamSlot _ v | .cmdWrClockGeneric _ v => [v]
  | .cmdRdSecond | .cmdRdMinute | .cmdRdHour | .cmdRdDate | .cmdRdMonth | .cmdRdWeek | .cmdRdYear | .cmdRdControl | .cmdRdCharge
  | .cmdRdRamSlot _ | .cmdRdClockGeneric _ => []
  | .cmdWrClockBurst n w | .cmdWrRamBurst n w => n :: w
  | .cmdRdClockBurst n | .cmdRdRamBurst n => [n]
  | .cmdReservedMarker0 _ data => data.toList

/-- The bytes of an instruction: the first byte, then the operands. -/
def encode (i : Instr) : List Byte := leadByte i :: operandBytes i

/-! ## The table's words -/

/-- The longest instruction: SET_REG with 255 bytes (tag, flags, reg, n, length, bytes). -/
def longestInstr : Nat := 260

/-- The bytes of a table word: bits 7..0 first, then zeros up to the longest instruction. -/
def tableBytes (nbits w : Nat) : List Byte :=
  (List.range ((nbits + 7) / 8)).map (fun k => BitVec.ofNat 8 (w >>> (8 * k))) ++ List.replicate longestInstr 0#8

/-- The space a table word is read in. An 8-bit word can be both a request tag and a command byte, and the table does
not say which is meant: a word that is a request tag is read as a request, any other as a command byte (log entry 7). -/
def tableSpace (bs : List Byte) : Space :=
  match bs with
  | [] => .command
  | b :: _ => if (Tag.ofByte b).isSome then .request else .command

/-- The instruction whose bits are `w`, numbered as spec/opcode_table.json numbers them; operand bytes the table gives
no bits are zero. -/
def decodeTableWord (nbits w : Nat) : Option Instr :=
  match parse (tableSpace (tableBytes nbits w)) (tableBytes nbits w) with
  | .ok (i, _) => some i
  | .error _ => none

/-- The record of a table word: its bytes up to the end of the instruction they spell. -/
def tableRecord (nbits w : Nat) : List Byte :=
  let bs := tableBytes nbits w
  match parse (tableSpace bs) bs with
  | .ok (_, rest) => bs.take (bs.length - rest.length)
  | .error _ => bs

end Sys2Proof
end

