-- ==== Sys2Proof/Machine/State.lean ====
section
/-! DEFINITION. The state as plain data (10_state.md), with the port events and answers (60_exceptions.md R720), the
status kinds (R700), the reference double's state (20_memory.md R80), and the reset state (10_state.md R45). -/

namespace Sys2Proof.Machine

/-! ## Names of the spec -/

/-- The 13 port operations, in the order of 10_state.md R21. -/
inductive Cap where
  | ceInit
  | ceDeinit
  | ceWrite
  | clkInit
  | clkDeinit
  | clkWrite
  | ioInit
  | ioDeinit
  | ioWrite
  | ioRead
  | delayMs
  | delayUs
  | debugPrint
deriving DecidableEq, Repr

/-- `S.cap`: which of the 13 port operations is bound (10_state.md R21). -/
structure Caps where
  ceInit : Bool
  ceDeinit : Bool
  ceWrite : Bool
  clkInit : Bool
  clkDeinit : Bool
  clkWrite : Bool
  ioInit : Bool
  ioDeinit : Bool
  ioWrite : Bool
  ioRead : Bool
  delayMs : Bool
  delayUs : Bool
  debugPrint : Bool
deriving DecidableEq, Repr

/-- A port event (60_exceptions.md R720). A level is a Bool, true = high = 1 (decision D38). DEBUG_PRINT's message is
opaque and not kept (R723). -/
inductive Event where
  | ceInit
  | ceDeinit
  | ceWrite (l : Bool)
  | clkInit
  | clkDeinit
  | clkWrite (l : Bool)
  | ioInit
  | ioDeinit
  | ioWrite (l : Bool)
  | ioRead
  | delayMs (n : Nat)
  | delayUs (n : Nat)
  | debugPrint
deriving DecidableEq, Repr

/-- What the trace records of an answer (00_scope.md R10 (a)): delays and debug prints have none, a read that is ok has
a level, a failed read has no level anybody may use (41_bit_engine.md R205). -/
inductive Reply where
  | none
  | ok
  | level (l : Bool)
  | fail
deriving DecidableEq, Repr

/-- One entry of the port trace. -/
structure PortRecord where
  event : Event
  reply : Reply
deriving DecidableEq, Repr

/-- The six status kinds (60_exceptions.md R700). -/
inductive Status where
  | success
  | transferFailure
  | nullArgument
  | notInitialized
  | invalidArgument
  | lifecycleFailure
deriving DecidableEq, Repr

/-- The data outputs of the requests (30_encoding.md R110). -/
inductive Out where
  | none
  | bit (b : Bool)
  | byte (v : Byte)
  | bytes (l : List Byte)
  | record (r : TimeRecord)
  | kind (k : Status)
  | pairs (l : List (Byte × Byte))
deriving DecidableEq, Repr

/-! ## Parts of the state -/

/-- The bus shadow (10_state.md R22). -/
structure Bus where
  ce : Line
  clk : Line
  io : Line
  ioDir : Dir
deriving DecidableEq, Repr

/-- The transient datapath registers (10_state.md R24). -/
structure Datapath where
  cmd : Byte
  sr : Byte
  acc : Byte
  bitI : Nat
  byteI : Nat
  n : Byte
  wbuf : List Byte
  rbuf : List Byte
  old : Byte
  upCount : Nat
deriving DecidableEq, Repr

/-- The sequencer position (10_state.md R27): idle, or the running request and the index of its next port event. -/
inductive Pos where
  | idle
  | at (req : Instr) (k : Nat)
deriving DecidableEq, Repr

/-- The frame states of the reference double (20_memory.md R80). -/
inductive Mode where
  | idle
  | cmd
  | wdata
  | rdata
  | confused
  | ignore
deriving DecidableEq, Repr

/-- The reference double (20_memory.md R80 to R86): `mem` holds `T.clk` and `T.ram` (a cell's address is its even
command code), and the last ok level the double saw on each line. -/
structure Double where
  mem : List Host.Cell
  mode : Mode
  nbits : Nat
  shift : Byte
  cmd : Byte
  j : Nat
  k : Nat
  lastCe : Line
  lastClk : Line
  lastIo : Line
deriving DecidableEq, Repr

/-- One scripted answer of the responder: its status, and the level it gives where the event is IO_READ. -/
structure Answer where
  ok : Bool
  level : Bool
deriving DecidableEq, Repr

/-- An injected failure names ONE pin event (20_memory.md R86): the event number `pin` of the pin trace of one request.
`request` says which request that is: the number of the request among those accepted, both counted from 1. The counting of
requests is the model's own (log entry 3). -/
structure Injected where
  request : Nat
  pin : Nat
deriving DecidableEq, Repr

/-- Who answers the port events: the world (any answers at all, 60_exceptions.md R721), or the reference double with at
most one injected failure (20_memory.md R86). -/
inductive Responder where
  | world
  | double (failAt : Option Injected)
deriving DecidableEq, Repr

/-- The environment side: the responder, the world's answers still to come, the counter of the free values drawn so
far, how many requests were accepted, the pin position in the running request (20_memory.md R86), and the reference
double. -/
structure Env where
  responder : Responder
  answers : List Answer
  draws : Nat
  requests : Nat
  pins : Nat
  double : Double
deriving DecidableEq, Repr

/-- What the host does next: bind or unbind a capability (10_state.md R21), submit a request record (30_encoding.md
R110), or, the model's own, run the frame of one wire command (log entry 8). -/
inductive HostAct where
  | bind (c : Cap) (on : Bool)
  | request (bytes : List Byte)
  | command (bytes : List Byte)
deriving DecidableEq, Repr

/-- The machine's state. `S.req` is the view `State.req` of `pos`. -/
structure State where
  /-- `S.init_flag` (10_state.md R20). -/
  initFlag : Bool
  /-- `S.cap` (R21). -/
  caps : Caps
  /-- `S.ce`, `S.clk`, `S.io`, `S.io_dir` (R22). -/
  bus : Bus
  /-- The datapath registers (R24). -/
  dp : Datapath
  /-- `S.pos` (R27). -/
  pos : Pos
  /-- `S.status` (R26): none while no request has ended since the last acceptance. -/
  status : Option Status
  /-- `S.out` (R26). -/
  out : Out
  /-- The port trace of the running or the last request (00_scope.md R10 (a)). -/
  trace : List PortRecord
  /-- The host's acts still to come (log entry 9). -/
  inbox : List HostAct
  /-- The environment (00_scope.md R5 (b)). -/
  env : Env
deriving DecidableEq, Repr

/-- `S.req` (10_state.md R26): the accepted request while it runs. -/
def State.req (s : State) : Option Instr :=
  match s.pos with
  | .idle => none
  | .at r _ => some r

/-! ## Reset (10_state.md R45, 70_reset_and_hazards.md R800) -/

/-- No capability is bound (decision D25). -/
def Caps.unbound : Caps :=
  ⟨false, false, false, false, false, false, false, false, false, false, false, false, false⟩

/-- The datapath registers when no request runs: R24 says that none survives the end of a request; zeros and empty
lists stand for "no value" (log entry 15). -/
def Datapath.cleared : Datapath := ⟨0, 0, 0, 0, 0, 0, [], [], 0, 0⟩

/-- The bus shadow before the first frame: INIT_LINE_LEVELS (decision D25, log entry 5). -/
def Bus.initial : Bus := ⟨Config.initLine, Config.initLine, Config.initLine, Config.initDir⟩

/-- The double at power-on: every byte 0x00 (95_test_vectors.md section 0), idle, the lines at INIT_LINE_LEVELS. -/
def Double.initial : Double :=
  ⟨[], .idle, 0, 0, 0, 0, 0, Config.initLine, Config.initLine, Config.initLine⟩

/-- The environment at power-on: the world answers, and nothing is scripted (log entries 2, 3). -/
def Env.initial : Env := ⟨.world, [], 0, 0, 0, Double.initial⟩

/-- The state right after reset (10_state.md R45). -/
def State.reset : State :=
  { initFlag := false
    caps := Caps.unbound
    bus := Bus.initial
    dp := Datapath.cleared
    pos := .idle
    status := none
    out := .none
    trace := []
    inbox := []
    env := Env.initial }

/-! ## Why a step can stop -/

/-- The stuck states of the machine. -/
inductive Fault where
  /-- Raised by the host act `bind` when it would change a capability while `init_flag = 1`: such a change has no move
  in the model (decision D26; 93_implementation_defined.md U19). Safe. -/
  | rebindWhileInitialised
deriving DecidableEq, Repr

/-- What the model refuses. -/
inductive Refusal where
  /-- Raised by an arm of exec that has no meaning yet. Safe. -/
  | notModelled (mnemonic : String)
  /-- Raised by the fetch of a request record whose tag is none of R110 (30_encoding.md R120 (a)). Safe. -/
  | unknownTag (tag : Byte)
  /-- Raised by the fetch of a record that ends early, has bytes after its end, sets a reserved flag, or holds a u1 that
  is not one bit (R120 (b)). Safe. -/
  | illFormedRecord
  /-- Raised by a write request (and by the fetch of one) whose buffer is present and has not `n` bytes (R120 (b),
  decision D37). Safe. -/
  | bufferLengthMismatch
deriving DecidableEq, Repr

end Sys2Proof.Machine
end

