-- ==== Sys2Proof/Machine/Memory.lean ====
section
/-! DEFINITION. The target's memory as the reference double holds it (20_memory.md R60 (1), R67, R80, R83, R85):
`T.clk[0..30]` and `T.ram[0..30]`, a list of (address, byte) cells in one canonical form. -/

namespace Sys2Proof.Machine

/-- The address of a cell: its even command code, `0x80 | bank << 6 | idx << 1` as a number (R64, R67). -/
def cellAddr (bank : Bool) (idx : Nat) : Nat := 128 + (if bank then 64 else 0) + 2 * idx

/-- The addresses that exist: clock indices 0..30 and RAM slots 0..30 (R80). Index 31 is the burst alias (10_state.md
R42) and holds no byte of its own. -/
def isCell (a : Nat) : Bool :=
  a % 2 == 0 && ((128 ≤ a && a ≤ 188) || (192 ≤ a && a ≤ 252))

/-- What an address that is not listed reads as: every `T.clk[i]` and `T.ram[i]` starts at 0x00
(95_test_vectors.md section 0; log entry 3). -/
def unlistedByte : Byte := 0

/-- The byte at an address. -/
def Memory.read : List Host.Cell → Nat → Byte
  | [], _ => unlistedByte
  | (k, v) :: rest, a => if k = a then v else Memory.read rest a

/-- The list without the cell at `a`. -/
def Memory.erase : List Host.Cell → Nat → List Host.Cell
  | [], _ => []
  | (k, v) :: rest, a => if k = a then rest else (k, v) :: Memory.erase rest a

/-- The list with the cell at `a` holding `v`, addresses rising. -/
def Memory.insert : List Host.Cell → Nat → Byte → List Host.Cell
  | [], a, v => [(a, v)]
  | (k, w) :: rest, a, v =>
    if a < k then (a, v) :: (k, w) :: rest
    else if k = a then (a, v) :: rest
    else (k, w) :: Memory.insert rest a v

/-- Write a byte; writing what an unlisted address reads as removes the entry. -/
def Memory.write (m : List Host.Cell) (a : Nat) (v : Byte) : List Host.Cell :=
  if v = unlistedByte then Memory.erase m a else Memory.insert m a v

/-- The canonical form from address `lo` on: addresses strictly rising and existing, no entry equal to what an unlisted
address reads as. -/
def Memory.wfFrom (lo : Nat) : List Host.Cell → Bool
  | [] => true
  | (k, v) :: rest => lo ≤ k && isCell k && v != unlistedByte && Memory.wfFrom (k + 1) rest

/-- The canonical form. -/
def Memory.wf (m : List Host.Cell) : Bool := Memory.wfFrom 0 m

end Sys2Proof.Machine
end

