-- ==== Sys2Proof/Machine/Double.lean ====
section
/-! DEFINITION. The reference target double (20_memory.md R80 to R86): a test fixture (decision D28), one possible
responder, not the chip. -/

namespace Sys2Proof.Machine

/-- The level of a line as a shadow value. -/
def Line.ofLevel (l : Bool) : Line := if l then .high else .low

/-- The cell that data byte `j` of a frame with command `c` goes to or comes from (R83, R85): the named cell for the
first byte; byte `j` of the bank for the burst alias, clock indices 0..7 and RAM slots 0..30; none otherwise. -/
def dataCell (c : Byte) (j : Nat) : Option Nat :=
  if cmdIdx c = idxBurst then
    if cmdBank c then (if j ≤ 30 then some (cellAddr true j) else none)
    else (if j ≤ 7 then some (cellAddr false j) else none)
  else if j = 0 then some (cellAddr (cmdBank c) (cmdIdx c).toNat) else none

/-- Where the double goes when the command byte is complete (R82). -/
def Mode.ofCommand (c : Byte) : Mode :=
  if !cmdMarker c then .ignore else if !cmdRw c then .wdata else .rdata

/-- Write commit: data byte `j` of the frame, value `v` (R83). -/
def Double.commit (d : Double) (v : Byte) : Double :=
  match dataCell d.cmd d.j with
  | some a => { d with mem := Memory.write d.mem a v }
  | none => d

/-- A complete byte (R82): the command byte, or a data byte of a write frame. -/
def Double.complete (d : Double) (v : Byte) : Double :=
  match d.mode with
  | .cmd => { d with cmd := v, mode := Mode.ofCommand v }
  | .wdata => { d.commit v with j := d.j + 1 }
  | _ => d

/-- One bit latched: `T.shift <- (T.shift >> 1) | (lvl << 7)` (R82). -/
def shiftIn (r : Byte) (l : Bool) : Byte := (r >>> 1) ||| ((BitVec.ofBool l).setWidth 8 <<< 7)

/-- Latch a level; the eighth bit completes the byte (R82). -/
def Double.latch (d : Double) (l : Bool) : Double :=
  if d.nbits + 1 = 8 then { d with shift := shiftIn d.shift l, nbits := 0 }.complete (shiftIn d.shift l)
  else { d with shift := shiftIn d.shift l, nbits := d.nbits + 1 }

/-- What the double does on one event that it answers ok: the level it answers (for IO_READ), the double after it, and
whether the free value `draw` was used. -/
structure Observed where
  level : Bool
  double : Double
  drew : Bool

/-- The double does not answer with a level and draws nothing. -/
def Observed.plain (d : Double) : Observed := ⟨false, d, false⟩

/-- The level of the last IO_WRITE, a draw where none is known (log entry 4). -/
def Double.lastLevel (d : Double) (draw : Bool) : Bool :=
  match d.lastIo with
  | .low => false
  | .high => true
  | .x => draw

/-- CLK_WRITE(1) (R82): on a 0→1 edge in mode cmd or wdata the last IO_WRITE level is latched. A last level that is
unknown makes no edge (log entry 4). -/
def Double.clkHigh (d : Double) (draw : Bool) : Observed :=
  if d.lastClk = .low && (d.mode = .cmd || d.mode = .wdata) then
    ⟨false, { d.latch (d.lastLevel draw) with lastClk := .high }, d.lastIo = .x⟩
  else .plain { d with lastClk := .high }

/-- CE_WRITE(1) (R81): it opens a frame if the last CE level was 0, else the frame is confused. -/
def Double.ceHigh (d : Double) : Double :=
  if d.lastCe = .low then { d with mode := .cmd, nbits := 0, j := 0, k := 0, lastCe := .high }
  else { d with mode := .confused, lastCe := .high }

/-- IO_READ (R85): bit `k mod 8` of data byte `k div 8` in mode rdata, a draw elsewhere (log entry 4). -/
def Double.read (d : Double) (draw : Bool) : Observed :=
  if d.mode = .rdata then
    match dataCell d.cmd (d.k / 8) with
    | some a => ⟨(Memory.read d.mem a).getLsbD (d.k % 8), { d with k := d.k + 1 }, false⟩
    | none => ⟨draw, { d with k := d.k + 1 }, true⟩
  else ⟨draw, d, true⟩

/-- The double's response to an event it answers ok (R81, R82, R85). -/
def Double.observe (d : Double) (draw : Bool) : Event → Observed
  | .ceWrite true => .plain d.ceHigh
  | .ceWrite false => .plain { d with mode := .idle, lastCe := .low }
  | .clkWrite true => d.clkHigh draw
  | .clkWrite false => .plain { d with lastClk := .low }
  | .ioWrite l => .plain { d with lastIo := Line.ofLevel l }
  | .ioRead => d.read draw
  | .ceInit | .ceDeinit | .clkInit | .clkDeinit | .ioInit | .ioDeinit | .delayMs _ | .delayUs _ | .debugPrint => .plain d

end Sys2Proof.Machine
end

