-- ==== Sys2Proof/Machine/Ops.lean ====
section
/-! DEFINITION. The named operations every request is written with: one port event (10_state.md R22, 60_exceptions.md
R720, 41_bit_engine.md R200), `raise` (60_exceptions.md R704), the guard (R710), acceptance and the end of a request
(10_state.md R26, R27). -/

namespace Sys2Proof.Machine

/-! ## Events and answers -/

/-- The pin events: every port event but the delays and DEBUG_PRINT (00_scope.md R10). -/
def Event.isPin : Event → Bool
  | .delayMs _ | .delayUs _ | .debugPrint => false
  | .ceInit | .ceDeinit | .ceWrite _ | .clkInit | .clkDeinit | .clkWrite _ | .ioInit | .ioDeinit | .ioWrite _
  | .ioRead => true

/-- The capability an event uses (60_exceptions.md R720). -/
def Event.cap : Event → Cap
  | .ceInit => .ceInit
  | .ceDeinit => .ceDeinit
  | .ceWrite _ => .ceWrite
  | .clkInit => .clkInit
  | .clkDeinit => .clkDeinit
  | .clkWrite _ => .clkWrite
  | .ioInit => .ioInit
  | .ioDeinit => .ioDeinit
  | .ioWrite _ => .ioWrite
  | .ioRead => .ioRead
  | .delayMs _ => .delayMs
  | .delayUs _ => .delayUs
  | .debugPrint => .debugPrint

/-- An answer as the block sees it (60_exceptions.md R720): a level only from an IO_READ that is ok. -/
def Event.reply (e : Event) (a : Answer) : Reply :=
  if a.ok then
    match e with
    | .ioRead => .level a.level
    | _ => .ok
  else .fail

/-- The world's answer: the next scripted one, else free values (60_exceptions.md R721; log entry 2). -/
def Env.worldAnswer (v : Env) : Answer × Env :=
  match v.answers with
  | a :: rest => (a, { v with answers := rest })
  | [] => (⟨Config.freeOk v.draws, Config.freeLevel v.draws⟩, { v with draws := v.draws + 1 })

/-- The double's answer (20_memory.md R80, R86): fail at the one event the injected failure names, ok to every other. A
failed write leaves the line as the double last saw it (R86). A failed IO_READ leaves the double as it was too, `T.k`
included: R85 and R86 do not say, and this is the model's choice (log entry 4). -/
def Env.doubleAnswer (v : Env) (failAt : Option Injected) (e : Event) : Answer × Env :=
  if failAt = some ⟨v.requests, v.pins + 1⟩ then (⟨false, false⟩, v)
  else
    let o := v.double.observe (Config.freeLevel v.draws) e
    (⟨true, o.level⟩, { v with double := o.double, draws := if o.drew then v.draws + 1 else v.draws })

/-- The responder answers one pin event. -/
def Env.answer (v : Env) (e : Event) : Answer × Env :=
  match v.responder with
  | .world => v.worldAnswer
  | .double failAt => v.doubleAnswer failAt e

/-- The environment's response to any event: pin events are counted and answered, delays and debug prints have no
answer (decision D8). -/
def Env.respond (v : Env) (e : Event) : Reply × Env :=
  if e.isPin then (e.reply (v.answer e).1, { (v.answer e).2 with pins := v.pins + 1 })
  else (.none, v)

/-! ## One port event -/

/-- The bus shadow after an event (10_state.md R22): an ok write shows its level, a failed write shows X (decision
D10), every other event changes nothing. -/
def Bus.after (b : Bus) (e : Event) (r : Reply) : Bus :=
  match e with
  | .ceWrite l => { b with ce := if r = .fail then .x else Line.ofLevel l }
  | .clkWrite l => { b with clk := if r = .fail then .x else Line.ofLevel l }
  | .ioWrite l => { b with io := if r = .fail then .x else Line.ofLevel l, ioDir := if r = .fail then .x else .out }
  | .ioRead | .ceInit | .ceDeinit | .clkInit | .clkDeinit | .ioInit | .ioDeinit | .delayMs _ | .delayUs _
  | .debugPrint => b

/-- The internal release of the data line (41_bit_engine.md R204): no port event. -/
def Bus.released (b : Bus) : Bus := { b with io := .x, ioDir := .inp }

/-- The position after an event: `k <- k + 1` (10_state.md R27). -/
def Pos.advance : Pos → Pos
  | .idle => .idle
  | .at req k => .at req (k + 1)

/-- Issue one event: the responder answers, the trace and the position move on, the shadow follows the answer. -/
def State.issue (s : State) (e : Event) : State :=
  { s with
    env := (s.env.respond e).2
    bus := s.bus.after e (s.env.respond e).1
    trace := s.trace ++ [⟨e, (s.env.respond e).1⟩]
    pos := s.pos.advance }

/-- A piece of a request: it goes on with a value, or a `raise` ends the request with a status kind (00_scope.md R9). -/
abbrev Run (α : Type) := EStateM Status State α

/-- `Port(E)` (00_scope.md R9): issue the event and give its answer. -/
def port (e : Event) : Run Reply := fun s => .ok (s.env.respond e).1 (s.issue e)

/-- `raise K` (60_exceptions.md R704): the request ends with status K; nothing else happens here, and `finish` clears the
output. -/
def raise {α : Type} (k : Status) : Run α := fun s => .error k s

/-- What the abort of a failed transfer adds: nothing, for this block. With BUS_RECOVERY_ON_FAIL it would issue one
CE_WRITE(0) and ignore its answer (70_reset_and_hazards.md R806 (d)). -/
def busRecovery : Run Unit := do
  if Config.busRecoveryOnFail then
    let _ ← port (.ceWrite false)

/-- The engine port call `PortE(E)` (41_bit_engine.md R200): a failure raises TransferFailure at once; the value is the
level, where the event is IO_READ. -/
def portE (e : Event) : Run Bool := do
  match ← port e with
  | .fail =>
    busRecovery
    raise .transferFailure
  | .level l => return l
  | .ok | .none => return false

/-- The engine port call for an event whose answer carries nothing but its status. -/
def emit (e : Event) : Run Unit := do
  let _ ← portE e

/-- The port call of INIT and DEINIT (00_scope.md R9, 60_exceptions.md R707): a failure raises LifecycleFailure. -/
def portL (e : Event) : Run Unit := do
  match ← port e with
  | .fail => raise .lifecycleFailure
  | .ok | .level _ | .none => return ()

/-! ## Datapath and flag writes -/

/-- Write datapath registers (10_state.md R24). -/
def setDp (f : Datapath → Datapath) : Run Unit := fun s => .ok () { s with dp := f s.dp }

/-- Read the datapath registers. -/
def getDp : Run Datapath := fun s => .ok s.dp s

/-- RELEASE_IO (41_bit_engine.md R204). -/
def releaseIo : Run Unit := fun s => .ok () { s with bus := s.bus.released }

/-- `S.init_flag <- b` (10_state.md R20). -/
def setInitFlag (b : Bool) : Run Unit := fun s => .ok () { s with initFlag := b }

/-! ## The guard (60_exceptions.md R710) -/

/-- `if ¬c: raise K`. -/
def require (c : Bool) (k : Status) : Run Unit := if c then pure () else raise k

/-- `GUARD(ops)`: the handle, then `S.init_flag`, then each operand in order, by whether it is present. -/
def guard (handle : Bool) (ops : List Bool) : Run Unit := do
  require handle .nullArgument
  let s ← get
  require s.initFlag .notInitialized
  require (ops.all id) .nullArgument

/-! ## Acceptance and end of a request -/

/-- Accept a request (10_state.md R26, R27): it runs from event 0, with no status, no output and an empty trace; the
responder counts the request, and its pin events from 1 (20_memory.md R86). -/
def State.accept (s : State) (i : Instr) : State :=
  { s with
    pos := .at i 0
    status := none
    out := .none
    trace := []
    env := { s.env with requests := s.env.requests + 1, pins := 0 } }

/-- The end of a request (10_state.md R26; 60_exceptions.md R704, R706, R708): the status, the output (none unless
Success), no datapath register survives, and the block is idle. -/
def finish : EStateM.Result Status State Out → State
  | .ok o s => { s with pos := .idle, status := some .success, out := o, dp := Datapath.cleared }
  | .error k s => { s with pos := .idle, status := some k, out := .none, dp := Datapath.cleared }

/-- Run a request from acceptance to its status output (00_scope.md R5). Every status is a next state. -/
def runRequest (i : Instr) (body : Run Out) (s : State) : Host.Outcome State Fault Refusal :=
  .next (finish (body (s.accept i)))

/-- A request with a write buffer: an ill-formed buffer is refused (30_encoding.md R120 (b)), an absent one is not
ill-formed. -/
def runBuffered (i : Instr) (n : Byte) (wbuf : Option (List Byte)) (body : Run Out) (s : State) :
    Host.Outcome State Fault Refusal :=
  if bufferFits n wbuf then runRequest i body s else .refused .bufferLengthMismatch

/-! ## Capabilities (10_state.md R21) -/

/-- Whether a capability is bound. -/
def Caps.get (c : Caps) : Cap → Bool
  | .ceInit => c.ceInit
  | .ceDeinit => c.ceDeinit
  | .ceWrite => c.ceWrite
  | .clkInit => c.clkInit
  | .clkDeinit => c.clkDeinit
  | .clkWrite => c.clkWrite
  | .ioInit => c.ioInit
  | .ioDeinit => c.ioDeinit
  | .ioWrite => c.ioWrite
  | .ioRead => c.ioRead
  | .delayMs => c.delayMs
  | .delayUs => c.delayUs
  | .debugPrint => c.debugPrint

/-- Bind or unbind a capability. -/
def Caps.set (c : Caps) (x : Cap) (on : Bool) : Caps :=
  match x with
  | .ceInit => { c with ceInit := on }
  | .ceDeinit => { c with ceDeinit := on }
  | .ceWrite => { c with ceWrite := on }
  | .clkInit => { c with clkInit := on }
  | .clkDeinit => { c with clkDeinit := on }
  | .clkWrite => { c with clkWrite := on }
  | .ioInit => { c with ioInit := on }
  | .ioDeinit => { c with ioDeinit := on }
  | .ioWrite => { c with ioWrite := on }
  | .ioRead => { c with ioRead := on }
  | .delayMs => { c with delayMs := on }
  | .delayUs => { c with delayUs := on }
  | .debugPrint => { c with debugPrint := on }

/-- Every one of the 13 is bound. -/
def Caps.allBound (c : Caps) : Bool :=
  c.ceInit && c.ceDeinit && c.ceWrite && c.clkInit && c.clkDeinit && c.clkWrite && c.ioInit && c.ioDeinit && c.ioWrite
    && c.ioRead && c.delayMs && c.delayUs && c.debugPrint

/-- The host binds or unbinds a capability (10_state.md R21). A change while `init_flag = 1` has no move (decision D26,
93_implementation_defined.md U19). -/
def hostBind (c : Cap) (on : Bool) (s : State) : Host.Outcome State Fault Refusal :=
  if s.initFlag && s.caps.get c != on then .fault .rebindWhileInitialised
  else .next { s with caps := s.caps.set c on }

end Sys2Proof.Machine
end

