-- ==== Sys2Proof/Machine/Operands.lean ====
section
/-! DEFINITION. Operand forms (30_encoding.md R111): named commands (R104), stepped addresses (42_register_access.md
R301), the range checks on lengths and RAM addresses (20_memory.md R68). -/

namespace Sys2Proof.Machine

/-! ## Parameters (00_scope.md R6) -/

/-- RAM_MAX_ADDR. -/
def ramMaxAddr : Nat := 30

/-- CLOCK_BURST_MAX. -/
def clockBurstMax : Nat := 8

/-- RAM_BURST_MAX. -/
def ramBurstMax : Nat := 31

/-- TIME_READ_LEN. -/
def timeReadLen : Byte := 7

/-- DELAY_US_ARG (decision D6). -/
def delayUsArg : Nat := 1

/-! ## Named commands (30_encoding.md R103, R104) -/

/-- The write command of a clock-bank register. -/
def clockWrite (idx : BitVec 5) : Byte := cmdByte false idx false

/-- The read command of a clock-bank register. -/
def clockRead (idx : BitVec 5) : Byte := cmdByte false idx true

/-- The clock burst command in write form, 0xBE (R103). -/
def clockBurstCmd : Byte := cmdByte false idxBurst false

/-- The RAM burst command in write form, 0xFE (R103). -/
def ramBurstCmd : Byte := cmdByte true idxBurst false

/-- The start of a RAM transfer, `0xC0 + 2·addr` (R102), formed after the bounds check. -/
def ramStart (addr : Byte) : Byte := BitVec.ofNat 8 (0xC0 + 2 * addr.toNat)

/-! ## Stepped addresses (42_register_access.md R301) -/

/-- `AW(start, i) = trunc8(start + 2·i)`. -/
def aw (start : Byte) (i : Nat) : Byte := BitVec.ofNat 8 (start.toNat + 2 * i)

/-- The read selector or-ed in (R301, R305). -/
def withRead (c : Byte) : Byte := c ||| 0x01#8

/-- `AR(start, i) = trunc8(start + 2·i) | 0x01`. -/
def ar (start : Byte) (i : Nat) : Byte := withRead (aw start i)

/-! ## Range checks (20_memory.md R68) -/

/-- "address ≤30 and address+length−1 ≤30", in unbounded integers (44_chip_control.md R506, decision D23). -/
def ramInBounds (addr n : Byte) : Bool :=
  decide ((addr.toNat : Int) ≤ ramMaxAddr) && decide ((addr.toNat : Int) + (n.toNat : Int) - 1 ≤ ramMaxAddr)

/-- A burst length within its maximum (60_exceptions.md R703 (c)). -/
def lengthAtMost (n : Byte) (max : Nat) : Bool := decide (n.toNat ≤ max)

end Sys2Proof.Machine
end

