-- ==== Sys2Proof/Machine/Flags.lean ====
section
/-! DEFINITION. The single-bit results and the bits the read-modify-writes change (44_chip_control.md). The block has
no condition codes (10_state.md R28). -/

namespace Sys2Proof.Machine

/-- Bit 7 cleared: `old & 0x7F`. -/
def clearBit7 (b : Byte) : Byte := b &&& 0x7F#8

/-- Bit 7 set: `old | 0x80`. -/
def setBit7 (b : Byte) : Byte := b ||| 0x80#8

/-- SET_OSCILLATOR's new second register: bit 7 cleared to run, set to halt (R500, inverted sense). -/
def oscillatorByte (en : Bool) (old : Byte) : Byte := if en then clearBit7 old else setBit7 old

/-- GET_OSCILLATOR: `1 − v[7]` (R501). -/
def oscillatorEnabled (v : Byte) : Bool := !v.getLsbD 7

/-- SET_WRITE_PROTECT's new control register: bit 7 set to protect (R502, decision D29). -/
def writeProtectByte (en : Bool) (old : Byte) : Byte := if en then setBit7 old else clearBit7 old

/-- GET_WRITE_PROTECT: `v[7]` (R503). -/
def writeProtectEnabled (v : Byte) : Bool := v.getLsbD 7

end Sys2Proof.Machine
end

