-- ==== Sys2Proof/Machine/Codec.lean ====
section
/-! DEFINITION. The BCD encoder/decoder and the time codec (43_bcd_codec.md R400 to R408): combinational, no event, no
state. Results are computed exactly and narrowed at the end (R408). -/

namespace Sys2Proof.Machine

/-- HEX_TO_BCD: `trunc8(((v div 10) << 4) | (v mod 10))` (R400). -/
def hexToBcd (v : Byte) : Byte := BitVec.ofNat 8 (((v.toNat / 10) <<< 4) ||| (v.toNat % 10))

/-- BCD_TO_HEX: `(v >> 4) * 10 + (v & 0x0F)` (R401). -/
def bcdToHex (v : Byte) : Byte := BitVec.ofNat 8 ((v.toNat >>> 4) * 10 + (v.toNat &&& 0x0F))

/-- FORMAT_CODE H24 (decision D17). -/
def formatH24 : Byte := 0x00

/-- FORMAT_CODE H12 (decision D17). -/
def formatH12 : Byte := 0x01

/-- YEAR_BASE (00_scope.md R6). -/
def yearBase : Nat := 2000

/-- The greatest year a write accepts (00_scope.md R6). -/
def yearMax : Nat := 2100

/-- `lo ≤ v ≤ hi`. -/
def inRange (lo v hi : Nat) : Bool := decide (lo ≤ v) && decide (v ≤ hi)

/-- The hour's range depends on the format (R402). -/
def hourValid (format hour : Byte) : Bool :=
  if format = formatH12 then inRange 1 hour.toNat 12 else inRange 0 hour.toNat 23

/-- TIME_VALIDATE (R402). -/
def timeValidate (r : TimeRecord) : Status :=
  if !(r.format == formatH12 || r.format == formatH24) then .invalidArgument
  else if !inRange yearBase r.year.toNat yearMax then .invalidArgument
  else if !inRange 1 r.month.toNat 12 then .invalidArgument
  else if !inRange 1 r.week.toNat 7 then .invalidArgument
  else if !inRange 1 r.date.toNat 31 then .invalidArgument
  else if !hourValid r.format r.hour then .invalidArgument
  else if !(inRange 0 r.minute.toNat 59 && inRange 0 r.second.toNat 59) then .invalidArgument
  else .success

/-- HOUR_ENC (R403): H12 sets bit 7 and puts AM/PM in bit 5; H24 clears bit 7 and does not use AM/PM. For a format code
that is neither the spec gives no value: it is free (log entry 20). -/
def hourEnc (format : Byte) (amPm : Bool) (hour : Byte) : Byte :=
  if format = formatH12 then 0x80#8 ||| ((BitVec.ofBool amPm).setWidth 8 <<< 5) ||| hexToBcd hour
  else if format = formatH24 then hexToBcd hour &&& 0x7F#8
  else Config.hourEncOther format amPm hour

/-- The year byte: `HEX_TO_BCD((year − 2000) mod 256)` (R404). -/
def yearByte (year : Half) : Byte := hexToBcd (BitVec.ofInt 8 ((year.toNat : Int) - yearBase))

/-- TIME_ENCODE (R404): the seven writes of SET_TIME, in the source's order. -/
def timeEncode (r : TimeRecord) (old : Byte) : List (Byte × Byte) :=
  [(clockWrite idxSecond, (old &&& 0x80#8) ||| hexToBcd r.second),
   (clockWrite idxMinute, hexToBcd r.minute),
   (clockWrite idxHour, hourEnc r.format r.amPm r.hour),
   (clockWrite idxWeek, hexToBcd r.week),
   (clockWrite idxDate, hexToBcd r.date),
   (clockWrite idxMonth, hexToBcd r.month),
   (clockWrite idxYear, yearByte r.year)]

/-- The format an hour register holds: bit 7 (R406). -/
def hourFormat (h : Byte) : Byte := if h.getLsbD 7 then formatH12 else formatH24

/-- TIME_DECODE (R406), with the decode masks of decision D16. Nothing is validated. -/
def timeDecode (b : TimeBytes) : TimeRecord :=
  { year := BitVec.ofNat 16 (yearBase + (bcdToHex b.year).toNat)
    month := bcdToHex (b.month &&& 0x1F#8)
    week := bcdToHex (b.week &&& 0x07#8)
    date := bcdToHex (b.date &&& 0x3F#8)
    hour := bcdToHex (b.hour &&& (if b.hour.getLsbD 7 then 0x1F#8 else 0x3F#8))
    minute := bcdToHex (b.minute &&& 0x7F#8)
    second := bcdToHex (b.second &&& 0x7F#8)
    format := hourFormat b.hour
    amPm := b.hour.getLsbD 5 }

/-- The seven bytes of the multi-read, in address order. -/
def timeBytesOf (l : List Byte) : TimeBytes :=
  ⟨l.getD 0 0, l.getD 1 0, l.getD 2 0, l.getD 3 0, l.getD 4 0, l.getD 5 0, l.getD 6 0⟩

/-! ## The codec requests (no guard, no event, decision D40) -/

/-- HEX_TO_BCD v (R400). -/
def execHexToBcd (v : Byte) (s : State) : Host.Outcome State Fault Refusal :=
  runRequest (.hexToBcd v) (pure (.byte (hexToBcd v))) s

/-- BCD_TO_HEX v (R401). -/
def execBcdToHex (v : Byte) (s : State) : Host.Outcome State Fault Refusal :=
  runRequest (.bcdToHex v) (pure (.byte (bcdToHex v))) s

/-- TIME_VALIDATE rec (R402): the result is a value, and the request itself ends with Success (60_exceptions.md R709;
log entry 24). -/
def execTimeValidate (r : TimeRecord) (s : State) : Host.Outcome State Fault Refusal :=
  runRequest (.timeValidate r) (pure (.kind (timeValidate r))) s

/-- TIME_ENCODE rec, old (R404). -/
def execTimeEncode (r : TimeRecord) (old : Byte) (s : State) : Host.Outcome State Fault Refusal :=
  runRequest (.timeEncode r old) (pure (.pairs (timeEncode r old))) s

/-- TIME_DECODE b (R406). -/
def execTimeDecode (b : TimeBytes) (s : State) : Host.Outcome State Fault Refusal :=
  runRequest (.timeDecode b) (pure (.record (timeDecode b))) s

end Sys2Proof.Machine
end

