-- ==== Sys2Proof/Machine/Engine.lean ====
section
/-! DEFINITION. The Bit Transfer Engine (41_bit_engine.md). -/

namespace Sys2Proof.Machine

/-! ## Building blocks (R201 to R208) -/

/-- `DELAY_US(1)`: it has no status and cannot fail (decision D8). -/
def delay : Run Unit := emit (.delayUs delayUsArg)

/-- FRAME_OPEN (R201). -/
def frameOpen : Run Unit := emit (.ceWrite true)

/-- The clock pulse of a slot: high, then low, with a delay after each phase (30_encoding.md R105). -/
def clockPulse : Run Unit := do
  emit (.clkWrite true)
  delay
  emit (.clkWrite false)
  delay

/-- SHIFT_OUT_BIT(b) (R202). -/
def shiftOutBit (b : Bool) : Run Unit := do
  emit (.ioWrite b)
  delay
  clockPulse

/-- The bit loop of SHIFT_OUT_BYTE with `k` bits to go (R203). -/
def shiftOutBits : Nat → Run Unit
  | 0 => setDp fun d => { d with bitI := 8 }
  | k + 1 => do
    setDp fun d => { d with bitI := 8 - (k + 1) }
    let d ← getDp
    shiftOutBit (d.sr.getLsbD 0)
    setDp fun d => { d with sr := d.sr >>> 1 }
    shiftOutBits k

/-- SHIFT_OUT_BYTE(x), least significant bit first (R203). -/
def shiftOutByte (x : Byte) : Run Unit := do
  setDp fun d => { d with sr := x }
  shiftOutBits 8

/-- SHIFT_IN_BIT (R205): the sampled level enters bit 7 of the accumulator. -/
def shiftInBit : Run Unit := do
  let lvl ← portE .ioRead
  setDp fun d => { d with acc := shiftIn d.acc lvl }
  clockPulse

/-- The bit loop of SHIFT_IN_BYTE with `k` bits to go (R206). -/
def shiftInBits : Nat → Run Unit
  | 0 => setDp fun d => { d with bitI := 8 }
  | k + 1 => do
    setDp fun d => { d with bitI := 8 - (k + 1) }
    shiftInBit
    shiftInBits k

/-- SHIFT_IN_BYTE (R206). -/
def shiftInByte : Run Byte := do
  setDp fun d => { d with acc := 0 }
  shiftInBits 8
  let d ← getDp
  return d.acc

/-- WRITE_CLOSE (R207). -/
def writeClose : Run Unit := do
  emit (.ioWrite false)
  emit (.ceWrite false)

/-- READ_CLOSE (R208). -/
def readClose : Run Unit := emit (.ceWrite false)

/-- The command phase of every frame: the command register is loaded and shifted out (10_state.md R24). -/
def sendCommand (c : Byte) : Run Unit := do
  setDp fun d => { d with cmd := c }
  frameOpen
  let d ← getDp
  shiftOutByte d.cmd

/-! ## The two engine operations (R209, R210) -/

/-- ENG_WRITE_BYTE(c, v) (R209). -/
def engWriteByte (c v : Byte) : Run Unit := do
  sendCommand c
  shiftOutByte v
  writeClose

/-- ENG_READ_BYTE(c) (R210). -/
def engReadByte (c : Byte) : Run Byte := do
  sendCommand c
  releaseIo
  let r ← shiftInByte
  readClose
  return r

/-- ENG_WRITE_BYTE c, v: no guard (R209, R216). -/
def execEngWriteByte (c v : Byte) (s : State) : Host.Outcome State Fault Refusal :=
  runRequest (.engWriteByte c v) (do engWriteByte c v; return .none) s

/-- ENG_READ_BYTE c: no guard (R210, R216). -/
def execEngReadByte (c : Byte) (s : State) : Host.Outcome State Fault Refusal :=
  runRequest (.engReadByte c) (do let v ← engReadByte c; return .byte v) s

end Sys2Proof.Machine
end

