-- ==== Sys2Proof/Machine/Registers.lean ====
section
/-! DEFINITION. The Register Access Layer (42_register_access.md). -/

namespace Sys2Proof.Machine

/-- Load the length and the write buffer of a request (10_state.md R24, R44). -/
def loadBuffer (n : Byte) (wbuf : List Byte) : Run Unit := setDp fun d => { d with n := n, wbuf := wbuf }

/-- Load the length of a read and empty the read buffer. -/
def loadLength (n : Byte) : Run Unit := setDp fun d => { d with n := n, rbuf := [] }

/-- Write `byte_i`. -/
def setByteI (i : Nat) : Run Unit := setDp fun d => { d with byteI := i }

/-- Write `rbuf`. -/
def setRbuf (l : List Byte) : Run Unit := setDp fun d => { d with rbuf := l }

/-! ## Multiple transfers (R302, R303) -/

/-- The byte loop of REG_WRITE_MULTIPLE from byte `i` on. -/
def writeFrames (start : Byte) (i : Nat) : List Byte → Run Unit
  | [] => pure ()
  | v :: vs => do
    setByteI i
    engWriteByte (aw start i) v
    writeFrames start (i + 1) vs

/-- REG_WRITE_MULTIPLE(start, n, wbuf) (R302). -/
def regWriteMultiple (start n : Byte) (wbuf : List Byte) : Run Unit := do
  loadBuffer n wbuf
  let d ← getDp
  writeFrames start 0 d.wbuf

/-- The byte loop of REG_READ_MULTIPLE from byte `i` on, `k` bytes to go, `rbuf` read so far. -/
def readFrames (start : Byte) (i : Nat) (rbuf : List Byte) : Nat → Run (List Byte)
  | 0 => return rbuf
  | k + 1 => do
    setByteI i
    let r ← engReadByte (ar start i)
    setRbuf (rbuf ++ [r])
    readFrames start (i + 1) (rbuf ++ [r]) k

/-- REG_READ_MULTIPLE(start, n) (R303). -/
def regReadMultiple (start n : Byte) : Run (List Byte) := do
  loadLength n
  let d ← getDp
  readFrames start 0 [] d.n.toNat

/-! ## Burst transfers (R304, R305) -/

/-- The byte loop of REG_BURST_WRITE from byte `i` on. -/
def shiftOutBytes (i : Nat) : List Byte → Run Unit
  | [] => pure ()
  | v :: vs => do
    setByteI i
    shiftOutByte v
    shiftOutBytes (i + 1) vs

/-- REG_BURST_WRITE(bc, n, wbuf) (R304). -/
def regBurstWrite (bc n : Byte) (wbuf : List Byte) : Run Unit := do
  loadBuffer n wbuf
  sendCommand bc
  let d ← getDp
  shiftOutBytes 0 d.wbuf
  writeClose

/-- The byte loop of REG_BURST_READ from byte `i` on, `k` bytes to go, `rbuf` read so far. -/
def shiftInBytes (i : Nat) (rbuf : List Byte) : Nat → Run (List Byte)
  | 0 => return rbuf
  | k + 1 => do
    setByteI i
    let r ← shiftInByte
    setRbuf (rbuf ++ [r])
    shiftInBytes (i + 1) (rbuf ++ [r]) k

/-- REG_BURST_READ(bc, n) (R305): it sends `bc | 0x01` (decision D5). -/
def regBurstRead (bc n : Byte) : Run (List Byte) := do
  loadLength n
  sendCommand (withRead bc)
  releaseIo
  let d ← getDp
  let r ← shiftInBytes 0 [] d.n.toNat
  readClose
  return r

/-! ## The internal requests -/

/-- REG_WRITE_MULTIPLE start, n, wbuf (R302). -/
def execRegWriteMultiple (start n : Byte) (wbuf : List Byte) (s : State) : Host.Outcome State Fault Refusal :=
  runBuffered (.regWriteMultiple start n wbuf) n (some wbuf) (do regWriteMultiple start n wbuf; return .none) s

/-- REG_READ_MULTIPLE start, n (R303). -/
def execRegReadMultiple (start n : Byte) (s : State) : Host.Outcome State Fault Refusal :=
  runRequest (.regReadMultiple start n) (do let r ← regReadMultiple start n; return .bytes r) s

/-- REG_BURST_WRITE bc, n, wbuf (R304). -/
def execRegBurstWrite (bc n : Byte) (wbuf : List Byte) (s : State) : Host.Outcome State Fault Refusal :=
  runBuffered (.regBurstWrite bc n wbuf) n (some wbuf) (do regBurstWrite bc n wbuf; return .none) s

/-- REG_BURST_READ bc, n (R305). -/
def execRegBurstRead (bc n : Byte) (s : State) : Host.Outcome State Fault Refusal :=
  runRequest (.regBurstRead bc n) (do let r ← regBurstRead bc n; return .bytes r) s

/-! ## The public wrappers (R306 to R311) -/

/-- CLOCK_BURST_WRITE n, wbuf (R306). -/
def execClockBurstWrite (handle : Bool) (n : Byte) (wbuf : Option (List Byte)) (s : State) :
    Host.Outcome State Fault Refusal :=
  runBuffered (.clockBurstWrite handle n wbuf) n wbuf (do
    guard handle [wbuf.isSome]
    require (lengthAtMost n clockBurstMax) .invalidArgument
    regBurstWrite clockBurstCmd n (wbuf.getD [])
    return .none) s

/-- CLOCK_BURST_READ n (R307). -/
def execClockBurstRead (handle slot : Bool) (n : Byte) (s : State) : Host.Outcome State Fault Refusal :=
  runRequest (.clockBurstRead handle slot n) (do
    guard handle [slot]
    require (lengthAtMost n clockBurstMax) .invalidArgument
    let r ← regBurstRead clockBurstCmd n
    return .bytes r) s

/-- RAM_BURST_WRITE n, wbuf (R308). -/
def execRamBurstWrite (handle : Bool) (n : Byte) (wbuf : Option (List Byte)) (s : State) :
    Host.Outcome State Fault Refusal :=
  runBuffered (.ramBurstWrite handle n wbuf) n wbuf (do
    guard handle [wbuf.isSome]
    require (lengthAtMost n ramBurstMax) .invalidArgument
    regBurstWrite ramBurstCmd n (wbuf.getD [])
    return .none) s

/-- RAM_BURST_READ n (R309). -/
def execRamBurstRead (handle slot : Bool) (n : Byte) (s : State) : Host.Outcome State Fault Refusal :=
  runRequest (.ramBurstRead handle slot n) (do
    guard handle [slot]
    require (lengthAtMost n ramBurstMax) .invalidArgument
    let r ← regBurstRead ramBurstCmd n
    return .bytes r) s

/-- SET_REG reg, n, wbuf: no range check (R310, decision D33). -/
def execSetReg (handle : Bool) (reg n : Byte) (wbuf : Option (List Byte)) (s : State) :
    Host.Outcome State Fault Refusal :=
  runBuffered (.setReg handle reg n wbuf) n wbuf (do
    guard handle [wbuf.isSome]
    regWriteMultiple reg n (wbuf.getD [])
    return .none) s

/-- GET_REG reg, n: no range check (R311, decision D33). -/
def execGetReg (handle slot : Bool) (reg n : Byte) (s : State) : Host.Outcome State Fault Refusal :=
  runRequest (.getReg handle slot reg n) (do
    guard handle [slot]
    let r ← regReadMultiple reg n
    return .bytes r) s

end Sys2Proof.Machine
end

