-- ==== Sys2Proof/Machine/Control.lean ====
section
/-! DEFINITION. The chip control requests (44_chip_control.md R500 to R507). -/

namespace Sys2Proof.Machine

/-- A read-modify-write of a clock-bank register: one read frame, then always one write frame (R500, R502, decision
D30). -/
def readModifyWrite (idx : BitVec 5) (f : Byte → Byte) : Run Unit := do
  let v ← engReadByte (clockRead idx)
  setDp fun d => { d with old := v }
  let d ← getDp
  engWriteByte (clockWrite idx) (f d.old)

/-- SET_OSCILLATOR en (R500). -/
def execSetOscillator (handle en : Bool) (s : State) : Host.Outcome State Fault Refusal :=
  runRequest (.setOscillator handle en) (do
    guard handle []
    readModifyWrite idxSecond (oscillatorByte en)
    return .none) s

/-- GET_OSCILLATOR (R501). -/
def execGetOscillator (handle slot : Bool) (s : State) : Host.Outcome State Fault Refusal :=
  runRequest (.getOscillator handle slot) (do
    guard handle [slot]
    let v ← engReadByte (clockRead idxSecond)
    return .bit (oscillatorEnabled v)) s

/-- SET_WRITE_PROTECT en (R502). -/
def execSetWriteProtect (handle en : Bool) (s : State) : Host.Outcome State Fault Refusal :=
  runRequest (.setWriteProtect handle en) (do
    guard handle []
    readModifyWrite idxControl (writeProtectByte en)
    return .none) s

/-- GET_WRITE_PROTECT (R503). -/
def execGetWriteProtect (handle slot : Bool) (s : State) : Host.Outcome State Fault Refusal :=
  runRequest (.getWriteProtect handle slot) (do
    guard handle [slot]
    let v ← engReadByte (clockRead idxControl)
    return .bit (writeProtectEnabled v)) s

/-- SET_CHARGE v (R504). -/
def execSetCharge (handle : Bool) (v : Byte) (s : State) : Host.Outcome State Fault Refusal :=
  runRequest (.setCharge handle v) (do
    guard handle []
    engWriteByte (clockWrite idxCharge) v
    return .none) s

/-- GET_CHARGE (R505). -/
def execGetCharge (handle slot : Bool) (s : State) : Host.Outcome State Fault Refusal :=
  runRequest (.getCharge handle slot) (do
    guard handle [slot]
    let v ← engReadByte (clockRead idxCharge)
    return .byte v) s

/-- WRITE_RAM addr, n, wbuf (R506). -/
def execWriteRam (handle : Bool) (addr n : Byte) (wbuf : Option (List Byte)) (s : State) :
    Host.Outcome State Fault Refusal :=
  runBuffered (.writeRam handle addr n wbuf) n wbuf (do
    guard handle [wbuf.isSome]
    require (ramInBounds addr n) .invalidArgument
    regWriteMultiple (ramStart addr) n (wbuf.getD [])
    return .none) s

/-- READ_RAM addr, n (R507). -/
def execReadRam (handle slot : Bool) (addr n : Byte) (s : State) : Host.Outcome State Fault Refusal :=
  runRequest (.readRam handle slot addr n) (do
    guard handle [slot]
    require (ramInBounds addr n) .invalidArgument
    let r ← regReadMultiple (ramStart addr) n
    return .bytes r) s

end Sys2Proof.Machine
end

