-- ==== Sys2Proof/Machine/Lifecycle.lean ====
section
/-! DEFINITION. The lifecycle requests (45_lifecycle.md R600 to R602). -/

namespace Sys2Proof.Machine

/-- Write `up_count` (10_state.md R24). -/
def setUpCount (k : Nat) : Run Unit := setDp fun d => { d with upCount := k }

/-- INIT's rollback: the lines already brought up, in reverse; the answers are ignored (R600, decision D24). -/
def rollback : Nat → Run Unit
  | 0 => pure ()
  | 1 => do
    let _ ← port .ceDeinit
  | _ + 2 => do
    let _ ← port .clkDeinit
    let _ ← port .ceDeinit

/-- Bring one line up; on failure roll back what `up_count` says is up, and report LifecycleFailure (R600). -/
def bringUp (e : Event) : Run Unit := do
  match ← port e with
  | .fail =>
    let d ← getDp
    rollback d.upCount
    raise .lifecycleFailure
  | .ok | .level _ | .none => return ()

/-- INIT (R600). -/
def execInit (handle : Bool) (s : State) : Host.Outcome State Fault Refusal :=
  runRequest (.init handle) (do
    require handle .nullArgument
    let s ← get
    require s.caps.allBound .lifecycleFailure
    setUpCount 0
    bringUp .ceInit
    setUpCount 1
    bringUp .clkInit
    setUpCount 2
    bringUp .ioInit
    setUpCount 3
    setInitFlag true
    return .none) s

/-- DEINIT (R601). -/
def execDeinit (handle : Bool) (s : State) : Host.Outcome State Fault Refusal :=
  runRequest (.deinit handle) (do
    guard handle []
    portL .ceDeinit
    portL .clkDeinit
    portL .ioDeinit
    setInitFlag false
    return .none) s

end Sys2Proof.Machine
end

