-- ==== Sys2Proof/Machine/Time.lean ====
section
/-! DEFINITION. The public time requests (43_bcd_codec.md R411, R412). -/

namespace Sys2Proof.Machine

/-- The write loop of SET_TIME over the (command, byte) pairs of TIME_ENCODE. -/
def writePairs : List (Byte × Byte) → Run Unit
  | [] => pure ()
  | (c, v) :: rest => do
    engWriteByte c v
    writePairs rest

/-- The transfers of SET_TIME: read the second register, then write the seven pairs. -/
def setTimeFrames (r : TimeRecord) : Run Unit := do
  let v ← engReadByte (clockRead idxSecond)
  setDp fun d => { d with old := v }
  let d ← getDp
  writePairs (timeEncode r d.old)

/-- SET_TIME rec (R411). -/
def execSetTime (handle : Bool) (rec : Option TimeRecord) (s : State) : Host.Outcome State Fault Refusal :=
  runRequest (.setTime handle rec) (do
    guard handle [rec.isSome]
    match rec with
    | some r =>
      require (timeValidate r == .success) .invalidArgument
      setTimeFrames r
      return .none
    | none => raise .nullArgument) s

/-- GET_TIME (R412). -/
def execGetTime (handle slot : Bool) (s : State) : Host.Outcome State Fault Refusal :=
  runRequest (.getTime handle slot) (do
    guard handle [slot]
    let b ← regReadMultiple (clockWrite idxSecond) timeReadLen
    return .record (timeDecode (timeBytesOf b))) s

end Sys2Proof.Machine
end

