-- ==== Sys2Proof/Machine/Wire.lean ====
section
/-! DEFINITION. The wire rows of the opcode table (format CMD8, 30_encoding.md R100 to R106, R120): each runs the frame
its command byte heads, with no guard (log entry 8). -/

namespace Sys2Proof.Machine

/-- A single write frame (R106). -/
def wireWrite (i : Instr) (c v : Byte) (s : State) : Host.Outcome State Fault Refusal :=
  runRequest i (do engWriteByte c v; return .none) s

/-- A single read frame (R106). -/
def wireRead (i : Instr) (c : Byte) (s : State) : Host.Outcome State Fault Refusal :=
  runRequest i (do let v ← engReadByte c; return .byte v) s

/-- A burst write frame (R106). -/
def wireBurstWrite (i : Instr) (bc n : Byte) (wbuf : List Byte) (s : State) : Host.Outcome State Fault Refusal :=
  runBuffered i n (some wbuf) (do regBurstWrite bc n wbuf; return .none) s

/-- A burst read frame (R106). -/
def wireBurstRead (i : Instr) (bc n : Byte) (s : State) : Host.Outcome State Fault Refusal :=
  runRequest i (do let r ← regBurstRead bc n; return .bytes r) s

/-- CMD_WR_SECOND: the write frame of command 0x80 (R104). -/
def execCmdWrSecond (v : Byte) (s : State) : Host.Outcome State Fault Refusal :=
  wireWrite (.cmdWrSecond v) (clockWrite idxSecond) v s

/-- CMD_RD_SECOND: the read frame of command 0x81 (R104). -/
def execCmdRdSecond (s : State) : Host.Outcome State Fault Refusal :=
  wireRead .cmdRdSecond (clockRead idxSecond) s

/-- CMD_WR_MINUTE: the write frame of command 0x82 (R104). -/
def execCmdWrMinute (v : Byte) (s : State) : Host.Outcome State Fault Refusal :=
  wireWrite (.cmdWrMinute v) (clockWrite idxMinute) v s

/-- CMD_RD_MINUTE: the read frame of command 0x83 (R104). -/
def execCmdRdMinute (s : State) : Host.Outcome State Fault Refusal :=
  wireRead .cmdRdMinute (clockRead idxMinute) s

/-- CMD_WR_HOUR: the write frame of command 0x84 (R104). -/
def execCmdWrHour (v : Byte) (s : State) : Host.Outcome State Fault Refusal :=
  wireWrite (.cmdWrHour v) (clockWrite idxHour) v s

/-- CMD_RD_HOUR: the read frame of command 0x85 (R104). -/
def execCmdRdHour (s : State) : Host.Outcome State Fault Refusal :=
  wireRead .cmdRdHour (clockRead idxHour) s

/-- CMD_WR_DATE: the write frame of command 0x86 (R104). -/
def execCmdWrDate (v : Byte) (s : State) : Host.Outcome State Fault Refusal :=
  wireWrite (.cmdWrDate v) (clockWrite idxDate) v s

/-- CMD_RD_DATE: the read frame of command 0x87 (R104). -/
def execCmdRdDate (s : State) : Host.Outcome State Fault Refusal :=
  wireRead .cmdRdDate (clockRead idxDate) s

/-- CMD_WR_MONTH: the write frame of command 0x88 (R104). -/
def execCmdWrMonth (v : Byte) (s : State) : Host.Outcome State Fault Refusal :=
  wireWrite (.cmdWrMonth v) (clockWrite idxMonth) v s

/-- CMD_RD_MONTH: the read frame of command 0x89 (R104). -/
def execCmdRdMonth (s : State) : Host.Outcome State Fault Refusal :=
  wireRead .cmdRdMonth (clockRead idxMonth) s

/-- CMD_WR_WEEK: the write frame of command 0x8A (R104). -/
def execCmdWrWeek (v : Byte) (s : State) : Host.Outcome State Fault Refusal :=
  wireWrite (.cmdWrWeek v) (clockWrite idxWeek) v s

/-- CMD_RD_WEEK: the read frame of command 0x8B (R104). -/
def execCmdRdWeek (s : State) : Host.Outcome State Fault Refusal :=
  wireRead .cmdRdWeek (clockRead idxWeek) s

/-- CMD_WR_YEAR: the write frame of command 0x8C (R104). -/
def execCmdWrYear (v : Byte) (s : State) : Host.Outcome State Fault Refusal :=
  wireWrite (.cmdWrYear v) (clockWrite idxYear) v s

/-- CMD_RD_YEAR: the read frame of command 0x8D (R104). -/
def execCmdRdYear (s : State) : Host.Outcome State Fault Refusal :=
  wireRead .cmdRdYear (clockRead idxYear) s

/-- CMD_WR_CONTROL: the write frame of command 0x8E (R104). -/
def execCmdWrControl (v : Byte) (s : State) : Host.Outcome State Fault Refusal :=
  wireWrite (.cmdWrControl v) (clockWrite idxControl) v s

/-- CMD_RD_CONTROL: the read frame of command 0x8F (R104). -/
def execCmdRdControl (s : State) : Host.Outcome State Fault Refusal :=
  wireRead .cmdRdControl (clockRead idxControl) s

/-- CMD_WR_CHARGE: the write frame of command 0x90 (R104). -/
def execCmdWrCharge (v : Byte) (s : State) : Host.Outcome State Fault Refusal :=
  wireWrite (.cmdWrCharge v) (clockWrite idxCharge) v s

/-- CMD_RD_CHARGE: the read frame of command 0x91 (R104). -/
def execCmdRdCharge (s : State) : Host.Outcome State Fault Refusal :=
  wireRead .cmdRdCharge (clockRead idxCharge) s

/-- CMD_WR_CLOCK_BURST: the burst write frame of command 0xBE (R103). -/
def execCmdWrClockBurst (n : Byte) (wbuf : List Byte) (s : State) : Host.Outcome State Fault Refusal :=
  wireBurstWrite (.cmdWrClockBurst n wbuf) clockBurstCmd n wbuf s

/-- CMD_RD_CLOCK_BURST: the burst read frame of command 0xBF (R103). -/
def execCmdRdClockBurst (n : Byte) (s : State) : Host.Outcome State Fault Refusal :=
  wireBurstRead (.cmdRdClockBurst n) clockBurstCmd n s

/-- CMD_WR_RAM_BURST: the burst write frame of command 0xFE (R103). -/
def execCmdWrRamBurst (n : Byte) (wbuf : List Byte) (s : State) : Host.Outcome State Fault Refusal :=
  wireBurstWrite (.cmdWrRamBurst n wbuf) ramBurstCmd n wbuf s

/-- CMD_RD_RAM_BURST: the burst read frame of command 0xFF (R103). -/
def execCmdRdRamBurst (n : Byte) (s : State) : Host.Outcome State Fault Refusal :=
  wireBurstRead (.cmdRdRamBurst n) ramBurstCmd n s

/-- CMD_WR_RAM_SLOT: the write frame of command 0xC0 + 2a (R102). -/
def execCmdWrRamSlot (a : BitVec 5) (v : Byte) (s : State) : Host.Outcome State Fault Refusal :=
  wireWrite (.cmdWrRamSlot a v) (cmdByte true a false) v s

/-- CMD_RD_RAM_SLOT: the read frame of command 0xC1 + 2a (R102). -/
def execCmdRdRamSlot (a : BitVec 5) (s : State) : Host.Outcome State Fault Refusal :=
  wireRead (.cmdRdRamSlot a) (cmdByte true a true) s

/-- CMD_WR_CLOCK_GENERIC: the write frame of an unnamed clock index (R101, R120 (d)). -/
def execCmdWrClockGeneric (idx : BitVec 5) (v : Byte) (s : State) : Host.Outcome State Fault Refusal :=
  wireWrite (.cmdWrClockGeneric idx v) (clockWrite idx) v s

/-- CMD_RD_CLOCK_GENERIC: the read frame of an unnamed clock index (R101, R120 (d)). -/
def execCmdRdClockGeneric (idx : BitVec 5) (s : State) : Host.Outcome State Fault Refusal :=
  wireRead (.cmdRdClockGeneric idx) (clockRead idx) s

/-- CMD_RESERVED_MARKER0: the block transmits the code like any other, in a write frame where a data byte is given, in a
read frame where none is (R120 (c), (e)). -/
def execCmdReservedMarker0 (low : BitVec 7) (data : Option Byte) (s : State) : Host.Outcome State Fault Refusal :=
  match data with
  | some v => wireWrite (.cmdReservedMarker0 low data) (low.setWidth 8) v s
  | none => wireRead (.cmdReservedMarker0 low data) (low.setWidth 8) s

end Sys2Proof.Machine
end

