-- ==== Sys2Proof/Machine/Dispatch.lean ====
section
/-! DEFINITION. The dispatch: one arm per constructor of Instr. -/

namespace Sys2Proof.Machine

def exec (i : Instr) (s : State) : Host.Outcome State Fault Refusal :=
  match i with
  | .init handle => Sys2Proof.Machine.execInit handle s
  | .deinit handle => Sys2Proof.Machine.execDeinit handle s
  | .setTime handle rec => Sys2Proof.Machine.execSetTime handle rec s
  | .getTime handle slot => Sys2Proof.Machine.execGetTime handle slot s
  | .setOscillator handle en => Sys2Proof.Machine.execSetOscillator handle en s
  | .getOscillator handle slot => Sys2Proof.Machine.execGetOscillator handle slot s
  | .setWriteProtect handle en => Sys2Proof.Machine.execSetWriteProtect handle en s
  | .getWriteProtect handle slot => Sys2Proof.Machine.execGetWriteProtect handle slot s
  | .setCharge handle v => Sys2Proof.Machine.execSetCharge handle v s
  | .getCharge handle slot => Sys2Proof.Machine.execGetCharge handle slot s
  | .writeRam handle addr n wbuf => Sys2Proof.Machine.execWriteRam handle addr n wbuf s
  | .readRam handle slot addr n => Sys2Proof.Machine.execReadRam handle slot addr n s
  | .clockBurstWrite handle n wbuf => Sys2Proof.Machine.execClockBurstWrite handle n wbuf s
  | .clockBurstRead handle slot n => Sys2Proof.Machine.execClockBurstRead handle slot n s
  | .ramBurstWrite handle n wbuf => Sys2Proof.Machine.execRamBurstWrite handle n wbuf s
  | .ramBurstRead handle slot n => Sys2Proof.Machine.execRamBurstRead handle slot n s
  | .setReg handle reg n wbuf => Sys2Proof.Machine.execSetReg handle reg n wbuf s
  | .getReg handle slot reg n => Sys2Proof.Machine.execGetReg handle slot reg n s
  | .engWriteByte c v => Sys2Proof.Machine.execEngWriteByte c v s
  | .engReadByte c => Sys2Proof.Machine.execEngReadByte c s
  | .regWriteMultiple start n wbuf => Sys2Proof.Machine.execRegWriteMultiple start n wbuf s
  | .regReadMultiple start n => Sys2Proof.Machine.execRegReadMultiple start n s
  | .regBurstWrite bc n wbuf => Sys2Proof.Machine.execRegBurstWrite bc n wbuf s
  | .regBurstRead bc n => Sys2Proof.Machine.execRegBurstRead bc n s
  | .hexToBcd v => Sys2Proof.Machine.execHexToBcd v s
  | .bcdToHex v => Sys2Proof.Machine.execBcdToHex v s
  | .timeValidate r => Sys2Proof.Machine.execTimeValidate r s
  | .timeEncode r old => Sys2Proof.Machine.execTimeEncode r old s
  | .timeDecode b => Sys2Proof.Machine.execTimeDecode b s
  | .cmdWrSecond v => Sys2Proof.Machine.execCmdWrSecond v s
  | .cmdRdSecond => Sys2Proof.Machine.execCmdRdSecond s
  | .cmdWrMinute v => Sys2Proof.Machine.execCmdWrMinute v s
  | .cmdRdMinute => Sys2Proof.Machine.execCmdRdMinute s
  | .cmdWrHour v => Sys2Proof.Machine.execCmdWrHour v s
  | .cmdRdHour => Sys2Proof.Machine.execCmdRdHour s
  | .cmdWrDate v => Sys2Proof.Machine.execCmdWrDate v s
  | .cmdRdDate => Sys2Proof.Machine.execCmdRdDate s
  | .cmdWrMonth v => Sys2Proof.Machine.execCmdWrMonth v s
  | .cmdRdMonth => Sys2Proof.Machine.execCmdRdMonth s
  | .cmdWrWeek v => Sys2Proof.Machine.execCmdWrWeek v s
  | .cmdRdWeek => Sys2Proof.Machine.execCmdRdWeek s
  | .cmdWrYear v => Sys2Proof.Machine.execCmdWrYear v s
  | .cmdRdYear => Sys2Proof.Machine.execCmdRdYear s
  | .cmdWrControl v => Sys2Proof.Machine.execCmdWrControl v s
  | .cmdRdControl => Sys2Proof.Machine.execCmdRdControl s
  | .cmdWrCharge v => Sys2Proof.Machine.execCmdWrCharge v s
  | .cmdRdCharge => Sys2Proof.Machine.execCmdRdCharge s
  | .cmdWrClockBurst n wbuf => Sys2Proof.Machine.execCmdWrClockBurst n wbuf s
  | .cmdRdClockBurst n => Sys2Proof.Machine.execCmdRdClockBurst n s
  | .cmdWrRamBurst n wbuf => Sys2Proof.Machine.execCmdWrRamBurst n wbuf s
  | .cmdRdRamBurst n => Sys2Proof.Machine.execCmdRdRamBurst n s
  | .cmdWrRamSlot a v => Sys2Proof.Machine.execCmdWrRamSlot a v s
  | .cmdRdRamSlot a => Sys2Proof.Machine.execCmdRdRamSlot a s
  | .cmdWrClockGeneric idx v => Sys2Proof.Machine.execCmdWrClockGeneric idx v s
  | .cmdRdClockGeneric idx => Sys2Proof.Machine.execCmdRdClockGeneric idx s
  | .cmdReservedMarker0 low data => Sys2Proof.Machine.execCmdReservedMarker0 low data s

end Sys2Proof.Machine
end

