-- ==== Sys2Proof/Machine/Fetch.lean ====
section
/-! DEFINITION. Taking the host's next act (00_scope.md R5, 20_memory.md R69 (c); log entry 9). -/

namespace Sys2Proof.Machine

/-- What the next step does. -/
inductive Fetched where
  /-- Nothing is pending: the block is idle (60_exceptions.md R726). -/
  | idle
  /-- The host binds or unbinds a capability. -/
  | bind (c : Cap) (on : Bool) (s : State)
  /-- An instruction runs. -/
  | run (i : Instr) (s : State)
  /-- The record spells no instruction. -/
  | bad (r : Refusal)

/-- The refusal of a record the decoder rejects (30_encoding.md R120 (a), (b)). -/
def refusalOf : Reject → Refusal
  | .unknownTag t => .unknownTag t
  | .bufferLength => .bufferLengthMismatch
  | .truncated | .trailing | .badFlags | .badBit => .illFormedRecord

/-- Decode a record; `s` is the state with the act taken off the inbox. -/
def fetchRecord (sp : Space) (bytes : List Byte) (s : State) : Fetched :=
  match decode sp bytes with
  | .ok i => .run i s
  | .error r => .bad (refusalOf r)

/-- The next act of the host. -/
def fetch (s : State) : Fetched :=
  match s.inbox with
  | [] => .idle
  | .bind c on :: rest => .bind c on { s with inbox := rest }
  | .request bytes :: rest => fetchRecord .request bytes { s with inbox := rest }
  | .command bytes :: rest => fetchRecord .command bytes { s with inbox := rest }

/-- The host act of a record of one of the two spaces. -/
def recordAct (sp : Space) (bytes : List Byte) : HostAct :=
  match sp with
  | .request => .request bytes
  | .command => .command bytes

/-- The host act of a table word. -/
def tableAct (nbits w : Nat) : HostAct := recordAct (tableSpace (tableBytes nbits w)) (tableRecord nbits w)

end Sys2Proof.Machine
end

