-- ==== Sys2Proof/Machine/Step.lean ====
section
/-! DEFINITION. One step: the host's next act (log entries 1, 9). A request runs from acceptance to its status output
inside one step (00_scope.md R5). -/

namespace Sys2Proof.Machine

/-- One step of the machine. -/
def step (s : State) : Host.Outcome State Fault Refusal :=
  match fetch s with
  | .idle => .next s
  | .bind c on s' => hostBind c on s'
  | .run i s' => exec i s'
  | .bad r => .refused r

/-- The state with a table word's record as the host's next act, so that the next step fetches and runs it. -/
def State.withFetchWord (s : State) (nbits w : Nat) : State := { s with inbox := tableAct nbits w :: s.inbox }

end Sys2Proof.Machine
end

