-- ==== Sys2Proof/Machine/Frames.lean ====
section
/-! DEFINITION. The wire formats as lists of port events (30_encoding.md R105, R106): what a request's trace shows when
every answer is ok. exec does not use them; statements do. -/

namespace Sys2Proof.Machine

/-- `d` of R105. -/
def delayEvent : Event := .delayUs delayUsArg

/-- The clock pulse of a slot. -/
def pulseEvents : List Event := [Event.clkWrite true, delayEvent, Event.clkWrite false, delayEvent]

/-- The OUT slot of a bit (R105). -/
def outSlot (b : Bool) : List Event := [Event.ioWrite b, delayEvent] ++ pulseEvents

/-- The IN slot (R105). -/
def inSlot : List Event := Event.ioRead :: pulseEvents

/-- OUT(x): the 8 OUT slots of a byte, bit 0 first (R106). -/
def outByte (x : Byte) : List Event := (List.range 8).flatMap fun k => outSlot (x.getLsbD k)

/-- IN: 8 IN slots (R106). -/
def inByte : List Event := (List.range 8).flatMap fun _ => inSlot

/-- OUT of several bytes, in buffer order (20_memory.md R62). -/
def outBytes (l : List Byte) : List Event := l.flatMap outByte

/-- n × IN (R106). -/
def inBytes (n : Nat) : List Event := (List.range n).flatMap fun _ => inByte

/-- The single write frame (R106). -/
def singleWrite (c v : Byte) : List Event :=
  [Event.ceWrite true] ++ outByte c ++ outByte v ++ [Event.ioWrite false, Event.ceWrite false]

/-- The single read frame (R106). -/
def singleRead (c : Byte) : List Event := [Event.ceWrite true] ++ outByte c ++ inByte ++ [Event.ceWrite false]

/-- The burst write frame (R106). -/
def burstWrite (c : Byte) (l : List Byte) : List Event :=
  [Event.ceWrite true] ++ outByte c ++ outBytes l ++ [Event.ioWrite false, Event.ceWrite false]

/-- The burst read frame (R106). -/
def burstRead (c : Byte) (n : Nat) : List Event := [Event.ceWrite true] ++ outByte c ++ inBytes n ++ [Event.ceWrite false]

/-- The frames of a multiple write (42_register_access.md R302), from byte `i` on. -/
def multiWrite (start : Byte) (i : Nat) : List Byte → List Event
  | [] => []
  | v :: vs => singleWrite (aw start i) v ++ multiWrite start (i + 1) vs

/-- The frames of a multiple read (42_register_access.md R303), from byte `i` on. -/
def multiRead (start : Byte) (i : Nat) : Nat → List Event
  | 0 => []
  | k + 1 => singleRead (ar start i) ++ multiRead start (i + 1) k

/-- The write frames of a list of (command, byte) pairs. -/
def pairWrites (l : List (Byte × Byte)) : List Event := l.flatMap fun p => singleWrite p.1 p.2

end Sys2Proof.Machine
end

