-- ==== Sys2Proof/Safety.lean ====
section
/-! DEFINITION. What statements about the block are said in: what a trace shows, which answers a state's responder will
give, the guard's view of a request, what a request leaves alone, and the invariant of every step. -/

namespace Sys2Proof.Machine

/-! ## What a trace shows -/

/-- The events of a trace, in order. -/
def eventsOf (t : List PortRecord) : List Event := t.map fun r => r.event

/-- The pin events of a list of events (00_scope.md R10). -/
def pinsOf (l : List Event) : List Event := l.filter fun e => e.isPin

/-- The delays of a list of events. -/
def delaysOf (l : List Event) : List Event := l.filter fun e => !e.isPin

/-- The levels the IO_READs of a trace sampled, in order. -/
def sampled (t : List PortRecord) : List Bool :=
  t.filterMap fun r =>
    match r.reply with
    | .level l => some l
    | .none | .ok | .fail => none

/-- `Σ l_j · 2^j`, the first level being bit 0 (41_bit_engine.md R206). -/
def bitsToNat : List Bool → Nat
  | [] => 0
  | b :: bs => b.toNat + 2 * bitsToNat bs

/-- The byte of eight sampled levels (R206). -/
def byteOfBits (l : List Bool) : Byte := BitVec.ofNat 8 (bitsToNat l)

/-- `n` bytes of `8·n` sampled levels, in order (20_memory.md R61, R62). -/
def bytesOfBits : Nat → List Bool → List Byte
  | 0, _ => []
  | n + 1, l => byteOfBits (l.take 8) :: bytesOfBits n (l.drop 8)

/-! ## Which answers the responder will give -/

/-- The first `n` pin events of the next request will be answered ok. -/
def Env.answersOk (v : Env) (n : Nat) : Bool :=
  match v.responder with
  | .world => decide (n ≤ v.answers.length) && (v.answers.take n).all fun a => a.ok
  | .double none => true
  | .double (some f) => f.request != v.requests + 1 || f.pin == 0 || decide (n < f.pin)

/-- Of the next request's pin events, those before position `p` will be answered ok, and the one at `p` (from 1) will
be answered fail. -/
def Env.answersFailAt (v : Env) (p : Nat) : Bool :=
  match v.responder with
  | .world =>
    decide (1 ≤ p) && ((v.answers.take (p - 1)).all fun a => a.ok) && (v.answers.drop (p - 1)).head?.any fun a => !a.ok
  | .double f => decide (1 ≤ p) && f == some ⟨v.requests + 1, p⟩

/-! ## The guard's view of a request (60_exceptions.md R710) -/

/-- The public requests (30_encoding.md R110). -/
def isPublic : Instr → Bool
  | .init _ => true
  | .deinit _ => true
  | .setTime _ _ => true
  | .getTime _ _ => true
  | .setOscillator _ _ => true
  | .getOscillator _ _ => true
  | .setWriteProtect _ _ => true
  | .getWriteProtect _ _ => true
  | .setCharge _ _ => true
  | .getCharge _ _ => true
  | .writeRam _ _ _ _ => true
  | .readRam _ _ _ _ => true
  | .clockBurstWrite _ _ _ => true
  | .clockBurstRead _ _ _ => true
  | .ramBurstWrite _ _ _ => true
  | .ramBurstRead _ _ _ => true
  | .setReg _ _ _ _ => true
  | .getReg _ _ _ _ => true
  | .engWriteByte _ _ => false
  | .engReadByte _ => false
  | .regWriteMultiple _ _ _ => false
  | .regReadMultiple _ _ => false
  | .regBurstWrite _ _ _ => false
  | .regBurstRead _ _ => false
  | .hexToBcd _ => false
  | .bcdToHex _ => false
  | .timeValidate _ => false
  | .timeEncode _ _ => false
  | .timeDecode _ => false
  | .cmdWrSecond _ => false
  | .cmdRdSecond => false
  | .cmdWrMinute _ => false
  | .cmdRdMinute => false
  | .cmdWrHour _ => false
  | .cmdRdHour => false
  | .cmdWrDate _ => false
  | .cmdRdDate => false
  | .cmdWrMonth _ => false
  | .cmdRdMonth => false
  | .cmdWrWeek _ => false
  | .cmdRdWeek => false
  | .cmdWrYear _ => false
  | .cmdRdYear => false
  | .cmdWrControl _ => false
  | .cmdRdControl => false
  | .cmdWrCharge _ => false
  | .cmdRdCharge => false
  | .cmdWrClockBurst _ _ => false
  | .cmdRdClockBurst _ => false
  | .cmdWrRamBurst _ _ => false
  | .cmdRdRamBurst _ => false
  | .cmdWrRamSlot _ _ => false
  | .cmdRdRamSlot _ => false
  | .cmdWrClockGeneric _ _ => false
  | .cmdRdClockGeneric _ => false
  | .cmdReservedMarker0 _ _ => false

/-- Whether the handle a public request names is present. The other instructions have none. -/
def handleOf : Instr → Bool
  | .init h => h
  | .deinit h => h
  | .setTime h _ => h
  | .getTime h _ => h
  | .setOscillator h _ => h
  | .getOscillator h _ => h
  | .setWriteProtect h _ => h
  | .getWriteProtect h _ => h
  | .setCharge h _ => h
  | .getCharge h _ => h
  | .writeRam h _ _ _ => h
  | .readRam h _ _ _ => h
  | .clockBurstWrite h _ _ => h
  | .clockBurstRead h _ _ => h
  | .ramBurstWrite h _ _ => h
  | .ramBurstRead h _ _ => h
  | .setReg h _ _ _ => h
  | .getReg h _ _ _ => h
  | .engWriteByte _ _ | .engReadByte _ | .regWriteMultiple _ _ _ | .regReadMultiple _ _ | .regBurstWrite _ _ _
  | .regBurstRead _ _ | .hexToBcd _ | .bcdToHex _ | .timeValidate _ | .timeEncode _ _
  | .timeDecode _ | .cmdWrSecond _ | .cmdRdSecond | .cmdWrMinute _ | .cmdRdMinute
  | .cmdWrHour _ | .cmdRdHour | .cmdWrDate _ | .cmdRdDate | .cmdWrMonth _
  | .cmdRdMonth | .cmdWrWeek _ | .cmdRdWeek | .cmdWrYear _ | .cmdRdYear
  | .cmdWrControl _ | .cmdRdControl | .cmdWrCharge _ | .cmdRdCharge | .cmdWrClockBurst _ _
  | .cmdRdClockBurst _ | .cmdWrRamBurst _ _ | .cmdRdRamBurst _ | .cmdWrRamSlot _ _ | .cmdRdRamSlot _
  | .cmdWrClockGeneric _ _ | .cmdRdClockGeneric _ | .cmdReservedMarker0 _ _ => true

/-- Whether the record, buffer or output slot a public request needs is present (R701). -/
def operandOf : Instr → Bool
  | .setTime _ r => r.isSome
  | .writeRam _ _ _ w | .clockBurstWrite _ _ w | .ramBurstWrite _ _ w | .setReg _ _ _ w => w.isSome
  | .getTime _ p | .getOscillator _ p | .getWriteProtect _ p | .getCharge _ p => p
  | .readRam _ p _ _ | .clockBurstRead _ p _ | .ramBurstRead _ p _ | .getReg _ p _ _ => p
  | .init _ | .deinit _ | .setOscillator _ _ | .setWriteProtect _ _ | .setCharge _ _ => true
  | .engWriteByte _ _ | .engReadByte _ | .regWriteMultiple _ _ _ | .regReadMultiple _ _ | .regBurstWrite _ _ _
  | .regBurstRead _ _ | .hexToBcd _ | .bcdToHex _ | .timeValidate _ | .timeEncode _ _
  | .timeDecode _ | .cmdWrSecond _ | .cmdRdSecond | .cmdWrMinute _ | .cmdRdMinute
  | .cmdWrHour _ | .cmdRdHour | .cmdWrDate _ | .cmdRdDate | .cmdWrMonth _
  | .cmdRdMonth | .cmdWrWeek _ | .cmdRdWeek | .cmdWrYear _ | .cmdRdYear
  | .cmdWrControl _ | .cmdRdControl | .cmdWrCharge _ | .cmdRdCharge | .cmdWrClockBurst _ _
  | .cmdRdClockBurst _ | .cmdWrRamBurst _ _ | .cmdRdRamBurst _ | .cmdWrRamSlot _ _ | .cmdRdRamSlot _
  | .cmdWrClockGeneric _ _ | .cmdRdClockGeneric _ | .cmdReservedMarker0 _ _ => true

/-- A Time Record in range (43_bcd_codec.md R402), said with bounds. -/
def timeInRange (r : TimeRecord) : Prop :=
  (r.format.toNat = 0 ∨ r.format.toNat = 1) ∧
  (2000 ≤ r.year.toNat ∧ r.year.toNat ≤ 2100) ∧
  (1 ≤ r.month.toNat ∧ r.month.toNat ≤ 12) ∧
  (1 ≤ r.week.toNat ∧ r.week.toNat ≤ 7) ∧
  (1 ≤ r.date.toNat ∧ r.date.toNat ≤ 31) ∧
  (r.format.toNat = 1 → 1 ≤ r.hour.toNat ∧ r.hour.toNat ≤ 12) ∧
  (r.format.toNat = 0 → r.hour.toNat ≤ 23) ∧
  r.minute.toNat ≤ 59 ∧ r.second.toNat ≤ 59

/-- The range and format checks a public request makes (60_exceptions.md R703): true for the requests that make none. -/
def ArgsInRange : Instr → Prop
  | .setTime _ (some r) => timeInRange r
  | .writeRam _ a n _ | .readRam _ _ a n => a.toNat ≤ 30 ∧ a.toNat + n.toNat ≤ 31
  | .clockBurstWrite _ n _ | .clockBurstRead _ _ n => n.toNat ≤ 8
  | .ramBurstWrite _ n _ | .ramBurstRead _ _ n => n.toNat ≤ 31
  | .setTime _ none => True
  | .init _ | .deinit _ | .getTime _ _ | .setOscillator _ _ | .getOscillator _ _ | .setWriteProtect _ _
  | .getWriteProtect _ _ | .setCharge _ _ | .getCharge _ _ | .setReg _ _ _ _ | .getReg _ _ _ _ => True
  | .engWriteByte _ _ | .engReadByte _ | .regWriteMultiple _ _ _ | .regReadMultiple _ _ | .regBurstWrite _ _ _
  | .regBurstRead _ _ | .hexToBcd _ | .bcdToHex _ | .timeValidate _ | .timeEncode _ _
  | .timeDecode _ | .cmdWrSecond _ | .cmdRdSecond | .cmdWrMinute _ | .cmdRdMinute
  | .cmdWrHour _ | .cmdRdHour | .cmdWrDate _ | .cmdRdDate | .cmdWrMonth _
  | .cmdRdMonth | .cmdWrWeek _ | .cmdRdWeek | .cmdWrYear _ | .cmdRdYear
  | .cmdWrControl _ | .cmdRdControl | .cmdWrCharge _ | .cmdRdCharge | .cmdWrClockBurst _ _
  | .cmdRdClockBurst _ | .cmdWrRamBurst _ _ | .cmdRdRamBurst _ | .cmdWrRamSlot _ _ | .cmdRdRamSlot _
  | .cmdWrClockGeneric _ _ | .cmdRdClockGeneric _ | .cmdReservedMarker0 _ _ => True

/-- The kinds a request can end with, beside Success (60_exceptions.md R709). A wire row is a frame, as ENG and REG are. -/
def errorKinds : Instr → List Status
  | .init _ => [.nullArgument, .lifecycleFailure]
  | .deinit _ => [.nullArgument, .notInitialized, .lifecycleFailure]
  | .setTime _ _ | .writeRam _ _ _ _ | .readRam _ _ _ _ | .clockBurstWrite _ _ _ | .clockBurstRead _ _ _
  | .ramBurstWrite _ _ _ | .ramBurstRead _ _ _ => [.nullArgument, .notInitialized, .invalidArgument, .transferFailure]
  | .getTime _ _ | .setOscillator _ _ | .getOscillator _ _ | .setWriteProtect _ _ | .getWriteProtect _ _
  | .setCharge _ _ | .getCharge _ _ | .setReg _ _ _ _ | .getReg _ _ _ _ =>
    [.nullArgument, .notInitialized, .transferFailure]
  | .hexToBcd _ | .bcdToHex _ | .timeValidate _ | .timeEncode _ _ | .timeDecode _ => []
  | .engWriteByte _ _ | .engReadByte _ | .regWriteMultiple _ _ _ | .regReadMultiple _ _ | .regBurstWrite _ _ _
  | .regBurstRead _ _ | .cmdWrSecond _ | .cmdRdSecond | .cmdWrMinute _ | .cmdRdMinute
  | .cmdWrHour _ | .cmdRdHour | .cmdWrDate _ | .cmdRdDate | .cmdWrMonth _
  | .cmdRdMonth | .cmdWrWeek _ | .cmdRdWeek | .cmdWrYear _ | .cmdRdYear
  | .cmdWrControl _ | .cmdRdControl | .cmdWrCharge _ | .cmdRdCharge | .cmdWrClockBurst _ _
  | .cmdRdClockBurst _ | .cmdWrRamBurst _ _ | .cmdRdRamBurst _ | .cmdWrRamSlot _ _ | .cmdRdRamSlot _
  | .cmdWrClockGeneric _ _ | .cmdRdClockGeneric _ | .cmdReservedMarker0 _ _ => [.transferFailure]

/-! ## Frames and invariants -/

/-- What no request but INIT and DEINIT changes, and what every request leaves when it ends: the init flag, the
capabilities, the host's pending acts and the responder as before; the block idle; no datapath register alive. -/
def Kept (s t : State) : Prop :=
  t.initFlag = s.initFlag ∧ t.caps = s.caps ∧ t.inbox = s.inbox ∧ t.env.responder = s.env.responder ∧
  t.pos = .idle ∧ t.dp = Datapath.cleared

/-- The target's cells hold the same bytes, but for those at the addresses `stored`. -/
def SameCellsBut (stored : List Nat) (d e : Double) : Prop :=
  ∀ a, a ∉ stored → Memory.read e.mem a = Memory.read d.mem a

/-- The events of a program up to and with its pin event number `p`, counted from 1 (41_bit_engine.md R209, R210;
20_memory.md R86). -/
def throughPin : Nat → List Event → List Event
  | 0, _ => []
  | _ + 1, [] => []
  | p + 1, e :: l =>
    if e.isPin then (if p = 0 then [e] else e :: throughPin p l) else e :: throughPin (p + 1) l

/-- The state a request leaves that a check turned away: its status, no output, no event, and nothing else changed but
that the position and the datapath registers are at rest, and the responder has counted one request more, with no pin
event. -/
def State.rejected (s : State) (k : Status) : State :=
  { s with
    dp := Datapath.cleared
    pos := .idle
    status := some k
    out := .none
    trace := []
    env := { s.env with requests := s.env.requests + 1, pins := 0 } }

/-- The request ends with Success: these events, in this order, given the levels they sampled; this output; this bus
state; nothing else of the block changed. -/
def Completes (i : Instr) (s : State) (events : List Bool → List Event) (out : List Bool → Out) (bus : Bus) : Prop :=
  ∃ t, exec i s = .next t ∧ t.status = some .success ∧ eventsOf t.trace = events (sampled t.trace) ∧
    t.out = out (sampled t.trace) ∧ t.bus = bus ∧ Kept s t

/-- The request ends with TransferFailure at its pin event number `p`: the events up to that one, the last one failed and
no other; no output; nothing else of the block changed (60_exceptions.md R704). -/
def FailsAt (i : Instr) (s : State) (p : Nat) (events : List Bool → List Event) : Prop :=
  ∃ t, exec i s = .next t ∧ t.status = some .transferFailure ∧ t.out = .none ∧
    eventsOf t.trace = throughPin p (events (sampled t.trace)) ∧
    (∃ front e, t.trace = front ++ [⟨e, .fail⟩] ∧ ∀ r ∈ front, r.reply ≠ Reply.fail) ∧ Kept s t

/-- INIT or DEINIT ends: this status, no output, these events in this order, this init flag; the bus shadow, the
capabilities, the host's pending acts, the responder and the target as before (45_lifecycle.md). -/
def LifecycleEnds (i : Instr) (s : State) (k : Status) (events : List Event) (flag : Bool) : Prop :=
  ∃ t, exec i s = .next t ∧ t.status = some k ∧ t.out = .none ∧ eventsOf t.trace = events ∧ t.initFlag = flag ∧
    t.bus = s.bus ∧ t.caps = s.caps ∧ t.inbox = s.inbox ∧ t.env.responder = s.env.responder ∧
    t.env.double = s.env.double ∧ t.pos = .idle ∧ t.dp = Datapath.cleared

/-- The bus shadow after the answered events of a trace, by the table of 10_state.md R22, the internal release apart. -/
def Bus.replay (b : Bus) (t : List PortRecord) : Bus := t.foldl (fun b r => b.after r.event r.reply) b

/-- IO_WRITE, either level. -/
def Event.isIoWrite : Event → Bool
  | .ioWrite _ => true
  | .ceInit | .ceDeinit | .ceWrite _ | .clkInit | .clkDeinit | .clkWrite _ | .ioInit | .ioDeinit | .ioRead | .delayMs _
  | .delayUs _ | .debugPrint => false

/-- Whether the internal release of the data line stands right before an event (41_bit_engine.md R204, R206, R208, R210):
before an IN slot, which IO_READ opens, and before the CE_WRITE(0) that closes a read frame. The CE_WRITE(0) that closes a
write frame follows WRITE_CLOSE's IO_WRITE(0) directly (R207), which `wrote` says. A release repeated before a later slot of
the same frame changes nothing. -/
def releasesBefore (wrote : Bool) : Event → Bool
  | .ioRead => true
  | .ceWrite l => !l && !wrote
  | .clkWrite _ | .ioWrite _ | .ceInit | .ceDeinit | .clkInit | .clkDeinit | .ioInit | .ioDeinit | .delayMs _ | .delayUs _
  | .debugPrint => false

/-- The bus shadow after the answered events of a trace, the internal release included; `wrote` says whether the event
before the trace was an IO_WRITE. -/
def Bus.replayReleasing (b : Bus) (wrote : Bool) : List PortRecord → Bus
  | [] => b
  | r :: t =>
    ((if releasesBefore wrote r.event then b.released else b).after r.event r.reply).replayReleasing
      r.event.isIoWrite t

/-- No event of a trace was answered fail. -/
def noFailure (t : List PortRecord) : Prop := ∀ r ∈ t, r.reply ≠ Reply.fail

/-- The cells a frame with command `c` stores to, by how many data bytes it carries (20_memory.md R82, R83): none unless
the command has its marker and is write-coded. -/
def frameCells (c : Byte) (n : Nat) : List Nat :=
  if cmdMarker c && !cmdRw c then (List.range n).filterMap (dataCell c) else []

/-- The memory after data bytes `j`, `j + 1`, … of a write frame with command `c` (20_memory.md R83). -/
def storeBytes (m : List Host.Cell) (c : Byte) (j : Nat) : List Byte → List Host.Cell
  | [] => m
  | v :: vs =>
    storeBytes (match dataCell c j with
      | some a => Memory.write m a v
      | none => m) c (j + 1) vs

/-- The memory after a write frame with command `c` and data bytes `l`: only a command with its marker, write-coded,
stores (R82, R83). -/
def storeFrame (m : List Host.Cell) (c : Byte) (l : List Byte) : List Host.Cell :=
  if cmdMarker c && !cmdRw c then storeBytes m c 0 l else m

/-- The memory after single write frames, in order. -/
def storePairs (m : List Host.Cell) : List (Byte × Byte) → List Host.Cell
  | [] => m
  | p :: rest => storePairs (storeFrame m p.1 [p.2]) rest

/-- The write frames of a multiple write, as (command, byte) pairs, from byte `i` on (42_register_access.md R302). -/
def multiPairs (start : Byte) (i : Nat) : List Byte → List (Byte × Byte)
  | [] => []
  | v :: vs => (aw start i, v) :: multiPairs start (i + 1) vs

/-- The cells the single write frames of a list of pairs store to. -/
def pairCells (l : List (Byte × Byte)) : List Nat := l.flatMap fun p => frameCells p.1 1

/-- The cells of the reference double an instruction stores to, when it runs to its end. ENG_READ_BYTE with a marked
write command is in the list because the double latches the read frame's clock pulses as data (20_memory.md R82;
30_encoding.md R120 (e)). -/
def storesTo : Instr → List Nat
  | .setTime _ (some r) => pairCells (timeEncode r 0)
  | .setOscillator _ _ => frameCells (clockWrite idxSecond) 1
  | .setWriteProtect _ _ => frameCells (clockWrite idxControl) 1
  | .setCharge _ _ => frameCells (clockWrite idxCharge) 1
  | .writeRam _ a _ w => pairCells (multiPairs (ramStart a) 0 (w.getD []))
  | .setReg _ r _ w => pairCells (multiPairs r 0 (w.getD []))
  | .regWriteMultiple r _ w => pairCells (multiPairs r 0 w)
  | .clockBurstWrite _ _ w => frameCells clockBurstCmd (w.getD []).length
  | .ramBurstWrite _ _ w => frameCells ramBurstCmd (w.getD []).length
  | .regBurstWrite c _ w => frameCells c w.length
  | .cmdWrClockBurst _ w => frameCells clockBurstCmd w.length
  | .cmdWrRamBurst _ w => frameCells ramBurstCmd w.length
  | .engWriteByte c _ => frameCells c 1
  | .engReadByte c => frameCells c 1
  | .cmdWrSecond _ => frameCells (clockWrite idxSecond) 1
  | .cmdWrMinute _ => frameCells (clockWrite idxMinute) 1
  | .cmdWrHour _ => frameCells (clockWrite idxHour) 1
  | .cmdWrDate _ => frameCells (clockWrite idxDate) 1
  | .cmdWrMonth _ => frameCells (clockWrite idxMonth) 1
  | .cmdWrWeek _ => frameCells (clockWrite idxWeek) 1
  | .cmdWrYear _ => frameCells (clockWrite idxYear) 1
  | .cmdWrControl _ => frameCells (clockWrite idxControl) 1
  | .cmdWrCharge _ => frameCells (clockWrite idxCharge) 1
  | .cmdWrRamSlot a _ => frameCells (cmdByte true a false) 1
  | .cmdWrClockGeneric i _ => frameCells (clockWrite i) 1
  | .setTime _ none => []
  | .init _ | .deinit _ | .getTime _ _ | .getOscillator _ _ | .getWriteProtect _ _ | .getCharge _ _ | .readRam _ _ _ _
  | .clockBurstRead _ _ _ | .ramBurstRead _ _ _ | .getReg _ _ _ _ => []
  | .regReadMultiple _ _ | .regBurstRead _ _ => []
  | .hexToBcd _ | .bcdToHex _ | .timeValidate _ | .timeEncode _ _ | .timeDecode _ => []
  | .cmdRdSecond | .cmdRdMinute | .cmdRdHour | .cmdRdDate | .cmdRdMonth | .cmdRdWeek | .cmdRdYear | .cmdRdControl
  | .cmdRdCharge | .cmdRdClockBurst _ | .cmdRdRamBurst _ | .cmdRdRamSlot _ | .cmdRdClockGeneric _
  | .cmdReservedMarker0 _ _ => []

/-- The bus shadow after a completed write frame (41_bit_engine.md R209). -/
def Bus.afterWrite : Bus := ⟨.low, .low, .low, .out⟩

/-- The bus shadow after a completed read frame (41_bit_engine.md R210). -/
def Bus.afterRead : Bus := ⟨.low, .low, .x, .inp⟩

/-- The double has seen CE and CLK low: the next frame opens cleanly (20_memory.md R81, R82). -/
def Double.quiet (d : Double) : Prop := d.lastCe = .low ∧ d.lastClk = .low

/-- A double that saw CE low last saw the clock low last: every frame that ends drops the clock before CE, and a frame that
stops early leaves CE high (41_bit_engine.md R202, R207, R208; 70_reset_and_hazards.md R811). -/
def Double.framed (d : Double) : Prop := d.lastCe = .low → d.lastClk = .low

/-- The reference double answers, with no failure injected. -/
def State.onDouble (s : State) : Prop := s.env.responder = .double none ∧ s.env.double.quiet

/-- The invariant of every step: the target's memory is in canonical form, the double's bit count in range and its lines as
a frame leaves them; between steps the block is idle, no datapath register survives, an output exists only with Success (60_exceptions.md R706), and
an initialised block has every capability bound (10_state.md R21). -/
structure Inv (s : State) : Prop where
  memory : Memory.wf s.env.double.mem = true
  bits : s.env.double.nbits < 8
  framed : s.env.double.framed
  idle : s.pos = .idle
  datapath : s.dp = Datapath.cleared
  output : s.status ≠ some .success → s.out = .none
  bound : s.initFlag = true → s.caps.allBound = true

end Sys2Proof.Machine
end

