-- ==== Sys2Proof/Certificates/Slice0/Obligations.lean ====
section
/-! DEFINITION. The statements about the block, one proposition each, listed in OBLIGATIONS.json. Command bytes stand as
the literals of 30_encoding.md R103 and R104. -/

section

open Sys2Proof Sys2Proof.Machine

/-! ## Encoding -/

/-- Decode and encode agree, for every well-formed instruction and every operand (30_encoding.md R101, R110, R111). The
byte layout of a record is the model's own (log entry 6). -/
def Obligations.DecodeReadsBackEveryEncoding : Prop :=
  ∀ (i : Instr) (rest : List Byte), i.WellFormed →
    parse i.space (encode i ++ rest) = Except.ok (i, rest) ∧ decode i.space (encode i) = .ok i

/-- A record that decodes spells one well-formed instruction of its space, and is that instruction's encoding: no second
record spells it, and no bit of a record is dropped (30_encoding.md R110, R120). The byte layout is the model's own (log
entry 6). -/
def Obligations.DecodeAcceptsOnlyEncodings : Prop :=
  ∀ (sp : Space) (bs : List Byte) (i : Instr), decode sp bs = .ok i → i.WellFormed ∧ i.space = sp ∧ encode i = bs

/-- A tag that R110 does not list is refused by name, and so is a request whose buffer has not `n` bytes, whose `en` is not
one bit, or whose `am_pm` is not one bit (30_encoding.md R120 (a), (b)). Three things here are the model's choices: where a
byte stands in a record (log entry 6); that the buffer's length is refused whatever the handle and the init flag are, before
the guard (log entry 23); and that the two wire burst rows are refused for it as the requests are (log entry 25). -/
def Obligations.UndefinedRecordsAreRefused : Prop :=
  (∀ (s : State) (tag : Byte) (bs : List Byte) (rest : List HostAct),
    tag ∉ [0x01#8, 0x02#8, 0x10#8, 0x11#8, 0x20#8, 0x21#8, 0x22#8, 0x23#8, 0x24#8, 0x25#8, 0x30#8, 0x31#8, 0x40#8,
      0x41#8, 0x42#8, 0x43#8, 0x50#8, 0x51#8, 0x80#8, 0x81#8, 0x82#8, 0x83#8, 0x84#8, 0x85#8, 0x90#8, 0x91#8, 0x92#8,
      0x93#8, 0x94#8] →
    step { s with inbox := .request (tag :: bs) :: rest } = .refused (.unknownTag tag)) ∧
  (∀ (s : State) (h : Bool) (a n : Byte) (w : List Byte), w.length ≠ n.toNat →
    exec (.writeRam h a n (some w)) s = .refused .bufferLengthMismatch ∧
    exec (.clockBurstWrite h n (some w)) s = .refused .bufferLengthMismatch ∧
    exec (.ramBurstWrite h n (some w)) s = .refused .bufferLengthMismatch ∧
    exec (.setReg h a n (some w)) s = .refused .bufferLengthMismatch ∧
    exec (.regWriteMultiple a n w) s = .refused .bufferLengthMismatch ∧
    exec (.regBurstWrite a n w) s = .refused .bufferLengthMismatch ∧
    exec (.cmdWrClockBurst n w) s = .refused .bufferLengthMismatch ∧
    exec (.cmdWrRamBurst n w) s = .refused .bufferLengthMismatch) ∧
  (∀ (s : State) (rest : List HostAct) (tag flags e : Byte), tag = 0x20#8 ∨ tag = 0x22#8 → flags.toNat < 2 →
    2 ≤ e.toNat → step { s with inbox := .request [tag, flags, e] :: rest } = .refused .illFormedRecord) ∧
  (∀ (s : State) (rest : List HostAct) (flags y0 y1 mo wk dt hr mi se fm e old : Byte), flags.toNat < 2 → 2 ≤ e.toNat →
    step { s with inbox := .request [0x10#8, flags, y0, y1, mo, wk, dt, hr, mi, se, fm, e] :: rest } =
      .refused .illFormedRecord ∧
    step { s with inbox := .request [0x92#8, y0, y1, mo, wk, dt, hr, mi, se, fm, e] :: rest } =
      .refused .illFormedRecord ∧
    step { s with inbox := .request [0x93#8, y0, y1, mo, wk, dt, hr, mi, se, fm, e, old] :: rest } =
      .refused .illFormedRecord)

/-- Command bytes: formed and read by fields (30_encoding.md R101), the RAM slot commands (R102), the burst commands
(R103) and the named commands (R104). -/
def Obligations.CommandBytesAreFormedByFields : Prop :=
  (∀ (bank : Bool) (idx : BitVec 5) (rw : Bool),
    (cmdByte bank idx rw).toNat = 0x80 + 64 * bank.toNat + 2 * idx.toNat + rw.toNat ∧
    cmdMarker (cmdByte bank idx rw) = true ∧ cmdBank (cmdByte bank idx rw) = bank ∧
    cmdIdx (cmdByte bank idx rw) = idx ∧ cmdRw (cmdByte bank idx rw) = rw) ∧
  (∀ c : Byte, cmdMarker c = c.getLsbD 7 ∧ cmdBank c = c.getLsbD 6 ∧ (cmdIdx c).toNat = c.toNat / 2 % 32 ∧
    cmdRw c = c.getLsbD 0) ∧
  (∀ a : BitVec 5, a.toNat ≤ 30 → (cmdByte true a false).toNat = 0xC0 + 2 * a.toNat ∧
    (cmdByte true a true).toNat = 0xC1 + 2 * a.toNat) ∧
  clockBurstCmd = 0xBE#8 ∧ withRead clockBurstCmd = 0xBF#8 ∧ ramBurstCmd = 0xFE#8 ∧ withRead ramBurstCmd = 0xFF#8 ∧
  clockWrite idxSecond = 0x80#8 ∧ clockRead idxSecond = 0x81#8 ∧ clockWrite idxMinute = 0x82#8 ∧
  clockRead idxMinute = 0x83#8 ∧ clockWrite idxHour = 0x84#8 ∧ clockRead idxHour = 0x85#8 ∧
  clockWrite idxDate = 0x86#8 ∧ clockRead idxDate = 0x87#8 ∧ clockWrite idxMonth = 0x88#8 ∧
  clockRead idxMonth = 0x89#8 ∧ clockWrite idxWeek = 0x8A#8 ∧ clockRead idxWeek = 0x8B#8 ∧
  clockWrite idxYear = 0x8C#8 ∧ clockRead idxYear = 0x8D#8 ∧ clockWrite idxControl = 0x8E#8 ∧
  clockRead idxControl = 0x8F#8 ∧ clockWrite idxCharge = 0x90#8 ∧ clockRead idxCharge = 0x91#8

/-- Stepped addresses (42_register_access.md R301): the formulas, reduced modulo 256; an odd start stays odd in every write
command; a read command does not depend on bit 0 of the start; a start of 0xC0 + 2a steps through the RAM slots; from 0x80
the steps run through the clock bank into the RAM bank; and the step after 0xFE is 0x00, with the marker clear. -/
def Obligations.SteppedAddresses : Prop :=
  (∀ (start : Byte) (i : Nat),
    (aw start i).toNat = (start.toNat + 2 * i) % 256 ∧ ar start i = aw start i ||| 0x01#8 ∧
    (aw start i).getLsbD 0 = start.getLsbD 0 ∧ ar start i = ar (start &&& 0xFE#8) i) ∧
  (∀ a i : Nat, a + i ≤ 30 →
    aw (BitVec.ofNat 8 (0xC0 + 2 * a)) i = cmdByte true (BitVec.ofNat 5 (a + i)) false ∧
    ar (BitVec.ofNat 8 (0xC0 + 2 * a)) i = cmdByte true (BitVec.ofNat 5 (a + i)) true) ∧
  (∀ i : Nat, i ≤ 31 → aw 0x80#8 i = cmdByte false (BitVec.ofNat 5 i) false) ∧
  (∀ i : Nat, i ≤ 31 → aw 0x80#8 (32 + i) = cmdByte true (BitVec.ofNat 5 i) false) ∧
  aw 0x80#8 31 = 0xBE#8 ∧ aw 0x80#8 32 = 0xC0#8 ∧ aw 0xFE#8 0 = 0xFE#8 ∧ aw 0xFE#8 1 = 0x00#8 ∧
  cmdMarker (aw 0xFE#8 1) = false

/-- Words written out by hand from the encoding tables decode to the instructions they stand for: one or more of every
family (30_encoding.md R102 to R104, R110, R120). The byte layout of a record is the model's own (log entry 6). -/
def Obligations.HandWrittenWordsDecode : Prop :=
  decode .request [0x01, 0x00] = .ok (.init true) ∧
  decode .request [0x02, 0x01] = .ok (.deinit false) ∧
  decode .request [0x10, 0x00, 0xEF, 0x07, 6, 3, 14, 11, 42, 5, 0x01, 0x01] =
    .ok (.setTime true (some ⟨2031, 6, 3, 14, 11, 42, 5, 0x01, true⟩)) ∧
  decode .request [0x11, 0x02] = .ok (.getTime true false) ∧
  decode .request [0x20, 0x00, 0x01] = .ok (.setOscillator true true) ∧
  decode .request [0x22, 0x00, 0x00] = .ok (.setWriteProtect true false) ∧
  decode .request [0x24, 0x00, 0xA5] = .ok (.setCharge true 0xA5) ∧
  decode .request [0x30, 0x00, 25, 2, 2, 0x11, 0x22] = .ok (.writeRam true 25 2 (some [0x11, 0x22])) ∧
  decode .request [0x31, 0x00, 0, 31] = .ok (.readRam true true 0 31) ∧
  decode .request [0x42, 0x02, 7] = .ok (.ramBurstWrite true 7 none) ∧
  decode .request [0x41, 0x00, 8] = .ok (.clockBurstRead true true 8) ∧
  decode .request [0x50, 0x00, 0x92, 1, 1, 0x7E] = .ok (.setReg true 0x92 1 (some [0x7E])) ∧
  decode .request [0x80, 0x80, 0x05] = .ok (.engWriteByte 0x80 0x05) ∧
  decode .request [0x83, 0xFC, 3] = .ok (.regReadMultiple 0xFC 3) ∧
  decode .request [0x94, 0x85, 0x42, 0xB1, 0x14, 0x06, 0x03, 0x31] =
    .ok (.timeDecode ⟨0x85, 0x42, 0xB1, 0x14, 0x06, 0x03, 0x31⟩) ∧
  decode .command [0x80, 0x05] = .ok (.cmdWrSecond 0x05) ∧
  decode .command [0x8F] = .ok .cmdRdControl ∧
  decode .command [0xBE, 2, 0x00, 0x30] = .ok (.cmdWrClockBurst 2 [0x00, 0x30]) ∧
  decode .command [0xFF, 31] = .ok (.cmdRdRamBurst 31) ∧
  decode .command [0xF2, 0x11] = .ok (.cmdWrRamSlot 25 0x11) ∧
  decode .command [0xFD] = .ok (.cmdRdRamSlot 30) ∧
  decode .command [0x92, 0x7E] = .ok (.cmdWrClockGeneric 9 0x7E) ∧
  decode .command [0xBD] = .ok (.cmdRdClockGeneric 30) ∧
  decode .command [0x00, 0x5A] = .ok (.cmdReservedMarker0 0x00 (some 0x5A)) ∧
  decode .command [0x01] = .ok (.cmdReservedMarker0 0x01 none)

/-! ## The step -/

/-- A step runs the decoded instruction: the first pending act is taken off, and a record that decodes runs by exec; one
that does not is refused by name; a bind is the host's; with nothing pending the block stays idle (00_scope.md R5,
60_exceptions.md R726; log entry 9). -/
def Obligations.StepRunsTheDecodedInstruction : Prop :=
  (∀ (s : State) (sp : Space) (bs : List Byte) (rest : List HostAct) (i : Instr),
    s.inbox = recordAct sp bs :: rest → decode sp bs = .ok i → step s = exec i { s with inbox := rest }) ∧
  (∀ (s : State) (sp : Space) (bs : List Byte) (rest : List HostAct) (r : Reject),
    s.inbox = recordAct sp bs :: rest → decode sp bs = .error r → step s = .refused (refusalOf r)) ∧
  (∀ (s : State) (c : Cap) (on : Bool) (rest : List HostAct),
    s.inbox = .bind c on :: rest → step s = hostBind c on { s with inbox := rest }) ∧
  (∀ s : State, s.inbox = [] → step s = .next s)

/-- The host binds and unbinds a capability, one at a time, and nothing else changes (10_state.md R21, R25); a change while
the block is initialised has no move (decision D26; the model's stuck state, log entry 10). -/
def Obligations.HostBindsCapabilities : Prop :=
  ∀ (s : State) (c : Cap) (on : Bool),
    (s.initFlag = false ∨ s.caps.get c = on →
      ∃ t, hostBind c on s = .next t ∧ t.caps.get c = on ∧ (∀ d, d ≠ c → t.caps.get d = s.caps.get d) ∧
        t = { s with caps := t.caps }) ∧
    (s.initFlag = true → s.caps.get c ≠ on → hostBind c on s = .fault .rebindWhileInitialised)

/-- The state after reset (10_state.md R45, 70_reset_and_hazards.md R800): not initialised, nothing bound, the lines
unknown, idle. The lines' X is the model's reading of the OPEN INIT_LINE_LEVELS (log entry 5), and the status and output
are the model's choice (log entry 16). -/
def Obligations.ResetLeavesTheStatedValues : Prop :=
  State.reset.initFlag = false ∧ (∀ c : Cap, State.reset.caps.get c = false) ∧ State.reset.bus = ⟨.x, .x, .x, .x⟩ ∧
  State.reset.pos = .idle ∧ State.reset.req = none ∧ State.reset.status = none ∧ State.reset.out = .none ∧
  State.reset.trace = []

/-- The invariant holds at reset. -/
def Obligations.ResetMeetsTheInvariant : Prop := Inv State.reset

/-- Every step keeps the invariant: the target's memory canonical and its frame counters in range, the block idle with no
datapath register alive between requests (10_state.md R24, R27), no output without Success (60_exceptions.md R706), and
every capability bound while initialised (10_state.md R21). -/
def Obligations.EveryStepKeepsTheInvariant : Prop :=
  ∀ s t : State, Inv s → step s = .next t → Inv t

/-- The target's memory: a write keeps the canonical form, reads back, and leaves every other cell alone; and two canonical
memories that read the same are the same list (20_memory.md R80, R83; log entry 3). -/
def Obligations.CanonicalMemoriesReadBackAndAreUnique : Prop :=
  (∀ (m : List Host.Cell) (a : Nat) (v : Byte), Memory.wf m = true → isCell a = true →
    Memory.wf (Memory.write m a v) = true ∧ Memory.read (Memory.write m a v) a = v ∧
    ∀ b, b ≠ a → Memory.read (Memory.write m a v) b = Memory.read m b) ∧
  (∀ m m' : List Host.Cell, Memory.wf m = true → Memory.wf m' = true → (∀ a, Memory.read m a = Memory.read m' a) →
    m = m')

/-! ## What a request may write -/

/-- The capabilities are the host's: no request writes them, and no request but INIT reads them (10_state.md R21). -/
def Obligations.CapabilitiesAreTheHosts : Prop :=
  (∀ (i : Instr) (s t : State), exec i s = .next t → t.caps = s.caps ∧ t.inbox = s.inbox) ∧
  (∀ (i : Instr) (s t : State) (c : Caps), (∀ h, i ≠ .init h) → exec i s = .next t →
    exec i { s with caps := c } = .next { t with caps := c })

/-- `S.init_flag` is written only by INIT and DEINIT: INIT sets it only on full success, DEINIT clears it only when all
three line deinitialisations succeed; every other public request reads it in the guard and does not write it; it is 0 at
reset (10_state.md R20). -/
def Obligations.InitFlagIsWrittenOnlyByInitAndDeinit : Prop :=
  (∀ (i : Instr) (s t : State), (∀ h, i ≠ .init h) → (∀ h, i ≠ .deinit h) → exec i s = .next t →
    t.initFlag = s.initFlag) ∧
  (∀ (h : Bool) (s t : State), exec (.init h) s = .next t →
    t.initFlag = (if t.status = some .success then true else s.initFlag) ∧
    (t.status = some .success → h = true ∧ s.caps.allBound = true ∧
      t.trace = [⟨Event.ceInit, .ok⟩, ⟨Event.clkInit, .ok⟩, ⟨Event.ioInit, .ok⟩])) ∧
  (∀ (h : Bool) (s t : State), exec (.deinit h) s = .next t →
    t.initFlag = (if t.status = some .success then false else s.initFlag) ∧
    (t.status = some .success → t.trace = [⟨Event.ceDeinit, .ok⟩, ⟨Event.clkDeinit, .ok⟩, ⟨Event.ioDeinit, .ok⟩])) ∧
  (∀ (i : Instr) (s : State), i.WellFormed → isPublic i = true → (∀ h, i ≠ .init h) → handleOf i = true →
    s.initFlag = false → exec i s = .next (s.rejected .notInitialized)) ∧
  State.reset.initFlag = false

/-- The order in which a public request reports (60_exceptions.md R710): absent handle, not initialised, absent operand,
invalid argument, the first failing port event. INIT: absent handle, an unbound capability, the first failing line. A
request that a check turned away issues no event and changes nothing but its own status. -/
def Obligations.ChecksReportInOrder : Prop :=
  (∀ (i : Instr) (s : State), i.WellFormed → isPublic i = true → (∀ h, i ≠ .init h) →
    (handleOf i = false → exec i s = .next (s.rejected .nullArgument)) ∧
    (handleOf i = true → s.initFlag = false → exec i s = .next (s.rejected .notInitialized)) ∧
    (handleOf i = true → s.initFlag = true → operandOf i = false → exec i s = .next (s.rejected .nullArgument)) ∧
    (handleOf i = true → s.initFlag = true → operandOf i = true → ¬ArgsInRange i →
      exec i s = .next (s.rejected .invalidArgument)) ∧
    (handleOf i = true → s.initFlag = true → operandOf i = true → ArgsInRange i →
      ∃ t, exec i s = .next t ∧
        ((t.status = some .success ∧ noFailure t.trace) ∨
         ((t.status = some .transferFailure ∨ (i = .deinit true ∧ t.status = some .lifecycleFailure)) ∧
          ∃ front e, t.trace = front ++ [⟨e, .fail⟩] ∧ noFailure front)))) ∧
  (∀ s : State, exec (.init false) s = .next (s.rejected .nullArgument)) ∧
  (∀ s : State, s.caps.allBound = false → exec (.init true) s = .next (s.rejected .lifecycleFailure)) ∧
  (∀ s : State, s.caps.allBound = true →
    ∃ t, exec (.init true) s = .next t ∧
      ((t.status = some .success ∧ noFailure t.trace) ∨
       (t.status = some .lifecycleFailure ∧ ∃ front e back, t.trace = front ++ ⟨e, .fail⟩ :: back ∧ noFailure front ∧
          eventsOf front ++ [e] <+: [Event.ceInit, Event.clkInit, Event.ioInit] ∧
          ∀ r ∈ back, r.event = Event.clkDeinit ∨ r.event = Event.ceDeinit)))

/-- Before a successful INIT and after a successful DEINIT every public request other than INIT returns NotInitialized and
issues no port event (45_lifecycle.md R602). One with the handle absent reports that first (60_exceptions.md R710) and
issues none either. -/
def Obligations.UninitialisedRequestsAreTurnedAway : Prop :=
  ∀ (i : Instr), i.WellFormed → isPublic i = true → (∀ h, i ≠ .init h) →
    (∀ s : State, s.initFlag = false →
      exec i s = .next (s.rejected (if handleOf i then .notInitialized else .nullArgument))) ∧
    (handleOf i = true → exec i State.reset = .next (State.reset.rejected .notInitialized)) ∧
    (∀ (h : Bool) (s t : State), exec (.deinit h) s = .next t → t.status = some .success → handleOf i = true →
      exec i t = .next (t.rejected .notInitialized))

/-- Every request ends, with exactly one status kind, one of those it can end with, and the block is then idle with no
datapath register alive (60_exceptions.md R700, R708, R709; 10_state.md R24, R26, R27). Three things here are the model's
choices: that a request always ends, since every port call returns (log entry 12); that a wire row, which R709 does not list,
runs and ends with Success or TransferFailure (log entry 8); and that TIME_VALIDATE can end only with Success, its kind being
a value (log entry 24). -/
def Obligations.EveryRequestEndsWithOneStatus : Prop :=
  ∀ (i : Instr) (s : State), i.WellFormed →
    ∃ t k, exec i s = .next t ∧ t.status = some k ∧ (k = .success ∨ k ∈ errorKinds i) ∧ t.pos = .idle ∧ t.req = none ∧
      t.dp = Datapath.cleared

/-- When a request ends with any kind other than Success, its data output is none (60_exceptions.md R706). -/
def Obligations.OutputsExistOnlyOnSuccess : Prop :=
  ∀ (i : Instr) (s t : State), exec i s = .next t → t.status ≠ some .success → t.out = .none

/-- A transfer failure is the answer fail to a CE_WRITE, CLK_WRITE, IO_WRITE or IO_READ, the last event of the request; no
event before it failed; nothing of the block changes but the bus shadow, the status and the trace. A request whose trace
holds a failed answer does not end with Success (60_exceptions.md R704, R705; 41_bit_engine.md R212). -/
def Obligations.TransferFailuresArePrecise : Prop :=
  (∀ (i : Instr) (s t : State), exec i s = .next t → t.status = some .transferFailure →
    t.out = .none ∧ Kept s t ∧
    ∃ front e, t.trace = front ++ [⟨e, .fail⟩] ∧ noFailure front ∧
      (e = Event.ioRead ∨ ∃ l, e = Event.ceWrite l ∨ e = Event.clkWrite l ∨ e = Event.ioWrite l)) ∧
  (∀ (i : Instr) (s t : State), exec i s = .next t → t.status = some .success → noFailure t.trace)

/-- The bus after a transfer failure (41_bit_engine.md R211, 60_exceptions.md R704): CE is X if the CE_WRITE itself failed and
1 otherwise; a failed CLK_WRITE leaves CLK X, a failed IO_WRITE the data line and its direction X. In a read frame the data
line is released after the last command slot and before the first IN slot (R204): a failure at pin event 25 or before leaves
it as the answered events did, and one in an IN slot or at the closing CE_WRITE leaves it X and IN; in a write frame it is
always as the answered events left it. The last clause says the whole bus after every request, however it ends: the answered
events by the table of 10_state.md R22, and the release in its place. -/
def Obligations.BusAfterATransferFailure : Prop :=
  (∀ (i : Instr) (s t : State) (front : List PortRecord) (e : Event), exec i s = .next t →
    t.status = some .transferFailure → t.trace = front ++ [⟨e, .fail⟩] →
    ((∃ l, e = Event.ceWrite l) → t.bus.ce = .x) ∧
    ((∀ l, e ≠ Event.ceWrite l) → t.bus.ce = .high) ∧
    ((∃ l, e = Event.clkWrite l) → t.bus.clk = .x) ∧
    ((∃ l, e = Event.ioWrite l) → t.bus.io = .x ∧ t.bus.ioDir = .x) ∧
    (e = Event.ioRead → t.bus.io = .x ∧ t.bus.ioDir = .inp) ∧
    t.bus.ce = (s.bus.replay t.trace).ce ∧ t.bus.clk = (s.bus.replay t.trace).clk) ∧
  (∀ (s : State) (c : Byte) (p : Nat), p ≤ 50 → s.env.answersFailAt p = true →
    ∃ t, exec (.engReadByte c) s = .next t ∧
      if p ≤ 25 then t.bus = s.bus.replay t.trace else t.bus.io = .x ∧ t.bus.ioDir = .inp) ∧
  (∀ (s : State) (bc n : Byte) (p : Nat), p ≤ 26 + 24 * n.toNat → s.env.answersFailAt p = true →
    ∃ t, exec (.regBurstRead bc n) s = .next t ∧
      if p ≤ 25 then t.bus = s.bus.replay t.trace else t.bus.io = .x ∧ t.bus.ioDir = .inp) ∧
  (∀ (s : State) (c v : Byte) (p : Nat), p ≤ 51 → s.env.answersFailAt p = true →
    ∃ t, exec (.engWriteByte c v) s = .next t ∧ t.bus = s.bus.replay t.trace) ∧
  (∀ (s : State) (bc n : Byte) (w : List Byte) (p : Nat), w.length = n.toNat → p ≤ 27 + 24 * w.length →
    s.env.answersFailAt p = true → ∃ t, exec (.regBurstWrite bc n w) s = .next t ∧ t.bus = s.bus.replay t.trace) ∧
  (∀ (i : Instr) (s t : State), exec i s = .next t → t.bus = s.bus.replayReleasing false t.trace)

/-- The bus shadow's table (10_state.md R22), the internal release included (41_bit_engine.md R204). -/
def Obligations.BusShadowFollowsTheAnswers : Prop :=
  (∀ (b : Bus) (l : Bool),
    b.after (Event.ceWrite l) .ok = { b with ce := if l then .high else .low } ∧
    b.after (Event.ceWrite l) .fail = { b with ce := .x } ∧
    b.after (Event.clkWrite l) .ok = { b with clk := if l then .high else .low } ∧
    b.after (Event.clkWrite l) .fail = { b with clk := .x } ∧
    b.after (Event.ioWrite l) .ok = { b with io := if l then .high else .low, ioDir := .out } ∧
    b.after (Event.ioWrite l) .fail = { b with io := .x, ioDir := .x } ∧
    b.released = { b with io := .x, ioDir := .inp }) ∧
  (∀ (b : Bus) (r : Reply) (n : Nat) (e : Event),
    e ∈ [Event.ioRead, .delayMs n, .delayUs n, .debugPrint, Event.ceInit, Event.clkInit, Event.ioInit, Event.ceDeinit, Event.clkDeinit, Event.ioDeinit] →
    b.after e r = b)

/-! ## Lifecycle -/

/-- INIT (45_lifecycle.md R600): absent handle; an unbound capability, with no event; the three lines up in order and the
flag set; at the first failing line the lines already up are released in reverse, whatever is answered, and the flag stays
as it was. -/
def Obligations.InitBringsTheLinesUp : Prop :=
  (∀ h : Bool, leadByte (.init h) = 0x01#8) ∧
  (∀ s : State, exec (.init false) s = .next (s.rejected .nullArgument)) ∧
  (∀ s : State, s.caps.allBound = false → exec (.init true) s = .next (s.rejected .lifecycleFailure)) ∧
  (∀ s : State, s.caps.allBound = true →
    (s.env.answersOk 3 = true → LifecycleEnds (.init true) s .success [Event.ceInit, Event.clkInit, Event.ioInit] true) ∧
    (s.env.answersFailAt 1 = true → LifecycleEnds (.init true) s .lifecycleFailure [Event.ceInit] s.initFlag) ∧
    (s.env.answersFailAt 2 = true →
      LifecycleEnds (.init true) s .lifecycleFailure [Event.ceInit, Event.clkInit, Event.ceDeinit] s.initFlag) ∧
    (s.env.answersFailAt 3 = true →
      LifecycleEnds (.init true) s .lifecycleFailure [Event.ceInit, Event.clkInit, Event.ioInit, Event.clkDeinit, Event.ceDeinit] s.initFlag))

/-- DEINIT (45_lifecycle.md R601): absent handle; not initialised, with no event; the three lines down in order and the flag
cleared; at the first failing line it stops, the lines after it unreleased, and the flag stays 1. The capabilities are not
checked. -/
def Obligations.DeinitBringsTheLinesDown : Prop :=
  (∀ h : Bool, leadByte (.deinit h) = 0x02#8) ∧
  (∀ s : State, exec (.deinit false) s = .next (s.rejected .nullArgument)) ∧
  (∀ s : State, s.initFlag = false → exec (.deinit true) s = .next (s.rejected .notInitialized)) ∧
  (∀ s : State, s.initFlag = true →
    (s.env.answersOk 3 = true → LifecycleEnds (.deinit true) s .success [Event.ceDeinit, Event.clkDeinit, Event.ioDeinit] false) ∧
    (s.env.answersFailAt 1 = true → LifecycleEnds (.deinit true) s .lifecycleFailure [Event.ceDeinit] true) ∧
    (s.env.answersFailAt 2 = true → LifecycleEnds (.deinit true) s .lifecycleFailure [Event.ceDeinit, Event.clkDeinit] true) ∧
    (s.env.answersFailAt 3 = true →
      LifecycleEnds (.deinit true) s .lifecycleFailure [Event.ceDeinit, Event.clkDeinit, Event.ioDeinit] true))

/-- Neither INIT nor DEINIT issues a frame: only `*_INIT` and `*_DEINIT` events, so the target, the bus shadow and the
capabilities are as before, whatever the answers (70_reset_and_hazards.md R801, R802; 10_state.md R45). -/
def Obligations.LifecycleLeavesTheTarget : Prop :=
  ∀ (h : Bool) (s t : State), exec (.init h) s = .next t ∨ exec (.deinit h) s = .next t →
    (∀ r ∈ t.trace, r.event ∈ [Event.ceInit, Event.clkInit, Event.ioInit, Event.ceDeinit, Event.clkDeinit, Event.ioDeinit]) ∧
    t.env.double = s.env.double ∧ t.bus = s.bus ∧ t.caps = s.caps

/-! ## Answers -/

/-- The responder's liberties (60_exceptions.md R721): whatever the world answers, each pin event has an answer and a delay or
debug print has none (decision D8; 00_scope.md R10). That the world's answers are a scripted list taken from its head, what
is left of that list, and that no free value is drawn while it lasts are the model's choice (log entry 2). -/
def Obligations.TheWorldsAnswersAreTakenInOrder : Prop :=
  ∀ (i : Instr) (s t : State), exec i s = .next t → s.env.responder = .world →
    let pins := t.trace.filter fun r => r.event.isPin
    (∀ r ∈ t.trace, r.event.isPin = false → r.reply = .none) ∧
    (pins.length ≤ s.env.answers.length →
      pins.map (fun r => r.reply) = List.zipWith (fun r a => r.event.reply a) pins s.env.answers ∧
      t.env.answers = s.env.answers.drop pins.length ∧ t.env.draws = s.env.draws)

/-- Nothing of the datapath, of the last status, output and trace, or of the position reaches a request: every register is
written before it is read (10_state.md R24, R26, R27). That a request accepted at a position that is not idle runs and the
position is forgotten is the model's choice (log entry 13): 20_memory.md R70 and decision D27 give it no move. -/
def Obligations.NothingOfTheLastRequestReachesTheNext : Prop :=
  ∀ (i : Instr) (s : State) (dp : Datapath) (pos : Pos) (status : Option Status) (out : Out) (trace : List PortRecord),
    exec i { s with dp := dp, pos := pos, status := status, out := out, trace := trace } = exec i s

/-- The internal requests and the wire rows read neither `S.init_flag` nor `S.cap` (41_bit_engine.md R216, decision D40). That
the wire rows run as they stand, with no guard, is the model's choice (log entry 8). -/
def Obligations.InternalRequestsAreUnguarded : Prop :=
  ∀ (i : Instr) (s t : State) (flag : Bool) (c : Caps), isPublic i = false → exec i s = .next t →
    exec i { s with initFlag := flag, caps := c } = .next { t with initFlag := flag, caps := c }

/-! ## Frames -/

/-- The pin events and the delay events of each frame (30_encoding.md R106). -/
def Obligations.FrameEventCounts : Prop :=
  ∀ (c v : Byte) (l : List Byte) (n : Nat),
    (pinsOf (singleWrite c v)).length = 51 ∧ (delaysOf (singleWrite c v)).length = 48 ∧
    (pinsOf (singleRead c)).length = 50 ∧ (delaysOf (singleRead c)).length = 40 ∧
    (pinsOf (burstWrite c l)).length = 27 + 24 * l.length ∧ (delaysOf (burstWrite c l)).length = 24 + 24 * l.length ∧
    (pinsOf (burstRead c n)).length = 26 + 24 * n ∧ (delaysOf (burstRead c n)).length = 24 + 16 * n ∧
    burstWrite c [v] = singleWrite c v ∧ burstRead c 1 = singleRead c

/-- ENG_WRITE_BYTE (41_bit_engine.md R209): the single write frame, the bus it leaves, the numbering of its 51 pin events,
and the failure at each of them. -/
def Obligations.EngWriteByteSendsOneFrame : Prop :=
  ∀ (s : State) (c v : Byte),
    (s.env.answersOk 51 = true →
      Completes (.engWriteByte c v) s (fun _ => singleWrite c v) (fun _ => .none) ⟨.low, .low, .low, .out⟩) ∧
    (∀ p, p ≤ 51 → s.env.answersFailAt p = true → FailsAt (.engWriteByte c v) s p (fun _ => singleWrite c v)) ∧
    (pinsOf (singleWrite c v))[0]? = some (Event.ceWrite true) ∧
    (∀ j, j < 8 →
      (pinsOf (singleWrite c v))[1 + 3 * j]? = some (Event.ioWrite (c.getLsbD j)) ∧
      (pinsOf (singleWrite c v))[2 + 3 * j]? = some (Event.clkWrite true) ∧
      (pinsOf (singleWrite c v))[3 + 3 * j]? = some (Event.clkWrite false) ∧
      (pinsOf (singleWrite c v))[25 + 3 * j]? = some (Event.ioWrite (v.getLsbD j)) ∧
      (pinsOf (singleWrite c v))[26 + 3 * j]? = some (Event.clkWrite true) ∧
      (pinsOf (singleWrite c v))[27 + 3 * j]? = some (Event.clkWrite false)) ∧
    (pinsOf (singleWrite c v))[49]? = some (Event.ioWrite false) ∧ (pinsOf (singleWrite c v))[50]? = some (Event.ceWrite false)

/-- ENG_READ_BYTE (41_bit_engine.md R210): the single read frame, the byte of the eight levels it sampled, first level bit 0
(R206), the bus it leaves, the numbering of its 50 pin events, and the failure at each of them. -/
def Obligations.EngReadByteSendsOneFrame : Prop :=
  ∀ (s : State) (c : Byte),
    (s.env.answersOk 50 = true →
      Completes (.engReadByte c) s (fun _ => singleRead c) (fun l => .byte (byteOfBits l)) ⟨.low, .low, .x, .inp⟩) ∧
    (∀ p, p ≤ 50 → s.env.answersFailAt p = true → FailsAt (.engReadByte c) s p (fun _ => singleRead c)) ∧
    (pinsOf (singleRead c))[0]? = some (Event.ceWrite true) ∧
    (∀ j, j < 8 →
      (pinsOf (singleRead c))[1 + 3 * j]? = some (Event.ioWrite (c.getLsbD j)) ∧
      (pinsOf (singleRead c))[2 + 3 * j]? = some (Event.clkWrite true) ∧
      (pinsOf (singleRead c))[3 + 3 * j]? = some (Event.clkWrite false) ∧
      (pinsOf (singleRead c))[25 + 3 * j]? = some Event.ioRead ∧
      (pinsOf (singleRead c))[26 + 3 * j]? = some (Event.clkWrite true) ∧
      (pinsOf (singleRead c))[27 + 3 * j]? = some (Event.clkWrite false)) ∧
    (pinsOf (singleRead c))[49]? = some (Event.ceWrite false) ∧
    (∀ l : List Bool, l.length = 8 → ∀ j, j < 8 → (byteOfBits l).getLsbD j = l[j]?.getD false)

/-- REG_WRITE_MULTIPLE (42_register_access.md R302): one write frame per byte at the stepped addresses, none for n = 0; a
failure in any frame stops it. -/
def Obligations.RegWriteMultipleSendsAFramePerByte : Prop :=
  ∀ (s : State) (start n : Byte) (w : List Byte), w.length = n.toNat →
    (s.env.answersOk (51 * w.length) = true →
      Completes (.regWriteMultiple start n w) s (fun _ => multiWrite start 0 w) (fun _ => .none)
        (if w = [] then s.bus else Bus.afterWrite)) ∧
    (∀ p, p ≤ 51 * w.length → s.env.answersFailAt p = true →
      FailsAt (.regWriteMultiple start n w) s p (fun _ => multiWrite start 0 w))

/-- REG_READ_MULTIPLE (42_register_access.md R303): one read frame per byte at the stepped addresses, the bytes in order; no
event and no byte for n = 0; a failure in any frame stops it. -/
def Obligations.RegReadMultipleSendsAFramePerByte : Prop :=
  ∀ (s : State) (start n : Byte),
    (s.env.answersOk (50 * n.toNat) = true →
      Completes (.regReadMultiple start n) s (fun _ => multiRead start 0 n.toNat)
        (fun l => .bytes (bytesOfBits n.toNat l)) (if n = 0 then s.bus else Bus.afterRead)) ∧
    (∀ p, p ≤ 50 * n.toNat → s.env.answersFailAt p = true →
      FailsAt (.regReadMultiple start n) s p (fun _ => multiRead start 0 n.toNat))

/-- REG_BURST_WRITE (42_register_access.md R304): one frame, the command verbatim and the bytes in order; the numbering of
its pin events; the failure at each of them. -/
def Obligations.RegBurstWriteSendsOneFrame : Prop :=
  ∀ (s : State) (bc n : Byte) (w : List Byte), w.length = n.toNat →
    (s.env.answersOk (27 + 24 * w.length) = true →
      Completes (.regBurstWrite bc n w) s (fun _ => burstWrite bc w) (fun _ => .none) Bus.afterWrite) ∧
    (∀ p, p ≤ 27 + 24 * w.length → s.env.answersFailAt p = true →
      FailsAt (.regBurstWrite bc n w) s p (fun _ => burstWrite bc w)) ∧
    (pinsOf (burstWrite bc w))[0]? = some (Event.ceWrite true) ∧
    (∀ j, j < 8 →
      (pinsOf (burstWrite bc w))[1 + 3 * j]? = some (Event.ioWrite (bc.getLsbD j)) ∧
      (pinsOf (burstWrite bc w))[2 + 3 * j]? = some (Event.clkWrite true) ∧
      (pinsOf (burstWrite bc w))[3 + 3 * j]? = some (Event.clkWrite false)) ∧
    (∀ k j, k < w.length → j < 8 →
      (pinsOf (burstWrite bc w))[25 + 24 * k + 3 * j]? = some (Event.ioWrite ((w.getD k 0).getLsbD j)) ∧
      (pinsOf (burstWrite bc w))[26 + 24 * k + 3 * j]? = some (Event.clkWrite true) ∧
      (pinsOf (burstWrite bc w))[27 + 24 * k + 3 * j]? = some (Event.clkWrite false)) ∧
    (pinsOf (burstWrite bc w))[25 + 24 * w.length]? = some (Event.ioWrite false) ∧
    (pinsOf (burstWrite bc w))[26 + 24 * w.length]? = some (Event.ceWrite false)

/-- REG_BURST_READ (42_register_access.md R305): one frame, the command with the read selector or-ed in, the bytes in order;
the numbering of its pin events; the failure at each of them. -/
def Obligations.RegBurstReadSendsOneFrame : Prop :=
  ∀ (s : State) (bc n : Byte),
    (s.env.answersOk (26 + 24 * n.toNat) = true →
      Completes (.regBurstRead bc n) s (fun _ => burstRead (bc ||| 0x01#8) n.toNat)
        (fun l => .bytes (bytesOfBits n.toNat l)) Bus.afterRead) ∧
    (∀ p, p ≤ 26 + 24 * n.toNat → s.env.answersFailAt p = true →
      FailsAt (.regBurstRead bc n) s p (fun _ => burstRead (bc ||| 0x01#8) n.toNat)) ∧
    (pinsOf (burstRead bc n.toNat))[0]? = some (Event.ceWrite true) ∧
    (∀ j, j < 8 →
      (pinsOf (burstRead bc n.toNat))[1 + 3 * j]? = some (Event.ioWrite (bc.getLsbD j)) ∧
      (pinsOf (burstRead bc n.toNat))[2 + 3 * j]? = some (Event.clkWrite true) ∧
      (pinsOf (burstRead bc n.toNat))[3 + 3 * j]? = some (Event.clkWrite false)) ∧
    (∀ k, k < 8 * n.toNat →
      (pinsOf (burstRead bc n.toNat))[25 + 3 * k]? = some Event.ioRead ∧
      (pinsOf (burstRead bc n.toNat))[26 + 3 * k]? = some (Event.clkWrite true) ∧
      (pinsOf (burstRead bc n.toNat))[27 + 3 * k]? = some (Event.clkWrite false)) ∧
    (pinsOf (burstRead bc n.toNat))[25 + 24 * n.toNat]? = some (Event.ceWrite false)

/-! ## Public wrappers -/

/-- CLOCK_BURST_WRITE and RAM_BURST_WRITE (42_register_access.md R306, R308): one burst write frame with command 0xBE or
0xFE, at most 8 or 31 bytes; a longer one is InvalidArgument with no event. -/
def Obligations.BurstWriteRequests : Prop :=
  ∀ (s : State) (n : Byte) (w : List Byte), s.initFlag = true → w.length = n.toNat →
    (n.toNat ≤ 8 → s.env.answersOk (27 + 24 * w.length) = true →
      Completes (.clockBurstWrite true n (some w)) s (fun _ => burstWrite 0xBE#8 w) (fun _ => .none) Bus.afterWrite) ∧
    (n.toNat ≤ 8 → ∀ p, p ≤ 27 + 24 * w.length → s.env.answersFailAt p = true →
      FailsAt (.clockBurstWrite true n (some w)) s p (fun _ => burstWrite 0xBE#8 w)) ∧
    (8 < n.toNat → exec (.clockBurstWrite true n (some w)) s = .next (s.rejected .invalidArgument)) ∧
    (n.toNat ≤ 31 → s.env.answersOk (27 + 24 * w.length) = true →
      Completes (.ramBurstWrite true n (some w)) s (fun _ => burstWrite 0xFE#8 w) (fun _ => .none) Bus.afterWrite) ∧
    (n.toNat ≤ 31 → ∀ p, p ≤ 27 + 24 * w.length → s.env.answersFailAt p = true →
      FailsAt (.ramBurstWrite true n (some w)) s p (fun _ => burstWrite 0xFE#8 w)) ∧
    (31 < n.toNat → exec (.ramBurstWrite true n (some w)) s = .next (s.rejected .invalidArgument))

/-- CLOCK_BURST_READ and RAM_BURST_READ (42_register_access.md R307, R309): one burst read frame with command 0xBF or 0xFF,
at most 8 or 31 bytes; a longer one is InvalidArgument with no event. -/
def Obligations.BurstReadRequests : Prop :=
  ∀ (s : State) (n : Byte), s.initFlag = true →
    (n.toNat ≤ 8 → s.env.answersOk (26 + 24 * n.toNat) = true →
      Completes (.clockBurstRead true true n) s (fun _ => burstRead 0xBF#8 n.toNat)
        (fun l => .bytes (bytesOfBits n.toNat l)) Bus.afterRead) ∧
    (n.toNat ≤ 8 → ∀ p, p ≤ 26 + 24 * n.toNat → s.env.answersFailAt p = true →
      FailsAt (.clockBurstRead true true n) s p (fun _ => burstRead 0xBF#8 n.toNat)) ∧
    (8 < n.toNat → exec (.clockBurstRead true true n) s = .next (s.rejected .invalidArgument)) ∧
    (n.toNat ≤ 31 → s.env.answersOk (26 + 24 * n.toNat) = true →
      Completes (.ramBurstRead true true n) s (fun _ => burstRead 0xFF#8 n.toNat)
        (fun l => .bytes (bytesOfBits n.toNat l)) Bus.afterRead) ∧
    (n.toNat ≤ 31 → ∀ p, p ≤ 26 + 24 * n.toNat → s.env.answersFailAt p = true →
      FailsAt (.ramBurstRead true true n) s p (fun _ => burstRead 0xFF#8 n.toNat)) ∧
    (31 < n.toNat → exec (.ramBurstRead true true n) s = .next (s.rejected .invalidArgument))

/-- SET_REG and GET_REG (42_register_access.md R310, R311): the multiple transfers at any start address, with no range
check. -/
def Obligations.RawRegisterRequests : Prop :=
  ∀ (s : State) (reg n : Byte) (w : List Byte), s.initFlag = true → w.length = n.toNat →
    (s.env.answersOk (51 * w.length) = true →
      Completes (.setReg true reg n (some w)) s (fun _ => multiWrite reg 0 w) (fun _ => .none)
        (if w = [] then s.bus else Bus.afterWrite)) ∧
    (∀ p, p ≤ 51 * w.length → s.env.answersFailAt p = true →
      FailsAt (.setReg true reg n (some w)) s p (fun _ => multiWrite reg 0 w)) ∧
    (s.env.answersOk (50 * n.toNat) = true →
      Completes (.getReg true true reg n) s (fun _ => multiRead reg 0 n.toNat)
        (fun l => .bytes (bytesOfBits n.toNat l)) (if n = 0 then s.bus else Bus.afterRead)) ∧
    (∀ p, p ≤ 50 * n.toNat → s.env.answersFailAt p = true →
      FailsAt (.getReg true true reg n) s p (fun _ => multiRead reg 0 n.toNat))

/-- A transfer failure in frame k of REG_WRITE_MULTIPLE, SET_REG or WRITE_RAM leaves frames 0 to k − 1 delivered, and no undo
is issued: the events are those frames in full and frame k up to its failing event (42_register_access.md R313). -/
def Obligations.PartialWritesPersist : Prop :=
  ∀ (s : State) (start addr n : Byte) (w : List Byte) (k q : Nat) (v : Byte), w.length = n.toNat → w[k]? = some v →
    1 ≤ q → q ≤ 51 → s.env.answersFailAt (51 * k + q) = true →
    FailsAt (.regWriteMultiple start n w) s (51 * k + q) (fun _ => multiWrite start 0 w) ∧
    (s.initFlag = true → FailsAt (.setReg true start n (some w)) s (51 * k + q) (fun _ => multiWrite start 0 w)) ∧
    (s.initFlag = true → addr.toNat + n.toNat ≤ 31 → addr.toNat ≤ 30 →
      FailsAt (.writeRam true addr n (some w)) s (51 * k + q)
        (fun _ => multiWrite (BitVec.ofNat 8 (0xC0 + 2 * addr.toNat)) 0 w)) ∧
    throughPin (51 * k + q) (multiWrite start 0 w) =
      multiWrite start 0 (w.take k) ++ throughPin q (singleWrite (aw start k) v)

/-- A public request that is a pure composition runs as the internal request it expands to, once its checks have passed
(30_encoding.md R126): the two end in the same state. -/
def Obligations.PublicRequestsExpand : Prop :=
  ∀ (s : State) (a n v : Byte) (w : List Byte), s.initFlag = true →
    (n.toNat ≤ 8 → exec (.clockBurstWrite true n (some w)) s = exec (.regBurstWrite 0xBE#8 n w) s) ∧
    (n.toNat ≤ 8 → exec (.clockBurstRead true true n) s = exec (.regBurstRead 0xBE#8 n) s) ∧
    (n.toNat ≤ 31 → exec (.ramBurstWrite true n (some w)) s = exec (.regBurstWrite 0xFE#8 n w) s) ∧
    (n.toNat ≤ 31 → exec (.ramBurstRead true true n) s = exec (.regBurstRead 0xFE#8 n) s) ∧
    exec (.setReg true a n (some w)) s = exec (.regWriteMultiple a n w) s ∧
    exec (.getReg true true a n) s = exec (.regReadMultiple a n) s ∧
    (a.toNat ≤ 30 → a.toNat + n.toNat ≤ 31 →
      exec (.writeRam true a n (some w)) s = exec (.regWriteMultiple (BitVec.ofNat 8 (0xC0 + 2 * a.toNat)) n w) s ∧
      exec (.readRam true true a n) s = exec (.regReadMultiple (BitVec.ofNat 8 (0xC0 + 2 * a.toNat)) n) s) ∧
    exec (.setCharge true v) s = exec (.engWriteByte 0x90#8 v) s ∧
    exec (.getCharge true true) s = exec (.engReadByte 0x91#8) s

/-! ## The codec -/

/-- HEX_TO_BCD and BCD_TO_HEX (43_bcd_codec.md R400, R401): the formulas, with no event and nothing of the block changed;
the corner cases the rules name. -/
def Obligations.BcdConverters : Prop :=
  (∀ (s : State) (v : Byte),
    Completes (.hexToBcd v) s (fun _ => [])
      (fun _ => .byte (BitVec.ofNat 8 ((v.toNat / 10 * 16 ||| v.toNat % 10) % 256))) s.bus ∧
    Completes (.bcdToHex v) s (fun _ => []) (fun _ => .byte (BitVec.ofNat 8 (v.toNat / 16 * 10 + v.toNat % 16))) s.bus ∧
    leadByte (.hexToBcd v) = 0x90#8 ∧ leadByte (.bcdToHex v) = 0x91#8) ∧
  (∀ v : Byte, v.toNat ≤ 99 → (hexToBcd v).toNat / 16 = v.toNat / 10 ∧ (hexToBcd v).toNat % 16 = v.toNat % 10) ∧
  (∀ v : Byte, 100 ≤ v.toNat → v.toNat ≤ 159 →
    10 ≤ (hexToBcd v).toNat / 16 ∧ (hexToBcd v).toNat / 16 = v.toNat / 10) ∧
  (∀ v : Byte, v.toNat / 10 * 16 ||| v.toNat % 10 = v.toNat / 10 * 16 + v.toNat % 10) ∧
  (∀ v : Byte, v.toNat / 16 * 10 + v.toNat % 16 ≤ 165 ∧ (bcdToHex v).toNat ≤ 165) ∧
  hexToBcd 42#8 = 0x42#8 ∧ hexToBcd 100#8 = 0xA0#8 ∧ hexToBcd 159#8 = 0xF9#8 ∧ hexToBcd 160#8 = 0x00#8 ∧
  hexToBcd 165#8 = 0x05#8 ∧ hexToBcd 255#8 = 0x95#8 ∧
  bcdToHex 0x59#8 = 59#8 ∧ bcdToHex 0x0A#8 = 10#8 ∧ bcdToHex 0x10#8 = 10#8 ∧ bcdToHex 0x1F#8 = 25#8 ∧
  bcdToHex 0xA0#8 = 100#8 ∧ bcdToHex 0xFF#8 = 165#8

/-- The BCD laws (43_bcd_codec.md R405): (a) up to 99, (b) up to 159 and never from 160 on, (c) every pair of decimal
digits. -/
def Obligations.BcdLaws : Prop :=
  (∀ v : Byte, v.toNat ≤ 99 → bcdToHex (hexToBcd v) = v) ∧
  (∀ v : Byte, v.toNat ≤ 159 → bcdToHex (hexToBcd v) = v) ∧
  (∀ v : Byte, 160 ≤ v.toNat → bcdToHex (hexToBcd v) ≠ v) ∧
  hexToBcd 160#8 = 0x00#8 ∧ bcdToHex 0x00#8 = 0#8 ∧
  (∀ b : Byte, b.toNat / 16 ≤ 9 → b.toNat % 16 ≤ 9 → hexToBcd (bcdToHex b) = b)

/-- TIME_VALIDATE (43_bcd_codec.md R402): Success exactly for a record in range, InvalidArgument otherwise, with no event.
The result is a value; that the request itself ends with Success is the model's reading (log entry 24). -/
def Obligations.TimeValidateChecksEveryRange : Prop :=
  ∀ (s : State) (r : TimeRecord),
    leadByte (.timeValidate r) = 0x92#8 ∧
    (timeInRange r → Completes (.timeValidate r) s (fun _ => []) (fun _ => .kind .success) s.bus) ∧
    (¬timeInRange r → Completes (.timeValidate r) s (fun _ => []) (fun _ => .kind .invalidArgument) s.bus)

/-- TIME_ENCODE and HOUR_ENC (43_bcd_codec.md R403, R404): the seven pairs in the write order, with the oscillator bit of
`old`. For a format code that is neither H12 nor H24 the hour byte is a free value (log entry 20), and every other pair is as
for any record. -/
def Obligations.TimeEncodeGivesTheSevenWrites : Prop :=
  ∀ (s : State) (r : TimeRecord) (old : Byte),
    leadByte (.timeEncode r old) = 0x93#8 ∧
    ∃ hour : Byte,
      (r.format = 0x01#8 → hour = 0x80#8 ||| (if r.amPm then 0x20#8 else 0x00#8) ||| hexToBcd r.hour) ∧
      (r.format = 0x00#8 → hour = hexToBcd r.hour &&& 0x7F#8) ∧
      Completes (.timeEncode r old) s (fun _ => [])
        (fun _ => .pairs
          [(0x80#8, (old &&& 0x80#8) ||| hexToBcd r.second), (0x82#8, hexToBcd r.minute), (0x84#8, hour),
           (0x8A#8, hexToBcd r.week), (0x86#8, hexToBcd r.date), (0x88#8, hexToBcd r.month),
           (0x8C#8, hexToBcd (BitVec.ofInt 8 ((r.year.toNat : Int) - 2000)))]) s.bus

/-- TIME_DECODE (43_bcd_codec.md R406): each field from its byte and mask, the format from bit 7 and AM/PM from bit 5 of the
hour byte, nothing validated. -/
def Obligations.TimeDecodeMasksEveryField : Prop :=
  ∀ (s : State) (b : TimeBytes),
    leadByte (.timeDecode b) = 0x94#8 ∧
    ∃ r : TimeRecord,
      Completes (.timeDecode b) s (fun _ => []) (fun _ => .record r) s.bus ∧
      r.second = bcdToHex (b.second &&& 0x7F#8) ∧ r.minute = bcdToHex (b.minute &&& 0x7F#8) ∧
      r.format = (if b.hour.getLsbD 7 then 0x01#8 else 0x00#8) ∧ r.amPm = b.hour.getLsbD 5 ∧
      r.hour = (if b.hour.getLsbD 7 then bcdToHex (b.hour &&& 0x1F#8) else bcdToHex (b.hour &&& 0x3F#8)) ∧
      r.date = bcdToHex (b.date &&& 0x3F#8) ∧ r.month = bcdToHex (b.month &&& 0x1F#8) ∧
      r.week = bcdToHex (b.week &&& 0x07#8) ∧ r.year.toNat = 2000 + (bcdToHex b.year).toNat

/-- SET_TIME (43_bcd_codec.md R411): a record out of range is InvalidArgument with no event; otherwise one read frame of the
second register and the seven writes of TIME_ENCODE with the byte read, 407 pin events; a failure in any frame stops it. -/
def Obligations.SetTimeReadsThenWritesSeven : Prop :=
  ∀ (s : State) (r : TimeRecord), s.initFlag = true →
    (¬timeInRange r → exec (.setTime true (some r)) s = .next (s.rejected .invalidArgument)) ∧
    (timeInRange r → s.env.answersOk 407 = true →
      Completes (.setTime true (some r)) s
        (fun l => singleRead 0x81#8 ++ pairWrites (timeEncode r (byteOfBits l))) (fun _ => .none) Bus.afterWrite) ∧
    (timeInRange r → ∀ p, p ≤ 50 → s.env.answersFailAt p = true →
      FailsAt (.setTime true (some r)) s p (fun _ => singleRead 0x81#8)) ∧
    (timeInRange r → ∀ p, p ≤ 407 → s.env.answersFailAt p = true →
      FailsAt (.setTime true (some r)) s p
        (fun l => singleRead 0x81#8 ++ pairWrites (timeEncode r (byteOfBits l))))

/-- GET_TIME (43_bcd_codec.md R412): seven read frames, commands 0x81 to 0x8D, 350 pin events, and the decoded record of the
bytes they sampled; a failure in any frame stops it. -/
def Obligations.GetTimeReadsSevenAndDecodes : Prop :=
  ∀ s : State, s.initFlag = true →
    (s.env.answersOk 350 = true →
      Completes (.getTime true true) s
        (fun _ => singleRead 0x81#8 ++ singleRead 0x83#8 ++ singleRead 0x85#8 ++ singleRead 0x87#8 ++
          singleRead 0x89#8 ++ singleRead 0x8B#8 ++ singleRead 0x8D#8)
        (fun l => .record (timeDecode (timeBytesOf (bytesOfBits 7 l)))) Bus.afterRead) ∧
    (∀ p, p ≤ 350 → s.env.answersFailAt p = true →
      FailsAt (.getTime true true) s p
        (fun _ => singleRead 0x81#8 ++ singleRead 0x83#8 ++ singleRead 0x85#8 ++ singleRead 0x87#8 ++
          singleRead 0x89#8 ++ singleRead 0x8B#8 ++ singleRead 0x8D#8))

/-- The time round trip (43_bcd_codec.md R413): on a target that returns the bytes written, as the reference double does,
SET_TIME and then GET_TIME give back the record field for field, am_pm too in 12-hour format, and in 24-hour format am_pm
exactly for hours from 20 on. The last clause says the same of any responder whose GET_TIME levels are the bytes written. -/
def Obligations.TimeRoundTrip : Prop :=
  (∀ (s : State) (r : TimeRecord), Inv s → s.onDouble → s.initFlag = true → timeInRange r →
    ∃ t u g, exec (.setTime true (some r)) s = .next t ∧ t.status = some .success ∧
      exec (.getTime true true) t = .next u ∧ u.status = some .success ∧ u.out = .record g ∧
      g.year = r.year ∧ g.month = r.month ∧ g.date = r.date ∧ g.week = r.week ∧ g.hour = r.hour ∧
      g.minute = r.minute ∧ g.second = r.second ∧ g.format = r.format ∧
      (r.format = 0x01#8 → g.amPm = r.amPm) ∧ (r.format = 0x00#8 → (g.amPm = true ↔ 20 ≤ r.hour.toNat))) ∧
  (∀ (s t : State) (r : TimeRecord) (old se mi hr wk dt mo yr : Byte), s.initFlag = true → timeInRange r →
    timeEncode r old = [(0x80#8, se), (0x82#8, mi), (0x84#8, hr), (0x8A#8, wk), (0x86#8, dt), (0x88#8, mo),
      (0x8C#8, yr)] →
    s.env.answersOk 350 = true → exec (.getTime true true) s = .next t →
    bytesOfBits 7 (sampled t.trace) = [se, mi, hr, dt, mo, wk, yr] →
    t.status = some .success ∧
      t.out = .record { r with amPm := if r.format = 0x01#8 then r.amPm else decide (20 ≤ r.hour.toNat) })

/-! ## Chip control -/

/-- SET_OSCILLATOR and GET_OSCILLATOR (44_chip_control.md R500, R501): one read frame and always one write frame with bit 7
cleared to run, set to halt, and bits 6:0 as read; the getter gives 1 exactly when bit 7 is 0. -/
def Obligations.OscillatorRequests : Prop :=
  ∀ (s : State) (en : Bool), s.initFlag = true →
    (s.env.answersOk 101 = true →
      Completes (.setOscillator true en) s
        (fun l => singleRead 0x81#8 ++
          singleWrite 0x80#8 (if en then byteOfBits l &&& 0x7F#8 else byteOfBits l ||| 0x80#8))
        (fun _ => .none) Bus.afterWrite) ∧
    (∀ p, p ≤ 50 → s.env.answersFailAt p = true →
      FailsAt (.setOscillator true en) s p (fun _ => singleRead 0x81#8)) ∧
    (∀ p, p ≤ 101 → s.env.answersFailAt p = true →
      FailsAt (.setOscillator true en) s p
        (fun l => singleRead 0x81#8 ++
          singleWrite 0x80#8 (if en then byteOfBits l &&& 0x7F#8 else byteOfBits l ||| 0x80#8))) ∧
    (s.env.answersOk 50 = true →
      Completes (.getOscillator true true) s (fun _ => singleRead 0x81#8)
        (fun l => .bit (!(byteOfBits l).getLsbD 7)) Bus.afterRead) ∧
    (∀ p, p ≤ 50 → s.env.answersFailAt p = true →
      FailsAt (.getOscillator true true) s p (fun _ => singleRead 0x81#8))

/-- SET_WRITE_PROTECT and GET_WRITE_PROTECT (44_chip_control.md R502, R503): one read frame and always one write frame with
bit 7 set to protect, cleared to release, and bits 6:0 as read; the getter gives bit 7. -/
def Obligations.WriteProtectRequests : Prop :=
  ∀ (s : State) (en : Bool), s.initFlag = true →
    (s.env.answersOk 101 = true →
      Completes (.setWriteProtect true en) s
        (fun l => singleRead 0x8F#8 ++
          singleWrite 0x8E#8 (if en then byteOfBits l ||| 0x80#8 else byteOfBits l &&& 0x7F#8))
        (fun _ => .none) Bus.afterWrite) ∧
    (∀ p, p ≤ 50 → s.env.answersFailAt p = true →
      FailsAt (.setWriteProtect true en) s p (fun _ => singleRead 0x8F#8)) ∧
    (∀ p, p ≤ 101 → s.env.answersFailAt p = true →
      FailsAt (.setWriteProtect true en) s p
        (fun l => singleRead 0x8F#8 ++
          singleWrite 0x8E#8 (if en then byteOfBits l ||| 0x80#8 else byteOfBits l &&& 0x7F#8))) ∧
    (s.env.answersOk 50 = true →
      Completes (.getWriteProtect true true) s (fun _ => singleRead 0x8F#8)
        (fun l => .bit ((byteOfBits l).getLsbD 7)) Bus.afterRead) ∧
    (∀ p, p ≤ 50 → s.env.answersFailAt p = true →
      FailsAt (.getWriteProtect true true) s p (fun _ => singleRead 0x8F#8))

/-- SET_CHARGE and GET_CHARGE (44_chip_control.md R504, R505): one write frame with the byte as given, for every byte; one
read frame with the byte as sampled. -/
def Obligations.ChargeRequests : Prop :=
  ∀ (s : State) (v : Byte), s.initFlag = true →
    (s.env.answersOk 51 = true →
      Completes (.setCharge true v) s (fun _ => singleWrite 0x90#8 v) (fun _ => .none) Bus.afterWrite) ∧
    (∀ p, p ≤ 51 → s.env.answersFailAt p = true → FailsAt (.setCharge true v) s p (fun _ => singleWrite 0x90#8 v)) ∧
    (s.env.answersOk 50 = true →
      Completes (.getCharge true true) s (fun _ => singleRead 0x91#8) (fun l => .byte (byteOfBits l)) Bus.afterRead) ∧
    (∀ p, p ≤ 50 → s.env.answersFailAt p = true → FailsAt (.getCharge true true) s p (fun _ => singleRead 0x91#8))

/-- WRITE_RAM and READ_RAM (44_chip_control.md R506, R507): address at most 30 and address + length − 1 at most 30, in
unbounded integers, else InvalidArgument with no event; then the multiple transfer from 0xC0 + 2·address. -/
def Obligations.RamRequests : Prop :=
  ∀ (s : State) (a n : Byte) (w : List Byte), s.initFlag = true → w.length = n.toNat →
    ((30 < (a.toNat : Int) ∨ 30 < (a.toNat : Int) + n.toNat - 1) →
      exec (.writeRam true a n (some w)) s = .next (s.rejected .invalidArgument) ∧
      exec (.readRam true true a n) s = .next (s.rejected .invalidArgument)) ∧
    ((a.toNat : Int) ≤ 30 → (a.toNat : Int) + n.toNat - 1 ≤ 30 →
      (s.env.answersOk (51 * w.length) = true →
        Completes (.writeRam true a n (some w)) s (fun _ => multiWrite (BitVec.ofNat 8 (0xC0 + 2 * a.toNat)) 0 w)
          (fun _ => .none) (if w = [] then s.bus else Bus.afterWrite)) ∧
      (∀ p, p ≤ 51 * w.length → s.env.answersFailAt p = true →
        FailsAt (.writeRam true a n (some w)) s p (fun _ => multiWrite (BitVec.ofNat 8 (0xC0 + 2 * a.toNat)) 0 w)) ∧
      (s.env.answersOk (50 * n.toNat) = true →
        Completes (.readRam true true a n) s (fun _ => multiRead (BitVec.ofNat 8 (0xC0 + 2 * a.toNat)) 0 n.toNat)
          (fun l => .bytes (bytesOfBits n.toNat l)) (if n = 0 then s.bus else Bus.afterRead)) ∧
      (∀ p, p ≤ 50 * n.toNat → s.env.answersFailAt p = true →
        FailsAt (.readRam true true a n) s p
          (fun _ => multiRead (BitVec.ofNat 8 (0xC0 + 2 * a.toNat)) 0 n.toNat)))

/-- Toggle idempotence (44_chip_control.md R508), on the reference double, which returns what was last written: setting twice
and reading gives the value set, and the register's bits 6:0 are as before. For both values and both toggles. -/
def Obligations.TogglesAreIdempotent : Prop :=
  ∀ (s : State) (en : Bool), Inv s → s.onDouble → s.initFlag = true →
    (∃ t u v, exec (.setOscillator true en) s = .next t ∧ t.status = some .success ∧
      exec (.setOscillator true en) t = .next u ∧ u.status = some .success ∧
      exec (.getOscillator true true) u = .next v ∧ v.status = some .success ∧ v.out = .bit en ∧
      Memory.read v.env.double.mem 0x80 &&& 0x7F#8 = Memory.read s.env.double.mem 0x80 &&& 0x7F#8) ∧
    (∃ t u v, exec (.setWriteProtect true en) s = .next t ∧ t.status = some .success ∧
      exec (.setWriteProtect true en) t = .next u ∧ u.status = some .success ∧
      exec (.getWriteProtect true true) u = .next v ∧ v.status = some .success ∧ v.out = .bit en ∧
      Memory.read v.env.double.mem 0x8E &&& 0x7F#8 = Memory.read s.env.double.mem 0x8E &&& 0x7F#8)

/-! ## The wire rows -/

/-- The write rows of the opcode table send the single write frame of their command byte (30_encoding.md R102, R104, R106,
R120 (c), (d)). That a row can be submitted as it stands is the model's choice (log entry 8). -/
def Obligations.WireWriteRowsSendTheirFrame : Prop :=
  ∀ (s : State) (v : Byte) (a : BitVec 5) (low : BitVec 7) (i : Instr) (c : Byte),
    ((i, c) ∈ [(.cmdWrSecond v, 0x80#8), (.cmdWrMinute v, 0x82#8), (.cmdWrHour v, 0x84#8), (.cmdWrDate v, 0x86#8),
        (.cmdWrMonth v, 0x88#8), (.cmdWrWeek v, 0x8A#8), (.cmdWrYear v, 0x8C#8), (.cmdWrControl v, 0x8E#8),
        (.cmdWrCharge v, 0x90#8)] ∨
      (a.toNat ≤ 30 ∧ i = .cmdWrRamSlot a v ∧ c = BitVec.ofNat 8 (0xC0 + 2 * a.toNat)) ∨
      (9 ≤ a.toNat ∧ a.toNat ≤ 30 ∧ i = .cmdWrClockGeneric a v ∧ c = BitVec.ofNat 8 (0x80 + 2 * a.toNat)) ∨
      (i = .cmdReservedMarker0 low (some v) ∧ c = BitVec.ofNat 8 low.toNat)) →
    (s.env.answersOk 51 = true → Completes i s (fun _ => singleWrite c v) (fun _ => .none) Bus.afterWrite) ∧
    (∀ p, p ≤ 51 → s.env.answersFailAt p = true → FailsAt i s p (fun _ => singleWrite c v))

/-- The read rows of the opcode table send the single read frame of their command byte and give the byte sampled
(30_encoding.md R102, R104, R106, R120 (c), (d)). That a row can be submitted as it stands is the model's choice (log entry
8). -/
def Obligations.WireReadRowsSendTheirFrame : Prop :=
  ∀ (s : State) (a : BitVec 5) (low : BitVec 7) (i : Instr) (c : Byte),
    ((i, c) ∈ [(.cmdRdSecond, 0x81#8), (.cmdRdMinute, 0x83#8), (.cmdRdHour, 0x85#8), (.cmdRdDate, 0x87#8),
        (.cmdRdMonth, 0x89#8), (.cmdRdWeek, 0x8B#8), (.cmdRdYear, 0x8D#8), (.cmdRdControl, 0x8F#8),
        (.cmdRdCharge, 0x91#8)] ∨
      (a.toNat ≤ 30 ∧ i = .cmdRdRamSlot a ∧ c = BitVec.ofNat 8 (0xC1 + 2 * a.toNat)) ∨
      (9 ≤ a.toNat ∧ a.toNat ≤ 30 ∧ i = .cmdRdClockGeneric a ∧ c = BitVec.ofNat 8 (0x81 + 2 * a.toNat)) ∨
      (i = .cmdReservedMarker0 low none ∧ c = BitVec.ofNat 8 low.toNat)) →
    (s.env.answersOk 50 = true →
      Completes i s (fun _ => singleRead c) (fun l => .byte (byteOfBits l)) Bus.afterRead) ∧
    (∀ p, p ≤ 50 → s.env.answersFailAt p = true → FailsAt i s p (fun _ => singleRead c))

/-- The burst rows of the opcode table send the burst frame of their command byte (30_encoding.md R103, R106). That a row can
be submitted as it stands, with any count, is the model's choice (log entry 8). -/
def Obligations.WireBurstRowsSendTheirFrame : Prop :=
  ∀ (s : State) (n : Byte) (w : List Byte),
    (∀ (i : Instr) (c : Byte), w.length = n.toNat →
      (i, c) ∈ [(.cmdWrClockBurst n w, 0xBE#8), (.cmdWrRamBurst n w, 0xFE#8)] →
      (s.env.answersOk (27 + 24 * w.length) = true →
        Completes i s (fun _ => burstWrite c w) (fun _ => .none) Bus.afterWrite) ∧
      (∀ p, p ≤ 27 + 24 * w.length → s.env.answersFailAt p = true → FailsAt i s p (fun _ => burstWrite c w))) ∧
    (∀ (i : Instr) (c : Byte), (i, c) ∈ [(.cmdRdClockBurst n, 0xBF#8), (.cmdRdRamBurst n, 0xFF#8)] →
      (s.env.answersOk (26 + 24 * n.toNat) = true →
        Completes i s (fun _ => burstRead c n.toNat) (fun l => .bytes (bytesOfBits n.toNat l)) Bus.afterRead) ∧
      (∀ p, p ≤ 26 + 24 * n.toNat → s.env.answersFailAt p = true → FailsAt i s p (fun _ => burstRead c n.toNat)))

/-! ## The target's memory -/

/-- The memory frame of every instruction: whatever is answered, every cell of the target double outside the ones the
instruction stores to reads as before; for a form that stores nothing, every cell (20_memory.md R82, R83; 41_bit_engine.md
R209, R210). -/
def Obligations.RequestsWriteOnlyTheirCells : Prop :=
  ∀ (i : Instr) (s t : State), Inv s → exec i s = .next t → SameCellsBut (storesTo i) s.env.double t.env.double

/-- Writes land in their cells of the reference double (20_memory.md R83): a single write frame with a write-coded command
that has its marker stores its byte in the cell it names, and with the alias index 31 in cell 0 of the bank; a burst write
frame with an index other than 31 stores its first byte in the cell it names and ignores the others; a clock burst stores
byte j in clock index j, j ≤ 7; a RAM burst stores byte j in slot j, j ≤ 30; every other cell is as before. -/
def Obligations.WritesLandInTheirCells : Prop :=
  ∀ s : State, Inv s → s.onDouble →
    (∀ c v : Byte, cmdMarker c = true → cmdRw c = false → cmdIdx c ≠ 31 →
      ∃ t, exec (.engWriteByte c v) s = .next t ∧ t.status = some .success ∧
        ∀ a, Memory.read t.env.double.mem a = if a = c.toNat then v else Memory.read s.env.double.mem a) ∧
    (∀ (c v : Byte) (cell : Nat), (c, cell) ∈ [(0xBE#8, 128), (0xFE#8, 192)] →
      ∃ t, exec (.engWriteByte c v) s = .next t ∧ t.status = some .success ∧
        ∀ a, Memory.read t.env.double.mem a = if a = cell then v else Memory.read s.env.double.mem a) ∧
    (∀ (c n : Byte) (w : List Byte), cmdMarker c = true → cmdRw c = false → cmdIdx c ≠ 31 → w.length = n.toNat →
      ∃ t, exec (.regBurstWrite c n w) s = .next t ∧ t.status = some .success ∧
        ∀ a, Memory.read t.env.double.mem a =
          if a = c.toNat ∧ w ≠ [] then w.getD 0 0 else Memory.read s.env.double.mem a) ∧
    (∀ (n : Byte) (w : List Byte), w.length = n.toNat →
      ∃ t, exec (.regBurstWrite 0xBE#8 n w) s = .next t ∧ t.status = some .success ∧
        ∀ a, Memory.read t.env.double.mem a =
          if a % 2 = 0 ∧ 128 ≤ a ∧ a ≤ 142 ∧ (a - 128) / 2 < w.length then w.getD ((a - 128) / 2) 0
          else Memory.read s.env.double.mem a) ∧
    (∀ (n : Byte) (w : List Byte), w.length = n.toNat →
      ∃ t, exec (.regBurstWrite 0xFE#8 n w) s = .next t ∧ t.status = some .success ∧
        ∀ a, Memory.read t.env.double.mem a =
          if a % 2 = 0 ∧ 192 ≤ a ∧ a ≤ 252 ∧ (a - 192) / 2 < w.length then w.getD ((a - 192) / 2) 0
          else Memory.read s.env.double.mem a)

/-- Reads return the cells of the reference double (20_memory.md R85): a single read frame with a read-coded command that
has its marker gives the cell it names, and with the alias index 31 cell 0 of the bank; a burst read frame with an index
other than 31 gives the cell it names as its first byte (the others are draws); a clock burst of up to 8 bytes gives the clock
indices 0, 1, …; a RAM burst of up to 31 bytes gives the slots 0, 1, …. No read frame changes a cell. -/
def Obligations.ReadsReturnTheCells : Prop :=
  ∀ s : State, s.onDouble →
    (∀ c : Byte, cmdMarker c = true → cmdRw c = true → cmdIdx c ≠ 31 →
      ∃ t, exec (.engReadByte c) s = .next t ∧ t.status = some .success ∧
        t.out = .byte (Memory.read s.env.double.mem (c.toNat - 1)) ∧ t.env.double.mem = s.env.double.mem) ∧
    (∀ (c : Byte) (cell : Nat), (c, cell) ∈ [(0xBF#8, 128), (0xFF#8, 192)] →
      ∃ t, exec (.engReadByte c) s = .next t ∧ t.status = some .success ∧
        t.out = .byte (Memory.read s.env.double.mem cell) ∧ t.env.double.mem = s.env.double.mem) ∧
    (∀ c n : Byte, cmdMarker c = true → cmdRw c = false → cmdIdx c ≠ 31 →
      ∃ t l, exec (.regBurstRead c n) s = .next t ∧ t.status = some .success ∧ t.out = .bytes l ∧
        l.length = n.toNat ∧ (n ≠ 0 → l[0]? = some (Memory.read s.env.double.mem c.toNat)) ∧
        t.env.double.mem = s.env.double.mem) ∧
    (∀ n : Byte, n.toNat ≤ 8 →
      ∃ t, exec (.regBurstRead 0xBE#8 n) s = .next t ∧ t.status = some .success ∧
        t.out = .bytes ((List.range n.toNat).map fun j => Memory.read s.env.double.mem (128 + 2 * j)) ∧
        t.env.double.mem = s.env.double.mem) ∧
    (∀ n : Byte, n.toNat ≤ 31 →
      ∃ t, exec (.regBurstRead 0xFE#8 n) s = .next t ∧ t.status = some .success ∧
        t.out = .bytes ((List.range n.toNat).map fun j => Memory.read s.env.double.mem (192 + 2 * j)) ∧
        t.env.double.mem = s.env.double.mem)

/-- An injected failure is one event of the reference double (20_memory.md R86): of the pin events of a request, it answers
fail to the one whose request and 1-based position the failure names, and ok to every other; so a failure of an earlier
request, like none at all, leaves a request without a failed answer. How a failure names its request is the model's choice
(log entry 3). -/
def Obligations.InjectedFailureIsOneEvent : Prop :=
  ∀ (i : Instr) (s t : State) (f : Option Injected), exec i s = .next t → s.env.responder = .double f →
    t.env.responder = .double f ∧ t.env.requests = s.env.requests + 1 ∧
    (∀ (k : Nat) (r : PortRecord), (t.trace.filter fun r => r.event.isPin)[k]? = some r →
      (r.reply = Reply.fail ↔ f = some ⟨s.env.requests + 1, k + 1⟩)) ∧
    ((∀ g, f = some g → g.request ≤ s.env.requests) → noFailure t.trace)

/-- Burst against multiple (42_register_access.md R312): on the reference double READ_RAM and RAM_BURST_READ from slot 0 give
the same bytes, and WRITE_RAM and RAM_BURST_WRITE leave the same memory, with n frames against one. -/
def Obligations.BurstEqualsMultiple : Prop :=
  ∀ (s : State) (n : Byte) (w : List Byte), Inv s → s.onDouble → s.initFlag = true → n.toNat ≤ 31 →
    w.length = n.toNat →
    (∃ t u l, exec (.readRam true true 0 n) s = .next t ∧ t.status = some .success ∧ t.out = .bytes l ∧
      exec (.ramBurstRead true true n) s = .next u ∧ u.status = some .success ∧ u.out = .bytes l ∧
      ((eventsOf t.trace).filter fun e => e = Event.ceWrite true).length = n.toNat ∧
      ((eventsOf u.trace).filter fun e => e = Event.ceWrite true).length = 1) ∧
    (∃ t u, exec (.writeRam true 0 n (some w)) s = .next t ∧ t.status = some .success ∧
      exec (.ramBurstWrite true n (some w)) s = .next u ∧ u.status = some .success ∧
      t.env.double.mem = u.env.double.mem ∧
      ((eventsOf t.trace).filter fun e => e = Event.ceWrite true).length = n.toNat ∧
      ((eventsOf u.trace).filter fun e => e = Event.ceWrite true).length = 1)

end
end

