-- ==== Sys2Proof/Laws/State.lean ====
section
/-! SUPPORT. One lemma per field of State and per update the operations make, all true by rfl. -/

namespace Sys2Proof.Machine

/-! ## One event -/

@[simp] theorem State.issue_initFlag (s : State) (e : Event) : (s.issue e).initFlag = s.initFlag := rfl
@[simp] theorem State.issue_caps (s : State) (e : Event) : (s.issue e).caps = s.caps := rfl
@[simp] theorem State.issue_bus (s : State) (e : Event) : (s.issue e).bus = s.bus.after e (s.env.respond e).1 := rfl
@[simp] theorem State.issue_dp (s : State) (e : Event) : (s.issue e).dp = s.dp := rfl
@[simp] theorem State.issue_pos (s : State) (e : Event) : (s.issue e).pos = s.pos.advance := rfl
@[simp] theorem State.issue_status (s : State) (e : Event) : (s.issue e).status = s.status := rfl
@[simp] theorem State.issue_out (s : State) (e : Event) : (s.issue e).out = s.out := rfl
@[simp] theorem State.issue_trace (s : State) (e : Event) : (s.issue e).trace = s.trace ++ [⟨e, (s.env.respond e).1⟩] := rfl
@[simp] theorem State.issue_inbox (s : State) (e : Event) : (s.issue e).inbox = s.inbox := rfl
@[simp] theorem State.issue_env (s : State) (e : Event) : (s.issue e).env = (s.env.respond e).2 := rfl

/-! ## Acceptance -/

@[simp] theorem State.accept_initFlag (s : State) (i : Instr) : (s.accept i).initFlag = s.initFlag := rfl
@[simp] theorem State.accept_caps (s : State) (i : Instr) : (s.accept i).caps = s.caps := rfl
@[simp] theorem State.accept_bus (s : State) (i : Instr) : (s.accept i).bus = s.bus := rfl
@[simp] theorem State.accept_dp (s : State) (i : Instr) : (s.accept i).dp = s.dp := rfl
@[simp] theorem State.accept_pos (s : State) (i : Instr) : (s.accept i).pos = .at i 0 := rfl
@[simp] theorem State.accept_status (s : State) (i : Instr) : (s.accept i).status = none := rfl
@[simp] theorem State.accept_out (s : State) (i : Instr) : (s.accept i).out = .none := rfl
@[simp] theorem State.accept_trace (s : State) (i : Instr) : (s.accept i).trace = [] := rfl
@[simp] theorem State.accept_inbox (s : State) (i : Instr) : (s.accept i).inbox = s.inbox := rfl
@[simp] theorem State.accept_env (s : State) (i : Instr) : (s.accept i).env = { s.env with requests := s.env.requests + 1, pins := 0 } := rfl

/-! ## The end of a request -/

@[simp] theorem finish_ok_initFlag (o : Out) (s : State) : (finish (.ok o s)).initFlag = s.initFlag := rfl
@[simp] theorem finish_ok_caps (o : Out) (s : State) : (finish (.ok o s)).caps = s.caps := rfl
@[simp] theorem finish_ok_bus (o : Out) (s : State) : (finish (.ok o s)).bus = s.bus := rfl
@[simp] theorem finish_ok_dp (o : Out) (s : State) : (finish (.ok o s)).dp = Datapath.cleared := rfl
@[simp] theorem finish_ok_pos (o : Out) (s : State) : (finish (.ok o s)).pos = .idle := rfl
@[simp] theorem finish_ok_status (o : Out) (s : State) : (finish (.ok o s)).status = some .success := rfl
@[simp] theorem finish_ok_out (o : Out) (s : State) : (finish (.ok o s)).out = o := rfl
@[simp] theorem finish_ok_trace (o : Out) (s : State) : (finish (.ok o s)).trace = s.trace := rfl
@[simp] theorem finish_ok_inbox (o : Out) (s : State) : (finish (.ok o s)).inbox = s.inbox := rfl
@[simp] theorem finish_ok_env (o : Out) (s : State) : (finish (.ok o s)).env = s.env := rfl
@[simp] theorem finish_error_initFlag (k : Status) (s : State) : (finish (.error k s)).initFlag = s.initFlag := rfl
@[simp] theorem finish_error_caps (k : Status) (s : State) : (finish (.error k s)).caps = s.caps := rfl
@[simp] theorem finish_error_bus (k : Status) (s : State) : (finish (.error k s)).bus = s.bus := rfl
@[simp] theorem finish_error_dp (k : Status) (s : State) : (finish (.error k s)).dp = Datapath.cleared := rfl
@[simp] theorem finish_error_pos (k : Status) (s : State) : (finish (.error k s)).pos = .idle := rfl
@[simp] theorem finish_error_status (k : Status) (s : State) : (finish (.error k s)).status = some k := rfl
@[simp] theorem finish_error_out (k : Status) (s : State) : (finish (.error k s)).out = .none := rfl
@[simp] theorem finish_error_trace (k : Status) (s : State) : (finish (.error k s)).trace = s.trace := rfl
@[simp] theorem finish_error_inbox (k : Status) (s : State) : (finish (.error k s)).inbox = s.inbox := rfl
@[simp] theorem finish_error_env (k : Status) (s : State) : (finish (.error k s)).env = s.env := rfl

/-! ## Small updates -/

/-- The state with other datapath registers. -/
def State.withDp (s : State) (d : Datapath) : State := { s with dp := d }

/-- The state after the internal release of the data line (41_bit_engine.md R204). -/
def State.release (s : State) : State := { s with bus := s.bus.released }

/-- The state with another init flag. -/
def State.withInit (s : State) (b : Bool) : State := { s with initFlag := b }

@[simp] theorem State.withDp_initFlag (s : State) (d : Datapath) : (s.withDp d).initFlag = s.initFlag := rfl
@[simp] theorem State.withDp_caps (s : State) (d : Datapath) : (s.withDp d).caps = s.caps := rfl
@[simp] theorem State.withDp_bus (s : State) (d : Datapath) : (s.withDp d).bus = s.bus := rfl
@[simp] theorem State.withDp_dp (s : State) (d : Datapath) : (s.withDp d).dp = d := rfl
@[simp] theorem State.withDp_pos (s : State) (d : Datapath) : (s.withDp d).pos = s.pos := rfl
@[simp] theorem State.withDp_status (s : State) (d : Datapath) : (s.withDp d).status = s.status := rfl
@[simp] theorem State.withDp_out (s : State) (d : Datapath) : (s.withDp d).out = s.out := rfl
@[simp] theorem State.withDp_trace (s : State) (d : Datapath) : (s.withDp d).trace = s.trace := rfl
@[simp] theorem State.withDp_inbox (s : State) (d : Datapath) : (s.withDp d).inbox = s.inbox := rfl
@[simp] theorem State.withDp_env (s : State) (d : Datapath) : (s.withDp d).env = s.env := rfl
@[simp] theorem State.release_initFlag (s : State) : (s.release).initFlag = s.initFlag := rfl
@[simp] theorem State.release_caps (s : State) : (s.release).caps = s.caps := rfl
@[simp] theorem State.release_bus (s : State) : (s.release).bus = s.bus.released := rfl
@[simp] theorem State.release_dp (s : State) : (s.release).dp = s.dp := rfl
@[simp] theorem State.release_pos (s : State) : (s.release).pos = s.pos := rfl
@[simp] theorem State.release_status (s : State) : (s.release).status = s.status := rfl
@[simp] theorem State.release_out (s : State) : (s.release).out = s.out := rfl
@[simp] theorem State.release_trace (s : State) : (s.release).trace = s.trace := rfl
@[simp] theorem State.release_inbox (s : State) : (s.release).inbox = s.inbox := rfl
@[simp] theorem State.release_env (s : State) : (s.release).env = s.env := rfl
@[simp] theorem State.withInit_initFlag (s : State) (b : Bool) : (s.withInit b).initFlag = b := rfl
@[simp] theorem State.withInit_caps (s : State) (b : Bool) : (s.withInit b).caps = s.caps := rfl
@[simp] theorem State.withInit_bus (s : State) (b : Bool) : (s.withInit b).bus = s.bus := rfl
@[simp] theorem State.withInit_dp (s : State) (b : Bool) : (s.withInit b).dp = s.dp := rfl
@[simp] theorem State.withInit_pos (s : State) (b : Bool) : (s.withInit b).pos = s.pos := rfl
@[simp] theorem State.withInit_status (s : State) (b : Bool) : (s.withInit b).status = s.status := rfl
@[simp] theorem State.withInit_out (s : State) (b : Bool) : (s.withInit b).out = s.out := rfl
@[simp] theorem State.withInit_trace (s : State) (b : Bool) : (s.withInit b).trace = s.trace := rfl
@[simp] theorem State.withInit_inbox (s : State) (b : Bool) : (s.withInit b).inbox = s.inbox := rfl
@[simp] theorem State.withInit_env (s : State) (b : Bool) : (s.withInit b).env = s.env := rfl

@[simp] theorem State.withDp_dp_self (s : State) : s.withDp s.dp = s := rfl

@[simp] theorem State.withDp_withDp (s : State) (d e : Datapath) : (s.withDp d).withDp e = s.withDp e := rfl

@[simp] theorem State.withDp_issue (s : State) (d : Datapath) (e : Event) :
    (s.withDp d).issue e = (s.issue e).withDp d := rfl

@[simp] theorem State.withDp_release (s : State) (d : Datapath) : (s.withDp d).release = s.release.withDp d := rfl

end Sys2Proof.Machine
end

