-- ==== Sys2Proof/Laws/Run.lean ====
section
/-! SUPPORT. The pieces of a request: what each primitive does to a state, and how pieces compose. -/

namespace Sys2Proof.Machine

/-- The state a piece of a request leaves, whether it went on or raised. -/
def resState {α : Type} : EStateM.Result Status State α → State
  | .ok _ s => s
  | .error _ s => s

@[simp] theorem resState_ok {α : Type} (a : α) (s : State) : resState (.ok a s : EStateM.Result Status State α) = s := rfl
@[simp] theorem resState_error {α : Type} (k : Status) (s : State) :
    resState (.error k s : EStateM.Result Status State α) = s := rfl

@[simp] theorem run_pure {α : Type} (a : α) (s : State) : (pure a : Run α) s = .ok a s := rfl
@[simp] theorem run_raise {α : Type} (k : Status) (s : State) : (raise k : Run α) s = .error k s := rfl
@[simp] theorem run_get (s : State) : (get : Run State) s = .ok s s := rfl
@[simp] theorem run_getDp (s : State) : getDp s = .ok s.dp s := rfl
@[simp] theorem run_setDp (f : Datapath → Datapath) (s : State) : setDp f s = .ok () (s.withDp (f s.dp)) := rfl
@[simp] theorem run_releaseIo (s : State) : releaseIo s = .ok () s.release := rfl
@[simp] theorem run_setInitFlag (b : Bool) (s : State) : setInitFlag b s = .ok () (s.withInit b) := rfl
@[simp] theorem run_port (e : Event) (s : State) : port e s = .ok (s.env.respond e).1 (s.issue e) := rfl

/-- A piece after another: go on with the value, or stop with the raised kind. -/
theorem run_bind {α β : Type} (m : Run α) (f : α → Run β) (s : State) :
    (m >>= f) s = (match m s with
      | .ok a t => f a t
      | .error k t => .error k t) := by
  simp only [bind, EStateM.bind]
  cases m s <;> rfl

theorem run_bind_ok {α β : Type} {m : Run α} {f : α → Run β} {s t : State} {a : α} (h : m s = .ok a t) :
    (m >>= f) s = f a t := by
  rw [run_bind, h]

theorem run_bind_error {α β : Type} {m : Run α} {f : α → Run β} {s t : State} {k : Status} (h : m s = .error k t) :
    (m >>= f) s = .error k t := by
  rw [run_bind, h]

@[simp] theorem run_setDp_bind {β : Type} (g : Datapath → Datapath) (f : Unit → Run β) (s : State) :
    (setDp g >>= f) s = f () (s.withDp (g s.dp)) := rfl
@[simp] theorem run_getDp_bind {β : Type} (f : Datapath → Run β) (s : State) : (getDp >>= f) s = f s.dp s := rfl
@[simp] theorem run_get_bind {β : Type} (f : State → Run β) (s : State) : (get >>= f) s = f s s := rfl
@[simp] theorem run_releaseIo_bind {β : Type} (f : Unit → Run β) (s : State) : (releaseIo >>= f) s = f () s.release := rfl
@[simp] theorem run_setInitFlag_bind {β : Type} (b : Bool) (f : Unit → Run β) (s : State) :
    (setInitFlag b >>= f) s = f () (s.withInit b) := rfl
@[simp] theorem run_port_bind {β : Type} (e : Event) (f : Reply → Run β) (s : State) :
    (port e >>= f) s = f (s.env.respond e).1 (s.issue e) := rfl
@[simp] theorem run_raise_bind {α β : Type} (k : Status) (f : α → Run β) (s : State) :
    ((raise k : Run α) >>= f) s = .error k s := rfl
@[simp] theorem run_pure_bind {α β : Type} (a : α) (f : α → Run β) (s : State) : (pure a >>= f) s = f a s := rfl

/-- BUS_RECOVERY_ON_FAIL is false: the abort adds nothing (decision D9). -/
@[simp] theorem run_busRecovery (s : State) : busRecovery s = .ok () s := rfl

/-- The value `PortE` gives for an answer that is not fail. -/
def Reply.value : Reply → Bool
  | .level l => l
  | .none | .ok | .fail => false

/-- `PortE(E)`, whole (41_bit_engine.md R200). -/
theorem run_portE (e : Event) (s : State) :
    portE e s = if (s.env.respond e).1 = .fail then .error .transferFailure (s.issue e)
      else .ok (s.env.respond e).1.value (s.issue e) := by
  simp only [portE, run_port_bind]
  cases (s.env.respond e).1 <;> rfl

theorem run_portE_ok {e : Event} {s : State} {r : Reply} (h : (s.env.respond e).1 = r) (hr : r ≠ .fail) :
    portE e s = .ok r.value (s.issue e) := by
  rw [run_portE, h, if_neg hr]

theorem run_emit (e : Event) (s : State) :
    emit e s = if (s.env.respond e).1 = .fail then .error .transferFailure (s.issue e) else .ok () (s.issue e) := by
  by_cases h : (s.env.respond e).1 = .fail <;> simp [emit, run_bind, run_portE, h]

theorem run_portL (e : Event) (s : State) :
    portL e s = if (s.env.respond e).1 = .fail then .error .lifecycleFailure (s.issue e) else .ok () (s.issue e) := by
  simp only [portL, run_port_bind]
  cases (s.env.respond e).1 <;> rfl

theorem run_require (c : Bool) (k : Status) (s : State) :
    require c k s = if c then .ok () s else .error k s := by
  cases c <;> rfl

/-- The guard, whole (60_exceptions.md R710). -/
theorem run_guard (handle : Bool) (ops : List Bool) (s : State) :
    guard handle ops s =
      if !handle then .error .nullArgument s
      else if !s.initFlag then .error .notInitialized s
      else if !ops.all id then .error .nullArgument s else .ok () s := by
  cases handle <;> simp [guard, run_bind, run_require]
  cases s.initFlag <;> simp

/-- A request ends in a next state. -/
theorem runRequest_next (i : Instr) (body : Run Out) (s : State) :
    runRequest i body s = .next (finish (body (s.accept i))) := rfl

theorem runBuffered_next {i : Instr} {n : Byte} {w : Option (List Byte)} (body : Run Out) (s : State)
    (h : bufferFits n w = true) : runBuffered i n w body s = .next (finish (body (s.accept i))) := by
  simp [runBuffered, h, runRequest]

end Sys2Proof.Machine
end

