-- ==== Sys2Proof/Laws/Program.lean ====
section
/-! SUPPORT. Programs: a request's transfers as a plain list of port events and data-line releases (10_state.md R27's
event program). Running a list is easy to reason about; Laws/Engine.lean shows that each transfer of the model runs its
list, up to the datapath registers, which no request leaves behind. -/

namespace Sys2Proof.Machine

/-- One move of a program: a port event, or the internal release of the data line (41_bit_engine.md R204). -/
inductive Move where
  | ev (e : Event)
  | release
deriving DecidableEq, Repr

/-- The events of a program. -/
def moveEvents (l : List Move) : List Event :=
  l.filterMap fun m =>
    match m with
    | .ev e => some e
    | .release => none

/-- The state after one move, whatever was answered. -/
def State.move (s : State) : Move → State
  | .ev e => s.issue e
  | .release => s.release

/-- The state after a program, whatever was answered. -/
def State.moves (s : State) (l : List Move) : State := l.foldl State.move s

/-- The environment after one move. -/
def Env.move (v : Env) : Move → Env
  | .ev e => (v.respond e).2
  | .release => v

/-- The environment after a program. -/
def Env.moves (v : Env) (l : List Move) : Env := l.foldl Env.move v

/-- The answer to a move is not fail. -/
def Env.okMove (v : Env) : Move → Prop
  | .ev e => (v.respond e).1 ≠ .fail
  | .release => True

/-- Every answer of a program is not fail. -/
def Env.okMoves (v : Env) : List Move → Prop
  | [] => True
  | m :: l => v.okMove m ∧ (v.move m).okMoves l

/-- The level an answer gives, if it gives one. -/
def Reply.sample : Reply → List Bool
  | .level b => [b]
  | .none | .ok | .fail => []

/-- The levels a program samples. -/
def Env.levels (v : Env) : List Move → List Bool
  | [] => []
  | .ev e :: l => (v.respond e).1.sample ++ (v.move (.ev e)).levels l
  | .release :: l => v.levels l

/-- Run a program as the engine does: the first failed event ends it (41_bit_engine.md R200). -/
def runMoves : List Move → Run Unit
  | [] => pure ()
  | .ev e :: l => do
    emit e
    runMoves l
  | .release :: l => do
    releaseIo
    runMoves l

/-- Run a program and give the levels it sampled. -/
def readMoves (l : List Move) : Run (List Bool) := fun s =>
  match runMoves l s with
  | .ok _ t => .ok (s.env.levels l) t
  | .error k t => .error k t

/-! ## Lists of moves -/

@[simp] theorem moves_nil (s : State) : s.moves [] = s := rfl
@[simp] theorem moves_cons (s : State) (m : Move) (l : List Move) : s.moves (m :: l) = (s.move m).moves l := rfl
theorem moves_append (s : State) (a b : List Move) : s.moves (a ++ b) = (s.moves a).moves b := by
  simp [State.moves]

@[simp] theorem env_moves_nil (v : Env) : v.moves [] = v := rfl
@[simp] theorem env_moves_cons (v : Env) (m : Move) (l : List Move) : v.moves (m :: l) = (v.move m).moves l := rfl
theorem env_moves_append (v : Env) (a b : List Move) : v.moves (a ++ b) = (v.moves a).moves b := by
  simp [Env.moves]

@[simp] theorem move_env (s : State) (m : Move) : (s.move m).env = s.env.move m := by cases m <;> rfl

@[simp] theorem moves_env (s : State) (l : List Move) : (s.moves l).env = s.env.moves l := by
  induction l generalizing s with
  | nil => rfl
  | cons m l ih => simp [ih]

theorem okMoves_append (v : Env) (a b : List Move) :
    v.okMoves (a ++ b) ↔ v.okMoves a ∧ (v.moves a).okMoves b := by
  induction a generalizing v with
  | nil => simp [Env.okMoves]
  | cons m l ih => simp [Env.okMoves, ih, and_assoc]

theorem levels_append (v : Env) (a b : List Move) : v.levels (a ++ b) = v.levels a ++ (v.moves a).levels b := by
  induction a generalizing v with
  | nil => rfl
  | cons m l ih => cases m <;> simp [Env.levels, Env.move, ih]

@[simp] theorem moveEvents_append (a b : List Move) : moveEvents (a ++ b) = moveEvents a ++ moveEvents b := by
  simp [moveEvents]

@[simp] theorem moveEvents_map_ev (l : List Event) : moveEvents (l.map .ev) = l := by
  induction l with
  | nil => rfl
  | cons e l ih => simpa [moveEvents] using ih

/-! ## What a program leaves alone -/

@[simp] theorem move_initFlag (s : State) (m : Move) : (s.move m).initFlag = s.initFlag := by cases m <;> rfl
@[simp] theorem move_caps (s : State) (m : Move) : (s.move m).caps = s.caps := by cases m <;> rfl
@[simp] theorem move_dp (s : State) (m : Move) : (s.move m).dp = s.dp := by cases m <;> rfl
@[simp] theorem move_inbox (s : State) (m : Move) : (s.move m).inbox = s.inbox := by cases m <;> rfl
@[simp] theorem move_status (s : State) (m : Move) : (s.move m).status = s.status := by cases m <;> rfl
@[simp] theorem move_out (s : State) (m : Move) : (s.move m).out = s.out := by cases m <;> rfl

@[simp] theorem moves_initFlag (s : State) (l : List Move) : (s.moves l).initFlag = s.initFlag := by
  induction l generalizing s with
  | nil => rfl
  | cons m l ih => simp [ih]
@[simp] theorem moves_caps (s : State) (l : List Move) : (s.moves l).caps = s.caps := by
  induction l generalizing s with
  | nil => rfl
  | cons m l ih => simp [ih]
@[simp] theorem moves_dp (s : State) (l : List Move) : (s.moves l).dp = s.dp := by
  induction l generalizing s with
  | nil => rfl
  | cons m l ih => simp [ih]
@[simp] theorem moves_inbox (s : State) (l : List Move) : (s.moves l).inbox = s.inbox := by
  induction l generalizing s with
  | nil => rfl
  | cons m l ih => simp [ih]

/-- The trace grows by the program's events. -/
theorem moves_eventsOf (s : State) (l : List Move) :
    (s.moves l).trace.map (fun r => r.event) = s.trace.map (fun r => r.event) ++ moveEvents l := by
  induction l generalizing s with
  | nil => simp [moveEvents]
  | cons m l ih => cases m <;> simp [ih, State.move, moveEvents]

theorem move_withDp (s : State) (d : Datapath) (m : Move) : (s.withDp d).move m = (s.move m).withDp d := by
  cases m <;> rfl

/-! ## Running a program -/

@[simp] theorem runMoves_nil (s : State) : runMoves [] s = .ok () s := rfl

theorem runMoves_ev (e : Event) (l : List Move) (s : State) :
    runMoves (.ev e :: l) s =
      if (s.env.respond e).1 = .fail then .error .transferFailure (s.issue e) else runMoves l (s.issue e) := by
  by_cases h : (s.env.respond e).1 = .fail <;> simp [runMoves, run_bind, run_emit, h]

@[simp] theorem runMoves_release (l : List Move) (s : State) : runMoves (.release :: l) s = runMoves l s.release := rfl

/-- Every answer ok: the program runs to its end. -/
theorem runMoves_ok {l : List Move} {s : State} (h : s.env.okMoves l) : runMoves l s = .ok () (s.moves l) := by
  induction l generalizing s with
  | nil => rfl
  | cons m l ih =>
    cases m with
    | ev e =>
      have h1 : (s.env.respond e).1 ≠ .fail := h.1
      rw [runMoves_ev, if_neg h1, moves_cons]
      exact ih h.2
    | release => exact ih h.2

/-- The first failed event ends the program, at that event (60_exceptions.md R704). -/
theorem runMoves_fail {a b : List Move} {e : Event} {s : State} (ha : s.env.okMoves a)
    (he : ((s.env.moves a).respond e).1 = .fail) :
    runMoves (a ++ .ev e :: b) s = .error .transferFailure ((s.moves a).issue e) := by
  induction a generalizing s with
  | nil => rw [List.nil_append, runMoves_ev]; exact if_pos he
  | cons m l ih =>
    cases m with
    | ev f =>
      have h1 : (s.env.respond f).1 ≠ .fail := ha.1
      rw [List.cons_append, runMoves_ev, if_neg h1, moves_cons]
      exact ih ha.2 he
    | release => exact ih ha.2 he

/-- A program runs to its end, or up to its first failed event: nothing else. -/
theorem runMoves_cases (l : List Move) (s : State) :
    (s.env.okMoves l ∧ runMoves l s = .ok () (s.moves l)) ∨
    ∃ a e b, l = a ++ .ev e :: b ∧ s.env.okMoves a ∧ ((s.env.moves a).respond e).1 = .fail ∧
      runMoves l s = .error .transferFailure ((s.moves a).issue e) := by
  induction l generalizing s with
  | nil => exact .inl ⟨trivial, rfl⟩
  | cons m l ih =>
    cases m with
    | release =>
      rcases ih s.release with ⟨h, hr⟩ | ⟨a, e, b, rfl, ha, he, hr⟩
      · exact .inl ⟨⟨trivial, h⟩, hr⟩
      · exact .inr ⟨.release :: a, e, b, rfl, ⟨trivial, ha⟩, he, hr⟩
    | ev e =>
      by_cases h1 : (s.env.respond e).1 = .fail
      · exact .inr ⟨[], e, l, rfl, trivial, h1, by rw [runMoves_ev, if_pos h1]; rfl⟩
      · rcases ih (s.issue e) with ⟨h, hr⟩ | ⟨a, f, b, rfl, ha, hf, hr⟩
        · exact .inl ⟨⟨h1, h⟩, by rw [runMoves_ev, if_neg h1, hr]; rfl⟩
        · exact .inr ⟨.ev e :: a, f, b, rfl, ⟨h1, ha⟩, hf, by rw [runMoves_ev, if_neg h1, hr]; rfl⟩

theorem runMoves_append (a b : List Move) : runMoves (a ++ b) = (runMoves a >>= fun _ => runMoves b) := by
  induction a with
  | nil => rfl
  | cons m l ih => cases m <;> simp [runMoves, ih]

theorem readMoves_ok {l : List Move} {s : State} (h : s.env.okMoves l) :
    readMoves l s = .ok (s.env.levels l) (s.moves l) := by
  simp [readMoves, runMoves_ok h]

theorem readMoves_append (a b : List Move) :
    readMoves (a ++ b) = (readMoves a >>= fun x => readMoves b >>= fun y => pure (x ++ y)) := by
  funext s
  rcases runMoves_cases a s with ⟨_, hr⟩ | ⟨_, _, _, _, _, _, hr⟩
  · simp only [readMoves, runMoves_append, run_bind, hr, levels_append]
    cases h : runMoves b (s.moves a) <;> simp
  · simp only [readMoves, runMoves_append a b, run_bind, hr]

theorem runMoves_eq_readMoves (l : List Move) : runMoves l = (readMoves l >>= fun _ => pure ()) := by
  funext s
  simp only [readMoves, run_bind]
  cases runMoves l s <;> rfl

/-! ## Up to the datapath registers -/

/-- The state with the datapath registers forgotten. -/
def State.bare (s : State) : State := s.withDp Datapath.cleared

@[simp] theorem bare_withDp (s : State) (d : Datapath) : (s.withDp d).bare = s.bare := rfl

theorem eq_withDp_of_bare {s t : State} (h : s.bare = t.bare) : s = t.withDp s.dp := by
  cases s; cases t
  simp only [State.bare, State.withDp, State.mk.injEq] at h ⊢
  simp_all

/-- A result with the datapath registers forgotten. -/
def bareRes {α : Type} : EStateM.Result Status State α → EStateM.Result Status State α
  | .ok a s => .ok a s.bare
  | .error k s => .error k s.bare

/-- The end of a request does not see the datapath registers. -/
theorem finish_congr {r r' : EStateM.Result Status State Out} (h : bareRes r = bareRes r') : finish r = finish r' := by
  cases r <;> cases r' <;> simp only [bareRes, reduceCtorEq, EStateM.Result.ok.injEq, EStateM.Result.error.injEq] at h
  · obtain ⟨rfl, h⟩ := h
    have := eq_withDp_of_bare h
    rw [this]; rfl
  · obtain ⟨rfl, h⟩ := h
    have := eq_withDp_of_bare h
    rw [this]; rfl

/-- `m` does what `m'` does, whatever the datapath registers hold, up to what it leaves in them. -/
def Sim {α : Type} (m m' : Run α) : Prop := ∀ s d, bareRes (m (s.withDp d)) = bareRes (m' s)

theorem Sim.apply {α : Type} {m m' : Run α} (h : Sim m m') (s : State) : bareRes (m s) = bareRes (m' s) := h s s.dp

theorem Sim.finish {m m' : Run Out} (h : Sim m m') (s : State) : finish (m s) = finish (m' s) :=
  finish_congr (h.apply s)

theorem Sim.pure {α : Type} (a : α) : Sim (pure a) (pure a) := fun _ _ => rfl

theorem Sim.raise {α : Type} (k : Status) : Sim (raise k : Run α) (raise k) := fun _ _ => rfl

theorem Sim.setDp (f : Datapath → Datapath) : Sim (setDp f) (Pure.pure ()) := fun _ _ => rfl

theorem Sim.bind {α β : Type} {m m' : Run α} {f f' : α → Run β} (hm : Sim m m') (hf : ∀ a, Sim (f a) (f' a)) :
    Sim (m >>= f) (m' >>= f') := by
  intro s d
  have h := hm s d
  rw [run_bind, run_bind]
  cases h1 : m (s.withDp d) <;> cases h2 : m' s <;>
    simp only [h1, h2, bareRes, reduceCtorEq, EStateM.Result.ok.injEq, EStateM.Result.error.injEq] at h
  · obtain ⟨rfl, h⟩ := h
    rw [eq_withDp_of_bare h]
    exact hf _ _ _
  · obtain ⟨rfl, h⟩ := h
    simp [bareRes, h]

/-- A write of datapath registers in front changes nothing else. -/
theorem Sim.setDp_bind {β : Type} {g : Datapath → Datapath} {f : Unit → Run β} {m' : Run β} (h : Sim (f ()) m') :
    Sim (Machine.setDp g >>= f) m' := fun s _ => h s _

theorem Sim.emit (e : Event) : Sim (emit e) (emit e) := by
  intro s d
  by_cases h : (s.env.respond e).1 = .fail <;> simp [run_emit, h, bareRes]

theorem Sim.port (e : Event) : Sim (port e) (port e) := fun _ _ => rfl

theorem Sim.portL (e : Event) : Sim (portL e) (portL e) := by
  intro s d
  by_cases h : (s.env.respond e).1 = .fail <;> simp [run_portL, h, bareRes]

theorem Sim.releaseIo : Sim releaseIo releaseIo := fun _ _ => rfl

theorem Sim.setInitFlag (b : Bool) : Sim (setInitFlag b) (setInitFlag b) := fun _ _ => rfl

theorem Sim.require (c : Bool) (k : Status) : Sim (require c k) (require c k) := by
  cases c
  · exact Sim.raise k
  · exact Sim.pure ()

theorem Sim.guard (h : Bool) (ops : List Bool) : Sim (guard h ops) (guard h ops) := by
  intro s d
  cases h <;> cases hi : s.initFlag <;> cases ho : ops.all id <;> simp [run_guard, hi, ho, bareRes]

theorem Sim.runMoves (l : List Move) : Sim (runMoves l) (runMoves l) := by
  induction l with
  | nil => exact Sim.pure ()
  | cons m l ih =>
    cases m with
    | ev e => exact (Sim.emit e).bind fun _ => ih
    | release => exact Sim.releaseIo.bind fun _ => ih

/-- Running a program keeps the datapath registers, and does not look at them. -/
theorem runMoves_withDp (l : List Move) (s : State) (d : Datapath) :
    runMoves l (s.withDp d) = (match runMoves l s with
      | .ok a t => .ok a (t.withDp d)
      | .error k t => .error k (t.withDp d)) := by
  induction l generalizing s with
  | nil => rfl
  | cons m l ih =>
    cases m with
    | ev e =>
      rw [runMoves_ev, runMoves_ev]
      simp only [State.withDp_env, State.withDp_issue]
      by_cases h : (s.env.respond e).1 = .fail
      · simp [h]
      · simp [h, ih]
    | release => exact ih s.release

theorem Sim.readMoves (l : List Move) : Sim (readMoves l) (readMoves l) := by
  intro s d
  simp only [Machine.readMoves, runMoves_withDp, State.withDp_env]
  cases Machine.runMoves l s <;> rfl

end Sys2Proof.Machine
end

