-- ==== Sys2Proof/Laws/Answers.lean ====
section
/-! SUPPORT. From what the responder will answer (Safety.lean) to which moves of a program run: all of them, or those up
to the failing pin event (20_memory.md R86, 41_bit_engine.md R209). -/

namespace Sys2Proof.Machine

/-! ## Pin events of a program -/

/-- How many pin events a program has. -/
def movePins (l : List Move) : Nat := (pinsOf (moveEvents l)).length

@[simp] theorem movePins_nil : movePins [] = 0 := rfl

theorem movePins_ev_pin {e : Event} (l : List Move) (h : e.isPin = true) : movePins (.ev e :: l) = movePins l + 1 := by
  simp [movePins, moveEvents, pinsOf, h]

theorem movePins_ev_delay {e : Event} (l : List Move) (h : e.isPin = false) : movePins (.ev e :: l) = movePins l := by
  simp [movePins, moveEvents, pinsOf, h]

@[simp] theorem movePins_release (l : List Move) : movePins (.release :: l) = movePins l := rfl

@[simp] theorem movePins_append (a b : List Move) : movePins (a ++ b) = movePins a + movePins b := by
  simp [movePins, pinsOf]

theorem respond_delay (v : Env) {e : Event} (h : e.isPin = false) : v.respond e = (.none, v) := by
  simp [Env.respond, h]

/-! ## All answers ok -/

/-- The next `n` pin events will be answered ok, from any point of a request. -/
def Env.willOk (v : Env) (n : Nat) : Prop :=
  match v.responder with
  | .world => n ≤ v.answers.length ∧ ∀ a ∈ v.answers.take n, a.ok = true
  | .double none => True
  | .double (some f) => f.request ≠ v.requests ∨ f.pin ≤ v.pins ∨ v.pins + n < f.pin

theorem willOk_of_answersOk {v : Env} {n : Nat} (h : v.answersOk n = true) :
    Env.willOk { v with requests := v.requests + 1, pins := 0 } n := by
  unfold Env.answersOk at h
  unfold Env.willOk
  cases hr : v.responder with
  | world => simpa [hr] using h
  | double f =>
    cases f with
    | none => trivial
    | some p =>
      simp only [hr, Bool.or_eq_true, bne_iff_ne, beq_iff_eq, decide_eq_true_eq] at h
      show p.request ≠ v.requests + 1 ∨ p.pin ≤ 0 ∨ 0 + n < p.pin
      omega

theorem reply_ne_fail {e : Event} {a : Answer} (h : a.ok = true) : e.reply a ≠ .fail := by
  cases e <;> simp [Event.reply, h]

theorem reply_fail {e : Event} {a : Answer} (h : a.ok = false) : e.reply a = .fail := by
  simp [Event.reply, h]

theorem willOk_pin {v : Env} {n : Nat} {e : Event} (hp : e.isPin = true) (h : v.willOk (n + 1)) :
    (v.respond e).1 ≠ .fail ∧ (v.respond e).2.willOk n := by
  unfold Env.willOk at h
  simp only [Env.respond, hp, if_true]
  cases hr : v.responder with
  | world =>
    simp only [hr] at h
    cases ha : v.answers with
    | nil => simp [ha] at h
    | cons a rest =>
      simp only [ha, List.length_cons, List.take_succ_cons, List.mem_cons, forall_eq_or_imp] at h
      refine ⟨?_, ?_⟩
      · simp only [Env.answer, hr, Env.worldAnswer, ha]
        exact reply_ne_fail h.2.1
      · simp only [Env.answer, hr, Env.worldAnswer, ha, Env.willOk]
        exact ⟨by omega, h.2.2⟩
  | double f =>
    cases f with
    | none =>
      refine ⟨?_, ?_⟩
      · simp only [Env.answer, hr, Env.doubleAnswer, reduceCtorEq, if_false]
        exact reply_ne_fail rfl
      · simp [Env.answer, hr, Env.doubleAnswer, Env.willOk]
    | some p =>
      simp only [hr] at h
      have hne : ¬ (some p = some (⟨v.requests, v.pins + 1⟩ : Injected)) := by
        rintro ⟨⟩
        simp only [ne_eq, not_true_eq_false, false_or] at h
        omega
      refine ⟨?_, ?_⟩
      · simp only [Env.answer, hr, Env.doubleAnswer, if_neg hne]
        exact reply_ne_fail rfl
      · simp only [Env.answer, hr, Env.doubleAnswer, if_neg hne, Env.willOk]
        omega

theorem willOk_moves {v : Env} {n : Nat} {l : List Move} (h : v.willOk (movePins l + n)) :
    v.okMoves l ∧ (v.moves l).willOk n := by
  induction l generalizing v with
  | nil => exact ⟨trivial, by simpa using h⟩
  | cons m l ih =>
    cases m with
    | release => exact ⟨⟨trivial, (ih h).1⟩, (ih h).2⟩
    | ev e =>
      cases hp : e.isPin with
      | false =>
        rw [movePins_ev_delay l hp] at h
        have hm : v.move (.ev e) = v := by simp [Env.move, respond_delay v hp]
        refine ⟨⟨by simp [Env.okMove, respond_delay v hp], by rw [hm]; exact (ih h).1⟩, ?_⟩
        rw [env_moves_cons, hm]
        exact (ih h).2
      | true =>
        rw [movePins_ev_pin l hp, show movePins l + 1 + n = movePins l + n + 1 by omega] at h
        have h1 := willOk_pin hp h
        exact ⟨⟨h1.1, (ih h1.2).1⟩, (ih h1.2).2⟩

/-- The answers a request needs are ok: its program runs to its end. -/
theorem okMoves_of_answersOk {s : State} {i : Instr} {l : List Move} {n : Nat} (h : s.env.answersOk n = true)
    (hn : movePins l = n) : (s.accept i).env.okMoves l := by
  have := willOk_of_answersOk h
  rw [← hn] at this
  exact (willOk_moves (n := 0) (by simpa using this)).1

/-! ## The failing pin event -/

/-- The next `p - 1` pin events will be answered ok, the one after them fail. -/
def Env.willFailAt (v : Env) (p : Nat) : Prop :=
  match v.responder with
  | .world => 1 ≤ p ∧ (∀ a ∈ v.answers.take (p - 1), a.ok = true) ∧ ∃ a rest, v.answers.drop (p - 1) = a :: rest ∧ a.ok = false
  | .double f => 1 ≤ p ∧ f = some ⟨v.requests, v.pins + p⟩

theorem willFailAt_of_answersFailAt {v : Env} {p : Nat} (h : v.answersFailAt p = true) :
    Env.willFailAt { v with requests := v.requests + 1, pins := 0 } p := by
  unfold Env.answersFailAt at h
  unfold Env.willFailAt
  cases hr : v.responder with
  | world =>
    simp only [hr, Bool.and_eq_true, decide_eq_true_eq, List.all_eq_true] at h
    refine ⟨h.1.1, h.1.2, ?_⟩
    cases hd : v.answers.drop (p - 1) with
    | nil => simp [hd] at h
    | cons a rest => exact ⟨a, rest, rfl, by simpa [hd] using h.2⟩
  | double f =>
    simp only [hr, Bool.and_eq_true, decide_eq_true_eq, beq_iff_eq] at h
    exact ⟨h.1, by simpa using h.2⟩

theorem willFailAt_first {v : Env} {e : Event} (hp : e.isPin = true) (h : v.willFailAt 1) : (v.respond e).1 = .fail := by
  unfold Env.willFailAt at h
  simp only [Env.respond, hp, if_true]
  cases hr : v.responder with
  | world =>
    simp only [hr, Nat.sub_self, List.drop_zero] at h
    obtain ⟨_, _, a, rest, ha, hf⟩ := h
    simp only [Env.answer, hr, Env.worldAnswer, ha]
    exact reply_fail hf
  | double f =>
    simp only [hr] at h
    simp only [Env.answer, hr, Env.doubleAnswer, h.2, if_true]
    exact reply_fail rfl

theorem willFailAt_next {v : Env} {p : Nat} {e : Event} (hp : e.isPin = true) (h : v.willFailAt (p + 2)) :
    (v.respond e).1 ≠ .fail ∧ (v.respond e).2.willFailAt (p + 1) := by
  unfold Env.willFailAt at h
  simp only [Env.respond, hp, if_true]
  cases hr : v.responder with
  | world =>
    simp only [hr] at h
    obtain ⟨_, h1, a, rest, ha, hf⟩ := h
    cases hv : v.answers with
    | nil => simp [hv] at ha
    | cons b bs =>
      simp only [hv, Nat.add_succ_sub_one, List.take_succ_cons, List.mem_cons, forall_eq_or_imp, List.drop_succ_cons] at h1 ha
      simp only [Env.answer, hr, Env.worldAnswer, hv, Env.willFailAt]
      exact ⟨reply_ne_fail h1.1, by omega, h1.2, a, rest, ha, hf⟩
  | double f =>
    simp only [hr] at h
    have hne : ¬ (f = some ⟨v.requests, v.pins + 1⟩) := by rw [h.2]; simp
    simp only [Env.answer, hr, Env.doubleAnswer, if_neg hne, Env.willFailAt]
    exact ⟨reply_ne_fail rfl, by omega, by rw [h.2]; simp only [Option.some.injEq, Injected.mk.injEq, true_and]; omega⟩

/-- A program that reaches its failing pin event runs up to it. -/
theorem fail_split {v : Env} {p : Nat} {l : List Move} (h : v.willFailAt p) (hp : p ≤ movePins l) :
    ∃ a e b, l = a ++ .ev e :: b ∧ v.okMoves a ∧ ((v.moves a).respond e).1 = .fail ∧
      moveEvents a ++ [e] = throughPin p (moveEvents l) := by
  induction l generalizing v p with
  | nil =>
    have : 1 ≤ p := by unfold Env.willFailAt at h; cases hr : v.responder <;> simp only [hr] at h <;> exact h.1
    simp at hp
    omega
  | cons m l ih =>
    cases m with
    | release =>
      obtain ⟨a, e, b, rfl, ha, he, ht⟩ := ih (v := v) h hp
      exact ⟨.release :: a, e, b, rfl, ⟨trivial, ha⟩, he, ht⟩
    | ev f =>
      cases hf : f.isPin with
      | false =>
        rw [movePins_ev_delay l hf] at hp
        have hm : v.move (.ev f) = v := by simp [Env.move, respond_delay v hf]
        obtain ⟨a, e, b, rfl, ha, he, ht⟩ := ih (v := v) h hp
        refine ⟨.ev f :: a, e, b, rfl, ⟨by simp [Env.okMove, respond_delay v hf], by rw [hm]; exact ha⟩,
          by rw [env_moves_cons, hm]; exact he, ?_⟩
        have h1 : 1 ≤ p := by unfold Env.willFailAt at h; cases hr : v.responder <;> simp only [hr] at h <;> exact h.1
        obtain ⟨q, rfl⟩ : ∃ q, p = q + 1 := ⟨p - 1, by omega⟩
        simp only [moveEvents, List.filterMap_cons, throughPin, hf] at ht ⊢
        simpa using ht
      | true =>
        rw [movePins_ev_pin l hf] at hp
        match p, h, hp with
        | 0, h, _ =>
          unfold Env.willFailAt at h
          cases hr : v.responder <;> simp only [hr] at h <;> exact absurd h.1 (by decide)
        | 1, h, _ =>
          refine ⟨[], f, l, rfl, trivial, willFailAt_first hf h, ?_⟩
          simp [moveEvents, throughPin, hf]
        | q + 2, h, hp =>
          obtain ⟨h1, h2⟩ := willFailAt_next hf h
          obtain ⟨a, e, b, rfl, ha, he, ht⟩ := ih (v := (v.respond f).2) h2 (by omega)
          refine ⟨.ev f :: a, e, b, rfl, ⟨h1, ha⟩, he, ?_⟩
          simp only [moveEvents, List.filterMap_cons, throughPin, hf] at ht ⊢
          simpa using ht

end Sys2Proof.Machine
end

