-- ==== Sys2Proof/Laws/Memory.lean ====
section
/-! SUPPORT. The target's memory: every operation keeps the canonical form; a read after a write; and what each event
of the reference double does to the memory and to its bit count (20_memory.md R80 to R85). -/

namespace Sys2Proof.Machine

theorem wfFrom_mono {lo lo' : Nat} {m : List Host.Cell} (hle : lo' ≤ lo) (h : Memory.wfFrom lo m = true) :
    Memory.wfFrom lo' m = true := by
  cases m with
  | nil => rfl
  | cons c rest =>
    obtain ⟨k, v⟩ := c
    simp only [Memory.wfFrom, Bool.and_eq_true, decide_eq_true_eq] at h ⊢
    exact ⟨⟨⟨by omega, h.1.1.2⟩, h.1.2⟩, h.2⟩

theorem read_below {lo a : Nat} {m : List Host.Cell} (h : Memory.wfFrom lo m = true) (ha : a < lo) :
    Memory.read m a = unlistedByte := by
  induction m generalizing lo with
  | nil => rfl
  | cons c rest ih =>
    obtain ⟨k, v⟩ := c
    simp only [Memory.wfFrom, Bool.and_eq_true, decide_eq_true_eq] at h
    rw [Memory.read, if_neg (by omega)]
    exact ih h.2 (by omega)

theorem wf_erase {lo a : Nat} {m : List Host.Cell} (h : Memory.wfFrom lo m = true) :
    Memory.wfFrom lo (Memory.erase m a) = true := by
  induction m generalizing lo with
  | nil => rfl
  | cons c rest ih =>
    obtain ⟨k, v⟩ := c
    simp only [Memory.wfFrom, Bool.and_eq_true, decide_eq_true_eq] at h
    rw [Memory.erase]
    by_cases hk : k = a
    · rw [if_pos hk]; exact wfFrom_mono (by omega) h.2
    · rw [if_neg hk]
      simp only [Memory.wfFrom, Bool.and_eq_true, decide_eq_true_eq]
      exact ⟨h.1, ih h.2⟩

theorem wf_insert {lo a : Nat} {v : Byte} {m : List Host.Cell} (h : Memory.wfFrom lo m = true) (hlo : lo ≤ a)
    (hc : isCell a = true) (hv : v ≠ unlistedByte) : Memory.wfFrom lo (Memory.insert m a v) = true := by
  induction m generalizing lo with
  | nil =>
    simp only [Memory.insert, Memory.wfFrom, Bool.and_eq_true, decide_eq_true_eq, bne_iff_ne]
    exact ⟨⟨⟨hlo, hc⟩, hv⟩, trivial⟩
  | cons c rest ih =>
    obtain ⟨k, w⟩ := c
    simp only [Memory.wfFrom, Bool.and_eq_true, decide_eq_true_eq, bne_iff_ne] at h
    rw [Memory.insert]
    by_cases h1 : a < k
    · rw [if_pos h1]
      simp only [Memory.wfFrom, Bool.and_eq_true, decide_eq_true_eq, bne_iff_ne]
      exact ⟨⟨⟨hlo, hc⟩, hv⟩, ⟨⟨by omega, h.1.1.2⟩, h.1.2⟩, h.2⟩
    · rw [if_neg h1]
      by_cases h2 : k = a
      · rw [if_pos h2]
        simp only [Memory.wfFrom, Bool.and_eq_true, decide_eq_true_eq, bne_iff_ne]
        exact ⟨⟨⟨hlo, hc⟩, hv⟩, h2 ▸ h.2⟩
      · rw [if_neg h2]
        simp only [Memory.wfFrom, Bool.and_eq_true, decide_eq_true_eq, bne_iff_ne]
        exact ⟨h.1, ih h.2 (by omega)⟩

/-- A write keeps the canonical form. -/
theorem wf_write {m : List Host.Cell} {a : Nat} {v : Byte} (h : Memory.wf m = true) (hc : isCell a = true) :
    Memory.wf (Memory.write m a v) = true := by
  unfold Memory.write
  by_cases hv : v = unlistedByte
  · rw [if_pos hv]; exact wf_erase h
  · rw [if_neg hv]; exact wf_insert h (Nat.zero_le a) hc hv

theorem read_erase_same {lo a : Nat} {m : List Host.Cell} (h : Memory.wfFrom lo m = true) :
    Memory.read (Memory.erase m a) a = unlistedByte := by
  induction m generalizing lo with
  | nil => rfl
  | cons c rest ih =>
    obtain ⟨k, v⟩ := c
    simp only [Memory.wfFrom, Bool.and_eq_true, decide_eq_true_eq] at h
    rw [Memory.erase]
    by_cases hk : k = a
    · rw [if_pos hk]; exact read_below h.2 (by omega)
    · rw [if_neg hk, Memory.read, if_neg hk]; exact ih h.2

theorem read_erase_other {a b : Nat} {m : List Host.Cell} (hab : b ≠ a) :
    Memory.read (Memory.erase m a) b = Memory.read m b := by
  induction m with
  | nil => rfl
  | cons c rest ih =>
    obtain ⟨k, v⟩ := c
    rw [Memory.erase]
    by_cases hk : k = a
    · rw [if_pos hk, Memory.read, if_neg (by omega)]
    · rw [if_neg hk, Memory.read, Memory.read, ih]

theorem read_insert_same {a : Nat} {v : Byte} {m : List Host.Cell} : Memory.read (Memory.insert m a v) a = v := by
  induction m with
  | nil => simp [Memory.insert, Memory.read]
  | cons c rest ih =>
    obtain ⟨k, w⟩ := c
    rw [Memory.insert]
    by_cases h1 : a < k
    · rw [if_pos h1, Memory.read, if_pos rfl]
    · rw [if_neg h1]
      by_cases h2 : k = a
      · rw [if_pos h2, Memory.read, if_pos rfl]
      · rw [if_neg h2, Memory.read, if_neg h2, ih]

theorem read_insert_other {a b : Nat} {v : Byte} {m : List Host.Cell} (hab : b ≠ a) :
    Memory.read (Memory.insert m a v) b = Memory.read m b := by
  induction m with
  | nil => simp [Memory.insert, Memory.read, Ne.symm hab]
  | cons c rest ih =>
    obtain ⟨k, w⟩ := c
    rw [Memory.insert]
    by_cases h1 : a < k
    · rw [if_pos h1, Memory.read, if_neg (Ne.symm hab)]
    · rw [if_neg h1]
      by_cases h2 : k = a
      · subst h2
        rw [if_pos rfl, Memory.read, if_neg (Ne.symm hab), Memory.read, if_neg (Ne.symm hab)]
      · rw [if_neg h2, Memory.read, Memory.read, ih]

/-- A read of what was written. -/
theorem read_write_same {m : List Host.Cell} {a : Nat} {v : Byte} (h : Memory.wf m = true) :
    Memory.read (Memory.write m a v) a = v := by
  unfold Memory.write
  by_cases hv : v = unlistedByte
  · rw [if_pos hv, hv]; exact read_erase_same h
  · rw [if_neg hv]; exact read_insert_same

/-- A write leaves every other place alone. -/
theorem read_write_other {m : List Host.Cell} {a b : Nat} {v : Byte} (hab : b ≠ a) :
    Memory.read (Memory.write m a v) b = Memory.read m b := by
  unfold Memory.write
  by_cases hv : v = unlistedByte
  · rw [if_pos hv]; exact read_erase_other hab
  · rw [if_neg hv]; exact read_insert_other hab

/-! ## The double's events -/

/-- Every data cell exists. -/
theorem isCell_dataCell {c : Byte} {j a : Nat} (h : dataCell c j = some a) : isCell a = true := by
  unfold dataCell at h
  have hb : ∀ (b : Bool) (n : Nat), n ≤ 30 → isCell (cellAddr b n) = true := by decide
  split at h
  · split at h <;> split at h <;> first | (injection h with h; subst h; exact hb _ _ (by omega)) | simp at h
  · rename_i hi
    split at h
    · injection h with h
      subst h
      refine hb _ _ ?_
      have h1 : (cmdIdx c).toNat < 32 := (cmdIdx c).isLt
      have h2 : (cmdIdx c).toNat ≠ 31 := fun he => hi (BitVec.eq_of_toNat_eq he)
      omega
    · simp at h

theorem commit_fields (d : Double) (v : Byte) : (d.commit v).nbits = d.nbits ∧ (d.commit v).mode = d.mode ∧
    (d.commit v).cmd = d.cmd ∧ (d.commit v).j = d.j ∧ (d.commit v).k = d.k ∧ (d.commit v).lastCe = d.lastCe ∧
    (d.commit v).lastClk = d.lastClk ∧ (d.commit v).lastIo = d.lastIo ∧ (d.commit v).shift = d.shift := by
  unfold Double.commit
  split <;> exact ⟨rfl, rfl, rfl, rfl, rfl, rfl, rfl, rfl, rfl⟩

theorem commit_wf {d : Double} {v : Byte} (h : Memory.wf d.mem = true) : Memory.wf (d.commit v).mem = true := by
  unfold Double.commit
  split
  · rename_i a ha; exact wf_write h (isCell_dataCell ha)
  · exact h

theorem latch_wf {d : Double} {l : Bool} (h : Memory.wf d.mem = true) : Memory.wf (d.latch l).mem = true := by
  unfold Double.latch
  split
  · unfold Double.complete
    split
    · exact h
    · exact commit_wf (d := { d with shift := shiftIn d.shift l, nbits := 0 }) h
    · exact h
  · exact h

theorem latch_nbits {d : Double} {l : Bool} (h : d.nbits < 8) : (d.latch l).nbits < 8 := by
  unfold Double.latch
  split
  · unfold Double.complete
    split
    · exact Nat.succ_pos 7
    · show ((_ : Double).commit _).nbits < 8
      rw [(commit_fields _ _).1]; exact Nat.succ_pos 7
    · exact Nat.succ_pos 7
  · show d.nbits + 1 < 8
    omega

/-- No event breaks the memory's canonical form or the bit count's range. -/
theorem observe_keeps {d : Double} {w : Bool} {e : Event} (hm : Memory.wf d.mem = true) (hn : d.nbits < 8) :
    Memory.wf (d.observe w e).double.mem = true ∧ (d.observe w e).double.nbits < 8 := by
  cases e
  case ceWrite l =>
    cases l
    · exact ⟨hm, hn⟩
    · simp only [Double.observe, Observed.plain, Double.ceHigh]
      split
      · exact ⟨hm, Nat.succ_pos 7⟩
      · exact ⟨hm, hn⟩
  case clkWrite l =>
    cases l
    · exact ⟨hm, hn⟩
    · simp only [Double.observe, Double.clkHigh]
      split
      · exact ⟨latch_wf hm, latch_nbits hn⟩
      · exact ⟨hm, hn⟩
  case ioRead =>
    simp only [Double.observe, Double.read]
    split
    · split <;> exact ⟨hm, hn⟩
    · exact ⟨hm, hn⟩
  all_goals exact ⟨hm, hn⟩

end Sys2Proof.Machine
end

