-- ==== Sys2Proof/Laws/Engine.lean ====
section
/-! SUPPORT. Each transfer of the engine and of the multiplexer runs its frames' event list (30_encoding.md R105, R106),
up to the datapath registers: one lemma per transfer. -/

namespace Sys2Proof.Machine

/-! ## Composition, with what is known of the first value -/

theorem Sim.bind_of {α β : Type} {m m' : Run α} {f f' : α → Run β} (hm : Sim m m')
    (hf : ∀ s a t, m' s = .ok a t → Sim (f a) (f' a)) : Sim (m >>= f) (m' >>= f') := by
  intro s d
  have h := hm s d
  rw [run_bind, run_bind]
  cases h1 : m (s.withDp d) <;> cases h2 : m' s <;>
    simp only [h1, h2, bareRes, reduceCtorEq, EStateM.Result.ok.injEq, EStateM.Result.error.injEq] at h
  · obtain ⟨rfl, h⟩ := h
    rw [eq_withDp_of_bare h]
    exact hf _ _ _ h2 _ _
  · obtain ⟨rfl, h⟩ := h
    simp [bareRes, h]

theorem Sim.congr_right {α : Type} {m m' m'' : Run α} (h : Sim m m') (e : m' = m'') : Sim m m'' := e ▸ h

/-! ## The programs -/

/-- The moves of a list of events. -/
def evs (l : List Event) : List Move := l.map .ev

@[simp] theorem evs_append (a b : List Event) : evs (a ++ b) = evs a ++ evs b := by simp [evs]
@[simp] theorem evs_cons (e : Event) (l : List Event) : evs (e :: l) = .ev e :: evs l := rfl
@[simp] theorem evs_nil : evs [] = [] := rfl
@[simp] theorem moveEvents_evs (l : List Event) : moveEvents (evs l) = l := moveEvents_map_ev l

/-- The command phase of a frame. -/
def commandMoves (c : Byte) : List Move := evs (.ceWrite true :: outByte c)

/-- The single write frame (R106). -/
def writeFrame (c v : Byte) : List Move := evs (singleWrite c v)

/-- The single read frame (R106), with the release of the data line. -/
def readFrame (c : Byte) : List Move := commandMoves c ++ .release :: evs (inByte ++ [.ceWrite false])

/-- The burst write frame (R106). -/
def burstWriteFrame (c : Byte) (l : List Byte) : List Move := evs (burstWrite c l)

/-- The burst read frame (R106), with the release of the data line. -/
def burstReadFrame (c : Byte) (n : Nat) : List Move := commandMoves c ++ .release :: evs (inBytes n ++ [.ceWrite false])

/-- The frames of a multiple write. -/
def writeMultiMoves (start : Byte) (i : Nat) (l : List Byte) : List Move := evs (multiWrite start i l)

/-- The frames of a multiple read. -/
def readMultiMoves (start : Byte) (i : Nat) : Nat → List Move
  | 0 => []
  | k + 1 => readFrame (ar start i) ++ readMultiMoves start (i + 1) k

/-- The write frames of a list of pairs. -/
def pairMoves (l : List (Byte × Byte)) : List Move := evs (pairWrites l)

@[simp] theorem moveEvents_cons_release (l : List Move) : moveEvents (.release :: l) = moveEvents l := rfl

/-! The parts of each frame. -/

theorem writeFrame_parts (c v : Byte) :
    writeFrame c v = commandMoves c ++ (evs (outByte v) ++ evs [.ioWrite false, .ceWrite false]) := by
  simp [writeFrame, singleWrite, commandMoves]

theorem burstWriteFrame_parts (c : Byte) (l : List Byte) :
    burstWriteFrame c l = commandMoves c ++ (evs (outBytes l) ++ evs [.ioWrite false, .ceWrite false]) := by
  simp [burstWriteFrame, burstWrite, commandMoves]

theorem burstReadFrame_parts (c : Byte) (n : Nat) :
    burstReadFrame c n = commandMoves c ++ ([.release] ++ (evs (inBytes n) ++ evs [.ceWrite false])) := by
  simp [burstReadFrame]

theorem writeFrame_burst (c v : Byte) : writeFrame c v = burstWriteFrame c [v] := by
  simp [writeFrame, burstWriteFrame, singleWrite, burstWrite, outBytes]

theorem readFrame_burst (c : Byte) : readFrame c = burstReadFrame c 1 := by
  simp [readFrame, burstReadFrame, inBytes]

theorem writeMultiMoves_cons (start : Byte) (i : Nat) (v : Byte) (vs : List Byte) :
    writeMultiMoves start i (v :: vs) = writeFrame (aw start i) v ++ writeMultiMoves start (i + 1) vs := by
  simp [writeMultiMoves, multiWrite, writeFrame]

theorem pairMoves_cons (p : Byte × Byte) (rest : List (Byte × Byte)) :
    pairMoves (p :: rest) = writeFrame p.1 p.2 ++ pairMoves rest := by
  simp [pairMoves, pairWrites, writeFrame]

@[simp] theorem moveEvents_writeFrame (c v : Byte) : moveEvents (writeFrame c v) = singleWrite c v := by
  simp [writeFrame]

@[simp] theorem moveEvents_readFrame (c : Byte) : moveEvents (readFrame c) = singleRead c := by
  simp only [readFrame, commandMoves, moveEvents_append, moveEvents_cons_release, moveEvents_evs]
  simp [singleRead]

@[simp] theorem moveEvents_burstWriteFrame (c : Byte) (l : List Byte) :
    moveEvents (burstWriteFrame c l) = burstWrite c l := by
  simp [burstWriteFrame]

@[simp] theorem moveEvents_burstReadFrame (c : Byte) (n : Nat) : moveEvents (burstReadFrame c n) = burstRead c n := by
  simp only [burstReadFrame, commandMoves, moveEvents_append, moveEvents_cons_release, moveEvents_evs]
  simp [burstRead]

@[simp] theorem moveEvents_writeMultiMoves (start : Byte) (i : Nat) (l : List Byte) :
    moveEvents (writeMultiMoves start i l) = multiWrite start i l := by
  simp [writeMultiMoves]

@[simp] theorem moveEvents_readMultiMoves (start : Byte) (i n : Nat) :
    moveEvents (readMultiMoves start i n) = multiRead start i n := by
  induction n generalizing i with
  | zero => rfl
  | succ k ih => simp [readMultiMoves, multiRead, ih]

@[simp] theorem moveEvents_pairMoves (l : List (Byte × Byte)) : moveEvents (pairMoves l) = pairWrites l := by
  simp [pairMoves]

/-! ## OUT: one bit, one byte, several bytes -/

theorem clockPulse_eq : clockPulse = runMoves (evs pulseEvents) := by
  simp [clockPulse, delay, evs, pulseEvents, runMoves, delayEvent]

theorem shiftOutBit_eq (b : Bool) : shiftOutBit b = runMoves (evs (outSlot b)) := by
  simp [shiftOutBit, clockPulse_eq, delay, outSlot, runMoves, delayEvent]

/-- The OUT slots of the low `k` bits of a shift register. -/
def outSlots : Byte → Nat → List Event
  | _, 0 => []
  | x, k + 1 => outSlot (x.getLsbD 0) ++ outSlots (x >>> 1) k

theorem outSlots_eight (x : Byte) : outSlots x 8 = outByte x := by
  have h : List.range 8 = [0, 1, 2, 3, 4, 5, 6, 7] := rfl
  simp [outSlots, outByte, h]

theorem sim_shiftOutBits (k : Nat) (s : State) (d : Datapath) :
    bareRes (shiftOutBits k (s.withDp d)) = bareRes (runMoves (evs (outSlots d.sr k)) s) := by
  induction k generalizing s d with
  | zero => rfl
  | succ k ih =>
    simp only [shiftOutBits, run_setDp_bind, run_getDp_bind, State.withDp_dp, State.withDp_withDp, shiftOutBit_eq,
      outSlots, evs_append, runMoves_append]
    rw [run_bind, run_bind, runMoves_withDp]
    cases h : runMoves (evs (outSlot (d.sr.getLsbD 0))) s with
    | error e t => rfl
    | ok a t =>
      simp only [State.withDp_dp, State.withDp_withDp, run_setDp_bind]
      exact ih t _

/-- SHIFT_OUT_BYTE runs OUT(x) (R203). -/
theorem sim_shiftOutByte (x : Byte) : Sim (shiftOutByte x) (runMoves (evs (outByte x))) := by
  intro s d
  rw [← outSlots_eight]
  exact sim_shiftOutBits 8 s { d with sr := x }

theorem sim_shiftOutBytes (i : Nat) (l : List Byte) : Sim (shiftOutBytes i l) (runMoves (evs (outBytes l))) := by
  induction l generalizing i with
  | nil => exact Sim.pure ()
  | cons v vs ih =>
    have e : evs (outBytes (v :: vs)) = evs (outByte v) ++ evs (outBytes vs) := by simp [outBytes]
    rw [e, runMoves_append]
    exact Sim.setDp_bind ((sim_shiftOutByte v).bind fun _ => ih (i + 1))

theorem sim_writeClose : Sim writeClose (runMoves (evs [.ioWrite false, .ceWrite false])) := by
  have e : writeClose = runMoves (evs [.ioWrite false, .ceWrite false]) := by simp [writeClose, runMoves, evs]
  rw [e]
  exact Sim.runMoves _

theorem sim_readClose : Sim readClose (runMoves (evs [.ceWrite false])) := by
  have e : readClose = runMoves (evs [.ceWrite false]) := by simp [readClose, runMoves, evs]
  rw [e]
  exact Sim.runMoves _

/-- The command register is what the command phase shifts out. -/
theorem sendCommand_run (c : Byte) (s : State) :
    sendCommand c s = (emit (.ceWrite true) >>= fun _ => shiftOutByte c) (s.withDp { s.dp with cmd := c }) := by
  simp only [sendCommand, run_setDp_bind, frameOpen]
  rw [run_bind, run_bind, run_emit]
  by_cases h : (s.env.respond (.ceWrite true)).1 = .fail <;> simp [h]

/-- The command phase of every frame. -/
theorem sim_sendCommand (c : Byte) : Sim (sendCommand c) (runMoves (commandMoves c)) := by
  intro s d
  rw [sendCommand_run]
  exact ((Sim.emit _).bind fun _ => sim_shiftOutByte c) s _

/-! ## IN: one byte, several bytes -/

/-- `k` IN slots. -/
def inSlots : Nat → List Event
  | 0 => []
  | k + 1 => inSlot ++ inSlots k

theorem inSlots_eight : inSlots 8 = inByte := rfl

theorem inSlots_add (a b : Nat) : inSlots (a + b) = inSlots a ++ inSlots b := by
  induction a with
  | zero => simp [inSlots]
  | succ a ih => rw [Nat.add_right_comm]; simp [inSlots, ih]

theorem evs_inSlots_succ (n : Nat) : evs (inSlots (n + 1)) = evs inSlot ++ evs (inSlots n) := by simp [inSlots]

theorem evs_inBytes (n : Nat) : evs (inBytes n) = evs (inSlots (8 * n)) := by
  induction n with
  | zero => rfl
  | succ n ih =>
    have e : inBytes (n + 1) = inByte ++ inBytes n := by
      simp [inBytes, List.range_succ_eq_map, List.flatMap_map]
    rw [e, evs_append, ih, show 8 * (n + 1) = 8 + 8 * n by omega, inSlots_add, evs_append, inSlots_eight]

/-- An IO_READ is answered with a level, or it fails. -/
theorem respond_ioRead (v : Env) :
    (v.respond .ioRead).1 = .fail ∨ ∃ l, (v.respond .ioRead).1 = .level l := by
  cases h : (v.answer .ioRead).1.ok <;> simp [Env.respond, Event.isPin, Event.reply, h]

/-- No other event is answered with a level. -/
theorem respond_not_level (v : Env) {e : Event} (h : e ≠ .ioRead) (l : Bool) : (v.respond e).1 ≠ .level l := by
  cases e <;> simp_all [Env.respond, Event.isPin, Event.reply] <;> split <;> simp

/-- Events that sample nothing. -/
theorem levels_none (v : Env) {l : List Event} (h : Event.ioRead ∉ l) : v.levels (evs l) = [] := by
  induction l generalizing v with
  | nil => rfl
  | cons e l ih =>
    simp only [List.mem_cons, not_or] at h
    have h1 := respond_not_level v (Ne.symm h.1)
    simp only [evs_cons, Env.levels, ih _ h.2, List.append_nil]
    cases hr : (v.respond e).1 <;> simp_all [Reply.sample]

theorem sim_shiftInBits (k : Nat) (s : State) (d : Datapath) :
    bareRes ((shiftInBits k >>= fun _ => getDp >>= fun d => pure d.acc : Run Byte) (s.withDp d)) =
      bareRes ((readMoves (evs (inSlots k)) >>= fun l => pure (l.foldl shiftIn d.acc) : Run Byte) s) := by
  induction k generalizing s d with
  | zero => rfl
  | succ k ih =>
    have hp : Event.ioRead ∉ pulseEvents := by simp [pulseEvents, delayEvent]
    have e : evs (inSlots (k + 1)) = .ev .ioRead :: (evs pulseEvents ++ evs (inSlots k)) := by
      simp [inSlots, inSlot]
    rw [e]
    have e2 : (shiftInBits (k + 1) >>= fun _ => getDp >>= fun d => pure d.acc : Run Byte) (s.withDp d) =
        (portE .ioRead >>= fun l => setDp (fun d => { d with acc := shiftIn d.acc l }) >>= fun _ =>
          clockPulse >>= fun _ => shiftInBits k >>= fun _ => getDp >>= fun d => pure d.acc : Run Byte)
          (s.withDp { d with bitI := 8 - (k + 1) }) := by
      simp only [shiftInBits, shiftInBit, bind_assoc]
      rfl
    rw [e2]
    rcases respond_ioRead s.env with hf | ⟨l, hl⟩
    · simp [run_bind, run_portE, readMoves, runMoves_ev, hf, bareRes]
    · have h1 : (s.env.respond .ioRead).1 ≠ .fail := by simp [hl]
      rw [run_bind_ok (run_portE_ok (s := s.withDp { d with bitI := 8 - (k + 1) }) hl (by simp))]
      simp only [Reply.value, State.withDp_issue, run_setDp_bind, State.withDp_dp, State.withDp_withDp, clockPulse_eq]
      rw [run_bind, runMoves_withDp]
      rw [run_bind]
      simp only [readMoves, runMoves_ev, h1, if_false, runMoves_append]
      rw [run_bind]
      simp only [Env.levels, hl, Reply.sample, levels_append, levels_none _ hp, List.nil_append]
      rcases runMoves_cases (evs pulseEvents) (s.issue .ioRead) with ⟨hok, hr⟩ | ⟨_, _, _, _, _, _, hr⟩
      · rw [hr]
        have := ih ((s.issue .ioRead).moves (evs pulseEvents)) { d with bitI := 8 - (k + 1), acc := shiftIn d.acc l }
        simp only [run_bind, readMoves] at this
        simp only [run_bind]
        rw [this]
        cases runMoves (evs (inSlots k)) ((s.issue .ioRead).moves (evs pulseEvents)) <;>
          simp [bareRes, Env.move]
      · rw [hr]; rfl

/-- How many levels a program that ends samples. -/
theorem levels_length (v : Env) (l : List Move) (h : v.okMoves l) :
    (v.levels l).length = (l.filter fun m => m == .ev .ioRead).length := by
  induction l generalizing v with
  | nil => rfl
  | cons m l ih =>
    cases m with
    | release => simpa [Env.levels] using ih v h.2
    | ev e =>
      by_cases he : e = .ioRead
      · subst he
        rcases respond_ioRead v with hf | ⟨b, hb⟩
        · exact absurd hf h.1
        · simp [Env.levels, hb, Reply.sample, ih _ h.2, Nat.add_comm]
      · have h1 := respond_not_level v he
        have : (v.respond e).1.sample = [] := by
          cases hr : (v.respond e).1 <;> simp_all [Reply.sample]
        simp only [Env.levels, this, List.nil_append, ih _ h.2]
        simp [he]

theorem readMoves_length {l : List Move} {s t : State} {x : List Bool} (h : readMoves l s = .ok x t) :
    x.length = (l.filter fun m => m == .ev .ioRead).length := by
  rcases runMoves_cases l s with ⟨hok, hr⟩ | ⟨_, _, _, _, _, _, hr⟩
  · simp only [readMoves, hr, EStateM.Result.ok.injEq] at h
    rw [← h.1, levels_length _ _ hok]
  · simp [readMoves, hr] at h

/-- Eight samples shifted into the high bit are the byte whose bit j is sample j (R206). -/
theorem foldl_shiftIn_eight (l : List Bool) (h : l.length = 8) : l.foldl shiftIn 0 = byteOfBits l := by
  match l, h with
  | [a, b, c, d, e, f, g, i], _ => revert a b c d e f g i; decide

/-- SHIFT_IN_BYTE runs IN and gives the byte of its samples (R206). -/
theorem sim_shiftInByte : Sim shiftInByte (readMoves (evs inByte) >>= fun l => pure (byteOfBits l)) := by
  intro s d
  have h := sim_shiftInBits 8 s { d with acc := 0 }
  have e : shiftInByte (s.withDp d) =
      (shiftInBits 8 >>= fun _ => getDp >>= fun d => pure d.acc : Run Byte) (s.withDp { d with acc := 0 }) := rfl
  rw [e, h, inSlots_eight]
  rw [run_bind, run_bind]
  cases hr : readMoves (evs inByte) s with
  | error k t => rfl
  | ok l t =>
    have hl : l.length = 8 := by rw [readMoves_length hr]; rfl
    simp only [run_pure]
    rw [foldl_shiftIn_eight l hl]

theorem sim_shiftInBytes (i : Nat) (rbuf : List Byte) (n : Nat) :
    Sim (shiftInBytes i rbuf n) (readMoves (evs (inBytes n)) >>= fun l => pure (rbuf ++ bytesOfBits n l)) := by
  induction n generalizing i rbuf with
  | zero =>
    intro s d
    simp [shiftInBytes, inBytes, readMoves, run_bind, bytesOfBits, bareRes]
  | succ n ih =>
    have e : evs (inBytes (n + 1)) = evs inByte ++ evs (inBytes n) := by
      simp [inBytes, List.range_succ_eq_map, List.flatMap_map]
    have e2 : (readMoves (evs (inBytes (n + 1))) >>= fun l => pure (rbuf ++ bytesOfBits (n + 1) l) : Run (List Byte)) =
        (readMoves (evs inByte) >>= fun l => pure (byteOfBits l)) >>= fun r =>
          (readMoves (evs (inBytes n)) >>= fun l => pure ((rbuf ++ [r]) ++ bytesOfBits n l)) := by
      rw [e, readMoves_append]
      funext s
      simp only [bind_assoc, pure_bind]
      rw [run_bind, run_bind]
      cases hr : readMoves (evs inByte) s with
      | error k t => rfl
      | ok l t =>
        have hl : l.length = 8 := by rw [readMoves_length hr]; rfl
        simp only [run_bind]
        cases readMoves (evs (inBytes n)) t <;> simp [bytesOfBits, ← hl]
    rw [e2]
    exact Sim.setDp_bind (sim_shiftInByte.bind fun r => Sim.setDp_bind (ih (i + 1) (rbuf ++ [r])))

/-! ## Frames -/

/-- ENG_WRITE_BYTE runs the single write frame (R209). -/
theorem sim_engWriteByte (c v : Byte) : Sim (engWriteByte c v) (runMoves (writeFrame c v)) := by
  have e := writeFrame_parts c v
  rw [e, runMoves_append, runMoves_append]
  exact (sim_sendCommand c).bind fun _ => (sim_shiftOutByte v).bind fun _ => sim_writeClose

/-- Moves that sample nothing come before and after the samples. -/
theorem readMoves_wrap (a b c : List Event) (ha : Event.ioRead ∉ a) (hc : Event.ioRead ∉ c) :
    (runMoves (evs a) >>= fun _ => releaseIo >>= fun _ => readMoves (evs b) >>= fun l =>
      runMoves (evs c) >>= fun _ => pure l : Run (List Bool)) = readMoves (evs a ++ .release :: evs (b ++ c)) := by
  funext s
  rw [show (evs a ++ .release :: evs (b ++ c)) = evs a ++ ([.release] ++ (evs b ++ evs c)) by simp]
  simp only [readMoves_append]
  rcases runMoves_cases (evs a) s with ⟨hok, hr⟩ | ⟨_, _, _, _, _, _, hr⟩
  · simp only [run_bind, hr, readMoves, levels_none _ ha, runMoves_release, runMoves_nil, run_releaseIo, Env.levels]
    cases runMoves (evs b) (s.moves (evs a)).release with
    | error k t => rfl
    | ok x t =>
      simp only [levels_none _ hc]
      cases runMoves (evs c) t <;> simp
  · simp only [run_bind, hr, readMoves]

theorem ioRead_notMem_outSlot (b : Bool) : Event.ioRead ∉ outSlot b := by
  simp [outSlot, pulseEvents, delayEvent]

theorem ioRead_notMem_outByte (x : Byte) : Event.ioRead ∉ outByte x := by
  simp [outByte, ioRead_notMem_outSlot]

/-- ENG_READ_BYTE runs the single read frame and gives the byte of its samples (R210). -/
theorem sim_engReadByte (c : Byte) :
    Sim (engReadByte c) (readMoves (readFrame c) >>= fun l => pure (byteOfBits l)) := by
  have h := readMoves_wrap (.ceWrite true :: outByte c) inByte [.ceWrite false]
    (by simp [ioRead_notMem_outByte]) (by simp)
  have e : (readMoves (readFrame c) >>= fun l => pure (byteOfBits l) : Run Byte) =
      (runMoves (commandMoves c) >>= fun _ => releaseIo >>= fun _ =>
        (readMoves (evs inByte) >>= fun l => pure (byteOfBits l)) >>= fun r =>
          runMoves (evs [.ceWrite false]) >>= fun _ => pure r) := by
    rw [readFrame, commandMoves, ← h]
    simp
  rw [e]
  exact (sim_sendCommand c).bind fun _ => Sim.releaseIo.bind fun _ => sim_shiftInByte.bind fun r =>
    sim_readClose.bind fun _ => Sim.pure r

/-- REG_WRITE_MULTIPLE's loop runs the frames of its bytes (R302). -/
theorem sim_writeFrames (start : Byte) (i : Nat) (l : List Byte) :
    Sim (writeFrames start i l) (runMoves (writeMultiMoves start i l)) := by
  induction l generalizing i with
  | nil => exact Sim.pure ()
  | cons v vs ih =>
    have e := writeMultiMoves_cons start i v vs
    rw [e, runMoves_append]
    exact Sim.setDp_bind ((sim_engWriteByte _ v).bind fun _ => ih (i + 1))

/-- REG_WRITE_MULTIPLE runs the frames of its buffer (R302). -/
theorem sim_regWriteMultiple (start n : Byte) (l : List Byte) :
    Sim (regWriteMultiple start n l) (runMoves (writeMultiMoves start 0 l)) := by
  intro s d
  exact sim_writeFrames start 0 l s _

theorem readFrame_reads (c : Byte) : ((readFrame c).filter fun m => m == .ev .ioRead).length = 8 := by
  have h : ∀ x : Byte, (evs (outByte x)).filter (fun m => m == .ev .ioRead) = [] := by
    intro x
    simp only [List.filter_eq_nil_iff, evs, List.mem_map, forall_exists_index, and_imp, forall_apply_eq_imp_iff₂]
    intro e he
    have := ioRead_notMem_outByte x
    simp only [beq_iff_eq, Move.ev.injEq]
    rintro rfl
    exact this he
  simp only [readFrame, commandMoves, evs_cons, evs_append, List.filter_append, List.filter_cons, h]
  rfl

theorem sim_readFrames (start : Byte) (i : Nat) (rbuf : List Byte) (n : Nat) :
    Sim (readFrames start i rbuf n)
      (readMoves (readMultiMoves start i n) >>= fun l => pure (rbuf ++ bytesOfBits n l)) := by
  induction n generalizing i rbuf with
  | zero =>
    intro s d
    simp [readFrames, readMultiMoves, readMoves, run_bind, bytesOfBits, bareRes]
  | succ n ih =>
    have e2 : (readMoves (readMultiMoves start i (n + 1)) >>= fun l => pure (rbuf ++ bytesOfBits (n + 1) l) :
        Run (List Byte)) = (readMoves (readFrame (ar start i)) >>= fun l => pure (byteOfBits l)) >>= fun r =>
          (readMoves (readMultiMoves start (i + 1) n) >>= fun l => pure ((rbuf ++ [r]) ++ bytesOfBits n l)) := by
      rw [readMultiMoves, readMoves_append]
      funext s
      simp only [bind_assoc, pure_bind]
      rw [run_bind, run_bind]
      cases hr : readMoves (readFrame (ar start i)) s with
      | error k t => rfl
      | ok l t =>
        have hl : l.length = 8 := by rw [readMoves_length hr, readFrame_reads]
        simp only [run_bind]
        cases readMoves (readMultiMoves start (i + 1) n) t <;> simp [bytesOfBits, ← hl]
    rw [e2]
    exact Sim.setDp_bind ((sim_engReadByte _).bind fun r => Sim.setDp_bind (ih (i + 1) (rbuf ++ [r])))

/-- REG_READ_MULTIPLE runs its read frames and gives the bytes of their samples (R303). -/
theorem sim_regReadMultiple (start n : Byte) :
    Sim (regReadMultiple start n)
      (readMoves (readMultiMoves start 0 n.toNat) >>= fun l => pure (bytesOfBits n.toNat l)) := by
  intro s d
  exact sim_readFrames start 0 [] n.toNat s { d with n := n, rbuf := [] }

/-- A command phase leaves the length and the buffer registers. -/
theorem shiftOutBits_keeps (k : Nat) (s t : State) (h : shiftOutBits k s = .ok () t) :
    t.dp.n = s.dp.n ∧ t.dp.wbuf = s.dp.wbuf := by
  induction k generalizing s with
  | zero =>
    simp only [shiftOutBits, run_setDp, EStateM.Result.ok.injEq, true_and] at h
    subst h; simp
  | succ k ih =>
    simp only [shiftOutBits, run_setDp_bind, run_getDp_bind, shiftOutBit_eq, State.withDp_dp] at h
    rw [run_bind, runMoves_withDp] at h
    cases hr : runMoves (evs (outSlot (s.dp.sr.getLsbD 0))) s with
    | error e u => simp only [hr, reduceCtorEq] at h
    | ok a u =>
      simp only [hr, run_setDp_bind] at h
      have := ih _ h
      simpa using this

theorem sendCommand_keeps (c : Byte) (s t : State) (h : sendCommand c s = .ok () t) :
    t.dp.n = s.dp.n ∧ t.dp.wbuf = s.dp.wbuf := by
  rw [sendCommand_run, run_bind, run_emit] at h
  by_cases hf : (s.env.respond (.ceWrite true)).1 = .fail
  · simp [hf] at h
  · simp only [State.withDp_env, hf, if_false, shiftOutByte, run_setDp_bind] at h
    have := shiftOutBits_keeps 8 _ _ h
    simpa using this

/-- The length and buffer registers loaded before a command phase are what follows it reads. -/
theorem sendCommand_getDp {α : Type} (c : Byte) (f : Datapath → Run α) (g : Run α) (s : State)
    (h : ∀ t, t.dp.n = s.dp.n ∧ t.dp.wbuf = s.dp.wbuf → f t.dp t = g t) :
    (sendCommand c >>= fun _ => getDp >>= f) s = (sendCommand c >>= fun _ => g) s := by
  rw [run_bind, run_bind]
  cases hr : sendCommand c s with
  | error k t => rfl
  | ok a t =>
    simp only [run_getDp_bind]
    exact h t (sendCommand_keeps c s t hr)

/-- REG_BURST_WRITE runs its frame (R304). -/
theorem sim_regBurstWrite (bc n : Byte) (l : List Byte) :
    Sim (regBurstWrite bc n l) (runMoves (burstWriteFrame bc l)) := by
  intro s d
  have e := burstWriteFrame_parts bc l
  rw [e, runMoves_append, runMoves_append]
  have h := sendCommand_getDp bc (fun d => shiftOutBytes 0 d.wbuf >>= fun _ => writeClose)
    (shiftOutBytes 0 l >>= fun _ => writeClose) (s.withDp { d with n := n, wbuf := l }) (by
      intro t ht; simp only [State.withDp_dp] at ht; rw [ht.2])
  have e2 : regBurstWrite bc n l (s.withDp d) = (sendCommand bc >>= fun _ => getDp >>= fun d =>
      shiftOutBytes 0 d.wbuf >>= fun _ => writeClose) (s.withDp { d with n := n, wbuf := l }) := rfl
  rw [e2, h]
  exact ((sim_sendCommand bc).bind fun _ => (sim_shiftOutBytes 0 l).bind fun _ => sim_writeClose) s _

/-- REG_BURST_READ runs its frame and gives the bytes of its samples (R305). -/
theorem sim_regBurstRead (bc n : Byte) :
    Sim (regBurstRead bc n)
      (readMoves (burstReadFrame (withRead bc) n.toNat) >>= fun l => pure (bytesOfBits n.toNat l)) := by
  intro s d
  have hw := readMoves_wrap (.ceWrite true :: outByte (withRead bc)) (inBytes n.toNat) [.ceWrite false]
    (by simp [ioRead_notMem_outByte]) (by simp)
  have e : (readMoves (burstReadFrame (withRead bc) n.toNat) >>= fun l => pure (bytesOfBits n.toNat l) : Run (List Byte)) =
      (runMoves (commandMoves (withRead bc)) >>= fun _ => releaseIo >>= fun _ =>
        (readMoves (evs (inBytes n.toNat)) >>= fun l => pure ([] ++ bytesOfBits n.toNat l)) >>= fun r =>
          runMoves (evs [.ceWrite false]) >>= fun _ => pure r) := by
    rw [burstReadFrame, commandMoves, ← hw]
    simp
  have h := sendCommand_getDp (withRead bc)
    (fun d => shiftInBytes 0 [] d.n.toNat >>= fun r => readClose >>= fun _ => pure r)
    (shiftInBytes 0 [] n.toNat >>= fun r => readClose >>= fun _ => pure r)
    (s.withDp { d with n := n, rbuf := [] }) (by
      intro t ht; simp only [State.withDp_dp] at ht; rw [ht.1])
  have h2 : regBurstRead bc n (s.withDp d) = (sendCommand (withRead bc) >>= fun _ => releaseIo >>= fun _ =>
      shiftInBytes 0 [] n.toNat >>= fun r => readClose >>= fun _ => pure r) (s.withDp { d with n := n, rbuf := [] }) := by
    have h3 := sendCommand_getDp (withRead bc)
      (fun d => releaseIo >>= fun _ => shiftInBytes 0 [] d.n.toNat >>= fun r => readClose >>= fun _ => pure r)
      (releaseIo >>= fun _ => shiftInBytes 0 [] n.toNat >>= fun r => readClose >>= fun _ => pure r)
      (s.withDp { d with n := n, rbuf := [] }) (by
        intro t ht; simp only [State.withDp_dp] at ht; rw [ht.1])
    exact h3
  rw [e, h2]
  exact ((sim_sendCommand _).bind fun _ => Sim.releaseIo.bind fun _ => (sim_shiftInBytes 0 [] n.toNat).bind fun r =>
    sim_readClose.bind fun _ => Sim.pure r) s _

/-- SET_TIME's write loop runs the frames of its pairs. -/
theorem sim_writePairs (l : List (Byte × Byte)) : Sim (writePairs l) (runMoves (pairMoves l)) := by
  induction l with
  | nil => exact Sim.pure ()
  | cons p rest ih =>
    obtain ⟨c, v⟩ := p
    have e := pairMoves_cons (c, v) rest
    rw [e, runMoves_append]
    exact (sim_engWriteByte c v).bind fun _ => ih

/-- A read-modify-write is a read frame, then the write frame of the changed byte (R500, R502). -/
theorem sim_readModifyWrite (idx : BitVec 5) (f : Byte → Byte) :
    Sim (readModifyWrite idx f) (readMoves (readFrame (clockRead idx)) >>= fun l =>
      runMoves (writeFrame (clockWrite idx) (f (byteOfBits l)))) := by
  have e : (readMoves (readFrame (clockRead idx)) >>= fun l =>
      runMoves (writeFrame (clockWrite idx) (f (byteOfBits l))) : Run Unit) =
      (readMoves (readFrame (clockRead idx)) >>= fun l => pure (byteOfBits l)) >>= fun r =>
        runMoves (writeFrame (clockWrite idx) (f r)) := by simp
  rw [e]
  exact (sim_engReadByte _).bind fun r => fun s d => sim_engWriteByte _ (f r) s _

/-- SET_TIME's transfers: the read frame of the second register, then the seven write frames (R411). -/
theorem sim_setTimeFrames (r : TimeRecord) :
    Sim (setTimeFrames r) (readMoves (readFrame (clockRead idxSecond)) >>= fun l =>
      runMoves (pairMoves (timeEncode r (byteOfBits l)))) := by
  have e : (readMoves (readFrame (clockRead idxSecond)) >>= fun l =>
      runMoves (pairMoves (timeEncode r (byteOfBits l))) : Run Unit) =
      (readMoves (readFrame (clockRead idxSecond)) >>= fun l => pure (byteOfBits l)) >>= fun v =>
        runMoves (pairMoves (timeEncode r v)) := by simp
  rw [e]
  exact (sim_engReadByte _).bind fun v => fun s d => sim_writePairs (timeEncode r v) s _

end Sys2Proof.Machine
end

