-- ==== Sys2Proof/Laws/Requests.lean ====
section
/-! SUPPORT. From a request's program to how the request ends: `Completes` and `FailsAt` (Safety.lean). -/

namespace Sys2Proof.Machine

/-! ## What a program leaves in the trace, the bus and the environment -/

@[simp] theorem respond_responder (v : Env) (e : Event) : (v.respond e).2.responder = v.responder := by
  cases hp : e.isPin with
  | false => simp [respond_delay v hp]
  | true =>
    simp only [Env.respond, hp, if_true]
    unfold Env.answer
    split <;> rename_i hr
    · unfold Env.worldAnswer; split <;> simp
    · unfold Env.doubleAnswer; split <;> simp

/-- Only acceptance counts a request (20_memory.md R86; log entry 3). -/
@[simp] theorem respond_requests (v : Env) (e : Event) : (v.respond e).2.requests = v.requests := by
  cases hp : e.isPin with
  | false => rw [respond_delay v hp]
  | true =>
    simp only [Env.respond, hp, if_true, Env.answer]
    split
    · unfold Env.worldAnswer; split <;> rfl
    · unfold Env.doubleAnswer; split <;> rfl

/-- Every pin event counts one pin. -/
theorem respond_pins (v : Env) (e : Event) : (v.respond e).2.pins = if e.isPin then v.pins + 1 else v.pins := by
  cases hp : e.isPin with
  | false => rw [respond_delay v hp]; rfl
  | true => simp [Env.respond, hp]

@[simp] theorem moves_responder (v : Env) (l : List Move) : (v.moves l).responder = v.responder := by
  induction l generalizing v with
  | nil => rfl
  | cons m l ih => cases m <;> simp [Env.move, ih]

@[simp] theorem moves_requests (v : Env) (l : List Move) : (v.moves l).requests = v.requests := by
  induction l generalizing v with
  | nil => rfl
  | cons m l ih => cases m <;> simp [Env.move, ih]

theorem moves_sampled (s : State) (l : List Move) : sampled (s.moves l).trace = sampled s.trace ++ s.env.levels l := by
  induction l generalizing s with
  | nil => simp [Env.levels]
  | cons m l ih =>
    cases m with
    | release => exact ih s.release
    | ev e =>
      rw [moves_cons, ih]
      simp only [State.move, State.issue_trace, State.issue_env, sampled, List.filterMap_append, Env.levels, Env.move,
        List.append_assoc]
      congr 1
      cases (s.env.respond e).1 <;> simp [Reply.sample]

theorem issue_sampled_fail {s : State} {e : Event} (h : (s.env.respond e).1 = .fail) :
    sampled (s.issue e).trace = sampled s.trace := by
  simp [sampled, h]

theorem moves_noFail {s : State} {l : List Move} (h : s.env.okMoves l) (h0 : ∀ r ∈ s.trace, r.reply ≠ .fail) :
    ∀ r ∈ (s.moves l).trace, r.reply ≠ .fail := by
  induction l generalizing s with
  | nil => exact h0
  | cons m l ih =>
    cases m with
    | release => exact ih (s := s.release) h.2 h0
    | ev e =>
      refine ih (s := s.issue e) h.2 ?_
      intro r hr
      simp only [State.issue_trace, List.mem_append, List.mem_singleton] at hr
      rcases hr with hr | rfl
      · exact h0 r hr
      · exact h.1

/-- The bus shadow after a move whose answer is ok (10_state.md R22). -/
def Bus.move (b : Bus) : Move → Bus
  | .ev e => b.after e .ok
  | .release => b.released

/-- The bus shadow after a program whose answers are ok. -/
def Bus.moves (b : Bus) (l : List Move) : Bus := l.foldl Bus.move b

@[simp] theorem bus_moves_nil (b : Bus) : b.moves [] = b := rfl
theorem bus_moves_cons (b : Bus) (m : Move) (l : List Move) : b.moves (m :: l) = (b.move m).moves l := rfl
theorem bus_moves_append (b : Bus) (x y : List Move) : b.moves (x ++ y) = (b.moves x).moves y := by
  simp [Bus.moves]

theorem moves_bus {s : State} {l : List Move} (h : s.env.okMoves l) : (s.moves l).bus = s.bus.moves l := by
  induction l generalizing s with
  | nil => rfl
  | cons m l ih =>
    rw [moves_cons, bus_moves_cons, ih (by rw [move_env]; exact h.2)]
    cases m with
    | release => rfl
    | ev e =>
      have h1 : (s.env.respond e).1 ≠ .fail := h.1
      congr 1
      cases e <;> simp [State.move, Bus.move, Bus.after, h1]

theorem bus_outSlot (b : Bus) (x : Bool) :
    b.moves (evs (outSlot x)) = ⟨b.ce, .low, Line.ofLevel x, .out⟩ := rfl

theorem range_eight : List.range 8 = [0, 1, 2, 3, 4, 5, 6, 7] := rfl

theorem outByte_eq (x : Byte) : outByte x = outSlot (x.getLsbD 0) ++ (outSlot (x.getLsbD 1) ++ (outSlot (x.getLsbD 2) ++
    (outSlot (x.getLsbD 3) ++ (outSlot (x.getLsbD 4) ++ (outSlot (x.getLsbD 5) ++ (outSlot (x.getLsbD 6) ++
    outSlot (x.getLsbD 7))))))) := by
  simp only [outByte, range_eight, List.flatMap_cons, List.flatMap_nil, List.append_nil]

theorem inByte_eq : inByte = inSlot ++ (inSlot ++ (inSlot ++ (inSlot ++ (inSlot ++ (inSlot ++ (inSlot ++ inSlot)))))) := by
  simp only [inByte, range_eight, List.flatMap_cons, List.flatMap_nil, List.append_nil]

theorem bus_outByte (b : Bus) (x : Byte) :
    b.moves (evs (outByte x)) = ⟨b.ce, .low, Line.ofLevel (x.getLsbD 7), .out⟩ := by
  simp only [outByte_eq, evs_append, bus_moves_append, bus_outSlot]

theorem bus_inSlot (b : Bus) : b.moves (evs inSlot) = { b with clk := .low } := rfl

theorem bus_inByte (b : Bus) : b.moves (evs inByte) = { b with clk := .low } := by
  simp only [inByte_eq, evs_append, bus_moves_append, bus_inSlot]

theorem bus_commandMoves (b : Bus) (c : Byte) :
    b.moves (commandMoves c) = ⟨.high, .low, Line.ofLevel (c.getLsbD 7), .out⟩ := by
  rw [commandMoves, evs_cons, bus_moves_cons, bus_outByte]
  rfl

theorem bus_outBytes (b : Bus) (l : List Byte) (h : b.clk = .low) (hd : b.ioDir = .out) :
    (b.moves (evs (outBytes l))).ce = b.ce ∧ (b.moves (evs (outBytes l))).clk = .low ∧
      (b.moves (evs (outBytes l))).ioDir = .out := by
  induction l generalizing b with
  | nil => exact ⟨rfl, h, hd⟩
  | cons v vs ih =>
    have e : evs (outBytes (v :: vs)) = evs (outByte v) ++ evs (outBytes vs) := by simp [outBytes]
    rw [e, bus_moves_append, bus_outByte]
    exact ih _ rfl rfl

theorem bus_inBytes (b : Bus) (n : Nat) (h : b.clk = .low) : b.moves (evs (inBytes n)) = b := by
  induction n with
  | zero => rfl
  | succ n ih =>
    have e : evs (inBytes (n + 1)) = evs (inBytes n) ++ evs inByte := by simp [inBytes, List.range_succ]
    rw [e, bus_moves_append, ih, bus_inByte, ← h]

theorem bus_writeFrame (b : Bus) (c v : Byte) : b.moves (writeFrame c v) = Bus.afterWrite := by
  have e := writeFrame_parts c v
  rw [e, bus_moves_append, bus_moves_append, bus_commandMoves, bus_outByte]
  rfl

theorem bus_readFrame (b : Bus) (c : Byte) : b.moves (readFrame c) = Bus.afterRead := by
  rw [readFrame, bus_moves_append, bus_moves_cons, evs_append, bus_moves_append, bus_commandMoves, bus_inByte]
  rfl

theorem bus_burstWriteFrame (b : Bus) (c : Byte) (l : List Byte) : b.moves (burstWriteFrame c l) = Bus.afterWrite := by
  have e := burstWriteFrame_parts c l
  rw [e, bus_moves_append, bus_moves_append]
  obtain ⟨h1, h2, h3⟩ := bus_outBytes (b.moves (commandMoves c)) l (by rw [bus_commandMoves]) (by rw [bus_commandMoves])
  simp only [evs_cons, evs_nil, bus_moves_cons, bus_moves_nil, Bus.move, Bus.after, reduceCtorEq, if_false, h2]
  rfl

theorem bus_burstReadFrame (b : Bus) (c : Byte) (n : Nat) : b.moves (burstReadFrame c n) = Bus.afterRead := by
  have e : burstReadFrame c n = (commandMoves c ++ [.release]) ++ (evs (inBytes n) ++ evs [.ceWrite false]) := by
    simp [burstReadFrame]
  have h : b.moves (commandMoves c ++ [.release]) = ⟨.high, .low, .x, .inp⟩ := by
    rw [bus_moves_append, bus_commandMoves]; rfl
  rw [e, bus_moves_append, bus_moves_append, bus_inBytes _ _ (by rw [h]), h]
  rfl

theorem bus_writeMultiMoves (b : Bus) (start : Byte) (i : Nat) (l : List Byte) :
    b.moves (writeMultiMoves start i l) = if l = [] then b else Bus.afterWrite := by
  induction l generalizing i b with
  | nil => rfl
  | cons v vs ih =>
    have e := writeMultiMoves_cons start i v vs
    rw [e, bus_moves_append, bus_writeFrame, ih]
    by_cases h : vs = [] <;> simp [h]

theorem bus_readMultiMoves (b : Bus) (start : Byte) (i n : Nat) :
    b.moves (readMultiMoves start i n) = if n = 0 then b else Bus.afterRead := by
  induction n generalizing i b with
  | zero => rfl
  | succ n ih =>
    rw [readMultiMoves, bus_moves_append, bus_readFrame, ih]
    by_cases h : n = 0 <;> simp [h]

theorem bus_pairMoves (b : Bus) (l : List (Byte × Byte)) :
    b.moves (pairMoves l) = if l = [] then b else Bus.afterWrite := by
  induction l generalizing b with
  | nil => rfl
  | cons p rest ih =>
    have e := pairMoves_cons p rest
    rw [e, bus_moves_append, bus_writeFrame, ih]
    by_cases h : rest = [] <;> simp [h]

/-! ## How many pin events each frame has (30_encoding.md R106) -/

theorem pins_outByte (x : Byte) : (pinsOf (outByte x)).length = 24 := by
  rw [outByte_eq]; rfl

theorem pins_commandMoves (c : Byte) : movePins (commandMoves c) = 25 := by
  rw [commandMoves, evs_cons, movePins_ev_pin _ rfl, movePins, moveEvents_evs, pins_outByte]

theorem pins_outBytes (l : List Byte) : (pinsOf (outBytes l)).length = 24 * l.length := by
  induction l with
  | nil => rfl
  | cons v vs ih =>
    have e : outBytes (v :: vs) = outByte v ++ outBytes vs := by simp [outBytes]
    rw [e, pinsOf, List.filter_append, List.length_append, ← pinsOf, ← pinsOf, ih, pins_outByte, List.length_cons]
    omega

theorem pins_inBytes (n : Nat) : (pinsOf (inBytes n)).length = 24 * n := by
  induction n with
  | zero => rfl
  | succ n ih =>
    have e : inBytes (n + 1) = inBytes n ++ inByte := by simp [inBytes, List.range_succ]
    rw [e, pinsOf, List.filter_append, List.length_append, ← pinsOf, ← pinsOf, ih,
      show (pinsOf inByte).length = 24 from rfl]
    omega

theorem pins_writeFrame (c v : Byte) : movePins (writeFrame c v) = 51 := by
  have e := writeFrame_parts c v
  rw [e, movePins_append, movePins_append, pins_commandMoves,
    show movePins (evs (outByte v)) = 24 by rw [movePins, moveEvents_evs, pins_outByte]]
  rfl

theorem pins_readFrame (c : Byte) : movePins (readFrame c) = 50 := by
  rw [readFrame, movePins_append, pins_commandMoves, movePins_release]
  rfl

theorem pins_burstWriteFrame (c : Byte) (l : List Byte) : movePins (burstWriteFrame c l) = 27 + 24 * l.length := by
  have e := burstWriteFrame_parts c l
  rw [e, movePins_append, movePins_append, pins_commandMoves,
    show movePins (evs [.ioWrite false, .ceWrite false]) = 2 from rfl]
  simp only [movePins, moveEvents_evs, pins_outBytes]
  omega

theorem pins_burstReadFrame (c : Byte) (n : Nat) : movePins (burstReadFrame c n) = 26 + 24 * n := by
  have e : burstReadFrame c n = (commandMoves c ++ [.release]) ++ (evs (inBytes n) ++ evs [.ceWrite false]) := by
    simp [burstReadFrame]
  rw [e, movePins_append, movePins_append, movePins_append, pins_commandMoves, show movePins [.release] = 0 from rfl,
    show movePins (evs [.ceWrite false]) = 1 from rfl]
  simp only [movePins, moveEvents_evs, pins_inBytes]
  omega

theorem pins_writeMultiMoves (start : Byte) (i : Nat) (l : List Byte) :
    movePins (writeMultiMoves start i l) = 51 * l.length := by
  induction l generalizing i with
  | nil => rfl
  | cons v vs ih =>
    have e := writeMultiMoves_cons start i v vs
    rw [e, movePins_append, pins_writeFrame, ih, List.length_cons]
    omega

theorem pins_readMultiMoves (start : Byte) (i n : Nat) : movePins (readMultiMoves start i n) = 50 * n := by
  induction n generalizing i with
  | zero => rfl
  | succ n ih =>
    rw [readMultiMoves, movePins_append, pins_readFrame, ih]
    omega

theorem pins_pairMoves (l : List (Byte × Byte)) : movePins (pairMoves l) = 51 * l.length := by
  induction l with
  | nil => rfl
  | cons p rest ih =>
    have e := pairMoves_cons p rest
    rw [e, movePins_append, pins_writeFrame, ih, List.length_cons]
    omega

/-! ## How a request ends -/

/-- A body that ran the path `l` to its end. -/
theorem completes_of_path {i : Instr} {s : State} {body : Run Out} {l : List Move} {o : Out}
    (hx : exec i s = .next (finish (body (s.accept i)))) (hok : (s.accept i).env.okMoves l)
    (hb : bareRes (body (s.accept i)) = .ok o ((s.accept i).moves l).bare) {events : List Bool → List Event}
    {out : List Bool → Out} {bus : Bus} (he : events ((s.accept i).env.levels l) = moveEvents l)
    (ho : out ((s.accept i).env.levels l) = o) (hbus : s.bus.moves l = bus) : Completes i s events out bus := by
  have hf : finish (body (s.accept i)) = finish (.ok o ((s.accept i).moves l)) := finish_congr (by rw [hb]; rfl)
  have hs : sampled ((s.accept i).moves l).trace = (s.accept i).env.levels l := by
    rw [moves_sampled]; rfl
  refine ⟨_, hx.trans (by rw [hf]), rfl, ?_, ?_, ?_, ?_⟩
  · rw [finish_ok_trace, hs, he, eventsOf, moves_eventsOf]; rfl
  · rw [finish_ok_trace, hs, ho]; rfl
  · rw [finish_ok_bus, moves_bus hok]; exact hbus
  · refine ⟨by simp, by simp, by simp, ?_, rfl, rfl⟩
    rw [finish_ok_env, moves_env, moves_responder]; rfl

/-- A body that ran the path `l` and then met a failed event. -/
theorem failsAt_of_path {i : Instr} {s : State} {body : Run Out} {l : List Move} {e : Event} {p : Nat}
    (hx : exec i s = .next (finish (body (s.accept i)))) (hok : (s.accept i).env.okMoves l)
    (hfl : (((s.accept i).env.moves l).respond e).1 = .fail)
    (hb : bareRes (body (s.accept i)) = .error .transferFailure (((s.accept i).moves l).issue e).bare)
    {events : List Bool → List Event}
    (he : throughPin p (events ((s.accept i).env.levels l)) = moveEvents l ++ [e]) : FailsAt i s p events := by
  have hf : finish (body (s.accept i)) = finish (.error .transferFailure (((s.accept i).moves l).issue e)) :=
    finish_congr (by rw [hb]; rfl)
  have hs : sampled (((s.accept i).moves l).issue e).trace = (s.accept i).env.levels l := by
    rw [issue_sampled_fail (by rw [moves_env]; exact hfl), moves_sampled]; rfl
  refine ⟨_, hx.trans (by rw [hf]), rfl, rfl, ?_, ?_, ?_⟩
  · rw [finish_error_trace, hs, he, eventsOf, State.issue_trace, List.map_append, moves_eventsOf]; rfl
  · refine ⟨((s.accept i).moves l).trace, e, ?_, moves_noFail hok (by simp)⟩
    rw [finish_error_trace, State.issue_trace, moves_env, hfl]
  · refine ⟨by simp, by simp, by simp, ?_, rfl, rfl⟩
    rw [finish_error_env, State.issue_env, respond_responder, moves_env, moves_responder]; rfl

/-- The end of a request whose body runs one program and gives a value of what it sampled. -/
theorem completes_of_sim {i : Instr} {s : State} {body body' : Run Out} {l : List Move} {f : List Bool → Out} {bus : Bus}
    {n : Nat} (hx : exec i s = .next (finish (body (s.accept i)))) (hg : body (s.accept i) = body' (s.accept i))
    (hs : Sim body' (readMoves l >>= fun x => pure (f x))) (hok : s.env.answersOk n = true) (hn : movePins l = n)
    (hbus : s.bus.moves l = bus) : Completes i s (fun _ => moveEvents l) f bus := by
  have ho := okMoves_of_answersOk (i := i) hok hn
  refine completes_of_path (l := l) (o := f ((s.accept i).env.levels l)) hx ho ?_ rfl rfl hbus
  rw [hg, hs.apply, run_bind, readMoves_ok ho]
  rfl

/-- The failure of a request whose body runs one program. -/
theorem failsAt_of_sim {i : Instr} {s : State} {body body' : Run Out} {l : List Move} {f : List Bool → Out} {p : Nat}
    (hx : exec i s = .next (finish (body (s.accept i)))) (hg : body (s.accept i) = body' (s.accept i))
    (hs : Sim body' (readMoves l >>= fun x => pure (f x))) (hf : s.env.answersFailAt p = true) (hp : p ≤ movePins l) :
    FailsAt i s p (fun _ => moveEvents l) := by
  have hw := willFailAt_of_answersFailAt hf
  obtain ⟨a, e, b, hl, ha, he, ht⟩ := fail_split (v := (s.accept i).env) hw hp
  refine failsAt_of_path (l := a) (e := e) hx ha he ?_ ht.symm
  rw [hg, hs.apply, run_bind, hl]
  simp only [readMoves, runMoves_fail ha he]
  rfl

/-- A write request's body, as one program and no output. -/
theorem sim_out_of_unit {m : Run Unit} {l : List Move} (h : Sim m (runMoves l)) :
    Sim (m >>= fun _ => (pure Out.none : Run Out)) (readMoves l >>= fun x => pure ((fun _ => Out.none) x)) := by
  refine Sim.congr_right (Sim.bind h fun _ => Sim.pure Out.none) ?_
  rw [runMoves_eq_readMoves]
  simp

/-- A read request's body, as one program and a value of what it sampled. -/
theorem sim_out_of_read {α : Type} {m : Run α} {l : List Move} {g : List Bool → α}
    (h : Sim m (readMoves l >>= fun x => pure (g x))) (f : α → Out) :
    Sim (m >>= fun a => (pure (f a) : Run Out)) (readMoves l >>= fun x => pure (f (g x))) := by
  refine Sim.congr_right (Sim.bind h fun a => Sim.pure (f a)) ?_
  simp

/-- The guard with everything present and the block initialised goes on. -/
theorem guard_passes {i : Instr} {s : State} {ops : List Bool} {m : Run Out} (hi : s.initFlag = true)
    (ho : ops.all id = true) : (guard true ops >>= fun _ => m) (s.accept i) = m (s.accept i) := by
  rw [run_bind, run_guard, State.accept_initFlag, hi, ho]
  rfl

/-- The guard and a check that holds go on. -/
theorem checked_passes {i : Instr} {s : State} {ops : List Bool} {c : Bool} {k : Status} {m : Run Out}
    (hi : s.initFlag = true) (ho : ops.all id = true) (hc : c = true) :
    (guard true ops >>= fun _ => require c k >>= fun _ => m) (s.accept i) = m (s.accept i) := by
  rw [guard_passes hi ho, hc]
  rfl

/-- What a request whose body runs one program sampled. -/
theorem sampled_of_sim {i : Instr} {s : State} {body body' : Run Out} {l : List Move} {f : List Bool → Out} {n : Nat}
    (hx : exec i s = .next (finish (body (s.accept i)))) (hg : body (s.accept i) = body' (s.accept i))
    (hs : Sim body' (readMoves l >>= fun x => pure (f x))) (hok : s.env.answersOk n = true) (hn : movePins l = n) :
    ∃ t, exec i s = .next t ∧ sampled t.trace = (s.accept i).env.levels l := by
  have ho := okMoves_of_answersOk (i := i) hok hn
  have hf : finish (body (s.accept i)) =
      finish (.ok (f ((s.accept i).env.levels l)) ((s.accept i).moves l)) := by
    refine finish_congr ?_
    rw [hg, hs.apply, run_bind, readMoves_ok ho]
    rfl
  refine ⟨_, hx, ?_⟩
  rw [hf, finish_ok_trace, moves_sampled]
  rfl

end Sys2Proof.Machine
end

