-- ==== Sys2Proof/Laws/Double.lean ====
section
/-! SUPPORT. What a program does to the reference double (20_memory.md R80 to R86): slot by slot, byte by byte, frame by
frame. -/

namespace Sys2Proof.Machine

/-! ## One event -/

/-- The world never touches the double. -/
theorem respond_world {v : Env} (hr : v.responder = .world) (e : Event) : (v.respond e).2.double = v.double := by
  cases hp : e.isPin with
  | false => rw [respond_delay v hp]
  | true =>
    simp only [Env.respond, hp, if_true, Env.answer, hr, Env.worldAnswer]
    cases v.answers <;> rfl

/-- The double fails the one pin event the injected failure names, and no other (R86). -/
theorem respond_double_fails {v : Env} {f : Option Injected} {e : Event} (hr : v.responder = .double f)
    (hp : e.isPin = true) : (v.respond e).1 = .fail ↔ f = some ⟨v.requests, v.pins + 1⟩ := by
  simp only [Env.respond, hp, if_true, Env.answer, hr, Env.doubleAnswer]
  split
  · next hf => exact ⟨fun _ => hf, fun _ => reply_fail rfl⟩
  · next hf => exact ⟨fun h => absurd h (reply_ne_fail rfl), fun h => absurd h hf⟩

/-- An event the double answers ok: it observes it. -/
theorem respond_double {v : Env} {f : Option Injected} {e : Event} (hr : v.responder = .double f)
    (h : (v.respond e).1 ≠ .fail) :
    (v.respond e).2.double = (v.double.observe (Config.freeLevel v.draws) e).double := by
  cases hp : e.isPin with
  | false => rw [respond_delay v hp]; cases e <;> first | rfl | cases hp
  | true =>
    rw [Ne, respond_double_fails hr hp] at h
    simp only [Env.respond, hp, if_true, Env.answer, hr, Env.doubleAnswer, if_neg h]

/-- An event the double answers fail: it keeps what it held (R86). -/
theorem respond_double_fail {v : Env} {f : Option Injected} {e : Event} (hr : v.responder = .double f)
    (h : (v.respond e).1 = .fail) : (v.respond e).2.double = v.double := by
  cases hp : e.isPin with
  | false => rw [respond_delay v hp]
  | true =>
    rw [respond_double_fails hr hp] at h
    simp only [Env.respond, hp, if_true, Env.answer, hr, Env.doubleAnswer, if_pos h]

/-- The level an IO_READ samples from the double. -/
theorem respond_double_read {v : Env} {f : Option Injected} (hr : v.responder = .double f)
    (h : (v.respond .ioRead).1 ≠ .fail) :
    (v.respond .ioRead).1.sample = [(v.double.read (Config.freeLevel v.draws)).level] := by
  rw [Ne, respond_double_fails hr rfl] at h
  simp only [Env.respond, Event.isPin, if_true, Env.answer, hr, Env.doubleAnswer, if_neg h]
  rfl

/-! ## A property along a program -/

/-- `R` holds of the double at every point of a program that its answers let it reach. -/
def Along (R : Double → Prop) (v : Env) : List Move → Prop
  | [] => R v.double
  | m :: l => R v.double ∧ (v.okMove m → Along R (v.move m) l)

theorem along_start {R : Double → Prop} {v : Env} {l : List Move} (h : Along R v l) : R v.double := by
  cases l with
  | nil => exact h
  | cons m l => exact h.1

theorem along_append {R : Double → Prop} {v : Env} {a b : List Move} (ha : Along R v a)
    (hb : v.okMoves a → Along R (v.moves a) b) : Along R v (a ++ b) := by
  induction a generalizing v with
  | nil => exact hb trivial
  | cons m l ih => exact ⟨ha.1, fun hm => ih (ha.2 hm) fun hl => hb ⟨hm, hl⟩⟩

theorem along_at {R : Double → Prop} {v : Env} {a b : List Move} (h : Along R v (a ++ b)) (ha : v.okMoves a) :
    R (v.moves a).double := by
  induction a generalizing v with
  | nil => exact along_start h
  | cons m l ih => exact ih (h.2 ha.1) ha.2

/-! ## Slots -/

/-- The double latches data bits in its modes cmd and wdata (R82). -/
def Double.latches (d : Double) : Bool := d.mode = .cmd || d.mode = .wdata

/-- The double after an OUT slot. -/
def Double.outSlot (d : Double) (b : Bool) : Double :=
  { (if d.latches then { d with lastIo := Line.ofLevel b }.latch b else { d with lastIo := Line.ofLevel b }) with
    lastClk := .low }

theorem lastLevel_ofLevel (d : Double) (b w : Bool) : { d with lastIo := Line.ofLevel b }.lastLevel w = b := by
  cases b <;> rfl

theorem latch_lastClk (d : Double) (l : Bool) (c : Line) :
    ({ d with lastClk := c }.latch l) = { d.latch l with lastClk := c } := by
  unfold Double.latch
  split
  · unfold Double.complete
    cases d.mode <;> simp only [Double.commit] <;> split <;> rfl
  · rfl

/-- The four pins and delays of a clock pulse, seen by a double whose clock is low. -/
theorem pulse_double {v : Env} {f : Option Injected} (hr : v.responder = .double f) (hc : v.double.lastClk = .low)
    (h : v.okMoves (evs pulseEvents)) (hio : v.double.latches = true → ∃ b, v.double.lastIo = Line.ofLevel b) :
    ∃ b, (v.double.latches = true → v.double.lastIo = Line.ofLevel b) ∧
      (v.moves (evs pulseEvents)).double =
        { (if v.double.latches then v.double.latch b else v.double) with lastClk := .low } := by
  obtain ⟨h1, h2, h3, h4, -⟩ := h
  simp only [pulseEvents, evs_cons, evs_nil, env_moves_cons, env_moves_nil]
  have r1 : (v.move (.ev (.clkWrite true))).responder = .double f := by rw [← hr]; exact respond_responder _ _
  have d1 : (v.move (.ev (.clkWrite true))).double = (v.double.clkHigh (Config.freeLevel v.draws)).double :=
    respond_double hr h1
  have e2 : (v.move (.ev (.clkWrite true))).move (.ev delayEvent) = v.move (.ev (.clkWrite true)) := by
    simp [Env.move, respond_delay _ (e := delayEvent) rfl]
  rw [e2] at h3 h4 ⊢
  have d3 := respond_double r1 h3
  have e4 : ∀ w : Env, w.move (.ev delayEvent) = w := by
    intro w; simp [Env.move, respond_delay _ (e := delayEvent) rfl]
  rw [e4]
  have d4 : ((v.move (.ev (.clkWrite true))).move (.ev (.clkWrite false))).double =
      { (v.move (.ev (.clkWrite true))).double with lastClk := .low } := d3
  rw [d4, d1]
  unfold Double.clkHigh
  cases hl : v.double.latches with
  | false =>
    refine ⟨false, by simp, ?_⟩
    have : (decide (v.double.lastClk = .low) && (decide (v.double.mode = .cmd) || decide (v.double.mode = .wdata))) = false := by
      unfold Double.latches at hl
      rw [hl]; simp
    rw [if_neg (by simp only [this]; simp)]
    rfl
  | true =>
    obtain ⟨b, hb⟩ := hio hl
    refine ⟨b, fun _ => hb, ?_⟩
    have : (decide (v.double.lastClk = .low) && (decide (v.double.mode = .cmd) || decide (v.double.mode = .wdata))) = true := by
      unfold Double.latches at hl
      rw [hl, hc]; rfl
    rw [if_pos this]
    have hll : v.double.lastLevel (Config.freeLevel v.draws) = b := by
      simp only [Double.lastLevel, hb]; cases b <;> rfl
    rw [hll]
    rfl

/-- The memory property along a clock pulse. -/
theorem along_pulse {P : List Host.Cell → Prop} {v : Env} {f : Option Injected} (hr : v.responder = .double f)
    (h0 : P v.double.mem)
    (h1 : ∀ b, (v.double.latches = true → v.double.lastIo = Line.ofLevel b) → v.double.latches = true →
      P (v.double.latch b).mem)
    (hio : v.double.latches = true → ∃ b, v.double.lastIo = Line.ofLevel b) :
    Along (fun d => P d.mem) v (evs pulseEvents) := by
  have key : (v.okMove (.ev (.clkWrite true))) → P (v.move (.ev (.clkWrite true))).double.mem := by
    intro h
    have d1 : (v.move (.ev (.clkWrite true))).double = (v.double.clkHigh (Config.freeLevel v.draws)).double :=
      respond_double hr h
    rw [d1]
    unfold Double.clkHigh
    split
    · rename_i hc
      have hl : v.double.latches = true := by
        unfold Double.latches
        simp only [Bool.and_eq_true] at hc
        exact hc.2
      obtain ⟨b, hb⟩ := hio hl
      have hll : v.double.lastLevel (Config.freeLevel v.draws) = b := by
        simp only [Double.lastLevel, hb]; cases b <;> rfl
      show P (v.double.latch _).mem
      rw [hll]
      exact h1 b (fun _ => hb) hl
    · exact h0
  have e4 : ∀ w : Env, w.move (.ev delayEvent) = w := by
    intro w; simp [Env.move, respond_delay _ (e := delayEvent) rfl]
  have r1 : (v.move (.ev (.clkWrite true))).responder = .double f := by rw [← hr]; exact respond_responder _ _
  refine ⟨h0, fun h => ⟨key h, fun _ => ?_⟩⟩
  rw [e4]
  refine ⟨key h, fun h3 => ?_⟩
  have d3 : ((v.move (.ev (.clkWrite true))).move (.ev (.clkWrite false))).double.mem =
      (v.move (.ev (.clkWrite true))).double.mem := by
    have := respond_double r1 h3
    exact (congrArg Double.mem this).trans rfl
  have k3 : P ((v.move (.ev (.clkWrite true))).move (.ev (.clkWrite false))).double.mem := d3.symm ▸ key h
  refine ⟨k3, fun _ => ?_⟩
  rw [e4]
  exact k3

/-- An OUT slot, whole. -/
theorem outSlot_double {v : Env} {f : Option Injected} {b : Bool} (hr : v.responder = .double f)
    (hc : v.double.lastClk = .low) (h : v.okMoves (evs (outSlot b))) :
    (v.moves (evs (outSlot b))).double = v.double.outSlot b := by
  have e : evs (outSlot b) = .ev (.ioWrite b) :: .ev delayEvent :: evs pulseEvents := by simp [outSlot]
  rw [e] at h ⊢
  obtain ⟨h1, -, h3⟩ := h
  have e4 : ∀ w : Env, w.move (.ev delayEvent) = w := by
    intro w; simp [Env.move, respond_delay _ (e := delayEvent) rfl]
  rw [e4] at h3
  rw [env_moves_cons, env_moves_cons, e4]
  have d1 : (v.move (.ev (.ioWrite b))).double = { v.double with lastIo := Line.ofLevel b } := respond_double hr h1
  have r1 : (v.move (.ev (.ioWrite b))).responder = .double f := by rw [← hr]; exact respond_responder _ _
  obtain ⟨c, hcb, hd⟩ := pulse_double r1 (by rw [d1]; exact hc) h3 (fun _ => ⟨b, by rw [d1]⟩)
  rw [hd, d1] at *
  unfold Double.outSlot
  cases hl : v.double.latches with
  | false =>
    have : ({ v.double with lastIo := Line.ofLevel b } : Double).latches = false := hl
    simp only [this, Bool.false_eq_true, if_false]
  | true =>
    have : ({ v.double with lastIo := Line.ofLevel b } : Double).latches = true := hl
    have hbc : b = c := by
      have := hcb this
      revert this; cases b <;> cases c <;> simp [Line.ofLevel]
    subst hbc
    simp only [this, if_true]

theorem along_outSlot {P : List Host.Cell → Prop} {v : Env} {f : Option Injected} {b : Bool} (hr : v.responder = .double f)
    (h0 : P v.double.mem) (h1 : P (v.double.outSlot b).mem) : Along (fun d => P d.mem) v (evs (outSlot b)) := by
  have e : evs (outSlot b) = .ev (.ioWrite b) :: .ev delayEvent :: evs pulseEvents := by simp [outSlot]
  rw [e]
  have e4 : ∀ w : Env, w.move (.ev delayEvent) = w := by
    intro w; simp [Env.move, respond_delay _ (e := delayEvent) rfl]
  refine ⟨h0, fun h => ?_⟩
  have d1 : (v.move (.ev (.ioWrite b))).double = { v.double with lastIo := Line.ofLevel b } := respond_double hr h
  have r1 : (v.move (.ev (.ioWrite b))).responder = .double f := by rw [← hr]; exact respond_responder _ _
  refine ⟨by rw [d1]; exact h0, fun _ => ?_⟩
  rw [e4]
  refine along_pulse r1 (by rw [d1]; exact h0) ?_ (fun _ => ⟨b, by rw [d1]⟩)
  intro c hcb hl
  rw [d1] at hl hcb ⊢
  have hbc : b = c := by
    have := hcb hl
    revert this; cases b <;> cases c <;> simp [Line.ofLevel]
  subst hbc
  have hl' : v.double.latches = true := hl
  unfold Double.outSlot at h1
  rw [hl'] at h1
  exact h1

/-! ## Bytes out -/

/-- The double after OUT(x) (R82), up to its last data-line level: in mode cmd the command byte is complete, in mode
wdata the data byte is committed, and in the other modes nothing is latched. -/
def Double.outByte (d : Double) (x : Byte) : Double :=
  match d.mode with
  | .cmd => { d with cmd := x, shift := x, nbits := 0, mode := Mode.ofCommand x }
  | .wdata => { { d with shift := x, nbits := 0 }.commit x with j := d.j + 1 }
  | .idle | .rdata | .confused | .ignore => d

/-- The bits of a byte, first one first. -/
def bitsOf (x : Byte) : List Bool := (List.range 8).map fun k => x.getLsbD k

theorem foldl_shiftIn_bits (r x : Byte) : (bitsOf x).foldl shiftIn r = x := by
  have h : ∀ a b c d e f g i : Bool, ∀ r : Byte, [a, b, c, d, e, f, g, i].foldl shiftIn r =
      [a, b, c, d, e, f, g, i].foldl shiftIn 0 := by
    intro a b c d e f g i r
    simp only [List.foldl_cons, List.foldl_nil, shiftIn]
    ext j hj
    simp only [BitVec.getElem_or, BitVec.getElem_ushiftRight, BitVec.getLsbD_or, BitVec.getLsbD_ushiftRight]
    have h8 : ∀ k, 8 ≤ k → r.getLsbD k = false := fun k hk => BitVec.getLsbD_of_ge r k hk
    rw [h8 _ (by omega)]
    simp
  have e : bitsOf x = [x.getLsbD 0, x.getLsbD 1, x.getLsbD 2, x.getLsbD 3, x.getLsbD 4, x.getLsbD 5, x.getLsbD 6,
      x.getLsbD 7] := rfl
  rw [e, h]
  revert x
  decide +kernel

/-- OUT slots of a list of bits. -/
def slotsOf (l : List Bool) : List Event := l.flatMap outSlot

theorem outByte_slots (x : Byte) : Machine.outByte x = slotsOf (bitsOf x) := by
  simp [Machine.outByte, slotsOf, bitsOf, List.flatMap_map]

/-- Two doubles that differ at most in the last data-line level. -/
def SameButIo (d e : Double) : Prop := { d with lastIo := .x } = { e with lastIo := .x }

theorem SameButIo.mem {d e : Double} (h : SameButIo d e) : d.mem = e.mem := by
  have := congrArg Double.mem h; exact this
theorem SameButIo.lastClk {d e : Double} (h : SameButIo d e) : d.lastClk = e.lastClk := by
  have := congrArg Double.lastClk h; exact this
theorem SameButIo.lastCe {d e : Double} (h : SameButIo d e) : d.lastCe = e.lastCe := by
  have := congrArg Double.lastCe h; exact this
theorem SameButIo.cmd {d e : Double} (h : SameButIo d e) : d.cmd = e.cmd := by
  have := congrArg Double.cmd h; exact this
theorem SameButIo.nbits {d e : Double} (h : SameButIo d e) : d.nbits = e.nbits := by
  have := congrArg Double.nbits h; exact this
theorem SameButIo.j {d e : Double} (h : SameButIo d e) : d.j = e.j := by
  have := congrArg Double.j h; exact this
theorem SameButIo.k {d e : Double} (h : SameButIo d e) : d.k = e.k := by
  have := congrArg Double.k h; exact this
theorem SameButIo.mode {d e : Double} (h : SameButIo d e) : d.mode = e.mode := by
  have := congrArg Double.mode h; exact this

/-- Latching modes, with room in the byte: the bits are shifted in. -/
theorem slots_shift {v : Env} {f : Option Injected} (l : List Bool) (hr : v.responder = .double f)
    (hc : v.double.lastClk = .low) (hl : v.double.latches = true) (hn : v.double.nbits + l.length ≤ 7)
    (h : v.okMoves (evs (slotsOf l))) :
    SameButIo (v.moves (evs (slotsOf l))).double
      { v.double with shift := l.foldl shiftIn v.double.shift, nbits := v.double.nbits + l.length } := by
  induction l generalizing v with
  | nil => exact rfl
  | cons b bs ih =>
    have e : evs (slotsOf (b :: bs)) = evs (outSlot b) ++ evs (slotsOf bs) := by simp [slotsOf]
    rw [e] at h ⊢
    obtain ⟨h1, h2⟩ := (okMoves_append _ _ _).1 h
    rw [env_moves_append]
    have hd := outSlot_double hr hc h1
    have hs : v.double.outSlot b =
        { v.double with shift := shiftIn v.double.shift b, nbits := v.double.nbits + 1, lastIo := Line.ofLevel b } := by
      simp only [List.length_cons] at hn
      simp only [Double.outSlot, hl, if_true, Double.latch]
      rw [if_neg (by omega)]
      cases hd : v.double
      simp_all
    have hlen : bs.length + 1 + v.double.nbits ≤ 7 := by simp only [List.length_cons] at hn; omega
    have := ih (v := v.moves (evs (outSlot b))) (by rw [moves_responder, hr]) (by rw [hd, hs]; exact hc)
      (by rw [hd, hs]; exact hl) (by rw [hd, hs]; show v.double.nbits + 1 + bs.length ≤ 7; omega) h2
    rw [hd, hs] at this
    unfold SameButIo at this ⊢
    rw [this]
    simp only [List.foldl_cons, List.length_cons, Nat.add_assoc, Nat.add_comm 1]


/-- Modes that latch nothing: only the last data-line level moves. -/
theorem slots_idle {v : Env} {f : Option Injected} (l : List Bool) (hr : v.responder = .double f)
    (hc : v.double.lastClk = .low) (hl : v.double.latches = false) (h : v.okMoves (evs (slotsOf l))) :
    SameButIo (v.moves (evs (slotsOf l))).double v.double := by
  induction l generalizing v with
  | nil => exact rfl
  | cons b bs ih =>
    have e : evs (slotsOf (b :: bs)) = evs (outSlot b) ++ evs (slotsOf bs) := by simp [slotsOf]
    rw [e] at h ⊢
    obtain ⟨h1, h2⟩ := (okMoves_append _ _ _).1 h
    rw [env_moves_append]
    have hd := outSlot_double hr hc h1
    have hs : v.double.outSlot b = { v.double with lastIo := Line.ofLevel b } := by
      simp only [Double.outSlot, hl, Bool.false_eq_true, if_false]
      rw [← hc]
    have := ih (v := v.moves (evs (outSlot b))) (by rw [moves_responder, hr]) (by rw [hd, hs]; exact hc)
      (by rw [hd, hs]; exact hl) h2
    rw [hd, hs] at this
    exact this

theorem bitsOf_split (x : Byte) : ∃ l, bitsOf x = l ++ [x.getLsbD 7] ∧ l.length = 7 :=
  ⟨[x.getLsbD 0, x.getLsbD 1, x.getLsbD 2, x.getLsbD 3, x.getLsbD 4, x.getLsbD 5, x.getLsbD 6], rfl, rfl⟩

/-- The eighth slot of a byte. -/
theorem outSlot_last {d e : Double} {b : Bool} (h : SameButIo e d) (hc : d.lastClk = .low) (hn : d.nbits = 7)
    (hl : d.latches = true) : SameButIo (e.outSlot b)
      ({ d with shift := shiftIn d.shift b, nbits := 0 }.complete (shiftIn d.shift b)) := by
  cases hd : d
  cases he : e
  subst hd he
  simp only [SameButIo, Double.mk.injEq, and_true] at h
  obtain ⟨rfl, rfl, rfl, rfl, rfl, rfl, rfl, rfl, rfl⟩ := h
  simp only at hn hc
  subst hn hc
  have hl2 := hl
  simp only [Double.latches, Bool.or_eq_true, decide_eq_true_eq] at hl2
  rcases hl2 with rfl | rfl
  · simp [SameButIo, Double.outSlot, Double.latches, Double.latch, Double.complete]
  · simp only [SameButIo, Double.outSlot, Double.latches, Double.latch, Double.complete, Double.commit]
    cases dataCell _ _ <;> simp

theorem bitsOf_foldl {x : Byte} {l : List Bool} (h : bitsOf x = l ++ [x.getLsbD 7]) (r : Byte) :
    shiftIn (l.foldl shiftIn r) (x.getLsbD 7) = x := by
  have := foldl_shiftIn_bits r x
  rw [h, List.foldl_append] at this
  exact this

/-- OUT(x), whole: what the double does at a byte boundary (R82). -/
theorem outByte_double {v : Env} {f : Option Injected} {x : Byte} (hr : v.responder = .double f)
    (hc : v.double.lastClk = .low) (hn : v.double.latches = true → v.double.nbits = 0)
    (h : v.okMoves (evs (outByte x))) : SameButIo (v.moves (evs (outByte x))).double (v.double.outByte x) := by
  rw [outByte_slots] at h ⊢
  cases hl : v.double.latches with
  | false =>
    have e : v.double.outByte x = v.double := by
      unfold Double.outByte
      unfold Double.latches at hl
      cases hm : v.double.mode <;> simp_all
    rw [e]
    exact slots_idle _ hr hc hl h
  | true =>
    have hn := hn hl
    obtain ⟨l, hb, hlen⟩ := bitsOf_split x
    have e : evs (slotsOf (l ++ [x.getLsbD 7])) = evs (slotsOf l) ++ evs (outSlot (x.getLsbD 7)) := by simp [slotsOf]
    rw [hb, e] at h ⊢
    obtain ⟨h1, h2⟩ := (okMoves_append _ _ _).1 h
    rw [env_moves_append]
    have hs := slots_shift l hr hc hl (by omega) h1
    have hlc : (v.moves (evs (slotsOf l))).double.lastClk = .low := by
      have := congrArg Double.lastClk hs
      exact this.trans hc
    rw [outSlot_double (by rw [moves_responder, hr]) hlc h2]
    have := outSlot_last (b := x.getLsbD 7) hs hc (by show v.double.nbits + l.length = 7; omega) hl
    unfold SameButIo at this ⊢
    rw [this]
    simp only [bitsOf_foldl hb]
    unfold Double.latches at hl
    unfold Double.outByte Double.complete
    cases hm : v.double.mode <;> simp_all

theorem along_slots {P : List Host.Cell → Prop} {v : Env} {f : Option Injected} (l : List Bool) (hr : v.responder = .double f)
    (hc : v.double.lastClk = .low) (hn : v.double.latches = true → v.double.nbits + l.length ≤ 7)
    (h0 : P v.double.mem) : Along (fun d => P d.mem) v (evs (slotsOf l)) := by
  induction l generalizing v with
  | nil => exact h0
  | cons b bs ih =>
    have e : evs (slotsOf (b :: bs)) = evs (outSlot b) ++ evs (slotsOf bs) := by simp [slotsOf]
    have hm : (v.double.outSlot b).mem = v.double.mem ∧ (v.double.outSlot b).latches = v.double.latches ∧
        (v.double.latches = true → (v.double.outSlot b).nbits = v.double.nbits + 1) := by
      cases hl : v.double.latches with
      | false =>
        have e : v.double.outSlot b = { v.double with lastIo := Line.ofLevel b, lastClk := .low } := by
          simp only [Double.outSlot, hl, Bool.false_eq_true, if_false]
        rw [e]
        exact ⟨rfl, hl, nofun⟩
      | true =>
        have := hn hl
        simp only [List.length_cons] at this
        simp only [Double.outSlot, hl, if_true, Double.latch]
        rw [if_neg (by omega)]
        exact ⟨rfl, hl, fun _ => rfl⟩
    rw [e]
    refine along_append (along_outSlot hr h0 (hm.1.symm ▸ h0)) fun h1 => ?_
    have hd := outSlot_double hr hc h1
    refine ih (by rw [moves_responder, hr]) (by rw [hd]; rfl) ?_ (by rw [hd, hm.1]; exact h0)
    rw [hd, hm.2.1]
    intro hl
    have := hn hl
    simp only [List.length_cons] at this
    rw [hm.2.2 hl]
    omega

theorem along_outByte {P : List Host.Cell → Prop} {v : Env} {f : Option Injected} {x : Byte} (hr : v.responder = .double f)
    (hc : v.double.lastClk = .low) (hn : v.double.latches = true → v.double.nbits = 0)
    (h0 : P v.double.mem) (h1 : P (v.double.outByte x).mem) : Along (fun d => P d.mem) v (evs (outByte x)) := by
  rw [outByte_slots]
  obtain ⟨l, hb, hlen⟩ := bitsOf_split x
  have e : evs (slotsOf (l ++ [x.getLsbD 7])) = evs (slotsOf l) ++ evs (outSlot (x.getLsbD 7)) := by simp [slotsOf]
  rw [hb, e]
  refine along_append (along_slots l hr hc (fun hl => by rw [hn hl]; omega) h0) fun h => ?_
  cases hl : v.double.latches with
  | false =>
    have hs := slots_idle l hr hc hl h
    have hl2 : (v.moves (evs (slotsOf l))).double.latches = false := by
      rw [← hl]; unfold Double.latches; rw [hs.mode]
    refine along_outSlot (by rw [moves_responder, hr]) (by rw [hs.mem]; exact h0) ?_
    simp only [Double.outSlot, hl2, Bool.false_eq_true, if_false]
    rw [hs.mem]
    exact h0
  | true =>
    have hs := slots_shift l hr hc hl (by rw [hn hl]; omega) h
    refine along_outSlot (by rw [moves_responder, hr]) (by rw [hs.mem]; exact h0) ?_
    have := outSlot_last (b := x.getLsbD 7) hs hc (by show v.double.nbits + l.length = 7; rw [hn hl]; omega) hl
    rw [this.mem]
    simp only [bitsOf_foldl hb]
    have e3 : ({ v.double with shift := x, nbits := 0 }.complete x).mem = (v.double.outByte x).mem := by
      have hn := hn hl
      unfold Double.latches at hl
      unfold Double.outByte Double.complete
      cases hm : v.double.mode <;> simp_all
    exact e3 ▸ h1

/-! ## Bytes in -/

/-- The samples of an IN slot, and the double after it, where the double latches nothing. -/
theorem inSlot_double {v : Env} {f : Option Injected} (hr : v.responder = .double f) (hc : v.double.lastClk = .low)
    (hl : v.double.latches = false) (h : v.okMoves (evs inSlot)) :
    (v.moves (evs inSlot)).double = (v.double.read (Config.freeLevel v.draws)).double ∧
      v.levels (evs inSlot) = [(v.double.read (Config.freeLevel v.draws)).level] := by
  have e : evs inSlot = .ev .ioRead :: evs pulseEvents := by simp [inSlot]
  rw [e] at h ⊢
  obtain ⟨h1, h2⟩ := h
  have d1 : (v.move (.ev .ioRead)).double = (v.double.read (Config.freeLevel v.draws)).double := respond_double hr h1
  have r1 : (v.move (.ev .ioRead)).responder = .double f := by rw [← hr]; exact respond_responder _ _
  have f1 : (v.double.read (Config.freeLevel v.draws)).double.latches = false ∧
      (v.double.read (Config.freeLevel v.draws)).double.lastClk = .low := by
    unfold Double.read
    split
    · split <;> exact ⟨hl, hc⟩
    · exact ⟨hl, hc⟩
  obtain ⟨b, -, hd⟩ := pulse_double r1 (by rw [d1]; exact f1.2) h2 (by rw [d1, f1.1]; nofun)
  refine ⟨?_, ?_⟩
  · rw [env_moves_cons, hd, d1, f1.1]
    simp only [Bool.false_eq_true, if_false]
    rw [← f1.2]
  · have hp : Event.ioRead ∉ pulseEvents := by simp [pulseEvents, delayEvent]
    simp only [Env.levels, respond_double_read hr h1, levels_none _ hp, List.append_nil]

theorem along_inSlot {P : List Host.Cell → Prop} {v : Env} {f : Option Injected} (hr : v.responder = .double f)
    (hl : v.double.latches = false) (h0 : P v.double.mem) : Along (fun d => P d.mem) v (evs inSlot) := by
  have e : evs inSlot = .ev .ioRead :: evs pulseEvents := by simp [inSlot]
  rw [e]
  refine ⟨h0, fun h => ?_⟩
  have d1 : (v.move (.ev .ioRead)).double = (v.double.read (Config.freeLevel v.draws)).double := respond_double hr h
  have r1 : (v.move (.ev .ioRead)).responder = .double f := by rw [← hr]; exact respond_responder _ _
  have f1 : (v.double.read (Config.freeLevel v.draws)).double.latches = false ∧
      (v.double.read (Config.freeLevel v.draws)).double.mem = v.double.mem := by
    unfold Double.read
    split
    · split <;> exact ⟨hl, rfl⟩
    · exact ⟨hl, rfl⟩
  exact along_pulse r1 (by rw [d1, f1.2]; exact h0) (by rw [d1, f1.1]; nofun) (by rw [d1, f1.1]; nofun)

/-- In a latching mode an IN slot clocks the last written level in once more (R82). -/
theorem inSlot_latch {v : Env} {f : Option Injected} {b : Bool} (hr : v.responder = .double f) (hc : v.double.lastClk = .low)
    (hl : v.double.latches = true) (hio : v.double.lastIo = Line.ofLevel b) (h : v.okMoves (evs inSlot)) :
    (v.moves (evs inSlot)).double = v.double.outSlot b := by
  have e : evs inSlot = .ev .ioRead :: evs pulseEvents := by simp [inSlot]
  rw [e] at h ⊢
  obtain ⟨h1, h2⟩ := h
  have d1 : (v.move (.ev .ioRead)).double = (v.double.read (Config.freeLevel v.draws)).double := respond_double hr h1
  have d2 : (v.double.read (Config.freeLevel v.draws)).double = v.double := by
    unfold Double.read
    rw [if_neg]
    intro hm
    unfold Double.latches at hl
    simp [hm] at hl
  have r1 : (v.move (.ev .ioRead)).responder = .double f := by rw [← hr]; exact respond_responder _ _
  obtain ⟨c, hcb, hd⟩ := pulse_double r1 (by rw [d1, d2]; exact hc) h2 (fun _ => ⟨b, by rw [d1, d2]; exact hio⟩)
  rw [d1, d2] at hcb hd
  have hbc : b = c := by
    have := hcb hl
    rw [hio] at this
    revert this; cases b <;> cases c <;> simp [Line.ofLevel]
  subst hbc
  rw [env_moves_cons, hd]
  unfold Double.outSlot
  simp only [hl, if_true]
  rw [← hio]

theorem along_inSlot_latch {P : List Host.Cell → Prop} {v : Env} {f : Option Injected} {b : Bool} (hr : v.responder = .double f)
    (hl : v.double.latches = true) (hio : v.double.lastIo = Line.ofLevel b) (h0 : P v.double.mem)
    (h1 : P (v.double.outSlot b).mem) : Along (fun d => P d.mem) v (evs inSlot) := by
  have e : evs inSlot = .ev .ioRead :: evs pulseEvents := by simp [inSlot]
  rw [e]
  refine ⟨h0, fun h => ?_⟩
  have d1 : (v.move (.ev .ioRead)).double = (v.double.read (Config.freeLevel v.draws)).double := respond_double hr h
  have d2 : (v.double.read (Config.freeLevel v.draws)).double = v.double := by
    unfold Double.read
    rw [if_neg]
    intro hm
    unfold Double.latches at hl
    simp [hm] at hl
  have r1 : (v.move (.ev .ioRead)).responder = .double f := by rw [← hr]; exact respond_responder _ _
  refine along_pulse r1 (by rw [d1, d2]; exact h0) ?_ (fun _ => ⟨b, by rw [d1, d2]; exact hio⟩)
  intro c hcb hl2
  rw [d1, d2] at hcb hl2 ⊢
  have hbc : b = c := by
    have := hcb hl
    rw [hio] at this
    revert this; cases b <;> cases c <;> simp [Line.ofLevel]
  subst hbc
  unfold Double.outSlot at h1
  simp only [hl, if_true] at h1
  rw [← hio] at h1
  exact h1

/-- Two doubles that differ at most in the read bit count. -/
def SameButK (d e : Double) : Prop := { d with k := 0 } = { e with k := 0 }

theorem SameButK.mem {d e : Double} (h : SameButK d e) : d.mem = e.mem := by
  have := congrArg Double.mem h; exact this
theorem SameButK.mode {d e : Double} (h : SameButK d e) : d.mode = e.mode := by
  have := congrArg Double.mode h; exact this
theorem SameButK.lastClk {d e : Double} (h : SameButK d e) : d.lastClk = e.lastClk := by
  have := congrArg Double.lastClk h; exact this
theorem SameButK.lastCe {d e : Double} (h : SameButK d e) : d.lastCe = e.lastCe := by
  have := congrArg Double.lastCe h; exact this
theorem SameButK.latches {d e : Double} (h : SameButK d e) : d.latches = e.latches := by
  unfold Double.latches; rw [h.mode]

theorem read_sameButK (d : Double) (w : Bool) : SameButK (d.read w).double d := by
  unfold Double.read
  split
  · split <;> rfl
  · rfl

/-- Reads where nothing is latched. -/
theorem inSlots_double {v : Env} {f : Option Injected} (n : Nat) (hr : v.responder = .double f) (hc : v.double.lastClk = .low)
    (hl : v.double.latches = false) (h : v.okMoves (evs (inSlots n))) :
    SameButK (v.moves (evs (inSlots n))).double v.double := by
  induction n generalizing v with
  | zero => rfl
  | succ n ih =>
    rw [evs_inSlots_succ] at h ⊢
    obtain ⟨h1, h2⟩ := (okMoves_append _ _ _).1 h
    rw [env_moves_append]
    have hd := (inSlot_double hr hc hl h1).1
    have hk := read_sameButK v.double (Config.freeLevel v.draws)
    rw [← hd] at hk
    have := ih (v := v.moves (evs inSlot)) (by rw [moves_responder, hr]) (hk.lastClk.trans hc) (hk.latches.trans hl) h2
    unfold SameButK at this hk ⊢
    rw [this, hk]

theorem along_inSlots {P : List Host.Cell → Prop} {v : Env} {f : Option Injected} (n : Nat) (hr : v.responder = .double f)
    (hc : v.double.lastClk = .low) (hl : v.double.latches = false) (h0 : P v.double.mem) :
    Along (fun d => P d.mem) v (evs (inSlots n)) := by
  induction n generalizing v with
  | zero => exact h0
  | succ n ih =>
    rw [evs_inSlots_succ]
    refine along_append (along_inSlot hr hl h0) fun h1 => ?_
    have hd := (inSlot_double hr hc hl h1).1
    have hk := read_sameButK v.double (Config.freeLevel v.draws)
    rw [← hd] at hk
    refine ih (by rw [moves_responder, hr]) (hk.lastClk.trans hc) (hk.latches.trans hl) (by rw [hk.mem]; exact h0)

/-- The levels of reads in mode rdata, cell by cell (R85). -/
theorem inSlots_levels {v : Env} {f : Option Injected} (n : Nat) (hr : v.responder = .double f) (hc : v.double.lastClk = .low)
    (hm : v.double.mode = .rdata) (cell : Nat → Nat)
    (hcell : ∀ i < n, dataCell v.double.cmd ((v.double.k + i) / 8) = some (cell ((v.double.k + i) / 8)))
    (h : v.okMoves (evs (inSlots n))) :
    v.levels (evs (inSlots n)) = (List.range n).map fun i =>
      (Memory.read v.double.mem (cell ((v.double.k + i) / 8))).getLsbD ((v.double.k + i) % 8) := by
  induction n generalizing v with
  | zero => rfl
  | succ n ih =>
    rw [evs_inSlots_succ] at h ⊢
    obtain ⟨h1, h2⟩ := (okMoves_append _ _ _).1 h
    have hl : v.double.latches = false := by unfold Double.latches; rw [hm]; rfl
    obtain ⟨hd, hlev⟩ := inSlot_double hr hc hl h1
    have h0 := hcell 0 (Nat.succ_pos n)
    rw [Nat.add_zero] at h0
    have hrd : v.double.read (Config.freeLevel v.draws) =
        ⟨(Memory.read v.double.mem (cell (v.double.k / 8))).getLsbD (v.double.k % 8),
          { v.double with k := v.double.k + 1 }, false⟩ := by
      unfold Double.read
      rw [if_pos hm, h0]
    rw [hrd] at hd hlev
    simp only at hd hlev
    rw [levels_append, hlev, ih (v := v.moves (evs inSlot)) (by rw [moves_responder, hr]) (by rw [hd]; exact hc)
      (by rw [hd]; exact hm) (by
        rw [hd]
        intro i hi
        have := hcell (i + 1) (by omega)
        simpa only [Nat.add_assoc, Nat.add_comm 1] using this) h2, hd]
    rw [List.range_succ_eq_map, List.map_cons, List.map_map, List.singleton_append]
    simp only [Nat.add_zero, Nat.add_assoc, Nat.add_comm 1]
    rfl

theorem byteOfBits_bitsOf (x : Byte) : byteOfBits (bitsOf x) = x := by
  revert x; decide +kernel

/-- The bytes of the levels of `n` bytes of cells. -/
theorem bytesOfBits_cells (n j : Nat) (g : Nat → Byte) :
    bytesOfBits n ((List.range (8 * n)).map fun i => (g ((8 * j + i) / 8)).getLsbD ((8 * j + i) % 8)) =
      (List.range n).map fun i => g (j + i) := by
  induction n generalizing j with
  | zero => rfl
  | succ n ih =>
    have e : List.range (8 * (n + 1)) = List.range 8 ++ (List.range (8 * n)).map (fun i => 8 + i) := by
      rw [show 8 * (n + 1) = 8 + 8 * n by omega, List.range_add]
    rw [e, List.map_append, bytesOfBits, List.take_left' (by simp), List.drop_left' (by simp), List.map_map]
    have e1 : (List.range 8).map (fun i => (g ((8 * j + i) / 8)).getLsbD ((8 * j + i) % 8)) = bitsOf (g j) := by
      unfold bitsOf
      apply List.map_congr_left
      intro i hi
      have : i < 8 := List.mem_range.1 hi
      rw [show (8 * j + i) / 8 = j by omega, show (8 * j + i) % 8 = i by omega]
    rw [e1, byteOfBits_bitsOf]
    have e2 : ((fun i => (g ((8 * j + i) / 8)).getLsbD ((8 * j + i) % 8)) ∘ fun i => 8 + i) =
        fun i => (g ((8 * (j + 1) + i) / 8)).getLsbD ((8 * (j + 1) + i) % 8) := by
      funext i
      simp only [Function.comp]
      rw [show 8 * j + (8 + i) = 8 * (j + 1) + i by omega]
    rw [e2, ih, List.range_succ_eq_map, List.map_cons, List.map_map, Nat.add_zero]
    congr 1
    apply List.map_congr_left
    intro i _
    simp only [Function.comp]
    congr 1
    omega

end Sys2Proof.Machine
end

