-- ==== Sys2Proof/Laws/DoubleFrames.lean ====
section
/-! SUPPORT. What each frame does to the reference double, and what it reads from it (20_memory.md R81 to R85). -/

namespace Sys2Proof.Machine

theorem commit_mem (d : Double) (v : Byte) : (d.commit v).mem = (match dataCell d.cmd d.j with
    | some a => Memory.write d.mem a v
    | none => d.mem) := by
  unfold Double.commit
  cases dataCell d.cmd d.j <;> rfl

/-- A data byte in mode wdata (R82, R83), field by field. -/
theorem outByte_wdata {d : Double} (hm : d.mode = .wdata) (b : Byte) :
    (d.outByte b).mem = (match dataCell d.cmd d.j with
        | some a => Memory.write d.mem a b
        | none => d.mem) ∧
      (d.outByte b).cmd = d.cmd ∧ (d.outByte b).mode = .wdata ∧ (d.outByte b).nbits = 0 ∧ (d.outByte b).j = d.j + 1 ∧
      (d.outByte b).lastClk = d.lastClk := by
  cases d
  simp only at hm
  subst hm
  simp only [Double.outByte, Double.commit]
  cases dataCell _ _ <;> simp

/-- Data bytes in mode wdata. -/
theorem outBytes_double {v : Env} {f : Option Injected} (l : List Byte) (hr : v.responder = .double f)
    (hc : v.double.lastClk = .low) (hm : v.double.mode = .wdata) (hn : v.double.nbits = 0)
    (h : v.okMoves (evs (outBytes l))) :
    (v.moves (evs (outBytes l))).double.mem = storeBytes v.double.mem v.double.cmd v.double.j l ∧
      (v.moves (evs (outBytes l))).double.lastClk = .low := by
  induction l generalizing v with
  | nil => exact ⟨rfl, hc⟩
  | cons b bs ih =>
    have e : evs (outBytes (b :: bs)) = evs (outByte b) ++ evs (outBytes bs) := by simp [outBytes]
    rw [e] at h ⊢
    obtain ⟨h1, h2⟩ := (okMoves_append _ _ _).1 h
    rw [env_moves_append]
    have hs := outByte_double hr hc (fun _ => hn) h1
    obtain ⟨o1, o2, o3, o4, o5, o6⟩ := outByte_wdata hm b
    have := ih (v := v.moves (evs (outByte b))) (by rw [moves_responder, hr]) (hs.lastClk.trans (o6.trans hc))
      (hs.mode.trans o3) (hs.nbits.trans o4) h2
    refine ⟨?_, this.2⟩
    rw [this.1, hs.mem, hs.cmd, hs.j, storeBytes, o1, o2, o5]
    all_goals rfl

/-- A memory property along data bytes in mode wdata: it holds after each of them. -/
theorem along_outBytes {P : List Host.Cell → Prop} {v : Env} {f : Option Injected} (l : List Byte)
    (hr : v.responder = .double f) (hc : v.double.lastClk = .low) (hm : v.double.mode = .wdata) (hn : v.double.nbits = 0)
    (h : ∀ n, P (storeBytes v.double.mem v.double.cmd v.double.j (l.take n))) :
    Along (fun d => P d.mem) v (evs (outBytes l)) := by
  induction l generalizing v with
  | nil => exact h 0
  | cons b bs ih =>
    have e : evs (outBytes (b :: bs)) = evs (outByte b) ++ evs (outBytes bs) := by simp [outBytes]
    obtain ⟨o1, o2, o3, o4, o5, o6⟩ := outByte_wdata hm b
    rw [e]
    refine along_append (along_outByte hr hc (fun _ => hn) (h 0) ?_) fun h1 => ?_
    · have := h 1
      simp only [List.take_succ_cons, List.take_zero, storeBytes] at this
      rw [o1]
      exact this
    · have hs := outByte_double hr hc (fun _ => hn) h1
      refine ih (by rw [moves_responder, hr]) (hs.lastClk.trans (o6.trans hc)) (hs.mode.trans o3) (hs.nbits.trans o4) ?_
      intro n
      have := h (n + 1)
      rw [List.take_succ_cons, storeBytes] at this
      rw [hs.mem, hs.cmd, hs.j, o1, o2, o5]
      exact this

/-- Data bytes where nothing is latched. -/
theorem outBytes_idle {v : Env} {f : Option Injected} (l : List Byte) (hr : v.responder = .double f)
    (hc : v.double.lastClk = .low) (hl : v.double.latches = false) (h : v.okMoves (evs (outBytes l))) :
    SameButIo (v.moves (evs (outBytes l))).double v.double := by
  induction l generalizing v with
  | nil => rfl
  | cons b bs ih =>
    have e : evs (outBytes (b :: bs)) = evs (outByte b) ++ evs (outBytes bs) := by simp [outBytes]
    rw [e] at h ⊢
    obtain ⟨h1, h2⟩ := (okMoves_append _ _ _).1 h
    rw [env_moves_append]
    rw [outByte_slots] at h1 h2 ⊢
    have hs := slots_idle _ hr hc hl h1
    have := ih (v := v.moves (evs (slotsOf (bitsOf b)))) (by rw [moves_responder, hr]) (hs.lastClk.trans hc)
      (by unfold Double.latches at hl ⊢; rw [hs.mode]; exact hl) h2
    unfold SameButIo at this hs ⊢
    rw [this, hs]

theorem outByte_idle {d : Double} (hl : d.latches = false) (x : Byte) : d.outByte x = d := by
  unfold Double.outByte
  unfold Double.latches at hl
  cases hm : d.mode <;> simp_all

theorem along_outBytes_idle {P : List Host.Cell → Prop} {v : Env} {f : Option Injected} (l : List Byte)
    (hr : v.responder = .double f) (hc : v.double.lastClk = .low) (hl : v.double.latches = false)
    (h0 : P v.double.mem) : Along (fun d => P d.mem) v (evs (outBytes l)) := by
  induction l generalizing v with
  | nil => exact h0
  | cons b bs ih =>
    have e : evs (outBytes (b :: bs)) = evs (outByte b) ++ evs (outBytes bs) := by simp [outBytes]
    rw [e]
    refine along_append (along_outByte hr hc (by rw [hl]; nofun) h0 (by rw [outByte_idle hl]; exact h0)) fun h1 => ?_
    rw [outByte_slots] at h1 ⊢
    have hs := slots_idle _ hr hc hl h1
    exact ih (by rw [moves_responder, hr]) (hs.lastClk.trans hc)
      (by unfold Double.latches at hl ⊢; rw [hs.mode]; exact hl) (by rw [hs.mem]; exact h0)

/-! ## The command phase -/

/-- The double after the command phase: a frame that opens cleanly ends in the mode of its command, one that does not is
confused (R81, R82). -/
theorem command_double {v : Env} {f : Option Injected} (c : Byte) (hr : v.responder = .double f)
    (hc : v.double.lastClk = .low) (h : v.okMoves (commandMoves c)) :
    SameButIo (v.moves (commandMoves c)).double
      (if v.double.lastCe = .low then
        { v.double with mode := Mode.ofCommand c, nbits := 0, shift := c, cmd := c, j := 0, k := 0, lastCe := .high }
      else { v.double with mode := .confused, lastCe := .high }) := by
  unfold commandMoves at h ⊢
  rw [evs_cons] at h ⊢
  obtain ⟨h1, h2⟩ := h
  have d1 : (v.move (.ev (.ceWrite true))).double = v.double.ceHigh := respond_double hr h1
  have r1 : (v.move (.ev (.ceWrite true))).responder = .double f := by rw [← hr]; exact respond_responder _ _
  rw [env_moves_cons]
  by_cases hce : v.double.lastCe = .low
  · have d2 : v.double.ceHigh = { v.double with mode := .cmd, nbits := 0, j := 0, k := 0, lastCe := .high } := by
      unfold Double.ceHigh; rw [if_pos hce]
    rw [d2] at d1
    have := outByte_double (x := c) r1 (by rw [d1]; exact hc) (fun _ => by rw [d1]) h2
    rw [if_pos hce]
    rw [d1] at this
    exact this
  · have d2 : v.double.ceHigh = { v.double with mode := .confused, lastCe := .high } := by
      unfold Double.ceHigh; rw [if_neg hce]
    rw [d2] at d1
    have := outByte_double (x := c) r1 (by rw [d1]; exact hc) (by rw [d1]; nofun) h2
    rw [if_neg hce]
    rw [d1] at this
    exact this

theorem along_command {P : List Host.Cell → Prop} {v : Env} {f : Option Injected} (c : Byte) (hr : v.responder = .double f)
    (hc : v.double.lastClk = .low) (h0 : P v.double.mem) : Along (fun d => P d.mem) v (commandMoves c) := by
  unfold commandMoves
  rw [evs_cons]
  refine ⟨h0, fun h1 => ?_⟩
  have d1 : (v.move (.ev (.ceWrite true))).double = v.double.ceHigh := respond_double hr h1
  have r1 : (v.move (.ev (.ceWrite true))).responder = .double f := by rw [← hr]; exact respond_responder _ _
  by_cases hce : v.double.lastCe = .low
  · have d2 : v.double.ceHigh = { v.double with mode := .cmd, nbits := 0, j := 0, k := 0, lastCe := .high } := by
      unfold Double.ceHigh; rw [if_pos hce]
    rw [d2] at d1
    exact along_outByte (x := c) r1 (by rw [d1]; exact hc) (fun _ => by rw [d1]) (by rw [d1]; exact h0)
      (by rw [d1]; exact h0)
  · have d2 : v.double.ceHigh = { v.double with mode := .confused, lastCe := .high } := by
      unfold Double.ceHigh; rw [if_neg hce]
    rw [d2] at d1
    exact along_outByte (x := c) r1 (by rw [d1]; exact hc) (by rw [d1]; nofun) (by rw [d1]; exact h0)
      (by rw [d1]; exact h0)

theorem ofCommand_wdata {c : Byte} (h : (cmdMarker c && !cmdRw c) = true) : Mode.ofCommand c = .wdata := by
  simp only [Bool.and_eq_true, Bool.not_eq_true'] at h
  simp [Mode.ofCommand, h.1, h.2]

theorem ofCommand_idle {c : Byte} (h : (cmdMarker c && !cmdRw c) = false) :
    Mode.ofCommand c = .ignore ∨ Mode.ofCommand c = .rdata := by
  unfold Mode.ofCommand
  cases hm : cmdMarker c <;> cases hr : cmdRw c <;> simp_all

/-! ## Write frames -/

/-- A write frame that runs to its end: what it stores (R83), and that the lines are low after it. -/
theorem burstWrite_double {v : Env} {f : Option Injected} (c : Byte) (l : List Byte) (hr : v.responder = .double f)
    (hc : v.double.lastClk = .low) (h : v.okMoves (burstWriteFrame c l)) :
    (v.moves (burstWriteFrame c l)).double.mem =
        (if v.double.lastCe = .low then storeFrame v.double.mem c l else v.double.mem) ∧
      (v.moves (burstWriteFrame c l)).double.lastClk = .low ∧ (v.moves (burstWriteFrame c l)).double.lastCe = .low := by
  have e := burstWriteFrame_parts c l
  rw [e] at h ⊢
  obtain ⟨h1, h23⟩ := (okMoves_append _ _ _).1 h
  obtain ⟨h2, h3⟩ := (okMoves_append _ _ _).1 h23
  have hs := command_double c hr hc h1
  have r1 : (v.moves (commandMoves c)).responder = .double f := by rw [moves_responder, hr]
  have r2 : ((v.moves (commandMoves c)).moves (evs (outBytes l))).responder = .double f := by
    rw [moves_responder, r1]
  rw [env_moves_append, env_moves_append]
  -- the close: only the data line's and CE's last levels and the mode move
  have hclose : ∀ w : Env, w.responder = .double f → w.okMoves (evs [.ioWrite false, .ceWrite false]) →
      (w.moves (evs [.ioWrite false, .ceWrite false])).double.mem = w.double.mem ∧
      (w.moves (evs [.ioWrite false, .ceWrite false])).double.lastClk = w.double.lastClk ∧
      (w.moves (evs [.ioWrite false, .ceWrite false])).double.lastCe = .low := by
    intro w hw hok
    obtain ⟨k1, k2, -⟩ := hok
    have d1 : (w.move (.ev (.ioWrite false))).double = { w.double with lastIo := .low } := respond_double hw k1
    have q1 : (w.move (.ev (.ioWrite false))).responder = .double f := by rw [← hw]; exact respond_responder _ _
    have d2 : ((w.move (.ev (.ioWrite false))).move (.ev (.ceWrite false))).double =
        { (w.move (.ev (.ioWrite false))).double with mode := .idle, lastCe := .low } := respond_double q1 k2
    simp only [evs_cons, evs_nil, env_moves_cons, env_moves_nil, d2, d1, and_self]
  obtain ⟨c1, c2, c3⟩ := hclose _ r2 h3
  refine ⟨?_, ?_, c3⟩
  · rw [c1]
    by_cases hce : v.double.lastCe = .low
    · rw [if_pos hce] at hs ⊢
      unfold storeFrame
      by_cases hw : (cmdMarker c && !cmdRw c) = true
      · rw [if_pos hw]
        have := (outBytes_double l r1 (hs.lastClk.trans hc) (hs.mode.trans (ofCommand_wdata hw)) hs.nbits h2).1
        rw [this, hs.mem, hs.cmd, hs.j]
      · rw [if_neg hw]
        have hl : (v.moves (commandMoves c)).double.latches = false := by
          unfold Double.latches
          rw [hs.mode]
          rcases ofCommand_idle (Bool.not_eq_true _ ▸ hw) with h' | h' <;> simp [h']
        rw [(outBytes_idle l r1 (hs.lastClk.trans hc) hl h2).mem, hs.mem]
    · rw [if_neg hce] at hs ⊢
      have hl : (v.moves (commandMoves c)).double.latches = false := by
        unfold Double.latches; rw [hs.mode]; rfl
      rw [(outBytes_idle l r1 (hs.lastClk.trans hc) hl h2).mem, hs.mem]
  · rw [c2]
    by_cases hce : v.double.lastCe = .low
    · rw [if_pos hce] at hs
      by_cases hw : (cmdMarker c && !cmdRw c) = true
      · exact (outBytes_double l r1 (hs.lastClk.trans hc) (hs.mode.trans (ofCommand_wdata hw)) hs.nbits h2).2
      · have hl : (v.moves (commandMoves c)).double.latches = false := by
          unfold Double.latches
          rw [hs.mode]
          rcases ofCommand_idle (Bool.not_eq_true _ ▸ hw) with h' | h' <;> simp [h']
        rw [(outBytes_idle l r1 (hs.lastClk.trans hc) hl h2).lastClk, hs.lastClk]; exact hc
    · rw [if_neg hce] at hs
      have hl : (v.moves (commandMoves c)).double.latches = false := by
        unfold Double.latches; rw [hs.mode]; rfl
      rw [(outBytes_idle l r1 (hs.lastClk.trans hc) hl h2).lastClk, hs.lastClk]; exact hc

/-- A memory property along a write frame: it holds before it and after each of its data bytes. -/
theorem along_burstWrite {P : List Host.Cell → Prop} {v : Env} {f : Option Injected} (c : Byte) (l : List Byte)
    (hr : v.responder = .double f) (hc : v.double.lastClk = .low) (h0 : P v.double.mem)
    (h : ∀ n, P (storeFrame v.double.mem c (l.take n))) : Along (fun d => P d.mem) v (burstWriteFrame c l) := by
  have e := burstWriteFrame_parts c l
  rw [e]
  refine along_append (along_command c hr hc h0) fun h1 => ?_
  have hs := command_double c hr hc h1
  have r1 : (v.moves (commandMoves c)).responder = .double f := by rw [moves_responder, hr]
  have hclose : ∀ w : Env, w.responder = .double f → P w.double.mem →
      Along (fun d => P d.mem) w (evs [.ioWrite false, .ceWrite false]) := by
    intro w hw hp
    refine ⟨hp, fun k1 => ?_⟩
    have d1 : (w.move (.ev (.ioWrite false))).double = { w.double with lastIo := .low } := respond_double hw k1
    have q1 : (w.move (.ev (.ioWrite false))).responder = .double f := by rw [← hw]; exact respond_responder _ _
    refine ⟨by rw [d1]; exact hp, fun k2 => ?_⟩
    have d2 : ((w.move (.ev (.ioWrite false))).move (.ev (.ceWrite false))).double =
        { (w.move (.ev (.ioWrite false))).double with mode := .idle, lastCe := .low } := respond_double q1 k2
    show P ((w.move (.ev (.ioWrite false))).move (.ev (.ceWrite false))).double.mem
    rw [d2, d1]; exact hp
  by_cases hw : v.double.lastCe = .low ∧ (cmdMarker c && !cmdRw c) = true
  · rw [if_pos hw.1] at hs
    have hmode := hs.mode.trans (ofCommand_wdata hw.2)
    have hlc := hs.lastClk.trans hc
    have hall : ∀ n, P (storeBytes (v.moves (commandMoves c)).double.mem (v.moves (commandMoves c)).double.cmd
        (v.moves (commandMoves c)).double.j (l.take n)) := by
      intro n
      rw [hs.mem, hs.cmd, hs.j]
      have := h n
      unfold storeFrame at this
      rw [if_pos hw.2] at this
      exact this
    refine along_append (along_outBytes l r1 hlc hmode hs.nbits hall) fun h2 => ?_
    refine hclose _ (by rw [moves_responder, r1]) ?_
    rw [(outBytes_double l r1 hlc hmode hs.nbits h2).1]
    have := hall l.length
    rwa [List.take_length] at this
  · have hm : (v.moves (commandMoves c)).double.mem = v.double.mem := by
      rw [hs.mem]; split <;> rfl
    have hlc : (v.moves (commandMoves c)).double.lastClk = .low := by
      rw [hs.lastClk]; split <;> exact hc
    have hl : (v.moves (commandMoves c)).double.latches = false := by
      unfold Double.latches
      rw [hs.mode]
      by_cases hce : v.double.lastCe = .low
      · rw [if_pos hce]
        have hx : (cmdMarker c && !cmdRw c) = false := by
          rw [← Bool.not_eq_true]; exact fun hx => hw ⟨hce, hx⟩
        rcases ofCommand_idle hx with h' | h' <;> simp [h']
      · rw [if_neg hce]; rfl
    refine along_append (along_outBytes_idle l r1 hlc hl (by rw [hm]; exact h0)) fun h2 => ?_
    refine hclose _ (by rw [moves_responder, r1]) ?_
    rw [(outBytes_idle l r1 hlc hl h2).mem, hm]; exact h0

/-! ## Read frames -/

theorem burstReadFrame_slots (c : Byte) (n : Nat) :
    burstReadFrame c n = commandMoves c ++ ([.release] ++ (evs (inSlots (8 * n)) ++ evs [.ceWrite false])) := by
  have e := burstReadFrame_parts c n
  rw [e, evs_inBytes]

theorem env_moves_release (v : Env) : v.moves [.release] = v := rfl

theorem ceLow_double {w : Env} {f : Option Injected} (hw : w.responder = .double f) (hok : w.okMoves (evs [.ceWrite false])) :
    (w.moves (evs [.ceWrite false])).double = { w.double with mode := .idle, lastCe := .low } :=
  respond_double hw hok.1

theorem ceLow_fields {w : Env} {f : Option Injected} (hw : w.responder = .double f) (hok : w.okMoves (evs [.ceWrite false])) :
    (w.moves (evs [.ceWrite false])).double.mem = w.double.mem ∧
      (w.moves (evs [.ceWrite false])).double.lastClk = w.double.lastClk ∧
      (w.moves (evs [.ceWrite false])).double.lastCe = .low := by
  rw [ceLow_double hw hok]
  exact ⟨rfl, rfl, rfl⟩

theorem along_ceLow {P : List Host.Cell → Prop} {w : Env} {f : Option Injected} (hw : w.responder = .double f)
    (h0 : P w.double.mem) : Along (fun d => P d.mem) w (evs [.ceWrite false]) := by
  refine ⟨h0, fun k => ?_⟩
  have d1 : (w.move (.ev (.ceWrite false))).double = { w.double with mode := .idle, lastCe := .low } :=
    respond_double hw k
  show P (w.move (.ev (.ceWrite false))).double.mem
  rw [d1]; exact h0

/-- After the command phase of a command that is not a marked write command, nothing is latched. -/
theorem command_idle {v : Env} {f : Option Injected} (c : Byte) (hr : v.responder = .double f)
    (hc : v.double.lastClk = .low) (hw : v.double.lastCe = .low → (cmdMarker c && !cmdRw c) = false)
    (h : v.okMoves (commandMoves c)) :
    (v.moves (commandMoves c)).double.latches = false ∧ (v.moves (commandMoves c)).double.mem = v.double.mem ∧
      (v.moves (commandMoves c)).double.lastClk = .low := by
  have hs := command_double c hr hc h
  refine ⟨?_, ?_, ?_⟩
  · unfold Double.latches
    rw [hs.mode]
    by_cases hce : v.double.lastCe = .low
    · rw [if_pos hce]
      rcases ofCommand_idle (hw hce) with h' | h' <;> simp [h']
    · rw [if_neg hce]; rfl
  · rw [hs.mem]; split <;> rfl
  · rw [hs.lastClk]; split <;> exact hc

/-- A read frame of a command that is not a marked write command leaves the memory, and the lines low. -/
theorem burstRead_double {v : Env} {f : Option Injected} (c : Byte) (n : Nat) (hr : v.responder = .double f)
    (hc : v.double.lastClk = .low) (hw : v.double.lastCe = .low → (cmdMarker c && !cmdRw c) = false)
    (h : v.okMoves (burstReadFrame c n)) :
    (v.moves (burstReadFrame c n)).double.mem = v.double.mem ∧ (v.moves (burstReadFrame c n)).double.lastClk = .low ∧
      (v.moves (burstReadFrame c n)).double.lastCe = .low := by
  rw [burstReadFrame_slots] at h ⊢
  obtain ⟨h1, h2⟩ := (okMoves_append _ _ _).1 h
  obtain ⟨-, h3⟩ := (okMoves_append _ _ _).1 h2
  obtain ⟨h4, h5⟩ := (okMoves_append _ _ _).1 h3
  obtain ⟨c1, c2, c3⟩ := command_idle c hr hc hw h1
  rw [env_moves_release] at h4 h5
  rw [env_moves_append, env_moves_append, env_moves_append, env_moves_release]
  have hk := inSlots_double (8 * n) (v := v.moves (commandMoves c)) (by rw [moves_responder, hr]) c3 c1 h4
  rw [ceLow_double (f := f) (by rw [moves_responder, moves_responder, hr]) h5]
  exact ⟨hk.mem.trans c2, hk.lastClk.trans c3, rfl⟩

theorem along_burstRead {P : List Host.Cell → Prop} {v : Env} {f : Option Injected} (c : Byte) (n : Nat)
    (hr : v.responder = .double f) (hc : v.double.lastClk = .low)
    (hw : v.double.lastCe = .low → (cmdMarker c && !cmdRw c) = false) (h0 : P v.double.mem) :
    Along (fun d => P d.mem) v (burstReadFrame c n) := by
  rw [burstReadFrame_slots]
  refine along_append (along_command c hr hc h0) fun h1 => ?_
  obtain ⟨c1, c2, c3⟩ := command_idle c hr hc hw h1
  have h0' : P (v.moves (commandMoves c)).double.mem := c2.symm ▸ h0
  refine along_append ⟨h0', fun _ => h0'⟩ fun _ => ?_
  rw [env_moves_release]
  have r1 : (v.moves (commandMoves c)).responder = .double f := by rw [moves_responder, hr]
  refine along_append (along_inSlots (8 * n) r1 c3 c1 h0') fun h4 => ?_
  have hk := inSlots_double (8 * n) r1 c3 c1 h4
  refine along_ceLow (f := f) (by rw [moves_responder, r1]) ?_
  rw [hk.mem]; exact h0'

/-- What a read frame reads from a double whose lines are low: its cells, byte by byte (R85). -/
theorem burstRead_levels {v : Env} {f : Option Injected} (c : Byte) (n : Nat) (hr : v.responder = .double f)
    (hc : v.double.lastClk = .low) (hce : v.double.lastCe = .low) (hm : cmdMarker c = true) (hrw : cmdRw c = true)
    (cell : Nat → Nat) (hcell : ∀ j < n, dataCell c j = some (cell j)) (h : v.okMoves (burstReadFrame c n)) :
    bytesOfBits n (v.levels (burstReadFrame c n)) = (List.range n).map fun j => Memory.read v.double.mem (cell j) := by
  have hmode : Mode.ofCommand c = .rdata := by simp [Mode.ofCommand, hm, hrw]
  rw [burstReadFrame_slots] at h ⊢
  obtain ⟨h1, h2⟩ := (okMoves_append _ _ _).1 h
  obtain ⟨-, h3⟩ := (okMoves_append _ _ _).1 h2
  obtain ⟨h4, h5⟩ := (okMoves_append _ _ _).1 h3
  have hs := command_double c hr hc h1
  rw [if_pos hce] at hs
  rw [env_moves_release] at h4
  have e1 : (v.moves (commandMoves c)).double.cmd = c := hs.cmd
  have e2 : (v.moves (commandMoves c)).double.k = 0 := hs.k
  have e3 : (v.moves (commandMoves c)).double.mem = v.double.mem := hs.mem
  have hlv := inSlots_levels (8 * n) (v := v.moves (commandMoves c)) (by rw [moves_responder, hr])
    (hs.lastClk.trans hc) (hs.mode.trans hmode) cell (by
      intro i hi
      rw [e1, e2]
      exact hcell _ (by omega)) h4
  have n1 : v.levels (commandMoves c) = [] := by
    unfold commandMoves
    refine levels_none _ ?_
    simp only [List.mem_cons, reduceCtorEq, false_or]
    exact ioRead_notMem_outByte c
  have n2 : ∀ w : Env, w.levels (evs [.ceWrite false]) = [] := fun w => levels_none _ (by simp)
  rw [levels_append, n1, levels_append, levels_append, n2, env_moves_release, List.nil_append, List.append_nil, hlv,
    e2, e3, show Env.levels (v.moves (commandMoves c)) [Move.release] = [] from rfl, List.nil_append]
  have := bytesOfBits_cells n 0 fun j => Memory.read v.double.mem (cell j)
  simpa only [Nat.mul_zero, Nat.zero_add] using this

/-! ## A write command in a read frame (30_encoding.md R120 (e)): the double clocks in ones -/

theorem inSlots_shift {v : Env} {f : Option Injected} (n : Nat) {b : Bool} (hr : v.responder = .double f)
    (hc : v.double.lastClk = .low) (hl : v.double.latches = true) (hio : v.double.lastIo = Line.ofLevel b)
    (hn : v.double.nbits + n ≤ 7) (h : v.okMoves (evs (inSlots n))) :
    (v.moves (evs (inSlots n))).double =
      { v.double with shift := (List.replicate n b).foldl shiftIn v.double.shift, nbits := v.double.nbits + n } := by
  induction n generalizing v with
  | zero => rfl
  | succ n ih =>
    rw [evs_inSlots_succ] at h ⊢
    obtain ⟨h1, h2⟩ := (okMoves_append _ _ _).1 h
    rw [env_moves_append]
    have hd := inSlot_latch hr hc hl hio h1
    have hs : v.double.outSlot b =
        { v.double with shift := shiftIn v.double.shift b, nbits := v.double.nbits + 1 } := by
      simp only [Double.outSlot, hl, if_true, Double.latch]
      rw [if_neg (by omega)]
      cases hd : v.double
      simp_all
    rw [hs] at hd
    have := ih (v := v.moves (evs inSlot)) (by rw [moves_responder, hr]) (by rw [hd]; exact hc) (by rw [hd]; exact hl)
      (by rw [hd]; exact hio) (by rw [hd]; show v.double.nbits + 1 + n ≤ 7; omega) h2
    rw [this, hd]
    simp only [List.replicate_succ, List.foldl_cons, Nat.add_assoc, Nat.add_comm 1]

theorem along_inSlots_shift {P : List Host.Cell → Prop} {v : Env} {f : Option Injected} (n : Nat) {b : Bool}
    (hr : v.responder = .double f) (hc : v.double.lastClk = .low) (hl : v.double.latches = true)
    (hio : v.double.lastIo = Line.ofLevel b) (hn : v.double.nbits + n ≤ 7) (h0 : P v.double.mem) :
    Along (fun d => P d.mem) v (evs (inSlots n)) := by
  induction n generalizing v with
  | zero => exact h0
  | succ n ih =>
    rw [evs_inSlots_succ]
    have hs : v.double.outSlot b =
        { v.double with shift := shiftIn v.double.shift b, nbits := v.double.nbits + 1 } := by
      simp only [Double.outSlot, hl, if_true, Double.latch]
      rw [if_neg (by omega)]
      cases hd : v.double
      simp_all
    refine along_append (along_inSlot_latch hr hl hio h0 (by rw [hs]; exact h0)) fun h1 => ?_
    have hd := inSlot_latch hr hc hl hio h1
    rw [hs] at hd
    exact ih (v := v.moves (evs inSlot)) (by rw [moves_responder, hr]) (by rw [hd]; exact hc) (by rw [hd]; exact hl)
      (by rw [hd]; exact hio) (by rw [hd]; show v.double.nbits + 1 + n ≤ 7; omega) (by rw [hd]; exact h0)

theorem latch_lastIo (d : Double) (b : Bool) : (d.latch b).lastIo = d.lastIo := by
  unfold Double.latch
  split
  · unfold Double.complete Double.commit
    cases d.mode <;> simp only <;> split <;> rfl
  · rfl

theorem command_lastIo {v : Env} {f : Option Injected} (c : Byte) (hr : v.responder = .double f)
    (hc : v.double.lastClk = .low) (h : v.okMoves (commandMoves c)) :
    (v.moves (commandMoves c)).double.lastIo = Line.ofLevel (c.getLsbD 7) := by
  obtain ⟨l, hb, hlen⟩ := bitsOf_split c
  have e : commandMoves c = (.ev (.ceWrite true) :: evs (slotsOf l)) ++ evs (outSlot (c.getLsbD 7)) := by
    unfold commandMoves
    rw [evs_cons, outByte_slots, hb]
    simp [slotsOf]
  have hall := h
  rw [e] at h ⊢
  obtain ⟨h1, h2⟩ := (okMoves_append _ _ _).1 h
  rw [env_moves_append]
  have hk1 := h1.1
  have d1 : (v.move (.ev (.ceWrite true))).double = v.double.ceHigh := respond_double hr hk1
  have r1 : (v.move (.ev (.ceWrite true))).responder = .double f := by rw [← hr]; exact respond_responder _ _
  have hlc : (v.moves (.ev (.ceWrite true) :: evs (slotsOf l))).double.lastClk = .low := by
    rw [env_moves_cons]
    cases hl : (v.move (.ev (.ceWrite true))).double.latches with
    | false =>
      have := (slots_idle l r1 (by rw [d1]; unfold Double.ceHigh; split <;> exact hc) hl h1.2).lastClk
      rw [this, d1]
      unfold Double.ceHigh; split <;> exact hc
    | true =>
      have hn : (v.move (.ev (.ceWrite true))).double.nbits = 0 := by
        rw [d1] at hl ⊢
        unfold Double.ceHigh at hl ⊢
        split
        · rfl
        · rename_i hx
          rw [if_neg hx] at hl
          simp [Double.latches] at hl
      have := (slots_shift l r1 (by rw [d1]; unfold Double.ceHigh; split <;> exact hc) hl (by omega) h1.2).lastClk
      rw [this, d1]
      unfold Double.ceHigh; split <;> exact hc
  rw [outSlot_double (f := f) (by rw [moves_responder, hr]) hlc h2]
  unfold Double.outSlot
  split
  · exact latch_lastIo _ _
  · rfl

theorem replicate_shift (r : Byte) : shiftIn ((List.replicate 7 true).foldl shiftIn r) true = 0xFF#8 := by
  have := foldl_shiftIn_bits r 0xFF#8
  rwa [show bitsOf 0xFF#8 = List.replicate 7 true ++ [true] by decide, List.foldl_append] at this

/-- A read frame of a marked write command, sent to a double whose lines are low: the eight clock pulses latch the
command's last bit, so the double commits 0xFF. -/
theorem readFrame_latch {v : Env} {f : Option Injected} (c : Byte) (hr : v.responder = .double f)
    (hc : v.double.lastClk = .low) (hce : v.double.lastCe = .low) (hw : (cmdMarker c && !cmdRw c) = true) :
    (v.okMoves (readFrame c) → (v.moves (readFrame c)).double.mem = storeFrame v.double.mem c [0xFF#8] ∧
      (v.moves (readFrame c)).double.lastClk = .low ∧ (v.moves (readFrame c)).double.lastCe = .low) ∧
    ∀ P : List Host.Cell → Prop, P v.double.mem → P (storeFrame v.double.mem c [0xFF#8]) →
      Along (fun d => P d.mem) v (readFrame c) := by
  have hb : c.getLsbD 7 = true := by
    simp only [Bool.and_eq_true] at hw
    exact hw.1
  have e : readFrame c = commandMoves c ++ ([.release] ++ (evs (inSlots 7) ++ (evs inSlot ++ evs [.ceWrite false]))) := by
    rw [readFrame_burst, burstReadFrame_slots, show 8 * 1 = 7 + 1 from rfl, inSlots_add]
    simp [inSlots]
  -- the state after the command phase and after seven slots
  have key : v.okMoves (commandMoves c) →
      (v.moves (commandMoves c)).responder = .double f ∧
      (v.moves (commandMoves c)).double.lastClk = .low ∧
      (v.moves (commandMoves c)).double.mode = .wdata ∧
      (v.moves (commandMoves c)).double.lastIo = Line.ofLevel true ∧
      (v.moves (commandMoves c)).double.nbits = 0 ∧
      (v.moves (commandMoves c)).double.cmd = c ∧
      (v.moves (commandMoves c)).double.j = 0 ∧
      (v.moves (commandMoves c)).double.mem = v.double.mem := by
    intro h1
    have hs := command_double c hr hc h1
    rw [if_pos hce] at hs
    refine ⟨by rw [moves_responder, hr], hs.lastClk.trans hc, hs.mode.trans (ofCommand_wdata hw), ?_,
      hs.nbits, hs.cmd, hs.j, hs.mem⟩
    rw [← hb]; exact command_lastIo c hr hc h1
  have lat : ∀ d : Double, d.mode = .wdata → d.latches = true := by
    intro d hd; unfold Double.latches; rw [hd]; rfl
  have last : ∀ d : Double, d.mode = .wdata → d.nbits = 0 → d.cmd = c → d.j = 0 → d.mem = v.double.mem →
      d.lastClk = .low →
      (({ d with shift := (List.replicate 7 true).foldl shiftIn d.shift, nbits := d.nbits + 7 } : Double).outSlot true).mem =
        storeFrame v.double.mem c [0xFF#8] := by
    intro d hm hn hcm hj hmem hlc
    have := outSlot_last (b := true) (d := { d with shift := (List.replicate 7 true).foldl shiftIn d.shift, nbits := d.nbits + 7 })
      (e := { d with shift := (List.replicate 7 true).foldl shiftIn d.shift, nbits := d.nbits + 7 }) rfl hlc
      (by simp [hn]) (lat _ hm)
    rw [this.mem]
    simp only [Double.complete, hm, commit_mem, replicate_shift, hcm, hj, hmem]
    unfold storeFrame
    rw [if_pos hw]
    rfl
  refine ⟨fun h => ?_, fun P h0 hP => ?_⟩
  · rw [e] at h ⊢
    obtain ⟨h1, h2⟩ := (okMoves_append _ _ _).1 h
    obtain ⟨-, h3⟩ := (okMoves_append _ _ _).1 h2
    obtain ⟨h4, h5⟩ := (okMoves_append _ _ _).1 h3
    obtain ⟨h6, h7⟩ := (okMoves_append _ _ _).1 h5
    rw [env_moves_release] at h4 h6 h7
    obtain ⟨k1, k2, k3, k4, k5, k6, k7, k8⟩ := key h1
    have hd := inSlots_shift 7 k1 k2 (lat _ k3) k4 (by omega) h4
    have r7 : ((v.moves (commandMoves c)).moves (evs (inSlots 7))).responder = .double f := by
      rw [moves_responder, k1]
    have hl := inSlot_latch (b := true) r7 (by rw [hd]; exact k2) (by rw [hd]; exact lat _ k3) (by rw [hd]; exact k4) h6
    simp only [env_moves_append, env_moves_release]
    obtain ⟨m1, m2, m3⟩ := ceLow_fields (f := f) (by rw [moves_responder, r7]) h7
    refine ⟨m1.trans ?_, m2.trans ?_, m3⟩
    · rw [hl, hd]; exact last _ k3 k5 k6 k7 k8 k2
    · rw [hl]; rfl
  · rw [e]
    refine along_append (along_command c hr hc h0) fun h1 => ?_
    obtain ⟨k1, k2, k3, k4, k5, k6, k7, k8⟩ := key h1
    have h0' : P (v.moves (commandMoves c)).double.mem := k8.symm ▸ h0
    refine along_append ⟨h0', fun _ => h0'⟩ fun _ => ?_
    rw [env_moves_release]
    refine along_append (along_inSlots_shift 7 k1 k2 (lat _ k3) k4 (by omega) h0') fun h4 => ?_
    have hd := inSlots_shift 7 k1 k2 (lat _ k3) k4 (by omega) h4
    have r7 : ((v.moves (commandMoves c)).moves (evs (inSlots 7))).responder = .double f := by
      rw [moves_responder, k1]
    have hlast := last _ k3 k5 k6 k7 k8 k2
    refine along_append (along_inSlot_latch (b := true) r7 (by rw [hd]; exact lat _ k3) (by rw [hd]; exact k4)
      (by rw [hd]; exact h0') (by rw [hd, hlast]; exact hP)) fun h6 => ?_
    have hl := inSlot_latch (b := true) r7 (by rw [hd]; exact k2) (by rw [hd]; exact lat _ k3) (by rw [hd]; exact k4) h6
    refine along_ceLow (f := f) (by rw [moves_responder, r7]) ?_
    rw [hl, hd, hlast]; exact hP

end Sys2Proof.Machine
end

