-- ==== Sys2Proof/Laws/Paths.lean ====
section
/-! SUPPORT. The paths of a request: every request but INIT and DEINIT is turned away by a check, or runs frames to their
end, or stops at the first failed event, inside a frame (60_exceptions.md R704, R711; 41_bit_engine.md R211). -/

namespace Sys2Proof.Machine

/-! ## Events inside frames -/

/-- Every event of a program is CE_WRITE or stands where CE is high; `h` says whether CE is high at its start. -/
def inFrame : Bool → List Move → Bool
  | _, [] => true
  | _, .ev (.ceWrite b) :: l => inFrame b l
  | h, .ev _ :: l => h && inFrame h l
  | h, .release :: l => inFrame h l

/-- Whether CE is high after a program. -/
def ceAfter : Bool → List Move → Bool
  | h, [] => h
  | _, .ev (.ceWrite b) :: l => ceAfter b l
  | h, .ev _ :: l => ceAfter h l
  | h, .release :: l => ceAfter h l

/-- CE_WRITE, either level. -/
def Event.isCe : Event → Bool
  | .ceWrite _ => true
  | .ceInit | .ceDeinit | .clkInit | .clkDeinit | .clkWrite _ | .ioInit | .ioDeinit | .ioWrite _ | .ioRead | .delayMs _
  | .delayUs _ | .debugPrint => false

theorem inFrame_append (h : Bool) (a b : List Move) :
    inFrame h (a ++ b) = (inFrame h a && inFrame (ceAfter h a) b) := by
  induction a generalizing h with
  | nil => simp [inFrame, ceAfter]
  | cons m l ih =>
    cases m with
    | release => simp [inFrame, ceAfter, ih]
    | ev e => cases e <;> simp [inFrame, ceAfter, ih, Bool.and_assoc]

theorem ceAfter_append (h : Bool) (a b : List Move) : ceAfter h (a ++ b) = ceAfter (ceAfter h a) b := by
  induction a generalizing h with
  | nil => rfl
  | cons m l ih =>
    cases m with
    | release => simp [ceAfter, ih]
    | ev e => cases e <;> simp [ceAfter, ih]

/-- Where a program may fail. -/
theorem inFrame_at {h : Bool} {a b : List Move} {e : Event} (hf : inFrame h (a ++ .ev e :: b) = true) :
    e.isCe = true ∨ ceAfter h a = true := by
  rw [inFrame_append, Bool.and_eq_true] at hf
  cases e <;> simp_all [inFrame, Event.isCe]

/-- CE high by the answers means CE high in the shadow. -/
theorem ce_high {s : State} {h : Bool} {l : List Move} (hok : s.env.okMoves l) (h0 : h = true → s.bus.ce = .high)
    (hc : ceAfter h l = true) : (s.moves l).bus.ce = .high := by
  rw [moves_bus hok]
  clear hok
  revert h0 hc
  generalize s.bus = b
  induction l generalizing h b with
  | nil => intro h0 hc; exact h0 hc
  | cons m l ih =>
    intro h0 hc
    rw [bus_moves_cons]
    cases m with
    | release => exact ih _ h0 hc
    | ev e =>
      cases e
      case ceWrite x =>
        refine ih (h := x) _ ?_ hc
        rintro rfl
        rfl
      all_goals exact ih (h := h) _ h0 hc

theorem frame_outByte (x : Byte) : inFrame true (evs (outByte x)) = true ∧ ceAfter true (evs (outByte x)) = true := by
  rw [outByte_eq]; exact ⟨rfl, rfl⟩

theorem frame_inByte : inFrame true (evs inByte) = true ∧ ceAfter true (evs inByte) = true := ⟨rfl, rfl⟩

theorem frame_outBytes (l : List Byte) :
    inFrame true (evs (outBytes l)) = true ∧ ceAfter true (evs (outBytes l)) = true := by
  induction l with
  | nil => exact ⟨rfl, rfl⟩
  | cons v vs ih =>
    have e : evs (outBytes (v :: vs)) = evs (outByte v) ++ evs (outBytes vs) := by simp [outBytes]
    rw [e, inFrame_append, ceAfter_append, (frame_outByte v).1, (frame_outByte v).2, ih.1, ih.2]
    exact ⟨rfl, rfl⟩

theorem frame_inBytes (n : Nat) :
    inFrame true (evs (inBytes n)) = true ∧ ceAfter true (evs (inBytes n)) = true := by
  induction n with
  | zero => exact ⟨rfl, rfl⟩
  | succ n ih =>
    have e : evs (inBytes (n + 1)) = evs (inBytes n) ++ evs inByte := by simp [inBytes, List.range_succ]
    rw [e, inFrame_append, ceAfter_append, ih.1, ih.2, frame_inByte.1, frame_inByte.2]
    exact ⟨rfl, rfl⟩

theorem frame_commandMoves (h : Bool) (c : Byte) :
    inFrame h (commandMoves c) = true ∧ ceAfter h (commandMoves c) = true := by
  simp only [commandMoves, evs_cons, inFrame, ceAfter]
  exact frame_outByte c

/-! ## Programs of whole frames -/

/-- A program of whole frames (30_encoding.md R106), one after another. A single-byte frame is a burst of one byte. -/
inductive Frames : List Move → Prop where
  | nil : Frames []
  | write (c : Byte) (l : List Byte) {rest : List Move} (h : Frames rest) : Frames (burstWriteFrame c l ++ rest)
  | read (c : Byte) (n : Nat) {rest : List Move} (h : Frames rest) : Frames (burstReadFrame c n ++ rest)

theorem Frames.append {a b : List Move} (ha : Frames a) (hb : Frames b) : Frames (a ++ b) := by
  induction ha with
  | nil => exact hb
  | write c l _ ih => rw [List.append_assoc]; exact .write c l ih
  | read c n _ ih => rw [List.append_assoc]; exact .read c n ih

theorem frames_burstWriteFrame (c : Byte) (l : List Byte) : Frames (burstWriteFrame c l) := by
  simpa using Frames.write c l .nil

theorem frames_burstReadFrame (c : Byte) (n : Nat) : Frames (burstReadFrame c n) := by
  simpa using Frames.read c n .nil

theorem frames_writeFrame (c v : Byte) : Frames (writeFrame c v) :=
  writeFrame_burst c v ▸ frames_burstWriteFrame c [v]

theorem frames_readFrame (c : Byte) : Frames (readFrame c) :=
  readFrame_burst c ▸ frames_burstReadFrame c 1

theorem frames_writeMultiMoves (start : Byte) (i : Nat) (l : List Byte) : Frames (writeMultiMoves start i l) := by
  induction l generalizing i with
  | nil => exact .nil
  | cons v vs ih =>
    have e := writeMultiMoves_cons start i v vs
    exact e ▸ (frames_writeFrame _ v).append (ih _)

theorem frames_readMultiMoves (start : Byte) (i n : Nat) : Frames (readMultiMoves start i n) := by
  induction n generalizing i with
  | zero => exact .nil
  | succ n ih => exact (frames_readFrame _).append (ih _)

theorem frames_pairMoves (l : List (Byte × Byte)) : Frames (pairMoves l) := by
  induction l with
  | nil => exact .nil
  | cons p rest ih =>
    have e := pairMoves_cons p rest
    exact e ▸ (frames_writeFrame _ _).append ih

/-- Every event of a program of frames is CE_WRITE or stands where CE is high, and CE is low after it. -/
theorem Frames.inFrame {l : List Move} (h : Frames l) : inFrame false l = true ∧ ceAfter false l = false := by
  induction h with
  | nil => exact ⟨rfl, rfl⟩
  | write c l _ ih =>
    simp only [burstWriteFrame_parts, inFrame_append, ceAfter_append, (frame_commandMoves false c).1,
      (frame_commandMoves false c).2, (frame_outBytes l).1, (frame_outBytes l).2]
    exact ih
  | read c n _ ih =>
    have h1 : Machine.inFrame true [Move.release] = true := rfl
    have h2 : ceAfter true [Move.release] = true := rfl
    simp only [burstReadFrame_parts, inFrame_append, ceAfter_append, (frame_commandMoves false c).1,
      (frame_commandMoves false c).2, h1, h2, (frame_inBytes n).1, (frame_inBytes n).2]
    exact ih

/-! ## Transfers -/

/-- From `s`, the piece runs whole frames to their end, or stops with TransferFailure at the first failed event, inside
whole frames. -/
def TransfersAt {α : Type} (m : Run α) (s : State) : Prop :=
  ∃ l, s.env.okMoves l ∧
    ((Frames l ∧ ∃ a, bareRes (m s) = .ok a (s.moves l).bare) ∨
     ∃ e b, ((s.env.moves l).respond e).1 = .fail ∧ Frames (l ++ .ev e :: b) ∧
      bareRes (m s) = .error .transferFailure ((s.moves l).issue e).bare)

/-- From every state. -/
def Transfers {α : Type} (m : Run α) : Prop := ∀ s, TransfersAt m s

theorem moves_withDp (s : State) (d : Datapath) (l : List Move) : (s.withDp d).moves l = (s.moves l).withDp d := by
  induction l generalizing s with
  | nil => rfl
  | cons m l ih => rw [moves_cons, moves_cons, move_withDp, ih]

theorem Transfers.of_sim {α : Type} {m m' : Run α} (h : Sim m m') (hm : Transfers m') : Transfers m := by
  intro s
  obtain ⟨l, hok, hr⟩ := hm s
  exact ⟨l, hok, by rw [h.apply]; exact hr⟩

theorem Transfers.pure {α : Type} (a : α) : Transfers (pure a : Run α) :=
  fun _ => ⟨[], trivial, .inl ⟨.nil, a, rfl⟩⟩

theorem Transfers.runMoves {l : List Move} (h : Frames l) : Transfers (runMoves l) := by
  intro s
  rcases runMoves_cases l s with ⟨hok, hr⟩ | ⟨a, e, b, rfl, ha, he, hr⟩
  · exact ⟨l, hok, .inl ⟨h, (), by rw [hr]; rfl⟩⟩
  · exact ⟨a, ha, .inr ⟨e, b, he, h, by rw [hr]; rfl⟩⟩

theorem Transfers.readMoves {l : List Move} (h : Frames l) : Transfers (readMoves l) := by
  intro s
  rcases runMoves_cases l s with ⟨hok, hr⟩ | ⟨a, e, b, rfl, ha, he, hr⟩
  · exact ⟨l, hok, .inl ⟨h, s.env.levels l, by rw [Machine.readMoves, hr]; rfl⟩⟩
  · exact ⟨a, ha, .inr ⟨e, b, he, h, by rw [Machine.readMoves, hr]; rfl⟩⟩

theorem Transfers.bind {α β : Type} {m : Run α} {f : α → Run β} (hm : Transfers m) (hf : ∀ a, Transfers (f a)) :
    Transfers (m >>= f) := by
  intro s
  obtain ⟨l, hok, hr⟩ := hm s
  rcases hr with ⟨hl, a, hr⟩ | ⟨e, b, he, hl, hr⟩
  · cases h1 : m s with
    | error k t => simp [h1, bareRes] at hr
    | ok x t =>
      simp only [h1, bareRes, EStateM.Result.ok.injEq] at hr
      obtain ⟨rfl, hb⟩ := hr
      have ht := eq_withDp_of_bare hb
      have henv : t.env = s.env.moves l := by rw [ht, State.withDp_env, moves_env]
      obtain ⟨l2, hok2, hr2⟩ := hf x t
      have hm2 : (t.moves l2).bare = (s.moves (l ++ l2)).bare := by
        rw [ht, moves_withDp, bare_withDp, moves_append]
      rw [henv] at hok2
      refine ⟨l ++ l2, (okMoves_append _ _ _).2 ⟨hok, hok2⟩, ?_⟩
      rw [run_bind, h1]
      rcases hr2 with ⟨hl2, b, hb2⟩ | ⟨e, b, he, hl2, hb2⟩
      · exact .inl ⟨hl.append hl2, b, by rw [hb2, hm2]⟩
      · refine .inr ⟨e, b, by rw [env_moves_append, ← henv]; exact he, by rw [List.append_assoc]; exact hl.append hl2, ?_⟩
        rw [hb2]
        congr 1
        rw [ht, moves_withDp, State.withDp_issue, bare_withDp, moves_append]
  · cases h1 : m s with
    | ok x t => simp [h1, bareRes] at hr
    | error k t =>
      refine ⟨l, hok, .inr ⟨e, b, he, hl, ?_⟩⟩
      rw [run_bind, h1]
      rw [h1] at hr
      simp only [bareRes, EStateM.Result.error.injEq] at hr ⊢
      exact hr

theorem Transfers.setDp_bind {β : Type} {g : Datapath → Datapath} {f : Unit → Run β} (h : Transfers (f ())) :
    Transfers (setDp g >>= f) := by
  refine Transfers.bind (Transfers.of_sim (Sim.setDp g) (Transfers.pure ())) fun _ => h

/-! ## The transfers of the model -/

theorem transfers_engWriteByte (c v : Byte) : Transfers (engWriteByte c v) :=
  .of_sim (sim_engWriteByte c v) (.runMoves (frames_writeFrame c v))

theorem transfers_engReadByte (c : Byte) : Transfers (engReadByte c) :=
  .of_sim (sim_engReadByte c) (.bind (.readMoves (frames_readFrame c)) fun _ => .pure _)

theorem transfers_regWriteMultiple (start n : Byte) (l : List Byte) : Transfers (regWriteMultiple start n l) :=
  .of_sim (sim_regWriteMultiple start n l) (.runMoves (frames_writeMultiMoves start 0 l))

theorem transfers_regReadMultiple (start n : Byte) : Transfers (regReadMultiple start n) :=
  .of_sim (sim_regReadMultiple start n) (.bind (.readMoves (frames_readMultiMoves start 0 n.toNat)) fun _ => .pure _)

theorem transfers_regBurstWrite (bc n : Byte) (l : List Byte) : Transfers (regBurstWrite bc n l) :=
  .of_sim (sim_regBurstWrite bc n l) (.runMoves (frames_burstWriteFrame bc l))

theorem transfers_regBurstRead (bc n : Byte) : Transfers (regBurstRead bc n) :=
  .of_sim (sim_regBurstRead bc n) (.bind (.readMoves (frames_burstReadFrame _ n.toNat)) fun _ => .pure _)

theorem transfers_readModifyWrite (idx : BitVec 5) (f : Byte → Byte) : Transfers (readModifyWrite idx f) :=
  .of_sim (sim_readModifyWrite idx f) (.bind (.readMoves (frames_readFrame _)) fun _ =>
    .runMoves (frames_writeFrame _ _))

theorem transfers_setTimeFrames (r : TimeRecord) : Transfers (setTimeFrames r) :=
  .of_sim (sim_setTimeFrames r) (.bind (.readMoves (frames_readFrame _)) fun _ => .runMoves (frames_pairMoves _))

/-! ## Requests -/

/-- The body is turned away by a check with one of the kinds `ks`, or runs frames. -/
def Paths (ks : List Status) (m : Run Out) : Prop :=
  ∀ s, (∃ k ∈ ks, m s = .error k s) ∨ TransfersAt m s

theorem Paths.of_transfers {m : Run Out} {ks : List Status} (h : Transfers m) : Paths ks m := fun s => .inr (h s)

theorem Paths.require {ks : List Status} {c : Bool} {k : Status} {m : Run Out} (hk : k ∈ ks) (h : Paths ks m) :
    Paths ks (require c k >>= fun _ => m) := by
  intro s
  cases c with
  | false => exact .inl ⟨k, hk, rfl⟩
  | true => exact h s

theorem Paths.guard {ks : List Status} {b : Bool} {ops : List Bool} {m : Run Out} (h1 : .nullArgument ∈ ks)
    (h2 : .notInitialized ∈ ks) (h : Paths ks m) : Paths ks (guard b ops >>= fun _ => m) := by
  intro s
  cases b with
  | false => exact .inl ⟨_, h1, by rw [run_bind, run_guard]; rfl⟩
  | true =>
    cases hi : s.initFlag with
    | false => exact .inl ⟨_, h2, by rw [run_bind, run_guard, hi]; rfl⟩
    | true =>
      cases ho : ops.all id with
      | false => exact .inl ⟨_, h1, by rw [run_bind, run_guard, hi, ho]; rfl⟩
      | true =>
        have e : (Machine.guard true ops >>= fun _ => m) s = m s := by rw [run_bind, run_guard, hi, ho]; rfl
        rcases h s with ⟨k, hk, hm⟩ | ht
        · exact .inl ⟨k, hk, e.trans hm⟩
        · exact .inr (by unfold TransfersAt at ht ⊢; rw [e]; exact ht)

/-- How a request other than INIT and DEINIT can end. -/
inductive Ending (i : Instr) (s t : State) : Prop where
  /-- A check turned it away. -/
  | rejected (k : Status) (hk : k ∈ errorKinds i) (ht : t = s.rejected k)
  /-- It ran whole frames to their end. -/
  | done (l : List Move) (o : Out) (hl : Frames l) (hok : (s.accept i).env.okMoves l)
      (ht : t = finish (.ok o ((s.accept i).moves l)))
  /-- It stopped at the first failed event, inside whole frames. -/
  | failed (l : List Move) (e : Event) (b : List Move) (hl : Frames (l ++ .ev e :: b)) (hk : .transferFailure ∈ errorKinds i) (hok : (s.accept i).env.okMoves l)
      (he : (((s.accept i).env.moves l).respond e).1 = .fail)
      (ht : t = finish (.error .transferFailure (((s.accept i).moves l).issue e)))

/-- A request whose body has the kinds of its row (60_exceptions.md R709). -/
theorem ending_of_paths {i : Instr} {s t : State} {body : Run Out}
    (h : Host.Outcome.next (finish (body (s.accept i))) = (.next t : Host.Outcome State Fault Refusal))
    (hp : Paths (errorKinds i) body) 
    (htf : .transferFailure ∈ errorKinds i := by simp [errorKinds]) : Ending i s t := by
  simp only [Host.Outcome.next.injEq] at h
  rcases hp (s.accept i) with ⟨k, hk, hm⟩ | ⟨l, hok, ⟨hl, o, hr⟩ | ⟨e, b, he, hl, hr⟩⟩
  · exact .rejected k hk (by rw [← h, hm]; rfl)
  · refine .done l o hl hok ?_
    rw [← h]
    exact finish_congr (by rw [hr]; rfl)
  · refine .failed l e b hl htf hok he ?_
    rw [← h]
    exact finish_congr (by rw [hr]; rfl)

end Sys2Proof.Machine
end

