-- ==== Sys2Proof/Laws/Endings.lean ====
section
/-! SUPPORT. How every request can end, once: the one inversion lemma of exec. -/

namespace Sys2Proof.Machine

theorem Paths.frames {α : Type} {ks : List Status} {m : Run α} {f : α → Out} (h : Transfers m) :
    Paths ks (m >>= fun a => pure (f a)) := .of_transfers (.bind h fun _ => .pure _)

theorem Paths.guarded {α : Type} {ks : List Status} {b : Bool} {ops : List Bool} {m : Run α} {f : α → Out}
    (h : Transfers m) (h1 : .nullArgument ∈ ks := by simp [errorKinds])
    (h2 : .notInitialized ∈ ks := by simp [errorKinds]) :
    Paths ks (Machine.guard b ops >>= fun _ => m >>= fun a => pure (f a)) := .guard h1 h2 (.frames h)

theorem Paths.checked {α : Type} {ks : List Status} {b c : Bool} {ops : List Bool} {m : Run α} {f : α → Out}
    (h : Transfers m) (h1 : .nullArgument ∈ ks := by simp [errorKinds])
    (h2 : .notInitialized ∈ ks := by simp [errorKinds]) (h3 : .invalidArgument ∈ ks := by simp [errorKinds]) :
    Paths ks (Machine.guard b ops >>= fun _ => Machine.require c .invalidArgument >>= fun _ => m >>= fun a =>
      pure (f a)) := .guard h1 h2 (.require h3 (.frames h))


theorem next_of_buffered {i : Instr} {n : Byte} {w : Option (List Byte)} {body : Run Out} {s t : State}
    (h : runBuffered i n w body s = .next t) :
    Host.Outcome.next (finish (body (s.accept i))) = (.next t : Host.Outcome State Fault Refusal) := by
  unfold runBuffered at h
  split at h
  · exact h
  · simp at h

theorem ending_of_pure {i : Instr} {s t : State} {o : Out}
    (h : Host.Outcome.next (finish ((pure o : Run Out) (s.accept i))) = (.next t : Host.Outcome State Fault Refusal)) :
    Ending i s t := by
  simp only [Host.Outcome.next.injEq] at h
  exact .done [] o .nil trivial (by rw [← h]; rfl)

/-- Every request but INIT and DEINIT ends one of three ways. -/
theorem exec_ending {i : Instr} {s t : State} (h : exec i s = .next t) (h1 : ∀ b, i ≠ .init b)
    (h2 : ∀ b, i ≠ .deinit b) : Ending i s t := by
  cases i with
  | init b => exact absurd rfl (h1 b)
  | deinit b => exact absurd rfl (h2 b)
  | setTime b r =>
    cases r with
    | none =>
      refine ending_of_paths h ?_
      refine .guard (by simp [errorKinds]) (by simp [errorKinds]) ?_
      intro s
      exact .inl ⟨_, (by simp [errorKinds]), rfl⟩
    | some r =>
      exact ending_of_paths h (.checked (transfers_setTimeFrames r))
  | hexToBcd v => exact ending_of_pure h
  | bcdToHex v => exact ending_of_pure h
  | timeValidate r => exact ending_of_pure h
  | timeEncode r old => exact ending_of_pure h
  | timeDecode b => exact ending_of_pure h
  | cmdReservedMarker0 low data =>
    cases data with
    | none => exact ending_of_paths h (.frames (transfers_engReadByte _))
    | some v => exact ending_of_paths h (.frames (transfers_engWriteByte _ _))
  | getTime b' p => exact ending_of_paths h (.guarded (transfers_regReadMultiple _ _))
  | setOscillator b' en => exact ending_of_paths h (.guarded (transfers_readModifyWrite _ _))
  | getOscillator b' p => exact ending_of_paths h (.guarded (transfers_engReadByte _))
  | setWriteProtect b' en => exact ending_of_paths h (.guarded (transfers_readModifyWrite _ _))
  | getWriteProtect b' p => exact ending_of_paths h (.guarded (transfers_engReadByte _))
  | setCharge b' v => exact ending_of_paths h (.guarded (transfers_engWriteByte _ _))
  | getCharge b' p => exact ending_of_paths h (.guarded (transfers_engReadByte _))
  | writeRam b' a n w => exact ending_of_paths (next_of_buffered h) (.checked (transfers_regWriteMultiple _ _ _))
  | readRam b' p a n => exact ending_of_paths h (.checked (transfers_regReadMultiple _ _))
  | clockBurstWrite b' n w => exact ending_of_paths (next_of_buffered h) (.checked (transfers_regBurstWrite _ _ _))
  | clockBurstRead b' p n => exact ending_of_paths h (.checked (transfers_regBurstRead _ _))
  | ramBurstWrite b' n w => exact ending_of_paths (next_of_buffered h) (.checked (transfers_regBurstWrite _ _ _))
  | ramBurstRead b' p n => exact ending_of_paths h (.checked (transfers_regBurstRead _ _))
  | setReg b' r n w => exact ending_of_paths (next_of_buffered h) (.guarded (transfers_regWriteMultiple _ _ _))
  | getReg b' p r n => exact ending_of_paths h (.guarded (transfers_regReadMultiple _ _))
  | engWriteByte c v => exact ending_of_paths h (.frames (transfers_engWriteByte _ _))
  | engReadByte c => exact ending_of_paths h (.frames (transfers_engReadByte _))
  | regWriteMultiple s0 n w => exact ending_of_paths (next_of_buffered h) (.frames (transfers_regWriteMultiple _ _ _))
  | regReadMultiple s0 n => exact ending_of_paths h (.frames (transfers_regReadMultiple _ _))
  | regBurstWrite b n w => exact ending_of_paths (next_of_buffered h) (.frames (transfers_regBurstWrite _ _ _))
  | regBurstRead b n => exact ending_of_paths h (.frames (transfers_regBurstRead _ _))
  | cmdWrSecond v => exact ending_of_paths h (.frames (transfers_engWriteByte _ _))
  | cmdRdSecond => exact ending_of_paths h (.frames (transfers_engReadByte _))
  | cmdWrMinute v => exact ending_of_paths h (.frames (transfers_engWriteByte _ _))
  | cmdRdMinute => exact ending_of_paths h (.frames (transfers_engReadByte _))
  | cmdWrHour v => exact ending_of_paths h (.frames (transfers_engWriteByte _ _))
  | cmdRdHour => exact ending_of_paths h (.frames (transfers_engReadByte _))
  | cmdWrDate v => exact ending_of_paths h (.frames (transfers_engWriteByte _ _))
  | cmdRdDate => exact ending_of_paths h (.frames (transfers_engReadByte _))
  | cmdWrMonth v => exact ending_of_paths h (.frames (transfers_engWriteByte _ _))
  | cmdRdMonth => exact ending_of_paths h (.frames (transfers_engReadByte _))
  | cmdWrWeek v => exact ending_of_paths h (.frames (transfers_engWriteByte _ _))
  | cmdRdWeek => exact ending_of_paths h (.frames (transfers_engReadByte _))
  | cmdWrYear v => exact ending_of_paths h (.frames (transfers_engWriteByte _ _))
  | cmdRdYear => exact ending_of_paths h (.frames (transfers_engReadByte _))
  | cmdWrControl v => exact ending_of_paths h (.frames (transfers_engWriteByte _ _))
  | cmdRdControl => exact ending_of_paths h (.frames (transfers_engReadByte _))
  | cmdWrCharge v => exact ending_of_paths h (.frames (transfers_engWriteByte _ _))
  | cmdRdCharge => exact ending_of_paths h (.frames (transfers_engReadByte _))
  | cmdWrClockBurst n w => exact ending_of_paths (next_of_buffered h) (.frames (transfers_regBurstWrite _ _ _))
  | cmdRdClockBurst n => exact ending_of_paths h (.frames (transfers_regBurstRead _ _))
  | cmdWrRamBurst n w => exact ending_of_paths (next_of_buffered h) (.frames (transfers_regBurstWrite _ _ _))
  | cmdRdRamBurst n => exact ending_of_paths h (.frames (transfers_regBurstRead _ _))
  | cmdWrRamSlot a v => exact ending_of_paths h (.frames (transfers_engWriteByte _ _))
  | cmdRdRamSlot a => exact ending_of_paths h (.frames (transfers_engReadByte _))
  | cmdWrClockGeneric x v => exact ending_of_paths h (.frames (transfers_engWriteByte _ _))
  | cmdRdClockGeneric x => exact ending_of_paths h (.frames (transfers_engReadByte _))

/-! ## INIT and DEINIT (45_lifecycle.md) -/

/-- The state after INIT's rollback of `k` lines. -/
def State.rolledBack (s : State) : Nat → State
  | 0 => s
  | 1 => s.issue .ceDeinit
  | _ + 2 => (s.issue .clkDeinit).issue .ceDeinit

theorem run_bringUp (e : Event) (s : State) :
    bringUp e s = if (s.env.respond e).1 = .fail then .error .lifecycleFailure ((s.issue e).rolledBack s.dp.upCount)
      else .ok () (s.issue e) := by
  simp only [bringUp, run_port_bind]
  cases (s.env.respond e).1 <;> simp only [reduceCtorEq, if_false, if_true, run_pure, run_getDp_bind]
  rw [run_bind, State.issue_dp]
  match s.dp.upCount with
  | 0 => rfl
  | 1 => rfl
  | _ + 2 => rfl

/-- INIT after its checks: the bring-up, case by case (R600). -/
theorem exec_init_up (s : State) (hb : s.caps.allBound = true) :
    exec (.init true) s = .next (
      let s0 := s.accept (.init true)
      let s1 := s0.issue .ceInit
      let s2 := s1.issue .clkInit
      let s3 := s2.issue .ioInit
      if (s0.env.respond .ceInit).1 = .fail then finish (.error .lifecycleFailure s1)
      else if (s1.env.respond .clkInit).1 = .fail then finish (.error .lifecycleFailure (s2.issue .ceDeinit))
      else if (s2.env.respond .ioInit).1 = .fail then
        finish (.error .lifecycleFailure ((s3.issue .clkDeinit).issue .ceDeinit))
      else finish (.ok .none (s3.withInit true))) := by
  have h0 : (s.accept (.init true)).caps.allBound = true := hb
  simp only [exec, execInit, runRequest, require, if_true, run_get_bind, run_pure_bind, h0, setUpCount, run_setDp_bind]
  generalize s.accept (.init true) = s0
  rw [run_bind, run_bringUp]
  by_cases h1 : (s0.env.respond .ceInit).1 = .fail
  · simp only [State.withDp_env, h1, if_true]
    rfl
  · simp only [State.withDp_env, h1, if_false, run_setDp_bind]
    rw [run_bind, run_bringUp]
    by_cases h2 : ((s0.issue .ceInit).env.respond .clkInit).1 = .fail
    · simp only [State.withDp_env, State.withDp_issue, h2, if_true]
      rfl
    · simp only [State.withDp_env, State.withDp_issue, h2, if_false, run_setDp_bind]
      rw [run_bind, run_bringUp]
      by_cases h3 : (((s0.issue .ceInit).issue .clkInit).env.respond .ioInit).1 = .fail
      · simp only [State.withDp_env, State.withDp_issue, h3, if_true]
        rfl
      · simp only [State.withDp_env, State.withDp_issue, h3, if_false]
        rfl

theorem exec_init_absent (s : State) : exec (.init false) s = .next (s.rejected .nullArgument) := rfl

theorem exec_init_unbound (s : State) (hb : s.caps.allBound = false) :
    exec (.init true) s = .next (s.rejected .lifecycleFailure) := by
  have h0 : (s.accept (.init true)).caps.allBound = false := hb
  simp only [exec, execInit, runRequest, require, if_true, run_get_bind, run_pure_bind, h0]
  rfl

theorem exec_deinit_absent (s : State) : exec (.deinit false) s = .next (s.rejected .nullArgument) := rfl

theorem exec_deinit_uninit (s : State) (hi : s.initFlag = false) :
    exec (.deinit true) s = .next (s.rejected .notInitialized) := by
  have h0 : (s.accept (.deinit true)).initFlag = false := hi
  simp only [exec, execDeinit, runRequest, run_bind, run_guard, h0]
  rfl

/-- DEINIT after its guard: the lines in order, up to the first failure (R601). -/
theorem exec_deinit_down (s : State) (hi : s.initFlag = true) :
    exec (.deinit true) s = .next (
      let s0 := s.accept (.deinit true)
      let s1 := s0.issue .ceDeinit
      let s2 := s1.issue .clkDeinit
      let s3 := s2.issue .ioDeinit
      if (s0.env.respond .ceDeinit).1 = .fail then finish (.error .lifecycleFailure s1)
      else if (s1.env.respond .clkDeinit).1 = .fail then finish (.error .lifecycleFailure s2)
      else if (s2.env.respond .ioDeinit).1 = .fail then finish (.error .lifecycleFailure s3)
      else finish (.ok .none (s3.withInit false))) := by
  have h0 : (s.accept (.deinit true)).initFlag = true := hi
  simp only [exec, execDeinit, runRequest]
  rw [run_bind, run_guard, h0]
  generalize s.accept (.deinit true) = s0
  simp only [Bool.not_true, Bool.false_eq_true, if_false, List.all_nil]
  rw [run_bind, run_portL]
  by_cases h1 : (s0.env.respond .ceDeinit).1 = .fail
  · simp only [h1, if_true]
  · simp only [h1, if_false]
    rw [run_bind, run_portL]
    by_cases h2 : ((s0.issue .ceDeinit).env.respond .clkDeinit).1 = .fail
    · simp only [h2, if_true]
    · simp only [h2, if_false]
      rw [run_bind, run_portL]
      by_cases h3 : (((s0.issue .ceDeinit).issue .clkDeinit).env.respond .ioDeinit).1 = .fail
      · simp only [h3, if_true]
      · simp only [h3, if_false]
        rfl

end Sys2Proof.Machine
end

