-- ==== Sys2Proof/Laws/MemoryFrame.lean ====
section
/-! SUPPORT. Which cells each transfer can change, whatever the answers (20_memory.md R83, R86; 42_register_access.md
R313). -/

namespace Sys2Proof.Machine

/-! ## What a frame stores, as cells -/

theorem storeBytes_other {m : List Host.Cell} {c : Byte} {j a : Nat} {l : List Byte}
    (h : ∀ i < l.length, dataCell c (j + i) ≠ some a) : Memory.read (storeBytes m c j l) a = Memory.read m a := by
  induction l generalizing m j with
  | nil => rfl
  | cons v vs ih =>
    rw [storeBytes, ih]
    · have := h 0 (by simp)
      rw [Nat.add_zero] at this
      cases hd : dataCell c j with
      | none => rfl
      | some b =>
        rw [hd] at this
        exact read_write_other fun hab => this (by rw [hab])
    · intro i hi
      have := h (i + 1) (by simpa using hi)
      rwa [show j + (i + 1) = j + 1 + i by omega] at this

theorem storeFrame_other {m : List Host.Cell} {c : Byte} {a n : Nat} {l : List Byte} (hn : l.length ≤ n)
    (h : a ∉ frameCells c n) : Memory.read (storeFrame m c l) a = Memory.read m a := by
  unfold storeFrame
  by_cases hw : (cmdMarker c && !cmdRw c) = true
  · rw [if_pos hw]
    refine storeBytes_other fun i hi hd => h ?_
    unfold frameCells
    rw [if_pos hw, List.mem_filterMap]
    exact ⟨i, by simp; omega, by rwa [Nat.zero_add] at hd⟩
  · rw [if_neg hw]

/-! ## What a frame leaves of the lines (Safety.lean, Double.framed) -/

/-- CE and clock as a program is known to leave them: is CE high, is the clock low. -/
def wires : Bool × Bool → List Move → Bool × Bool
  | w, [] => w
  | w, .ev (.ceWrite b) :: l => wires (b, w.2) l
  | w, .ev (.clkWrite b) :: l => wires (w.1, !b) l
  | w, .ev _ :: l => wires w l
  | w, .release :: l => wires w l

/-- The clock rises only while CE is known high, and CE drops only while the clock is known low. -/
def closes : Bool × Bool → List Move → Bool
  | _, [] => true
  | w, .ev (.ceWrite true) :: l => closes (true, w.2) l
  | w, .ev (.ceWrite false) :: l => w.2 && closes (false, w.2) l
  | w, .ev (.clkWrite true) :: l => w.1 && closes (w.1, false) l
  | w, .ev (.clkWrite false) :: l => closes (w.1, true) l
  | w, .ev _ :: l => closes w l
  | w, .release :: l => closes w l

theorem wires_append (w : Bool × Bool) (a b : List Move) : wires w (a ++ b) = wires (wires w a) b := by
  induction a generalizing w with
  | nil => rfl
  | cons m l ih =>
    cases m with
    | release => exact ih w
    | ev e => cases e <;> exact ih _

theorem closes_append (w : Bool × Bool) (a b : List Move) :
    closes w (a ++ b) = (closes w a && closes (wires w a) b) := by
  induction a generalizing w with
  | nil => simp [closes, wires]
  | cons m l ih =>
    cases m with
    | release => exact ih w
    | ev e =>
      cases e
      case ceWrite x => cases x <;> simp [closes, wires, ih, Bool.and_assoc]
      case clkWrite x => cases x <;> simp [closes, wires, ih, Bool.and_assoc]
      all_goals exact ih _

theorem closes_outByte (w : Bool) (x : Byte) :
    closes (true, w) (evs (outByte x)) = true ∧ wires (true, w) (evs (outByte x)) = (true, true) := by
  rw [outByte_eq]; exact ⟨rfl, rfl⟩

theorem closes_outBytes (l : List Byte) :
    closes (true, true) (evs (outBytes l)) = true ∧ wires (true, true) (evs (outBytes l)) = (true, true) := by
  induction l with
  | nil => exact ⟨rfl, rfl⟩
  | cons v vs ih =>
    have e : evs (outBytes (v :: vs)) = evs (outByte v) ++ evs (outBytes vs) := by simp [outBytes]
    rw [e, closes_append, wires_append, (closes_outByte true v).1, (closes_outByte true v).2, ih.1, ih.2]
    exact ⟨rfl, rfl⟩

theorem closes_inBytes (n : Nat) :
    closes (true, true) (evs (inBytes n)) = true ∧ wires (true, true) (evs (inBytes n)) = (true, true) := by
  induction n with
  | zero => exact ⟨rfl, rfl⟩
  | succ n ih =>
    have e : evs (inBytes (n + 1)) = evs (inBytes n) ++ evs inByte := by simp [inBytes, List.range_succ]
    rw [e, closes_append, wires_append, ih.1, ih.2]
    exact ⟨rfl, rfl⟩

theorem closes_command (w : Bool × Bool) (c : Byte) :
    closes w (commandMoves c) = true ∧ wires w (commandMoves c) = (true, true) := by
  simp only [commandMoves, evs_cons, closes, wires]
  exact closes_outByte _ c

theorem closes_burstWrite (w : Bool × Bool) (c : Byte) (l : List Byte) :
    closes w (burstWriteFrame c l) = true ∧ wires w (burstWriteFrame c l) = (false, true) := by
  have e := burstWriteFrame_parts c l
  simp only [e, closes_append, wires_append, (closes_command w c).1, (closes_command w c).2, (closes_outBytes l).1,
    (closes_outBytes l).2]
  exact ⟨rfl, rfl⟩

theorem closes_burstRead (w : Bool × Bool) (c : Byte) (n : Nat) :
    closes w (burstReadFrame c n) = true ∧ wires w (burstReadFrame c n) = (false, true) := by
  have e := burstReadFrame_parts c n
  have h1 : closes (true, true) [Move.release] = true := rfl
  have h2 : wires (true, true) [Move.release] = (true, true) := rfl
  simp only [e, closes_append, wires_append, (closes_command w c).1, (closes_command w c).2, h1, h2,
    (closes_inBytes n).1, (closes_inBytes n).2]
  exact ⟨rfl, rfl⟩

/-- CE and the clock after an event the double answers ok. -/
theorem observe_wires (d : Double) (b : Bool) (e : Event) :
    (d.observe b e).double.lastCe = (match e with
      | .ceWrite l => Line.ofLevel l
      | _ => d.lastCe) ∧
    (d.observe b e).double.lastClk = (match e with
      | .clkWrite l => Line.ofLevel l
      | _ => d.lastClk) := by
  have hl : ∀ x : Bool, (d.latch x).lastCe = d.lastCe ∧ (d.latch x).lastClk = d.lastClk := by
    intro x
    unfold Double.latch
    split
    · unfold Double.complete
      split
      · exact ⟨rfl, rfl⟩
      · exact ⟨(commit_fields _ _).2.2.2.2.2.1, (commit_fields _ _).2.2.2.2.2.2.1⟩
      · exact ⟨rfl, rfl⟩
    · exact ⟨rfl, rfl⟩
  cases e
  case ceWrite l =>
    cases l
    · exact ⟨rfl, rfl⟩
    · simp only [Double.observe, Observed.plain, Double.ceHigh]
      split <;> exact ⟨rfl, rfl⟩
  case clkWrite l =>
    cases l
    · exact ⟨rfl, rfl⟩
    · simp only [Double.observe, Double.clkHigh]
      split
      · exact ⟨(hl _).1, rfl⟩
      · exact ⟨rfl, rfl⟩
  case ioRead =>
    simp only [Double.observe, Double.read]
    split
    · split <;> exact ⟨rfl, rfl⟩
    · exact ⟨rfl, rfl⟩
  all_goals exact ⟨rfl, rfl⟩

/-- A program that closes its frames keeps the double framed, wherever it stops. -/
theorem along_framed {v : Env} {f : Option Injected} {w : Bool × Bool} (l : List Move) (hr : v.responder = .double f)
    (h0 : v.double.framed) (h1 : w.1 = true → v.double.lastCe = .high) (h2 : w.2 = true → v.double.lastClk = .low)
    (hc : closes w l = true) : Along Double.framed v l := by
  induction l generalizing v w with
  | nil => exact h0
  | cons m l ih =>
    refine ⟨h0, fun hm => ?_⟩
    cases m with
    | release => exact ih hr h0 h1 h2 hc
    | ev e =>
      have d1 : (v.move (.ev e)).double = (v.double.observe (Config.freeLevel v.draws) e).double := respond_double hr hm
      have r1 : (v.move (.ev e)).responder = .double f := by rw [← hr]; exact respond_responder _ _
      obtain ⟨k1, k2⟩ := observe_wires v.double (Config.freeLevel v.draws) e
      rw [← d1] at k1 k2
      cases e
      case ceWrite b =>
        cases b
        · simp only [closes, Bool.and_eq_true] at hc
          exact ih (w := (false, w.2)) r1 (fun _ => k2.trans (h2 hc.1)) (by simp) (fun h => k2.trans (h2 h)) hc.2
        · exact ih (w := (true, w.2)) r1 (fun h => by rw [k1] at h; simp [Line.ofLevel] at h) (fun _ => k1)
            (fun h => k2.trans (h2 h)) hc
      case clkWrite b =>
        cases b
        · exact ih (w := (w.1, true)) r1 (fun _ => k2) (fun h => k1.trans (h1 h)) (fun _ => k2) hc
        · simp only [closes, Bool.and_eq_true] at hc
          exact ih (w := (w.1, false)) r1 (fun h => by rw [k1] at h; rw [h1 hc.1] at h; cases h)
            (fun h => k1.trans (h1 h)) (by simp) hc.2
      all_goals exact ih r1 (fun h => k2.trans (h0 (k1.symm.trans h))) (fun h => k1.trans (h1 h)) (fun h => k2.trans (h2 h)) hc

/-! ## A frame the double takes for confused: nothing is stored (20_memory.md R81) -/

theorem observe_idle {d : Double} (hl : d.latches = false) (b : Bool) {e : Event} (he : e.isCe = false) :
    (d.observe b e).double.mem = d.mem ∧ (d.observe b e).double.latches = false := by
  cases e
  case ceWrite l => simp [Event.isCe] at he
  case clkWrite l =>
    cases l
    · exact ⟨rfl, hl⟩
    · simp only [Double.observe, Double.clkHigh]
      rw [if_neg (by unfold Double.latches at hl; rw [hl]; simp)]
      exact ⟨rfl, hl⟩
  case ioRead =>
    simp only [Double.observe, Double.read]
    split
    · split <;> exact ⟨rfl, hl⟩
    · exact ⟨rfl, hl⟩
  all_goals exact ⟨rfl, hl⟩

/-- Events that are not CE_WRITE. -/
def noCe (l : List Move) : Bool :=
  l.all fun m =>
    match m with
    | .ev e => !e.isCe
    | .release => true

theorem along_noCe {P : List Host.Cell → Prop} {v : Env} {f : Option Injected} (l : List Move) (hr : v.responder = .double f)
    (hl : v.double.latches = false) (hn : noCe l = true) (h0 : P v.double.mem) :
    Along (fun d => P d.mem) v l ∧ (v.okMoves l → (v.moves l).double.mem = v.double.mem) := by
  induction l generalizing v with
  | nil => exact ⟨h0, fun _ => rfl⟩
  | cons m l ih =>
    simp only [noCe, List.all_cons, Bool.and_eq_true] at hn
    cases m with
    | release =>
      obtain ⟨i1, i2⟩ := ih hr hl hn.2 h0
      exact ⟨⟨h0, fun _ => i1⟩, fun h => i2 h.2⟩
    | ev e =>
      have he : e.isCe = false := by simpa using hn.1
      have hd : v.okMove (.ev e) → (v.move (.ev e)).double = (v.double.observe (Config.freeLevel v.draws) e).double :=
        fun hm => respond_double hr hm
      have r1 : (v.move (.ev e)).responder = .double f := by rw [← hr]; exact respond_responder _ _
      obtain ⟨o1, o2⟩ := observe_idle hl (Config.freeLevel v.draws) he
      refine ⟨⟨h0, fun hm => ?_⟩, fun hm => ?_⟩
      · exact (ih r1 (by rw [hd hm, o2]) hn.2 (by rw [hd hm, o1]; exact h0)).1
      · rw [env_moves_cons, (ih r1 (by rw [hd hm.1, o2]) hn.2 (by rw [hd hm.1, o1]; exact h0)).2 hm.2, hd hm.1, o1]

theorem noCe_append (a b : List Move) : noCe (a ++ b) = (noCe a && noCe b) := by simp [noCe]

theorem noCe_outBytes (l : List Byte) : noCe (evs (outBytes l)) = true := by
  induction l with
  | nil => rfl
  | cons v vs ih =>
    have e : evs (outBytes (v :: vs)) = evs (outByte v) ++ evs (outBytes vs) := by simp [outBytes]
    rw [e, noCe_append, ih, Bool.and_true, outByte_eq]
    rfl

theorem noCe_inBytes (n : Nat) : noCe (evs (inBytes n)) = true := by
  induction n with
  | zero => rfl
  | succ n ih =>
    have e : evs (inBytes (n + 1)) = evs (inBytes n) ++ evs inByte := by simp [inBytes, List.range_succ]
    rw [e, noCe_append, ih]
    rfl

/-- A frame opened while CE was not known low stores nothing. -/
theorem along_confused {P : List Host.Cell → Prop} {v : Env} {f : Option Injected} (body : List Move)
    (hr : v.responder = .double f) (hce : v.double.lastCe ≠ .low) (hn : noCe body = true) (h0 : P v.double.mem) :
    Along (fun d => P d.mem) v (.ev (.ceWrite true) :: (body ++ evs [.ceWrite false])) := by
  refine ⟨h0, fun hm => ?_⟩
  have d1 : (v.move (.ev (.ceWrite true))).double = { v.double with mode := .confused, lastCe := .high } := by
    have : (v.move (.ev (.ceWrite true))).double = v.double.ceHigh := respond_double hr hm
    rw [this]
    unfold Double.ceHigh
    rw [if_neg hce]
  have r1 : (v.move (.ev (.ceWrite true))).responder = .double f := by rw [← hr]; exact respond_responder _ _
  obtain ⟨a1, a2⟩ := along_noCe (P := P) body r1 (by rw [d1]; rfl) hn (by rw [d1]; exact h0)
  refine along_append a1 fun hok => along_ceLow (f := f) (by rw [moves_responder, r1]) ?_
  rw [a2 hok, d1]; exact h0

theorem burstWriteFrame_body (c : Byte) (l : List Byte) :
    ∃ body, noCe body = true ∧ burstWriteFrame c l = .ev (.ceWrite true) :: (body ++ evs [.ceWrite false]) := by
  refine ⟨evs (outBytes (c :: l)) ++ evs [.ioWrite false], ?_, ?_⟩
  · rw [noCe_append, noCe_outBytes]; rfl
  · simp [burstWriteFrame, burstWrite, outBytes]

theorem burstReadFrame_body (c : Byte) (n : Nat) :
    ∃ body, noCe body = true ∧ burstReadFrame c n = .ev (.ceWrite true) :: (body ++ evs [.ceWrite false]) := by
  refine ⟨evs (outBytes [c]) ++ (.release :: evs (inBytes n)), ?_, ?_⟩
  · rw [noCe_append, noCe_outBytes, Bool.true_and]
    exact noCe_inBytes n
  · simp [burstReadFrame, commandMoves, outBytes]

/-! ## Programs -/

/-- The cells outside `S` hold the bytes they hold in `m0`. -/
def CellsKept (S : List Nat) (m0 m : List Host.Cell) : Prop := ∀ a ∉ S, Memory.read m a = Memory.read m0 a

/-- Along the program the cells outside `S` keep their bytes, and the double stays framed. -/
def MemProg (S : List Nat) (l : List Move) : Prop :=
  ∀ v f, v.responder = .double f → v.double.framed → ∀ m0 : List Host.Cell,
    CellsKept S m0 v.double.mem → Along (fun d => CellsKept S m0 d.mem) v l ∧ Along Double.framed v l

theorem MemProg.nil (S : List Nat) : MemProg S [] := fun _ _ _ hc _ h0 => ⟨h0, hc⟩

theorem along_end {R : Double → Prop} {v : Env} {a : List Move} (h : Along R v a) (ha : v.okMoves a) :
    R (v.moves a).double := along_at (b := []) (by rw [List.append_nil]; exact h) ha

theorem MemProg.append {S : List Nat} {a b : List Move} (ha : MemProg S a) (hb : MemProg S b) : MemProg S (a ++ b) := by
  intro v f hr hc m0 h0
  obtain ⟨a1, a2⟩ := ha v f hr hc m0 h0
  have hb' : v.okMoves a → _ := fun hok =>
    hb (v.moves a) f (by rw [moves_responder, hr]) (along_end a2 hok) m0 (along_end a1 hok)
  exact ⟨along_append a1 fun hok => (hb' hok).1, along_append a2 fun hok => (hb' hok).2⟩

/-- One frame: what is shown of it from a double whose lines are low holds of it from any framed double. -/
theorem MemProg.of_frame {S : List Nat} {l body : List Move} (hn : noCe body = true)
    (hl : l = .ev (.ceWrite true) :: (body ++ evs [.ceWrite false])) (hc : closes (false, false) l = true)
    (h : ∀ v f, v.responder = .double f → v.double.lastCe = .low → v.double.lastClk = .low → ∀ m0 : List Host.Cell,
      CellsKept S m0 v.double.mem → Along (fun d => CellsKept S m0 d.mem) v l) : MemProg S l := by
  intro v f hr hf m0 h0
  refine ⟨?_, along_framed (w := (false, false)) l hr hf nofun nofun hc⟩
  by_cases hce : v.double.lastCe = .low
  · exact h v f hr hce (hf hce) m0 h0
  · rw [hl]
    exact along_confused (P := CellsKept S m0) body hr hce hn h0

theorem memProg_write (c : Byte) (l : List Byte) {S : List Nat} (hS : ∀ a ∈ frameCells c l.length, a ∈ S) :
    MemProg S (burstWriteFrame c l) := by
  obtain ⟨body, hn, hl⟩ := burstWriteFrame_body c l
  refine .of_frame hn hl (closes_burstWrite _ c l).1 fun v f hr hce hc m0 h0 => ?_
  refine along_burstWrite (P := CellsKept S m0) c l hr hc h0 fun n a ha => ?_
  rw [storeFrame_other (n := l.length) (by simp <;> omega) fun hm => ha (hS a hm)]
  exact h0 a ha

theorem memProg_writeFrame (c v : Byte) {S : List Nat} (hS : ∀ a ∈ frameCells c 1, a ∈ S) :
    MemProg S (writeFrame c v) := by
  rw [writeFrame_burst]
  exact memProg_write c [v] hS

theorem memProg_read (c : Byte) (n : Nat) (S : List Nat) (hw : (cmdMarker c && !cmdRw c) = false) :
    MemProg S (burstReadFrame c n) := by
  obtain ⟨body, hn, hl⟩ := burstReadFrame_body c n
  exact .of_frame hn hl (closes_burstRead _ c n).1 fun v f hr hce hc m0 h0 =>
    along_burstRead (P := CellsKept S m0) c n hr hc (fun _ => hw) h0

theorem memProg_readFrame (c : Byte) {S : List Nat} (hS : ∀ a ∈ frameCells c 1, a ∈ S) : MemProg S (readFrame c) := by
  by_cases h : (cmdMarker c && !cmdRw c) = true
  · obtain ⟨body, hn, hl⟩ := burstReadFrame_body c 1
    rw [← readFrame_burst] at hl
    refine .of_frame hn hl (by rw [readFrame_burst]; exact (closes_burstRead _ c 1).1) fun v f hr hce hc m0 h0 => ?_
    refine (readFrame_latch c hr hc hce h).2 (CellsKept S m0) h0 fun a ha => ?_
    rw [storeFrame_other (n := 1) (by simp) fun hm => ha (hS a hm)]
    exact h0 a ha
  · rw [readFrame_burst]
    exact memProg_read c 1 S (by simpa using h)

theorem cmdRw_withRead (c : Byte) : cmdRw (withRead c) = true := by
  simp [cmdRw, withRead]

theorem notWrite_withRead (c : Byte) : (cmdMarker (withRead c) && !cmdRw (withRead c)) = false := by
  rw [cmdRw_withRead]; simp

theorem memProg_writeMulti (start : Byte) (i : Nat) (l : List Byte) {S : List Nat}
    (hS : ∀ a ∈ pairCells (multiPairs start i l), a ∈ S) : MemProg S (writeMultiMoves start i l) := by
  induction l generalizing i with
  | nil => exact MemProg.nil S
  | cons v vs ih =>
    have e := writeMultiMoves_cons start i v vs
    rw [e]
    simp only [multiPairs, pairCells, List.flatMap_cons, List.mem_append] at hS
    exact (memProg_writeFrame _ v fun a ha => hS a (.inl ha)).append (ih (i + 1) fun a ha => hS a (.inr ha))

theorem memProg_readMulti (start : Byte) (i n : Nat) (S : List Nat) : MemProg S (readMultiMoves start i n) := by
  induction n generalizing i with
  | zero => exact MemProg.nil S
  | succ n ih =>
    rw [readMultiMoves, readFrame_burst]
    exact (memProg_read _ 1 S (notWrite_withRead _)).append (ih (i + 1))

theorem memProg_pairs (l : List (Byte × Byte)) {S : List Nat} (hS : ∀ a ∈ pairCells l, a ∈ S) :
    MemProg S (pairMoves l) := by
  induction l with
  | nil => exact MemProg.nil S
  | cons p rest ih =>
    have e := pairMoves_cons p rest
    rw [e]
    simp only [pairCells, List.flatMap_cons, List.mem_append] at hS
    exact (memProg_writeFrame _ _ fun a ha => hS a (.inl ha)).append (ih fun a ha => hS a (.inr ha))

/-! ## Pieces of a request -/

/-- Whatever the answers, the cells outside `S` keep their bytes and the double stays framed. -/
def MemSpec {α : Type} (S : List Nat) (m : Run α) : Prop :=
  ∀ s, s.env.double.framed →
    SameCellsBut S s.env.double (resState (m s)).env.double ∧ (resState (m s)).env.double.framed

theorem world_moves {v : Env} (hr : v.responder = .world) (l : List Move) : (v.moves l).double = v.double := by
  induction l generalizing v with
  | nil => rfl
  | cons m l ih =>
    rw [env_moves_cons]
    cases m with
    | release => exact ih hr
    | ev e =>
      rw [ih (v := v.move (.ev e)) (by rw [← hr]; exact respond_responder _ _)]
      exact respond_world hr e

theorem memSpec_runMoves {S : List Nat} {l : List Move} (h : MemProg S l) : MemSpec S (runMoves l) := by
  intro s hc
  cases hr : s.env.responder with
  | world =>
    rcases runMoves_cases l s with ⟨hok, hx⟩ | ⟨a, e, b, rfl, ha, he, hx⟩
    · rw [hx, resState_ok, moves_env, world_moves hr]
      exact ⟨fun x _ => rfl, hc⟩
    · rw [hx, resState_error, State.issue_env, respond_world (by rw [moves_env, moves_responder, hr]), moves_env,
        world_moves hr]
      exact ⟨fun x _ => rfl, hc⟩
  | double f =>
    obtain ⟨h1, h2⟩ := h s.env f hr hc s.env.double.mem fun _ _ => rfl
    rcases runMoves_cases l s with ⟨hok, hx⟩ | ⟨a, e, b, rfl, ha, he, hx⟩
    · rw [hx, resState_ok, moves_env]
      exact ⟨along_end h1 hok, along_end h2 hok⟩
    · rw [hx, resState_error, State.issue_env, respond_double_fail (f := f) (by rw [moves_env, moves_responder, hr])
        (by rw [moves_env]; exact he), moves_env]
      exact ⟨along_at h1 ha, along_at h2 ha⟩

theorem memSpec_readMoves {S : List Nat} {l : List Move} (h : MemProg S l) : MemSpec S (readMoves l) := by
  intro s hc
  have hs := memSpec_runMoves h s hc
  have e : resState (readMoves l s) = resState (runMoves l s) := by
    unfold readMoves
    cases runMoves l s <;> rfl
  rw [e]
  exact hs

theorem SameCellsBut.trans {S : List Nat} {d e g : Double} (h1 : SameCellsBut S d e) (h2 : SameCellsBut S e g) :
    SameCellsBut S d g := fun a ha => (h2 a ha).trans (h1 a ha)

theorem MemSpec.bind {α β : Type} {S : List Nat} {m : Run α} {f : α → Run β} (hm : MemSpec S m)
    (hf : ∀ a, MemSpec S (f a)) : MemSpec S (m >>= f) := by
  intro s hc
  have h := hm s hc
  cases hx : m s with
  | ok a t =>
    rw [hx, resState_ok] at h
    obtain ⟨h3, h4⟩ := hf a t h.2
    rw [run_bind_ok hx]
    exact ⟨h.1.trans h3, h4⟩
  | error k t =>
    rw [hx, resState_error] at h
    rw [run_bind_error hx]
    exact h

theorem MemSpec.pure {α : Type} {S : List Nat} (a : α) : MemSpec S (pure a : Run α) := fun _ hc => ⟨fun _ _ => rfl, hc⟩

theorem bareRes_env {α : Type} {r r' : EStateM.Result Status State α} (h : bareRes r = bareRes r') :
    (resState r).env = (resState r').env := by
  cases r <;> cases r' <;> simp only [bareRes, reduceCtorEq, EStateM.Result.ok.injEq, EStateM.Result.error.injEq] at h
  · rw [eq_withDp_of_bare h.2]; rfl
  · rw [eq_withDp_of_bare h.2]; rfl

theorem MemSpec.of_sim {α : Type} {S : List Nat} {m m' : Run α} (h : Sim m m') (hm : MemSpec S m') : MemSpec S m := by
  intro s hc
  rw [bareRes_env (h.apply s)]
  exact hm s hc

theorem memSpec_engWriteByte (c v : Byte) {S : List Nat} (hS : ∀ a ∈ frameCells c 1, a ∈ S) :
    MemSpec S (engWriteByte c v) :=
  .of_sim (sim_engWriteByte c v) (memSpec_runMoves (memProg_writeFrame c v hS))

theorem memSpec_engReadByte (c : Byte) {S : List Nat} (hS : ∀ a ∈ frameCells c 1, a ∈ S) : MemSpec S (engReadByte c) :=
  .of_sim (sim_engReadByte c) (.bind (memSpec_readMoves (memProg_readFrame c hS)) fun _ => .pure _)

theorem memSpec_regWriteMultiple (start n : Byte) (l : List Byte) :
    MemSpec (pairCells (multiPairs start 0 l)) (regWriteMultiple start n l) :=
  .of_sim (sim_regWriteMultiple start n l) (memSpec_runMoves (memProg_writeMulti start 0 l fun _ h => h))

theorem memSpec_regReadMultiple (start n : Byte) (S : List Nat) : MemSpec S (regReadMultiple start n) :=
  .of_sim (sim_regReadMultiple start n) (.bind (memSpec_readMoves (memProg_readMulti start 0 n.toNat S)) fun _ => .pure _)

theorem memSpec_regBurstWrite (bc n : Byte) (l : List Byte) : MemSpec (frameCells bc l.length) (regBurstWrite bc n l) :=
  .of_sim (sim_regBurstWrite bc n l) (memSpec_runMoves (memProg_write bc l fun _ h => h))

theorem memSpec_regBurstRead (bc n : Byte) (S : List Nat) : MemSpec S (regBurstRead bc n) :=
  .of_sim (sim_regBurstRead bc n)
    (.bind (memSpec_readMoves (memProg_read _ n.toNat S (notWrite_withRead bc))) fun _ => .pure _)

theorem memSpec_readModifyWrite (idx : BitVec 5) (f : Byte → Byte) (hr : frameCells (clockRead idx) 1 = []) :
    MemSpec (frameCells (clockWrite idx) 1) (readModifyWrite idx f) :=
  .of_sim (sim_readModifyWrite idx f) (.bind (memSpec_readMoves (memProg_readFrame _ (by rw [hr]; nofun))) fun _ =>
    memSpec_runMoves (memProg_writeFrame _ _ fun _ h => h))

theorem memSpec_setTimeFrames (r : TimeRecord) : MemSpec (pairCells (timeEncode r 0)) (setTimeFrames r) :=
  .of_sim (sim_setTimeFrames r) (.bind (memSpec_readMoves (memProg_readFrame _ (by rw [show frameCells (clockRead idxSecond) 1 = [] by decide]; nofun))) fun _ =>
    memSpec_runMoves (memProg_pairs _ fun _ h => h))

theorem MemSpec.require {S : List Nat} {c : Bool} {k : Status} {m : Run Out} (h : MemSpec S m) :
    MemSpec S (require c k >>= fun _ => m) := by
  intro s hc
  cases c with
  | false => exact ⟨fun _ _ => rfl, hc⟩
  | true => exact h s hc

theorem MemSpec.guard {S : List Nat} {b : Bool} {ops : List Bool} {m : Run Out} (h : MemSpec S m) :
    MemSpec S (guard b ops >>= fun _ => m) := by
  intro s hc
  rw [run_bind, run_guard]
  cases b with
  | false => exact ⟨fun _ _ => rfl, hc⟩
  | true =>
    cases s.initFlag with
    | false => exact ⟨fun _ _ => rfl, hc⟩
    | true =>
      cases ops.all id with
      | false => exact ⟨fun _ _ => rfl, hc⟩
      | true => exact h s hc

end Sys2Proof.Machine
end

