-- ==== Sys2Proof/Laws/PerInstr.lean ====
section
/-! SUPPORT. The family LeadByte: the first byte of a well-formed instruction is one its own row of
spec/opcode_table.json describes (30_encoding.md R101 to R104, R110, R120). -/

namespace Sys2Proof.Laws.LeadByte

/-- The (mask, match) of an instruction's row of spec/opcode_table.json. -/
def row : Instr → Byte × Byte
  | .init _ => (0xFF#8, 0x01#8)
  | .deinit _ => (0xFF#8, 0x02#8)
  | .setTime _ _ => (0xFF#8, 0x10#8)
  | .getTime _ _ => (0xFF#8, 0x11#8)
  | .setOscillator _ _ => (0xFF#8, 0x20#8)
  | .getOscillator _ _ => (0xFF#8, 0x21#8)
  | .setWriteProtect _ _ => (0xFF#8, 0x22#8)
  | .getWriteProtect _ _ => (0xFF#8, 0x23#8)
  | .setCharge _ _ => (0xFF#8, 0x24#8)
  | .getCharge _ _ => (0xFF#8, 0x25#8)
  | .writeRam _ _ _ _ => (0xFF#8, 0x30#8)
  | .readRam _ _ _ _ => (0xFF#8, 0x31#8)
  | .clockBurstWrite _ _ _ => (0xFF#8, 0x40#8)
  | .clockBurstRead _ _ _ => (0xFF#8, 0x41#8)
  | .ramBurstWrite _ _ _ => (0xFF#8, 0x42#8)
  | .ramBurstRead _ _ _ => (0xFF#8, 0x43#8)
  | .setReg _ _ _ _ => (0xFF#8, 0x50#8)
  | .getReg _ _ _ _ => (0xFF#8, 0x51#8)
  | .engWriteByte _ _ => (0xFF#8, 0x80#8)
  | .engReadByte _ => (0xFF#8, 0x81#8)
  | .regWriteMultiple _ _ _ => (0xFF#8, 0x82#8)
  | .regReadMultiple _ _ => (0xFF#8, 0x83#8)
  | .regBurstWrite _ _ _ => (0xFF#8, 0x84#8)
  | .regBurstRead _ _ => (0xFF#8, 0x85#8)
  | .hexToBcd _ => (0xFF#8, 0x90#8)
  | .bcdToHex _ => (0xFF#8, 0x91#8)
  | .timeValidate _ => (0xFF#8, 0x92#8)
  | .timeEncode _ _ => (0xFF#8, 0x93#8)
  | .timeDecode _ => (0xFF#8, 0x94#8)
  | .cmdWrSecond _ => (0xFF#8, 0x80#8)
  | .cmdRdSecond => (0xFF#8, 0x81#8)
  | .cmdWrMinute _ => (0xFF#8, 0x82#8)
  | .cmdRdMinute => (0xFF#8, 0x83#8)
  | .cmdWrHour _ => (0xFF#8, 0x84#8)
  | .cmdRdHour => (0xFF#8, 0x85#8)
  | .cmdWrDate _ => (0xFF#8, 0x86#8)
  | .cmdRdDate => (0xFF#8, 0x87#8)
  | .cmdWrMonth _ => (0xFF#8, 0x88#8)
  | .cmdRdMonth => (0xFF#8, 0x89#8)
  | .cmdWrWeek _ => (0xFF#8, 0x8A#8)
  | .cmdRdWeek => (0xFF#8, 0x8B#8)
  | .cmdWrYear _ => (0xFF#8, 0x8C#8)
  | .cmdRdYear => (0xFF#8, 0x8D#8)
  | .cmdWrControl _ => (0xFF#8, 0x8E#8)
  | .cmdRdControl => (0xFF#8, 0x8F#8)
  | .cmdWrCharge _ => (0xFF#8, 0x90#8)
  | .cmdRdCharge => (0xFF#8, 0x91#8)
  | .cmdWrClockBurst _ _ => (0xFF#8, 0xBE#8)
  | .cmdRdClockBurst _ => (0xFF#8, 0xBF#8)
  | .cmdWrRamBurst _ _ => (0xFF#8, 0xFE#8)
  | .cmdRdRamBurst _ => (0xFF#8, 0xFF#8)
  | .cmdWrRamSlot _ _ => (0xC1#8, 0xC0#8)
  | .cmdRdRamSlot _ => (0xC1#8, 0xC1#8)
  | .cmdWrClockGeneric _ _ => (0xC1#8, 0x80#8)
  | .cmdRdClockGeneric _ => (0xC1#8, 0x81#8)
  | .cmdReservedMarker0 _ _ => (0x80#8, 0x00#8)

/-- The first byte of a well-formed instruction has its row's fixed bits. -/
def Statement (i : Instr) : Prop := i.WellFormed → leadByte i &&& (row i).1 = (row i).2

/-- A command byte's fixed bits, whatever its index. -/
theorem cmdByte_fixed (bank : Bool) (idx : BitVec 5) (rw : Bool) :
    cmdByte bank idx rw &&& 0xC1#8 = cmdByte bank 0 rw := by
  revert bank idx rw; decide +kernel

/-- Seven bits have no marker. -/
theorem marker0_fixed (low : BitVec 7) : low.setWidth 8 &&& 0x80#8 = 0x00#8 := by
  revert low; decide +kernel

theorem init (handle : Bool) : Statement (.init handle) := fun _ =>
  (by decide : 0x01#8 &&& 0xFF#8 = 0x01#8)
theorem deinit (handle : Bool) : Statement (.deinit handle) := fun _ =>
  (by decide : 0x02#8 &&& 0xFF#8 = 0x02#8)
theorem setTime (handle : Bool) (r : Option TimeRecord) : Statement (.setTime handle r) := fun _ =>
  (by decide : 0x10#8 &&& 0xFF#8 = 0x10#8)
theorem getTime (handle : Bool) (slot : Bool) : Statement (.getTime handle slot) := fun _ =>
  (by decide : 0x11#8 &&& 0xFF#8 = 0x11#8)
theorem setOscillator (handle : Bool) (en : Bool) : Statement (.setOscillator handle en) := fun _ =>
  (by decide : 0x20#8 &&& 0xFF#8 = 0x20#8)
theorem getOscillator (handle : Bool) (slot : Bool) : Statement (.getOscillator handle slot) := fun _ =>
  (by decide : 0x21#8 &&& 0xFF#8 = 0x21#8)
theorem setWriteProtect (handle : Bool) (en : Bool) : Statement (.setWriteProtect handle en) := fun _ =>
  (by decide : 0x22#8 &&& 0xFF#8 = 0x22#8)
theorem getWriteProtect (handle : Bool) (slot : Bool) : Statement (.getWriteProtect handle slot) := fun _ =>
  (by decide : 0x23#8 &&& 0xFF#8 = 0x23#8)
theorem setCharge (handle : Bool) (v : Byte) : Statement (.setCharge handle v) := fun _ =>
  (by decide : 0x24#8 &&& 0xFF#8 = 0x24#8)
theorem getCharge (handle : Bool) (slot : Bool) : Statement (.getCharge handle slot) := fun _ =>
  (by decide : 0x25#8 &&& 0xFF#8 = 0x25#8)
theorem writeRam (handle : Bool) (addr n : Byte) (wbuf : Option (List Byte)) : Statement (.writeRam handle addr n wbuf) := fun _ =>
  (by decide : 0x30#8 &&& 0xFF#8 = 0x30#8)
theorem readRam (handle : Bool) (slot : Bool) (addr n : Byte) : Statement (.readRam handle slot addr n) := fun _ =>
  (by decide : 0x31#8 &&& 0xFF#8 = 0x31#8)
theorem clockBurstWrite (handle : Bool) (n : Byte) (wbuf : Option (List Byte)) : Statement (.clockBurstWrite handle n wbuf) := fun _ =>
  (by decide : 0x40#8 &&& 0xFF#8 = 0x40#8)
theorem clockBurstRead (handle : Bool) (slot : Bool) (n : Byte) : Statement (.clockBurstRead handle slot n) := fun _ =>
  (by decide : 0x41#8 &&& 0xFF#8 = 0x41#8)
theorem ramBurstWrite (handle : Bool) (n : Byte) (wbuf : Option (List Byte)) : Statement (.ramBurstWrite handle n wbuf) := fun _ =>
  (by decide : 0x42#8 &&& 0xFF#8 = 0x42#8)
theorem ramBurstRead (handle : Bool) (slot : Bool) (n : Byte) : Statement (.ramBurstRead handle slot n) := fun _ =>
  (by decide : 0x43#8 &&& 0xFF#8 = 0x43#8)
theorem setReg (handle : Bool) (reg n : Byte) (wbuf : Option (List Byte)) : Statement (.setReg handle reg n wbuf) := fun _ =>
  (by decide : 0x50#8 &&& 0xFF#8 = 0x50#8)
theorem getReg (handle : Bool) (slot : Bool) (reg n : Byte) : Statement (.getReg handle slot reg n) := fun _ =>
  (by decide : 0x51#8 &&& 0xFF#8 = 0x51#8)
theorem engWriteByte (c v : Byte) : Statement (.engWriteByte c v) := fun _ =>
  (by decide : 0x80#8 &&& 0xFF#8 = 0x80#8)
theorem engReadByte (c : Byte) : Statement (.engReadByte c) := fun _ =>
  (by decide : 0x81#8 &&& 0xFF#8 = 0x81#8)
theorem regWriteMultiple (start n : Byte) (wbuf : List Byte) : Statement (.regWriteMultiple start n wbuf) := fun _ =>
  (by decide : 0x82#8 &&& 0xFF#8 = 0x82#8)
theorem regReadMultiple (start n : Byte) : Statement (.regReadMultiple start n) := fun _ =>
  (by decide : 0x83#8 &&& 0xFF#8 = 0x83#8)
theorem regBurstWrite (bc n : Byte) (wbuf : List Byte) : Statement (.regBurstWrite bc n wbuf) := fun _ =>
  (by decide : 0x84#8 &&& 0xFF#8 = 0x84#8)
theorem regBurstRead (bc n : Byte) : Statement (.regBurstRead bc n) := fun _ =>
  (by decide : 0x85#8 &&& 0xFF#8 = 0x85#8)
theorem hexToBcd (v : Byte) : Statement (.hexToBcd v) := fun _ =>
  (by decide : 0x90#8 &&& 0xFF#8 = 0x90#8)
theorem bcdToHex (v : Byte) : Statement (.bcdToHex v) := fun _ =>
  (by decide : 0x91#8 &&& 0xFF#8 = 0x91#8)
theorem timeValidate (r : TimeRecord) : Statement (.timeValidate r) := fun _ =>
  (by decide : 0x92#8 &&& 0xFF#8 = 0x92#8)
theorem timeEncode (r : TimeRecord) (old : Byte) : Statement (.timeEncode r old) := fun _ =>
  (by decide : 0x93#8 &&& 0xFF#8 = 0x93#8)
theorem timeDecode (b : TimeBytes) : Statement (.timeDecode b) := fun _ =>
  (by decide : 0x94#8 &&& 0xFF#8 = 0x94#8)
theorem cmdWrSecond (v : Byte) : Statement (.cmdWrSecond v) := fun _ =>
  (by decide : 0x80#8 &&& 0xFF#8 = 0x80#8)
theorem cmdRdSecond : Statement .cmdRdSecond := fun _ =>
  (by decide : 0x81#8 &&& 0xFF#8 = 0x81#8)
theorem cmdWrMinute (v : Byte) : Statement (.cmdWrMinute v) := fun _ =>
  (by decide : 0x82#8 &&& 0xFF#8 = 0x82#8)
theorem cmdRdMinute : Statement .cmdRdMinute := fun _ =>
  (by decide : 0x83#8 &&& 0xFF#8 = 0x83#8)
theorem cmdWrHour (v : Byte) : Statement (.cmdWrHour v) := fun _ =>
  (by decide : 0x84#8 &&& 0xFF#8 = 0x84#8)
theorem cmdRdHour : Statement .cmdRdHour := fun _ =>
  (by decide : 0x85#8 &&& 0xFF#8 = 0x85#8)
theorem cmdWrDate (v : Byte) : Statement (.cmdWrDate v) := fun _ =>
  (by decide : 0x86#8 &&& 0xFF#8 = 0x86#8)
theorem cmdRdDate : Statement .cmdRdDate := fun _ =>
  (by decide : 0x87#8 &&& 0xFF#8 = 0x87#8)
theorem cmdWrMonth (v : Byte) : Statement (.cmdWrMonth v) := fun _ =>
  (by decide : 0x88#8 &&& 0xFF#8 = 0x88#8)
theorem cmdRdMonth : Statement .cmdRdMonth := fun _ =>
  (by decide : 0x89#8 &&& 0xFF#8 = 0x89#8)
theorem cmdWrWeek (v : Byte) : Statement (.cmdWrWeek v) := fun _ =>
  (by decide : 0x8A#8 &&& 0xFF#8 = 0x8A#8)
theorem cmdRdWeek : Statement .cmdRdWeek := fun _ =>
  (by decide : 0x8B#8 &&& 0xFF#8 = 0x8B#8)
theorem cmdWrYear (v : Byte) : Statement (.cmdWrYear v) := fun _ =>
  (by decide : 0x8C#8 &&& 0xFF#8 = 0x8C#8)
theorem cmdRdYear : Statement .cmdRdYear := fun _ =>
  (by decide : 0x8D#8 &&& 0xFF#8 = 0x8D#8)
theorem cmdWrControl (v : Byte) : Statement (.cmdWrControl v) := fun _ =>
  (by decide : 0x8E#8 &&& 0xFF#8 = 0x8E#8)
theorem cmdRdControl : Statement .cmdRdControl := fun _ =>
  (by decide : 0x8F#8 &&& 0xFF#8 = 0x8F#8)
theorem cmdWrCharge (v : Byte) : Statement (.cmdWrCharge v) := fun _ =>
  (by decide : 0x90#8 &&& 0xFF#8 = 0x90#8)
theorem cmdRdCharge : Statement .cmdRdCharge := fun _ =>
  (by decide : 0x91#8 &&& 0xFF#8 = 0x91#8)
theorem cmdWrClockBurst (n : Byte) (wbuf : List Byte) : Statement (.cmdWrClockBurst n wbuf) := fun _ =>
  (by decide : 0xBE#8 &&& 0xFF#8 = 0xBE#8)
theorem cmdRdClockBurst (n : Byte) : Statement (.cmdRdClockBurst n) := fun _ =>
  (by decide : 0xBF#8 &&& 0xFF#8 = 0xBF#8)
theorem cmdWrRamBurst (n : Byte) (wbuf : List Byte) : Statement (.cmdWrRamBurst n wbuf) := fun _ =>
  (by decide : 0xFE#8 &&& 0xFF#8 = 0xFE#8)
theorem cmdRdRamBurst (n : Byte) : Statement (.cmdRdRamBurst n) := fun _ =>
  (by decide : 0xFF#8 &&& 0xFF#8 = 0xFF#8)
theorem cmdWrRamSlot (a : BitVec 5) (v : Byte) : Statement (.cmdWrRamSlot a v) := fun _ =>
  (cmdByte_fixed _ _ _).trans (by decide : cmdByte true 0 false = 0xC0#8)
theorem cmdRdRamSlot (a : BitVec 5) : Statement (.cmdRdRamSlot a) := fun _ =>
  (cmdByte_fixed _ _ _).trans (by decide : cmdByte true 0 true = 0xC1#8)
theorem cmdWrClockGeneric (idx : BitVec 5) (v : Byte) : Statement (.cmdWrClockGeneric idx v) := fun _ =>
  (cmdByte_fixed _ _ _).trans (by decide : cmdByte false 0 false = 0x80#8)
theorem cmdRdClockGeneric (idx : BitVec 5) : Statement (.cmdRdClockGeneric idx) := fun _ =>
  (cmdByte_fixed _ _ _).trans (by decide : cmdByte false 0 true = 0x81#8)
theorem cmdReservedMarker0 (low : BitVec 7) (data : Option Byte) : Statement (.cmdReservedMarker0 low data) := fun _ =>
  marker0_fixed low

end Sys2Proof.Laws.LeadByte
end

