-- ==== Sys2Proof/Laws/Release.lean ====
section
/-! SUPPORT. The bus shadow from the trace alone: in a program of frames the internal release stands where
`releasesBefore` says, so the trace replayed with its releases gives the shadow, at the end and at a failing event
(41_bit_engine.md R204, R206, R208, R211). -/

namespace Sys2Proof.Machine

/-! ## Replaying a trace -/

/-- One record of a replay (`Bus.replayReleasing`). -/
def Bus.replayOne (b : Bus) (wrote : Bool) (r : PortRecord) : Bus :=
  (if releasesBefore wrote r.event then b.released else b).after r.event r.reply

theorem replayReleasing_cons (b : Bus) (w : Bool) (r : PortRecord) (t : List PortRecord) :
    b.replayReleasing w (r :: t) = (b.replayOne w r).replayReleasing r.event.isIoWrite t := rfl

/-- Whether the last event of a trace is an IO_WRITE; `w` for the empty trace. -/
def endsWriting (w : Bool) (t : List PortRecord) : Bool := (t.getLast?.map fun r => r.event.isIoWrite).getD w

@[simp] theorem endsWriting_snoc (w : Bool) (t : List PortRecord) (r : PortRecord) :
    endsWriting w (t ++ [r]) = r.event.isIoWrite := by
  simp [endsWriting]

theorem replayReleasing_snoc (b : Bus) (w : Bool) (t : List PortRecord) (r : PortRecord) :
    b.replayReleasing w (t ++ [r]) = (b.replayReleasing w t).replayOne (endsWriting w t) r := by
  induction t generalizing b w with
  | nil => rfl
  | cons x t ih =>
    rw [List.cons_append, replayReleasing_cons, ih, replayReleasing_cons]
    congr 1
    cases t with
    | nil => rfl
    | cons y t => simp [endsWriting, List.getLast?_cons]

/-- The shadow does not depend on which answer other than fail was given. -/
theorem after_of_ok {b : Bus} {e : Event} {r : Reply} (h : r ≠ .fail) : b.after e r = b.after e .ok := by
  cases e <;> simp [Bus.after, h]

/-! ## Programs whose releases are in their place -/

/-- From the shadow `b`, every release of a program stands right before an event that `releasesBefore` names, and every
other such event finds the data line released already. -/
def Placed : Bus → Bool → List Move → Prop
  | _, _, [] => True
  | b, w, .ev e :: l => (releasesBefore w e = true → b.released = b) ∧ Placed (b.after e .ok) e.isIoWrite l
  | b, w, .release :: .ev e :: l => releasesBefore w e = true ∧ Placed (b.released.after e .ok) e.isIoWrite l
  | _, _, .release :: _ => False

theorem placed_ev {b : Bus} {w : Bool} {e : Event} {l : List Move} (h1 : releasesBefore w e = false ∨ b.released = b)
    (h2 : Placed (b.after e .ok) e.isIoWrite l) : Placed b w (.ev e :: l) := by
  rw [Placed]
  exact ⟨fun h => h1.resolve_left (by simp [h]), h2⟩

theorem placed_release {b : Bus} {w : Bool} {e : Event} {l : List Move} (h1 : releasesBefore w e = true)
    (h2 : Placed (b.released.after e .ok) e.isIoWrite l) : Placed b w (.release :: .ev e :: l) := by
  rw [Placed]
  exact ⟨h1, h2⟩

/-! ## The slots of a frame -/

theorem placed_outSlot {b : Bus} {w x : Bool} {r : List Move} (h : ∀ b', Placed b' false r) :
    Placed b w (evs (outSlot x) ++ r) :=
  placed_ev (.inl rfl) (placed_ev (.inl rfl) (placed_ev (.inl rfl) (placed_ev (.inl rfl) (placed_ev (.inl rfl)
    (placed_ev (.inl rfl) (h _))))))

theorem placed_outByte {b : Bus} {w : Bool} {x : Byte} {r : List Move} (h : ∀ b', Placed b' false r) :
    Placed b w (evs (outByte x) ++ r) := by
  rw [outByte_eq]
  simp only [evs_append, List.append_assoc]
  iterate 8 refine placed_outSlot fun b => ?_
  exact h _

theorem placed_outBytes {b : Bus} {l : List Byte} {r : List Move} (h : ∀ b', Placed b' false r) :
    Placed b false (evs (outBytes l) ++ r) := by
  induction l generalizing b with
  | nil => exact h _
  | cons v vs ih =>
    have e : evs (outBytes (v :: vs)) = evs (outByte v) ++ evs (outBytes vs) := by simp [outBytes]
    rw [e, List.append_assoc]
    exact placed_outByte fun _ => ih

theorem placed_commandMoves {b : Bus} {w : Bool} {c : Byte} {r : List Move} (h : ∀ b', Placed b' false r) :
    Placed b w (commandMoves c ++ r) :=
  placed_ev (.inl rfl) (placed_outByte h)

/-- The pulse of an IN slot keeps the data line released. -/
theorem placed_pulse {b : Bus} {r : List Move} (hb : b.released = b)
    (h : ∀ b', b'.released = b' → Placed b' false r) : Placed b false (evs pulseEvents ++ r) := by
  refine placed_ev (.inl rfl) (placed_ev (.inl rfl) (placed_ev (.inl rfl) (placed_ev (.inl rfl) (h _ ?_))))
  rw [← hb]
  rfl

theorem placed_inSlot {b : Bus} {r : List Move} (hb : b.released = b)
    (h : ∀ b', b'.released = b' → Placed b' false r) : Placed b false (evs inSlot ++ r) :=
  placed_ev (.inr hb) (placed_pulse (b := b) hb h)

theorem placed_inSlots {b : Bus} {n : Nat} {r : List Move} (hb : b.released = b)
    (h : ∀ b', b'.released = b' → Placed b' false r) : Placed b false (evs (inSlots n) ++ r) := by
  induction n generalizing b with
  | zero => exact h _ hb
  | succ n ih =>
    rw [inSlots, evs_append, List.append_assoc]
    exact placed_inSlot hb fun b' hb' => ih hb'

/-- In a program of frames every release is in its place. -/
theorem Frames.placed {l : List Move} (h : Frames l) (b : Bus) : Placed b false l := by
  induction h generalizing b with
  | nil => trivial
  | write c l _ ih =>
    rw [burstWriteFrame_parts]
    simp only [List.append_assoc]
    exact placed_commandMoves fun _ => placed_outBytes fun _ => placed_ev (.inl rfl) (placed_ev (.inl rfl) (ih _))
  | read c n _ ih =>
    rw [burstReadFrame_parts, evs_inBytes]
    simp only [List.append_assoc]
    refine placed_commandMoves fun b => ?_
    cases hn : 8 * n with
    | zero => exact placed_release rfl (ih _)
    | succ k =>
      refine placed_release (e := .ioRead) rfl (placed_pulse (b := b.released) rfl fun b' hb' => ?_)
      exact placed_inSlots hb' fun b'' hb'' => placed_ev (.inr hb'') (ih _)

/-! ## The shadow after a program -/

/-- One event, with or without a release before it. -/
theorem issue_replay {s : State} {b0 : Bus} {e : Event} (hb : s.bus = b0.replayReleasing false s.trace)
    (h : releasesBefore (endsWriting false s.trace) e = true → s.bus.released = s.bus) :
    (s.issue e).bus = b0.replayReleasing false (s.issue e).trace := by
  rw [State.issue_trace, replayReleasing_snoc, ← hb, Bus.replayOne]
  split
  · next hr => rw [h hr]; rfl
  · rfl

theorem release_issue_replay {s : State} {b0 : Bus} {e : Event} (hb : s.bus = b0.replayReleasing false s.trace)
    (h : releasesBefore (endsWriting false s.trace) e = true) :
    (s.release.issue e).bus = b0.replayReleasing false (s.release.issue e).trace := by
  rw [State.issue_trace]
  show s.bus.released.after e _ = b0.replayReleasing false (s.trace ++ [_])
  rw [replayReleasing_snoc, ← hb, Bus.replayOne, if_pos h]

/-- Along a program whose releases are in their place the shadow is the replayed trace: at its end, and after an event
that stops it. -/
theorem moves_replay {s : State} {b0 : Bus} (l : List Move) {r : List Move} (hok : s.env.okMoves l)
    (hb : s.bus = b0.replayReleasing false s.trace) (hp : Placed s.bus (endsWriting false s.trace) (l ++ r)) :
    (r = [] → (s.moves l).bus = b0.replayReleasing false (s.moves l).trace) ∧
    (∀ e r', r = .ev e :: r' → ((s.moves l).issue e).bus = b0.replayReleasing false ((s.moves l).issue e).trace) := by
  match l, hok, hp with
  | [], _, hp =>
    refine ⟨fun _ => hb, ?_⟩
    rintro e r' rfl
    simp only [List.nil_append, Placed] at hp
    exact issue_replay hb hp.1
  | .ev e :: l, hok, hp =>
    simp only [List.cons_append, Placed] at hp
    refine moves_replay (s := s.issue e) l hok.2 (issue_replay hb hp.1) ?_
    rw [State.issue_trace, endsWriting_snoc, show (s.issue e).bus = s.bus.after e .ok from after_of_ok hok.1]
    exact hp.2
  | [.release], _, hp =>
    refine ⟨?_, ?_⟩
    · rintro rfl
      simp [Placed] at hp
    · rintro e r' rfl
      simp only [List.cons_append, List.nil_append, Placed] at hp
      exact release_issue_replay hb hp.1
  | .release :: .release :: l, _, hp => simp [Placed] at hp
  | .release :: .ev e :: l, hok, hp =>
    simp only [List.cons_append, Placed] at hp
    refine moves_replay (s := s.release.issue e) l hok.2.2 (release_issue_replay hb hp.1) ?_
    rw [State.issue_trace, endsWriting_snoc,
      show (s.release.issue e).bus = s.bus.released.after e .ok from after_of_ok hok.2.1]
    exact hp.2

end Sys2Proof.Machine
end

