-- ==== Sys2Proof/Tests/Slice0.lean ====
section
/-! SUPPORT. Tests. Expected values come from spec/95_test_vectors.md (the vector is named in each docstring) and from the
encoding tables of spec/30_encoding.md; the witnesses show, for each obligation with hypotheses, a state and operands that
meet them. -/

namespace Sys2Proof.Machine

-- One test at a time: each kernel evaluation waits for what stands before it, and many waiting at once take a thread each.
set_option Elab.async false

/-! ## Helpers -/

/-- Every capability bound. -/
def testCaps : Caps := ⟨true, true, true, true, true, true, true, true, true, true, true, true, true⟩

/-- The start of spec/95 section 0: initialised, the lines at 0 and OUT, the double answering, its last levels 0, these
cells, and at most one injected failure, a pin event of the first request. -/
def bench (mem : List Host.Cell) (failAt : Option Nat) : State :=
  { State.reset with
    initFlag := true
    caps := testCaps
    bus := ⟨.low, .low, .low, .out⟩
    env := { Env.initial with
      responder := .double (failAt.map fun p => ⟨1, p⟩)
      double := { Double.initial with mem := mem, lastCe := .low, lastClk := .low, lastIo := .low } } }

/-- The same, before INIT. -/
def rawBench (failAt : Option Nat) : State := { bench [] failAt with initFlag := false }

/-- The bench with the host's next act. -/
def benchWith (a : HostAct) : State := { bench [] none with inbox := [a] }

/-- A world that answers these. -/
def worldBench (l : List Answer) : State :=
  { bench [] none with env := { Env.initial with responder := .world, answers := l } }

/-- The state exec answers with. -/
def after (i : Instr) (s : State) : State :=
  match exec i s with
  | .next t => t
  | .fault _ | .refused _ => s

/-- The status exec answers with. -/
def statusAfter (i : Instr) (s : State) : Option Status := (after i s).status

/-- The output exec answers with. -/
def outAfter (i : Instr) (s : State) : Out := (after i s).out

/-- The bus shadow exec answers with. -/
def busAfter (i : Instr) (s : State) : Bus := (after i s).bus

/-- The double's memory exec answers with. -/
def memAfter (i : Instr) (s : State) : List Host.Cell := (after i s).env.double.mem

/-- The events exec issues. -/
def eventsAfter (i : Instr) (s : State) : List Event := eventsOf (after i s).trace

/-- How many pin events and delays exec issues. -/
def countsAfter (i : Instr) (s : State) : Nat × Nat :=
  ((pinsOf (eventsAfter i s)).length, (delaysOf (eventsAfter i s)).length)

/-- The levels of the IO_WRITE events exec issues, in order. -/
def drivenAfter (i : Instr) (s : State) : List Bool :=
  (eventsAfter i s).filterMap fun e =>
    match e with
    | .ioWrite l => some l
    | _ => none

/-- Whether a step is refused, and how. -/
def refusedBy (o : Host.Outcome State Fault Refusal) : Option Refusal :=
  match o with
  | .refused r => some r
  | .next _ | .fault _ => none

/-- What a list of bytes decodes to. -/
def decoded (sp : Space) (bs : List Byte) : Option Instr :=
  match decode sp bs with
  | .ok i => some i
  | .error _ => none

/-- Why a list of bytes is rejected. -/
def rejection (sp : Space) (bs : List Byte) : Option Reject :=
  match decode sp bs with
  | .ok _ => none
  | .error r => some r

/-- The record of the source's example (spec/95 W3). -/
def exampleRecord : TimeRecord := ⟨2031, 6, 3, 14, 11, 42, 5, 0x01, true⟩

/-! ## Well-formedness refuses each ill-formed term -/

theorem test_wf_buffer_length : (Instr.writeRam true 0 2 (some [1, 2, 3])).wellFormed = false := by decide
theorem test_wf_buffer_short : (Instr.regBurstWrite 0xFE 3 [1, 2]).wellFormed = false := by decide
theorem test_wf_burst_row : (Instr.cmdWrClockBurst 1 []).wellFormed = false := by decide
theorem test_wf_absent_buffer : (Instr.setReg true 0x92 7 none).wellFormed = true := by decide
theorem test_wf_slot_thirty_one : (Instr.cmdWrRamSlot 31 0).wellFormed = false := by decide
theorem test_wf_slot_read_thirty_one : (Instr.cmdRdRamSlot 31).wellFormed = false := by decide
theorem test_wf_slot_thirty : (Instr.cmdRdRamSlot 30).wellFormed = true := by decide
theorem test_wf_generic_named : (Instr.cmdWrClockGeneric 8 0).wellFormed = false := by decide
theorem test_wf_generic_burst : (Instr.cmdRdClockGeneric 31).wellFormed = false := by decide
theorem test_wf_generic_bounds :
    (Instr.cmdRdClockGeneric 9).wellFormed = true ∧ (Instr.cmdRdClockGeneric 30).wellFormed = true := by decide
theorem test_wf_marker_zero_write_coded : (Instr.cmdReservedMarker0 0x00 none).wellFormed = false := by decide
theorem test_wf_marker_zero_read_coded : (Instr.cmdReservedMarker0 0x01 (some 0)).wellFormed = false := by decide

/-! ## Decoding words written out from the tables of 30_encoding.md -/

theorem test_decode_init : decoded .request [0x01, 0x00] = some (.init true) := by decide
theorem test_decode_deinit_absent : decoded .request [0x02, 0x01] = some (.deinit false) := by decide
theorem test_decode_set_time :
    decoded .request [0x10, 0x00, 0xEF, 0x07, 6, 3, 14, 11, 42, 5, 0x01, 0x01] = some (.setTime true (some exampleRecord)) := by
  decide
theorem test_decode_set_time_absent : decoded .request [0x10, 0x02] = some (.setTime true none) := by decide
theorem test_decode_get_time : decoded .request [0x11, 0x00] = some (.getTime true true) := by decide
theorem test_decode_set_oscillator : decoded .request [0x20, 0x00, 0x01] = some (.setOscillator true true) := by decide
theorem test_decode_get_oscillator : decoded .request [0x21, 0x03] = some (.getOscillator false false) := by decide
theorem test_decode_set_write_protect : decoded .request [0x22, 0x00, 0x00] = some (.setWriteProtect true false) := by decide
theorem test_decode_get_write_protect : decoded .request [0x23, 0x00] = some (.getWriteProtect true true) := by decide
theorem test_decode_set_charge : decoded .request [0x24, 0x00, 0xA5] = some (.setCharge true 0xA5) := by decide
theorem test_decode_get_charge : decoded .request [0x25, 0x02] = some (.getCharge true false) := by decide
theorem test_decode_write_ram :
    decoded .request [0x30, 0x00, 25, 2, 2, 0x11, 0x22] = some (.writeRam true 25 2 (some [0x11, 0x22])) := by decide
theorem test_decode_read_ram : decoded .request [0x31, 0x00, 0, 31] = some (.readRam true true 0 31) := by decide
theorem test_decode_clock_burst_write :
    decoded .request [0x40, 0x00, 1, 1, 0x30] = some (.clockBurstWrite true 1 (some [0x30])) := by decide
theorem test_decode_clock_burst_read : decoded .request [0x41, 0x00, 8] = some (.clockBurstRead true true 8) := by decide
theorem test_decode_ram_burst_write : decoded .request [0x42, 0x02, 7] = some (.ramBurstWrite true 7 none) := by decide
theorem test_decode_ram_burst_read : decoded .request [0x43, 0x00, 31] = some (.ramBurstRead true true 31) := by decide
theorem test_decode_set_reg :
    decoded .request [0x50, 0x00, 0x92, 1, 1, 0x7E] = some (.setReg true 0x92 1 (some [0x7E])) := by decide
theorem test_decode_get_reg : decoded .request [0x51, 0x00, 0x8E, 2] = some (.getReg true true 0x8E 2) := by decide
theorem test_decode_eng_write : decoded .request [0x80, 0x80, 0x05] = some (.engWriteByte 0x80 0x05) := by decide
theorem test_decode_eng_read : decoded .request [0x81, 0x81] = some (.engReadByte 0x81) := by decide
theorem test_decode_write_multiple :
    decoded .request [0x82, 0xC0, 3, 3, 0xAA, 0x55, 0x01] = some (.regWriteMultiple 0xC0 3 [0xAA, 0x55, 0x01]) := by decide
theorem test_decode_read_multiple : decoded .request [0x83, 0xFC, 3] = some (.regReadMultiple 0xFC 3) := by decide
theorem test_decode_burst_write :
    decoded .request [0x84, 0xFE, 2, 2, 1, 2] = some (.regBurstWrite 0xFE 2 [1, 2]) := by decide
theorem test_decode_burst_read : decoded .request [0x85, 0xBE, 8] = some (.regBurstRead 0xBE 8) := by decide
theorem test_decode_hex_to_bcd : decoded .request [0x90, 42] = some (.hexToBcd 42) := by decide
theorem test_decode_bcd_to_hex : decoded .request [0x91, 0x59] = some (.bcdToHex 0x59) := by decide
theorem test_decode_time_validate :
    decoded .request [0x92, 0xEF, 0x07, 6, 3, 14, 11, 42, 5, 0x01, 0x01] = some (.timeValidate exampleRecord) := by decide
theorem test_decode_time_encode :
    decoded .request [0x93, 0xEF, 0x07, 6, 3, 14, 11, 42, 5, 0x01, 0x01, 0x80] = some (.timeEncode exampleRecord 0x80) := by
  decide
theorem test_decode_time_decode :
    decoded .request [0x94, 0x85, 0x42, 0xB1, 0x14, 0x06, 0x03, 0x31] =
      some (.timeDecode ⟨0x85, 0x42, 0xB1, 0x14, 0x06, 0x03, 0x31⟩) := by decide
theorem test_decode_clock_write_rows :
    decoded .command [0x80, 5] = some (.cmdWrSecond 5) ∧ decoded .command [0x82, 5] = some (.cmdWrMinute 5) ∧
    decoded .command [0x84, 5] = some (.cmdWrHour 5) ∧ decoded .command [0x86, 5] = some (.cmdWrDate 5) ∧
    decoded .command [0x88, 5] = some (.cmdWrMonth 5) ∧ decoded .command [0x8A, 5] = some (.cmdWrWeek 5) ∧
    decoded .command [0x8C, 5] = some (.cmdWrYear 5) ∧ decoded .command [0x8E, 5] = some (.cmdWrControl 5) ∧
    decoded .command [0x90, 5] = some (.cmdWrCharge 5) := by decide
theorem test_decode_clock_read_rows :
    decoded .command [0x81] = some .cmdRdSecond ∧ decoded .command [0x83] = some .cmdRdMinute ∧
    decoded .command [0x85] = some .cmdRdHour ∧ decoded .command [0x87] = some .cmdRdDate ∧
    decoded .command [0x89] = some .cmdRdMonth ∧ decoded .command [0x8B] = some .cmdRdWeek ∧
    decoded .command [0x8D] = some .cmdRdYear ∧ decoded .command [0x8F] = some .cmdRdControl ∧
    decoded .command [0x91] = some .cmdRdCharge := by decide
theorem test_decode_burst_rows :
    decoded .command [0xBE, 2, 7, 8] = some (.cmdWrClockBurst 2 [7, 8]) ∧
    decoded .command [0xBF, 8] = some (.cmdRdClockBurst 8) ∧
    decoded .command [0xFE, 1, 9] = some (.cmdWrRamBurst 1 [9]) ∧
    decoded .command [0xFF, 31] = some (.cmdRdRamBurst 31) := by decide
theorem test_decode_slot_rows :
    decoded .command [0xC0, 1] = some (.cmdWrRamSlot 0 1) ∧ decoded .command [0xF2, 1] = some (.cmdWrRamSlot 25 1) ∧
    decoded .command [0xFD] = some (.cmdRdRamSlot 30) := by decide
theorem test_decode_generic_rows :
    decoded .command [0x92, 0x7E] = some (.cmdWrClockGeneric 9 0x7E) ∧
    decoded .command [0xBD] = some (.cmdRdClockGeneric 30) := by decide
theorem test_decode_marker_zero_rows :
    decoded .command [0x00, 0x5A] = some (.cmdReservedMarker0 0x00 (some 0x5A)) ∧
    decoded .command [0x7F] = some (.cmdReservedMarker0 0x7F none) := by decide
theorem test_decode_rejections :
    rejection .request [0x03, 0x00] = some (.unknownTag 0x03) ∧ rejection .request [0x80, 0x80] = some .truncated ∧
    rejection .request [0x81, 0x81, 0] = some .trailing ∧ rejection .request [0x01, 0x02] = some .badFlags ∧
    rejection .request [0x20, 0x00, 0x02] = some .badBit ∧
    rejection .request [0x30, 0x00, 0, 2, 3, 1, 2, 3] = some .bufferLength := by decide

/-! ## Bit engine (spec/95 section 2.1) -/

/-- ENG1. -/
theorem test_eng1_write :
    statusAfter (.engWriteByte 0x80 0x05) (bench [] none) = some .success ∧
    drivenAfter (.engWriteByte 0x80 0x05) (bench [] none) =
      [false, false, false, false, false, false, false, true,
       true, false, true, false, false, false, false, false, false] ∧
    countsAfter (.engWriteByte 0x80 0x05) (bench [] none) = (51, 48) ∧
    busAfter (.engWriteByte 0x80 0x05) (bench [] none) = ⟨.low, .low, .low, .out⟩ ∧
    memAfter (.engWriteByte 0x80 0x05) (bench [] none) = [(0x80, 0x05)] := by decide +kernel

/-- ENG8: the byte is committed although the request fails. -/
theorem test_eng8_commit :
    statusAfter (.engWriteByte 0x8E 0x80) (bench [] (some 49)) = some .transferFailure ∧
    countsAfter (.engWriteByte 0x8E 0x80) (bench [] (some 49)) = (49, 47) ∧
    busAfter (.engWriteByte 0x8E 0x80) (bench [] (some 49)) = ⟨.high, .x, .high, .out⟩ ∧
    memAfter (.engWriteByte 0x8E 0x80) (bench [] (some 49)) = [(0x8E, 0x80)] := by decide +kernel

/-- ENG2. -/
theorem test_eng2_read :
    statusAfter (.engReadByte 0x81) (bench [(0x80, 0x85)] none) = some .success ∧
    outAfter (.engReadByte 0x81) (bench [(0x80, 0x85)] none) = .byte 0x85 ∧
    drivenAfter (.engReadByte 0x81) (bench [(0x80, 0x85)] none) =
      [true, false, false, false, false, false, false, true] ∧
    countsAfter (.engReadByte 0x81) (bench [(0x80, 0x85)] none) = (50, 40) ∧
    busAfter (.engReadByte 0x81) (bench [(0x80, 0x85)] none) = ⟨.low, .low, .x, .inp⟩ := by decide +kernel

/-- ENG11, ENG12 and ENG14: the data line is released after the command and before the first sample. -/
theorem test_eng_read_failures :
    busAfter (.engReadByte 0x8F) (bench [] (some 25)) = ⟨.high, .x, .high, .out⟩ ∧
    busAfter (.engReadByte 0x8F) (bench [] (some 26)) = ⟨.high, .low, .x, .inp⟩ ∧
    countsAfter (.engReadByte 0x8F) (bench [] (some 26)) = (26, 24) ∧
    statusAfter (.engReadByte 0x8F) (bench [] (some 50)) = some .transferFailure ∧
    outAfter (.engReadByte 0x8F) (bench [] (some 50)) = .none ∧
    busAfter (.engReadByte 0x8F) (bench [] (some 50)) = ⟨.x, .low, .x, .inp⟩ := by decide +kernel

/-- P4: SET_CHARGE fails at its pin event 12; GET_CHARGE after it has a pin event 12 too, and succeeds. -/
theorem test_p4_one_failure :
    busAfter (.setCharge true 0xA5) (bench [] (some 12)) = ⟨.high, .x, .low, .out⟩ ∧
    statusAfter (.setCharge true 0xA5) (bench [] (some 12)) = some .transferFailure ∧
    statusAfter (.getCharge true true) (after (.setCharge true 0xA5) (bench [] (some 12))) = some .success ∧
    busAfter (.getCharge true true) (after (.setCharge true 0xA5) (bench [] (some 12))) = ⟨.low, .low, .x, .inp⟩ := by
  decide +kernel

/-! ## Multiplexer and bursts (section 2.2) -/

/-- MUX6, its first two frames. -/
theorem test_mux6_write_multiple :
    memAfter (.regWriteMultiple 0xF2 2 [0x11, 0x22]) (bench [] none) = [(0xF2, 0x11), (0xF4, 0x22)] ∧
    countsAfter (.regWriteMultiple 0xF2 2 [0x11, 0x22]) (bench [] none) = (102, 96) := by decide +kernel

/-- MUX4 and MUX17: the step past 0xFE is 0x00, and 0xFE is the RAM burst alias. -/
theorem test_mux17_set_reg :
    memAfter (.setReg true 0xFE 2 (some [0x11, 0x22])) (bench [] none) = [(0xC0, 0x11)] ∧
    countsAfter (.setReg true 0xFE 2 (some [0x11, 0x22])) (bench [] none) = (102, 96) := by decide +kernel

/-- R83: a burst frame with an index other than 31 stores its first byte only. -/
theorem test_burst_not_alias :
    memAfter (.regBurstWrite 0xC4 3 [0x11, 0x22, 0x33]) (bench [] none) = [(0xC4, 0x11)] := by decide +kernel

/-- MUX16. -/
theorem test_mux16_get_reg :
    outAfter (.getReg true true 0x8E 2) (bench [(0x8E, 0x80), (0x90, 0xA5)] none) = .bytes [0x80, 0xA5] ∧
    countsAfter (.getReg true true 0x8E 2) (bench [(0x8E, 0x80), (0x90, 0xA5)] none) = (100, 80) := by decide +kernel

/-- MUX19. -/
theorem test_mux19_nothing :
    eventsAfter (.regWriteMultiple 0xC0 0 []) (bench [] none) = [] ∧
    statusAfter (.regReadMultiple 0x80 0) (bench [] none) = some .success ∧
    outAfter (.regReadMultiple 0x80 0) (bench [] none) = .bytes [] := by decide +kernel

/-- REG_READ_MULTIPLE of two: MUX1's first commands. -/
theorem test_mux1_read_multiple :
    outAfter (.regReadMultiple 0x80 2) (bench [(0x80, 0x85), (0x82, 0x42)] none) = .bytes [0x85, 0x42] := by decide +kernel

/-- MUX7. -/
theorem test_mux7_burst_write :
    drivenAfter (.regBurstWrite 0xFE 2 [0x01, 0x02]) (bench [] none) =
      [false, true, true, true, true, true, true, true, true, false, false, false, false, false, false, false,
       false, true, false, false, false, false, false, false, false] ∧
    countsAfter (.regBurstWrite 0xFE 2 [0x01, 0x02]) (bench [] none) = (75, 72) ∧
    memAfter (.regBurstWrite 0xFE 2 [0x01, 0x02]) (bench [] none) = [(0xC0, 0x01), (0xC2, 0x02)] := by decide +kernel

/-- MUX8. -/
theorem test_mux8_burst_read :
    outAfter (.regBurstRead 0xFE 2) (bench [(0xC2, 0x01)] none) = .bytes [0x00, 0x01] ∧
    countsAfter (.regBurstRead 0xFE 2) (bench [(0xC2, 0x01)] none) = (74, 56) := by decide +kernel

/-- MUX9 and MUX10. -/
theorem test_mux9_clock_burst_bounds :
    after (.clockBurstWrite true 9 (some [0, 0, 0, 0, 0, 0, 0, 0, 0])) (bench [] none) =
      (bench [] none).rejected .invalidArgument ∧
    countsAfter (.clockBurstWrite true 0 (some [])) (bench [] none) = (27, 24) := by decide +kernel

/-- MUX13, two bytes of it. -/
theorem test_mux13_clock_burst :
    memAfter (.clockBurstWrite true 2 (some [0x00, 0x30])) (bench [(0x80, 0x55)] none) = [(0x82, 0x30)] := by decide +kernel

/-- MUX11 and MUX14, the first two bytes. -/
theorem test_mux14_clock_burst_read :
    busAfter (.clockBurstRead true true 0) (bench [] none) = ⟨.low, .low, .x, .inp⟩ ∧
    countsAfter (.clockBurstRead true true 0) (bench [] none) = (26, 24) ∧
    outAfter (.clockBurstRead true true 2) (bench [(0x82, 0x30)] none) = .bytes [0x00, 0x30] := by decide +kernel

/-- MUX12. -/
theorem test_mux12_ram_burst_bound :
    after (.ramBurstWrite true 32 (some (List.replicate 32 0))) (bench [] none) =
      (bench [] none).rejected .invalidArgument := by decide +kernel

/-- R308's example. -/
theorem test_ram_burst_write :
    memAfter (.ramBurstWrite true 2 (some [0x11, 0x22])) (bench [] none) = [(0xC0, 0x11), (0xC2, 0x22)] := by decide +kernel

/-- R309: the first two slots; 32 is too long. -/
theorem test_ram_burst_read :
    outAfter (.ramBurstRead true true 2) (bench [(0xC0, 0x11), (0xC2, 0x22)] none) = .bytes [0x11, 0x22] ∧
    statusAfter (.ramBurstRead true true 32) (bench [] none) = some .invalidArgument := by decide +kernel

/-! ## Codec (sections 2.3 to 2.6) -/

/-- BCD5, BCD8, BCD10 and BCD13. -/
theorem test_hex_to_bcd :
    outAfter (.hexToBcd 42) (bench [] none) = .byte 0x42 ∧ outAfter (.hexToBcd 100) (bench [] none) = .byte 0xA0 ∧
    outAfter (.hexToBcd 160) (bench [] none) = .byte 0x00 ∧ outAfter (.hexToBcd 255) (bench [] none) = .byte 0x95 := by
  decide

/-- BCD17, BCD19, BCD21 and BCD22. -/
theorem test_bcd_to_hex :
    outAfter (.bcdToHex 0x59) (bench [] none) = .byte 59 ∧ outAfter (.bcdToHex 0x0A) (bench [] none) = .byte 10 ∧
    outAfter (.bcdToHex 0xA0) (bench [] none) = .byte 100 ∧ outAfter (.bcdToHex 0xFF) (bench [] none) = .byte 165 := by
  decide

/-- VAL1 to VAL20: the accepted ones. -/
theorem test_validate_accepts :
    ([exampleRecord, { exampleRecord with hour := 13, format := 0 }, { exampleRecord with hour := 0, format := 0 },
      { exampleRecord with hour := 23, format := 0 }, { exampleRecord with hour := 1 }, { exampleRecord with hour := 12 },
      { exampleRecord with year := 2000 }, { exampleRecord with year := 2100 }, { exampleRecord with month := 1 },
      { exampleRecord with month := 12 }, { exampleRecord with date := 31, month := 2 },
      { exampleRecord with minute := 59, second := 59 }, { exampleRecord with amPm := false }].all fun r =>
      outAfter (.timeValidate r) (bench [] none) == .kind .success) = true := by decide +kernel

/-- VAL3 to VAL19: the rejected ones. -/
theorem test_validate_rejects :
    ([{ exampleRecord with hour := 13 }, { exampleRecord with hour := 0 }, { exampleRecord with year := 1999 },
      { exampleRecord with year := 2101 }, { exampleRecord with month := 0 }, { exampleRecord with month := 13 },
      { exampleRecord with hour := 24, format := 0 }, { exampleRecord with week := 0 }, { exampleRecord with week := 8 },
      { exampleRecord with date := 0 }, { exampleRecord with date := 32 }, { exampleRecord with minute := 60 },
      { exampleRecord with second := 60 }, { exampleRecord with format := 0x02 }].all fun r =>
      outAfter (.timeValidate r) (bench [] none) == .kind .invalidArgument) = true := by decide +kernel

/-- HRE1. -/
theorem test_encode_hre1 :
    outAfter (.timeEncode exampleRecord 0x80) (bench [] none) =
      .pairs [(0x80, 0x85), (0x82, 0x42), (0x84, 0xB1), (0x8A, 0x03), (0x86, 0x14), (0x88, 0x06), (0x8C, 0x31)] := by
  decide +kernel

/-- HRE5. -/
theorem test_encode_hre5 :
    outAfter (.timeEncode ⟨2100, 12, 7, 31, 23, 59, 59, 0x00, true⟩ 0x7F) (bench [] none) =
      .pairs [(0x80, 0x59), (0x82, 0x59), (0x84, 0x23), (0x8A, 0x07), (0x86, 0x31), (0x88, 0x12), (0x8C, 0xA0)] := by
  decide +kernel

/-- DEC1. -/
theorem test_decode_dec1 :
    outAfter (.timeDecode ⟨0x85, 0x42, 0xB1, 0x14, 0x06, 0x03, 0x31⟩) (bench [] none) = .record exampleRecord := by
  decide +kernel

/-- DEC3 and DEC6. -/
theorem test_decode_dec3 :
    outAfter (.timeDecode ⟨0xFF, 0xFF, 0xFF, 0xFF, 0xFF, 0xFF, 0xFF⟩) (bench [] none) =
      .record ⟨2165, 25, 7, 45, 25, 85, 85, 0x01, true⟩ ∧
    outAfter (.timeDecode ⟨0x00, 0x00, 0x23, 0x01, 0x01, 0x01, 0xA0⟩) (bench [] none) =
      .record ⟨2100, 1, 1, 1, 23, 0, 0, 0x00, true⟩ := by decide +kernel

/-- P1: the SET_TIME line. -/
theorem test_set_time :
    memAfter (.setTime true (some exampleRecord)) (bench [(0x80, 0x80)] none) =
      [(0x80, 0x85), (0x82, 0x42), (0x84, 0xB1), (0x86, 0x14), (0x88, 0x06), (0x8A, 0x03), (0x8C, 0x31)] ∧
    busAfter (.setTime true (some exampleRecord)) (bench [(0x80, 0x80)] none) = ⟨.low, .low, .low, .out⟩ := by decide +kernel

/-- P1f. -/
theorem test_set_time_failure :
    memAfter (.setTime true (some exampleRecord)) (bench [] (some 162)) = [(0x80, 0x05), (0x82, 0x42)] ∧
    busAfter (.setTime true (some exampleRecord)) (bench [] (some 162)) = ⟨.high, .x, .high, .out⟩ := by decide +kernel

/-- P1: the GET_TIME line. -/
theorem test_get_time :
    outAfter (.getTime true true) (bench [(0x80, 0x85), (0x82, 0x42), (0x84, 0xB1), (0x86, 0x14), (0x88, 0x06),
      (0x8A, 0x03), (0x8C, 0x31)] none) = .record exampleRecord := by decide +kernel

/-! ## Chip control and RAM (sections 2.7 and 2.8) -/

/-- CTL1. -/
theorem test_ctl1_set_oscillator :
    memAfter (.setOscillator true true) (bench [(0x80, 0xA5)] none) = [(0x80, 0x25)] ∧
    countsAfter (.setOscillator true true) (bench [(0x80, 0xA5)] none) = (101, 88) := by decide +kernel

/-- CTL7. -/
theorem test_ctl7_set_oscillator_failure :
    memAfter (.setOscillator true true) (bench [(0x80, 0xA5)] (some 76)) = [(0x80, 0xA5)] ∧
    countsAfter (.setOscillator true true) (bench [(0x80, 0xA5)] (some 76)) = (76, 64) ∧
    busAfter (.setOscillator true true) (bench [(0x80, 0xA5)] (some 76)) = ⟨.high, .low, .x, .x⟩ := by decide +kernel

/-- CTL2. -/
theorem test_ctl2_get_oscillator :
    outAfter (.getOscillator true true) (bench [(0x80, 0x25)] none) = .bit true ∧
    outAfter (.getOscillator true true) (bench [(0x80, 0xA5)] none) = .bit false := by decide +kernel

/-- CTL4 and CTL5. -/
theorem test_ctl4_set_write_protect :
    memAfter (.setWriteProtect true true) (bench [] none) = [(0x8E, 0x80)] ∧
    memAfter (.setWriteProtect true false) (bench [(0x8E, 0xFF)] none) = [(0x8E, 0x7F)] := by decide +kernel

/-- CTL4 and CTL5: the getter. -/
theorem test_ctl4_get_write_protect :
    outAfter (.getWriteProtect true true) (bench [(0x8E, 0x80)] none) = .bit true ∧
    outAfter (.getWriteProtect true true) (bench [(0x8E, 0x7F)] none) = .bit false := by decide +kernel

/-- CTL6. -/
theorem test_ctl6_set_charge :
    memAfter (.setCharge true 0xA5) (bench [] none) = [(0x90, 0xA5)] ∧
    countsAfter (.setCharge true 0xA5) (bench [] none) = (51, 48) := by decide +kernel

/-- CTL6: the getter. -/
theorem test_ctl6_get_charge : outAfter (.getCharge true true) (bench [(0x90, 0xA5)] none) = .byte 0xA5 := by decide +kernel

/-- RAM2, RAM3, RAM6, RAM7, RAM8 and RAM10. -/
theorem test_ram_bounds :
    statusAfter (.writeRam true 25 7 (some [1, 2, 3, 4, 5, 6, 7])) (bench [] none) = some .invalidArgument ∧
    statusAfter (.writeRam true 31 1 (some [1])) (bench [] none) = some .invalidArgument ∧
    statusAfter (.writeRam true 0 0 (some [])) (bench [] none) = some .success ∧
    statusAfter (.writeRam true 31 0 (some [])) (bench [] none) = some .invalidArgument ∧
    statusAfter (.writeRam true 255 1 (some [1])) (bench [] none) = some .invalidArgument ∧
    statusAfter (.writeRam true 30 2 (some [1, 2])) (bench [] none) = some .invalidArgument := by decide +kernel

/-- RAM13. -/
theorem test_ram13_write_ram :
    memAfter (.writeRam true 2 3 (some [0x01, 0x02, 0x03])) (bench [] (some 112)) = [(0xC4, 0x01), (0xC6, 0x02)] ∧
    busAfter (.writeRam true 2 3 (some [0x01, 0x02, 0x03])) (bench [] (some 112)) = ⟨.high, .x, .low, .out⟩ := by
  decide +kernel

/-- RAM1 and RAM4: the reads. -/
theorem test_ram_read :
    outAfter (.readRam true true 30 1) (bench [(0xFC, 0x66)] none) = .bytes [0x66] ∧
    statusAfter (.readRam true true 25 7) (bench [] none) = some .invalidArgument ∧
    outAfter (.readRam true true 0 0) (bench [] none) = .bytes [] := by decide +kernel

/-! ## Lifecycle and guard (sections 2.9 and 2.10) -/

/-- LIF1, LIF4 and LIF5. -/
theorem test_init :
    after (.init true) (rawBench none) = { rawBench none with
      initFlag := true
      status := some .success
      trace := [⟨.ceInit, .ok⟩, ⟨.clkInit, .ok⟩, ⟨.ioInit, .ok⟩]
      env := { (rawBench none).env with requests := 1, pins := 3 } } ∧
    eventsAfter (.init true) (rawBench (some 3)) = [.ceInit, .clkInit, .ioInit, .clkDeinit, .ceDeinit] ∧
    statusAfter (.init true) (rawBench (some 3)) = some .lifecycleFailure ∧
    after (.init true) State.reset = State.reset.rejected .lifecycleFailure := by decide +kernel

/-- LIF2 and LIF3, on an initialised block: the flag stays. -/
theorem test_init_failures :
    eventsAfter (.init true) (bench [] (some 2)) = [.ceInit, .clkInit, .ceDeinit] ∧
    (after (.init true) (bench [] (some 2))).initFlag = true ∧
    eventsAfter (.init true) (bench [] (some 1)) = [.ceInit] := by decide +kernel

/-- LIF6, LIF8 and LIF10. -/
theorem test_deinit :
    eventsAfter (.deinit true) (bench [] none) = [.ceDeinit, .clkDeinit, .ioDeinit] ∧
    (after (.deinit true) (bench [] none)).initFlag = false ∧
    eventsAfter (.deinit true) (bench [] (some 2)) = [.ceDeinit, .clkDeinit] ∧
    (after (.deinit true) (bench [] (some 2))).initFlag = true ∧
    statusAfter (.deinit true) (rawBench none) = some .notInitialized := by decide +kernel

/-- GRD1 to GRD6. -/
theorem test_guard_order :
    statusAfter (.getCharge false true) (rawBench none) = some .nullArgument ∧
    statusAfter (.setTime true none) (rawBench none) = some .notInitialized ∧
    statusAfter (.setTime true none) (bench [] none) = some .nullArgument ∧
    statusAfter (.setTime true (some { exampleRecord with hour := 13 })) (rawBench none) = some .notInitialized ∧
    statusAfter (.writeRam true 31 1 (some [1])) (rawBench none) = some .notInitialized ∧
    statusAfter (.clockBurstRead true false 9) (bench [] none) = some .nullArgument := by decide +kernel

/-- GRD7: an unknown tag and a buffer of the wrong length are refused; so is an `en` that is not one bit. -/
theorem test_refusals :
    refusedBy (step (benchWith (.request [0x03, 0x00]))) = some (.unknownTag 0x03) ∧
    refusedBy (step (benchWith (.request [0x30, 0x00, 0, 2, 3, 1, 2, 3]))) = some .bufferLengthMismatch ∧
    refusedBy (exec (.writeRam true 0 2 (some [1, 2, 3])) (bench [] none)) = some .bufferLengthMismatch ∧
    refusedBy (step (benchWith (.request [0x22, 0x00, 0x02]))) = some .illFormedRecord ∧
    refusedBy (step (benchWith (.request [0x10, 0x00, 0xEF, 0x07, 6, 3, 14, 11, 42, 5, 0x01, 0x02]))) =
      some .illFormedRecord := by decide +kernel

/-! ## Wire rows: the command byte each one sends, as the double sees it (R101 to R104) -/

theorem test_wire_clock_writes :
    memAfter (.cmdWrSecond 1) (bench [] none) = [(0x80, 1)] ∧ memAfter (.cmdWrMinute 1) (bench [] none) = [(0x82, 1)] ∧
    memAfter (.cmdWrHour 1) (bench [] none) = [(0x84, 1)] ∧ memAfter (.cmdWrDate 1) (bench [] none) = [(0x86, 1)] ∧
    memAfter (.cmdWrMonth 1) (bench [] none) = [(0x88, 1)] ∧ memAfter (.cmdWrWeek 1) (bench [] none) = [(0x8A, 1)] ∧
    memAfter (.cmdWrYear 1) (bench [] none) = [(0x8C, 1)] ∧ memAfter (.cmdWrControl 1) (bench [] none) = [(0x8E, 1)] ∧
    memAfter (.cmdWrCharge 1) (bench [] none) = [(0x90, 1)] := by decide +kernel

theorem test_wire_clock_reads :
    outAfter .cmdRdSecond (bench [(0x80, 7)] none) = .byte 7 ∧ outAfter .cmdRdMinute (bench [(0x82, 7)] none) = .byte 7 ∧
    outAfter .cmdRdHour (bench [(0x84, 7)] none) = .byte 7 ∧ outAfter .cmdRdDate (bench [(0x86, 7)] none) = .byte 7 ∧
    outAfter .cmdRdMonth (bench [(0x88, 7)] none) = .byte 7 ∧ outAfter .cmdRdWeek (bench [(0x8A, 7)] none) = .byte 7 ∧
    outAfter .cmdRdYear (bench [(0x8C, 7)] none) = .byte 7 ∧ outAfter .cmdRdControl (bench [(0x8E, 7)] none) = .byte 7 ∧
    outAfter .cmdRdCharge (bench [(0x90, 7)] none) = .byte 7 := by decide +kernel

theorem test_wire_bursts :
    memAfter (.cmdWrClockBurst 2 [5, 6]) (bench [] none) = [(0x80, 5), (0x82, 6)] ∧
    outAfter (.cmdRdClockBurst 2) (bench [(0x82, 6)] none) = .bytes [0, 6] ∧
    memAfter (.cmdWrRamBurst 2 [5, 6]) (bench [] none) = [(0xC0, 5), (0xC2, 6)] ∧
    outAfter (.cmdRdRamBurst 2) (bench [(0xC2, 6)] none) = .bytes [0, 6] := by decide +kernel

theorem test_wire_slots_and_generic :
    memAfter (.cmdWrRamSlot 25 9) (bench [] none) = [(0xF2, 9)] ∧
    outAfter (.cmdRdRamSlot 30) (bench [(0xFC, 9)] none) = .byte 9 ∧
    memAfter (.cmdWrClockGeneric 9 9) (bench [] none) = [(0x92, 9)] ∧
    outAfter (.cmdRdClockGeneric 30) (bench [(0xBC, 9)] none) = .byte 9 := by decide +kernel

/-- R120 (c): a code with marker 0 is transmitted like any other; the double stores nothing. -/
theorem test_wire_marker_zero :
    statusAfter (.cmdReservedMarker0 0x00 (some 0x22)) (bench [] none) = some .success ∧
    memAfter (.cmdReservedMarker0 0x00 (some 0x22)) (bench [] none) = [] ∧
    statusAfter (.cmdReservedMarker0 0x01 none) (worldBench (List.replicate 50 ⟨true, true⟩)) = some .success ∧
    outAfter (.cmdReservedMarker0 0x01 none) (worldBench (List.replicate 50 ⟨true, true⟩)) = .byte 0xFF := by decide +kernel

/-- The first step after reset runs the table word that is placed (GET_CHARGE before INIT: LIF9). -/
theorem test_table_word :
    decodeTableWord 8 0x25 = some (.getCharge true true) ∧
    (match step (State.reset.withFetchWord 8 0x25) with
      | .next t => t.status
      | .fault _ | .refused _ => none) = some .notInitialized := by decide +kernel

/-! ## Witnesses: a state and operands that meet the hypotheses of each obligation, clause by clause -/

/-- The bench meets the invariant. -/
theorem test_witness_inv (a : HostAct) : Inv (bench [(0x80, 0xA5), (0xFC, 0x66)] none) ∧ Inv (benchWith a) :=
  ⟨⟨by decide, by decide, fun _ => rfl, rfl, rfl, fun _ => rfl, fun _ => rfl⟩,
   ⟨rfl, (by decide : 0 < 8), fun _ => rfl, rfl, rfl, fun _ => rfl, fun _ => rfl⟩⟩

/-- The bench answers as the double does, with its lines low. -/
theorem test_witness_on_double : (bench [(0x80, 0xA5), (0xFC, 0x66)] none).onDouble := ⟨rfl, rfl, rfl⟩

theorem test_witness_DecodeReadsBackEveryEncoding :
    (Instr.writeRam true 25 2 (some [0x11, 0x22])).WellFormed ∧ (Instr.cmdWrRamSlot 30 0xFF).WellFormed ∧
    (Instr.cmdReservedMarker0 0x7F none).WellFormed := by decide

theorem test_witness_DecodeAcceptsOnlyEncodings :
    decode .request [0x20, 0x00, 0x01] = .ok (.setOscillator true true) ∧
    decode .command [0xFF, 31] = .ok (.cmdRdRamBurst 31) := ⟨rfl, rfl⟩

theorem test_witness_UndefinedRecordsAreRefused :
    (0x03#8 ∉ [0x01#8, 0x02#8, 0x10#8, 0x11#8, 0x20#8, 0x21#8, 0x22#8, 0x23#8, 0x24#8, 0x25#8, 0x30#8, 0x31#8, 0x40#8,
      0x41#8, 0x42#8, 0x43#8, 0x50#8, 0x51#8, 0x80#8, 0x81#8, 0x82#8, 0x83#8, 0x84#8, 0x85#8, 0x90#8, 0x91#8, 0x92#8,
      0x93#8, 0x94#8]) ∧
    ([1, 2, 3] : List Byte).length ≠ (2 : Byte).toNat ∧ (0x01#8).toNat < 2 ∧ 2 ≤ (0x02#8).toNat := by decide

theorem test_witness_SteppedAddresses : 0 + 30 ≤ 30 ∧ 30 + 0 ≤ 30 ∧ 31 ≤ 31 := by decide

theorem test_witness_CommandBytesAreFormedByFields : (0 : BitVec 5).toNat ≤ 30 ∧ (30 : BitVec 5).toNat ≤ 30 := by decide

theorem test_witness_StepRunsTheDecodedInstruction :
    (benchWith (.request [0x81, 0x81])).inbox = recordAct .request [0x81, 0x81] :: [] ∧
    decode .request [0x81, 0x81] = .ok (.engReadByte 0x81) ∧
    (benchWith (.command [0x8F])).inbox = recordAct .command [0x8F] :: [] ∧
    decode .command [0x8F] = .ok .cmdRdControl ∧
    (benchWith (.request [0x03])).inbox = recordAct .request [0x03] :: [] ∧
    decode .request [0x03] = .error (.unknownTag 0x03) ∧
    (benchWith (.bind .ceInit true)).inbox = .bind .ceInit true :: [] ∧ (bench [] none).inbox = [] :=
  ⟨rfl, rfl, rfl, rfl, rfl, rfl, rfl, rfl⟩

theorem test_witness_HostBindsCapabilities :
    (rawBench none).initFlag = false ∧ (bench [] none).caps.get .ioRead = true ∧
    (bench [] none).initFlag = true ∧ (bench [] none).caps.get .ioRead ≠ false := by decide

theorem test_witness_EveryStepKeepsTheInvariant :
    Inv (benchWith (.request [0x80, 0x80, 0x05])) ∧
    step (benchWith (.request [0x80, 0x80, 0x05])) = .next (after (.engWriteByte 0x80 0x05) (bench [] none)) :=
  ⟨(test_witness_inv _).2, rfl⟩

theorem test_witness_CanonicalMemoriesReadBackAndAreUnique :
    Memory.wf [(0x80, 0x05), (0xFC, 0x66)] = true ∧ isCell 0x80 = true ∧ isCell 0xBC = true ∧ isCell 0xC0 = true ∧
    isCell 0xFC = true ∧ isCell 0xBE = false ∧ isCell 0xFE = false ∧
    Memory.write [(0x80, 0x05)] 0x80 0x00 = ([] : List Host.Cell) := by decide

/-- Every instruction has next states: one of each kind of request. -/
theorem test_witness_next (s : State) :
    (∃ t, exec (.engWriteByte 0x80 0x05) s = .next t) ∧ (∃ t, exec (.init true) s = .next t) ∧
    (∃ t, exec (.deinit true) s = .next t) ∧ (∃ t, exec (.getCharge true true) s = .next t) ∧
    (∃ t, exec .cmdRdSecond s = .next t) ∧ (∃ t, exec (.hexToBcd 42) s = .next t) :=
  ⟨⟨_, rfl⟩, ⟨_, rfl⟩, ⟨_, rfl⟩, ⟨_, rfl⟩, ⟨_, rfl⟩, ⟨_, rfl⟩⟩

theorem test_witness_CapabilitiesAreTheHosts :
    (∀ h, Instr.engWriteByte 0x80 0x05 ≠ .init h) ∧
    exec (.engWriteByte 0x80 0x05) (bench [] none) = .next (after (.engWriteByte 0x80 0x05) (bench [] none)) :=
  ⟨fun _ h => Instr.noConfusion h, rfl⟩

theorem test_witness_InitFlagIsWrittenOnlyByInitAndDeinit :
    (∀ h, Instr.engReadByte 0x81 ≠ .init h) ∧ (∀ h, Instr.engReadByte 0x81 ≠ .deinit h) ∧
    exec (.init true) (rawBench none) = .next (after (.init true) (rawBench none)) ∧
    statusAfter (.init true) (rawBench none) = some .success ∧
    exec (.deinit true) (bench [] none) = .next (after (.deinit true) (bench [] none)) ∧
    statusAfter (.deinit true) (bench [] none) = some .success ∧
    (Instr.getCharge true true).WellFormed ∧ isPublic (.getCharge true true) = true ∧
    handleOf (.getCharge true true) = true ∧ (rawBench none).initFlag = false :=
  ⟨fun _ h => Instr.noConfusion h, fun _ h => Instr.noConfusion h, rfl, by decide +kernel, rfl, by decide +kernel, by decide,
   rfl, rfl, rfl⟩

/-- The public request of each step of R710's order. -/
theorem test_witness_ChecksReportInOrder :
    (Instr.writeRam true 31 1 (some [1])).WellFormed ∧ isPublic (.writeRam true 31 1 (some [1])) = true ∧
    (∀ h, Instr.writeRam true 31 1 (some [1]) ≠ .init h) ∧
    handleOf (.writeRam false 31 1 (some [1])) = false ∧ handleOf (.writeRam true 31 1 (some [1])) = true ∧
    (rawBench none).initFlag = false ∧ (bench [] none).initFlag = true ∧
    operandOf (.writeRam true 31 1 none) = false ∧ operandOf (.writeRam true 31 1 (some [1])) = true ∧
    ¬ArgsInRange (.writeRam true 31 1 (some [1])) ∧ ¬ArgsInRange (.writeRam true 31 0 (some [])) ∧
    ¬ArgsInRange (.readRam true true 25 7) ∧ ArgsInRange (.readRam true true 25 6) ∧
    ArgsInRange (.writeRam true 0 31 none) ∧ ArgsInRange (.clockBurstRead true true 8) ∧
    ¬ArgsInRange (.clockBurstRead true true 9) ∧ ArgsInRange (.ramBurstRead true true 31) ∧
    ¬ArgsInRange (.ramBurstRead true true 32) ∧
    State.reset.caps.allBound = false ∧ (rawBench none).caps.allBound = true := by
  refine ⟨by decide, rfl, fun _ h => Instr.noConfusion h, rfl, rfl, rfl, rfl, rfl, rfl, ?_⟩
  simp only [ArgsInRange]
  decide

theorem test_witness_UninitialisedRequestsAreTurnedAway :
    (Instr.getTime true true).WellFormed ∧ isPublic (.getTime true true) = true ∧
    (∀ h, Instr.getTime true true ≠ .init h) ∧ handleOf (.getTime true true) = true ∧
    (rawBench none).initFlag = false ∧
    exec (.deinit true) (bench [] none) = .next (after (.deinit true) (bench [] none)) ∧
    statusAfter (.deinit true) (bench [] none) = some .success :=
  ⟨by decide, rfl, fun _ h => Instr.noConfusion h, rfl, rfl, rfl, by decide +kernel⟩

theorem test_witness_EveryRequestEndsWithOneStatus :
    (Instr.regBurstWrite 0xFE 2 [1, 2]).WellFormed ∧ (Instr.cmdRdClockGeneric 9).WellFormed := by decide

theorem test_witness_OutputsExistOnlyOnSuccess :
    exec (.engReadByte 0x81) (bench [] (some 26)) = .next (after (.engReadByte 0x81) (bench [] (some 26))) ∧
    statusAfter (.engReadByte 0x81) (bench [] (some 26)) ≠ some .success := ⟨rfl, by decide +kernel⟩

theorem test_witness_TransferFailuresArePrecise :
    exec (.engWriteByte 0x8E 0x80) (bench [] (some 3)) = .next (after (.engWriteByte 0x8E 0x80) (bench [] (some 3))) ∧
    statusAfter (.engWriteByte 0x8E 0x80) (bench [] (some 3)) = some .transferFailure ∧
    exec (.hexToBcd 42) (bench [] none) = .next (after (.hexToBcd 42) (bench [] none)) ∧
    statusAfter (.hexToBcd 42) (bench [] none) = some .success := ⟨rfl, by decide +kernel, rfl, rfl⟩

/-- A failing CE_WRITE, a failing IO_WRITE, a failing CLK_WRITE and a failing IO_READ (ENG4, ENG5, ENG6, ENG12). -/
theorem test_witness_BusAfterATransferFailure :
    (after (.engWriteByte 0x8E 0x80) (bench [] (some 1))).trace = [] ++ [⟨.ceWrite true, .fail⟩] ∧
    (after (.engWriteByte 0x8E 0x80) (bench [] (some 2))).trace =
      [⟨.ceWrite true, .ok⟩] ++ [⟨.ioWrite false, .fail⟩] ∧
    (after (.engWriteByte 0x8E 0x80) (bench [] (some 3))).trace =
      [⟨.ceWrite true, .ok⟩, ⟨.ioWrite false, .ok⟩, ⟨.delayUs 1, .none⟩] ++ [⟨.clkWrite true, .fail⟩] ∧
    (after (.engReadByte 0x8F) (bench [] (some 26))).trace =
      (after (.engReadByte 0x8F) (bench [] (some 26))).trace.dropLast ++ [⟨.ioRead, .fail⟩] ∧
    statusAfter (.engWriteByte 0x8E 0x80) (bench [] (some 1)) = some .transferFailure ∧
    statusAfter (.engReadByte 0x8F) (bench [] (some 26)) = some .transferFailure := by decide +kernel

/-- Both sides of the release: the last command slot and the first IN slot; the closing CE_WRITE of a single read, of a burst
read with no byte, and of the write frames. -/
theorem test_witness_BusAfterATransferFailure_data_line :
    (bench [] (some 25)).env.answersFailAt 25 = true ∧ (bench [] (some 26)).env.answersFailAt 26 = true ∧
    (bench [] (some 50)).env.answersFailAt 50 = true ∧ 26 ≤ 26 + 24 * (0 : Byte).toNat ∧
    (bench [] (some 51)).env.answersFailAt 51 = true ∧ ([] : List Byte).length = (0 : Byte).toNat ∧
    (bench [] (some 27)).env.answersFailAt (27 + 24 * ([] : List Byte).length) = true ∧
    exec (.init true) State.reset = .next (State.reset.rejected .lifecycleFailure) := by
  refine ⟨?_, ?_, ?_, ?_, ?_, ?_, ?_, rfl⟩ <;> decide

theorem test_witness_InitBringsTheLinesUp :
    (rawBench none).caps.allBound = true ∧ (rawBench none).env.answersOk 3 = true ∧
    (rawBench (some 1)).env.answersFailAt 1 = true ∧ (rawBench (some 2)).env.answersFailAt 2 = true ∧
    (rawBench (some 3)).env.answersFailAt 3 = true ∧ State.reset.caps.allBound = false ∧
    (worldBench [⟨true, false⟩, ⟨true, false⟩, ⟨false, false⟩]).env.answersFailAt 3 = true := by decide

theorem test_witness_DeinitBringsTheLinesDown :
    (rawBench none).initFlag = false ∧ (bench [] none).initFlag = true ∧ (bench [] none).env.answersOk 3 = true ∧
    (bench [] (some 1)).env.answersFailAt 1 = true ∧ (bench [] (some 2)).env.answersFailAt 2 = true ∧
    (bench [] (some 3)).env.answersFailAt 3 = true := by decide

theorem test_witness_LifecycleLeavesTheTarget :
    exec (.init true) (rawBench (some 3)) = .next (after (.init true) (rawBench (some 3))) ∧
    exec (.deinit true) (bench [] (some 2)) = .next (after (.deinit true) (bench [] (some 2))) := ⟨rfl, rfl⟩

theorem test_witness_TheWorldsAnswersAreTakenInOrder :
    exec (.engWriteByte 0x80 0x05) (worldBench (List.replicate 60 ⟨true, false⟩)) =
      .next (after (.engWriteByte 0x80 0x05) (worldBench (List.replicate 60 ⟨true, false⟩))) ∧
    (worldBench (List.replicate 60 ⟨true, false⟩)).env.responder = .world ∧
    ((after (.engWriteByte 0x80 0x05) (worldBench (List.replicate 60 ⟨true, false⟩))).trace.filter
      fun r => r.event.isPin).length ≤ (worldBench (List.replicate 60 ⟨true, false⟩)).env.answers.length ∧
    Event.isPin (.delayUs 1) = false := ⟨rfl, rfl, by decide +kernel, rfl⟩

theorem test_witness_InternalRequestsAreUnguarded :
    isPublic (.engReadByte 0x81) = false ∧
    exec (.engReadByte 0x81) (rawBench none) = .next (after (.engReadByte 0x81) (rawBench none)) := ⟨rfl, rfl⟩

/-- The answers of a frame or of several, and a failure at the first and at the last pin event. -/
theorem test_witness_EngWriteByteSendsOneFrame :
    (bench [] none).env.answersOk 51 = true ∧ (bench [] (some 1)).env.answersFailAt 1 = true ∧ 1 ≤ 51 ∧
    (bench [] (some 51)).env.answersFailAt 51 = true ∧
    (worldBench (List.replicate 51 ⟨true, false⟩)).env.answersOk 51 = true ∧ 0 < 8 ∧ 7 < 8 := by decide

theorem test_witness_EngReadByteSendsOneFrame :
    (bench [] none).env.answersOk 50 = true ∧ (bench [] (some 50)).env.answersFailAt 50 = true ∧
    (worldBench (List.replicate 50 ⟨true, true⟩)).env.answersOk 50 = true ∧
    [true, false, true, false, false, false, false, true].length = 8 := by decide

theorem test_witness_RegWriteMultipleSendsAFramePerByte :
    ([0x11, 0x22] : List Byte).length = (2 : Byte).toNat ∧ (bench [] none).env.answersOk 102 = true ∧
    ([] : List Byte).length = (0 : Byte).toNat ∧ (bench [] none).env.answersOk 0 = true ∧
    (bench [] (some 102)).env.answersFailAt 102 = true ∧ 102 ≤ 51 * 2 := by decide

theorem test_witness_RegReadMultipleSendsAFramePerByte :
    (bench [] none).env.answersOk (50 * (255 : Byte).toNat) = true ∧ (bench [] none).env.answersOk (50 * (0 : Byte).toNat) = true ∧
    (bench [] (some 350)).env.answersFailAt 350 = true ∧ 350 ≤ 50 * (7 : Byte).toNat := by decide

theorem test_witness_RegBurstWriteSendsOneFrame :
    ([0x01, 0x02] : List Byte).length = (2 : Byte).toNat ∧ (bench [] none).env.answersOk 75 = true ∧
    (bench [] (some 75)).env.answersFailAt 75 = true ∧ 75 ≤ 27 + 24 * 2 ∧ 1 < 2 ∧
    ([] : List Byte).length = (0 : Byte).toNat ∧ (bench [] none).env.answersOk 27 = true := by decide

theorem test_witness_RegBurstReadSendsOneFrame :
    (bench [] none).env.answersOk (26 + 24 * (31 : Byte).toNat) = true ∧
    (bench [] (some 770)).env.answersFailAt 770 = true ∧ 770 ≤ 26 + 24 * (31 : Byte).toNat ∧ 247 < 8 * (31 : Byte).toNat := by
  decide

/-- Lengths 8 and 9, 31 and 32. -/
theorem test_witness_BurstWriteRequests :
    (bench [] none).initFlag = true ∧ (List.replicate 8 (0 : Byte)).length = (8 : Byte).toNat ∧ (8 : Byte).toNat ≤ 8 ∧
    (bench [] none).env.answersOk (27 + 24 * 8) = true ∧ (bench [] (some 219)).env.answersFailAt 219 = true ∧
    (List.replicate 9 (0 : Byte)).length = (9 : Byte).toNat ∧ 8 < (9 : Byte).toNat ∧
    (List.replicate 31 (0 : Byte)).length = (31 : Byte).toNat ∧ (31 : Byte).toNat ≤ 31 ∧
    (bench [] none).env.answersOk (27 + 24 * 31) = true ∧
    (List.replicate 32 (0 : Byte)).length = (32 : Byte).toNat ∧ 31 < (32 : Byte).toNat := by decide

theorem test_witness_BurstReadRequests :
    (bench [] none).initFlag = true ∧ (8 : Byte).toNat ≤ 8 ∧ (bench [] none).env.answersOk (26 + 24 * (8 : Byte).toNat) = true ∧
    8 < (9 : Byte).toNat ∧ (31 : Byte).toNat ≤ 31 ∧ (bench [] none).env.answersOk (26 + 24 * (31 : Byte).toNat) = true ∧
    31 < (32 : Byte).toNat ∧ (bench [] (some 26)).env.answersFailAt 26 = true ∧ 26 ≤ 26 + 24 * (0 : Byte).toNat := by decide

theorem test_witness_RawRegisterRequests :
    (bench [] none).initFlag = true ∧ ([0x7E] : List Byte).length = (1 : Byte).toNat ∧
    (bench [] none).env.answersOk 51 = true ∧ (bench [] (some 51)).env.answersFailAt 51 = true ∧
    (bench [] none).env.answersOk 50 = true ∧ (bench [] (some 50)).env.answersFailAt 50 = true := by decide

/-- RAM13: pin event 10 of frame 2, in three bytes to slots 2 to 4; and the last pin event of the last frame. -/
theorem test_witness_PartialWritesPersist :
    ([0x01, 0x02, 0x03] : List Byte).length = (3 : Byte).toNat ∧ ([0x01, 0x02, 0x03] : List Byte)[2]? = some 0x03 ∧
    1 ≤ 10 ∧ 10 ≤ 51 ∧ (bench [] (some 112)).env.answersFailAt (51 * 2 + 10) = true ∧
    (bench [] (some 153)).env.answersFailAt (51 * 2 + 51) = true ∧ (bench [] (some 112)).initFlag = true ∧
    (2 : Byte).toNat + (3 : Byte).toNat ≤ 31 ∧ (28 : Byte).toNat + (3 : Byte).toNat ≤ 31 ∧ (28 : Byte).toNat ≤ 30 := by decide

theorem test_witness_PublicRequestsExpand :
    (bench [] none).initFlag = true ∧ (8 : Byte).toNat ≤ 8 ∧ (31 : Byte).toNat ≤ 31 ∧ (25 : Byte).toNat ≤ 30 ∧
    (25 : Byte).toNat + (6 : Byte).toNat ≤ 31 := by decide

theorem test_witness_BcdConverters :
    (99 : Byte).toNat ≤ 99 ∧ 100 ≤ (100 : Byte).toNat ∧ (159 : Byte).toNat ≤ 159 := by decide

theorem test_witness_BcdLaws :
    (99 : Byte).toNat ≤ 99 ∧ (159 : Byte).toNat ≤ 159 ∧ 160 ≤ (160 : Byte).toNat ∧ (0x99 : Byte).toNat / 16 ≤ 9 ∧
    (0x99 : Byte).toNat % 16 ≤ 9 := by decide

/-- A record in range, of each format and at the bounds, and one out of range for each check. -/
theorem test_witness_TimeValidateChecksEveryRange :
    timeInRange exampleRecord ∧ timeInRange ⟨2100, 12, 7, 31, 23, 59, 59, 0x00, true⟩ ∧
    timeInRange ⟨2000, 1, 1, 1, 0, 0, 0, 0x00, false⟩ ∧ ¬timeInRange { exampleRecord with hour := 13 } ∧
    ¬timeInRange { exampleRecord with format := 0x02 } ∧ ¬timeInRange { exampleRecord with year := 1999 } := by
  refine ⟨?_, ?_, ?_, ?_, ?_, ?_⟩ <;> simp only [timeInRange, exampleRecord] <;> decide

theorem test_witness_TimeEncodeGivesTheSevenWrites :
    exampleRecord.format = 0x01#8 ∧ (⟨2100, 12, 7, 31, 23, 59, 59, 0x00, true⟩ : TimeRecord).format = 0x00#8 := by decide

theorem test_witness_SetTimeReadsThenWritesSeven :
    (bench [] none).initFlag = true ∧ (bench [] none).env.answersOk 407 = true ∧
    (bench [] (some 50)).env.answersFailAt 50 = true ∧ (bench [] (some 407)).env.answersFailAt 407 = true := by decide

theorem test_witness_GetTimeReadsSevenAndDecodes :
    (bench [] none).initFlag = true ∧ (bench [] none).env.answersOk 350 = true ∧
    (bench [] (some 350)).env.answersFailAt 350 = true := by decide

/-- The cells P1 leaves. -/
def setCells : List Host.Cell :=
  [(0x80, 0x85), (0x82, 0x42), (0x84, 0xB1), (0x86, 0x14), (0x88, 0x06), (0x8A, 0x03), (0x8C, 0x31)]

theorem test_witness_TimeRoundTrip :
    timeInRange exampleRecord ∧
    timeEncode exampleRecord 0x80 =
      [(0x80#8, 0x85), (0x82#8, 0x42), (0x84#8, 0xB1), (0x8A#8, 0x03), (0x86#8, 0x14), (0x88#8, 0x06), (0x8C#8, 0x31)] ∧
    (bench setCells none).initFlag = true ∧ (bench setCells none).env.answersOk 350 = true ∧
    ∃ t, exec (.getTime true true) (bench setCells none) = .next t ∧
      bytesOfBits 7 (sampled t.trace) = [0x85, 0x42, 0xB1, 0x14, 0x06, 0x03, 0x31] := by
  refine ⟨test_witness_TimeValidateChecksEveryRange.1, by decide, rfl, rfl, ?_⟩
  have hs := sim_out_of_read (sim_regReadMultiple (clockWrite idxSecond) timeReadLen)
    fun b => Out.record (timeDecode (timeBytesOf b))
  obtain ⟨t, ht, hl⟩ := sampled_of_sim (i := .getTime true true) (s := bench setCells none) (n := 350) rfl
    (guard_passes rfl rfl) hs rfl (pins_readMultiMoves _ 0 7)
  refine ⟨t, ht, ?_⟩
  rw [hl]
  decide +kernel

theorem test_witness_OscillatorRequests :
    (bench [] none).initFlag = true ∧ (bench [] none).env.answersOk 101 = true ∧
    (bench [] (some 50)).env.answersFailAt 50 = true ∧ (bench [] (some 101)).env.answersFailAt 101 = true ∧
    (bench [] none).env.answersOk 50 = true := by decide

theorem test_witness_WriteProtectRequests :
    (bench [] none).initFlag = true ∧ (bench [] none).env.answersOk 101 = true ∧
    (bench [] (some 1)).env.answersFailAt 1 = true ∧ (bench [] (some 101)).env.answersFailAt 101 = true := by decide

theorem test_witness_ChargeRequests :
    (bench [] none).initFlag = true ∧ (bench [] none).env.answersOk 51 = true ∧
    (bench [] (some 51)).env.answersFailAt 51 = true ∧ (bench [] none).env.answersOk 50 = true := by decide

/-- The bounds of 44_chip_control.md R506: (25,6), (0,31), (0,0) inside; (25,7), (31,0), (31,1) outside. -/
theorem test_witness_RamRequests :
    (bench [] none).initFlag = true ∧ ([1, 2, 3, 4, 5, 6] : List Byte).length = (6 : Byte).toNat ∧
    ((25 : Byte).toNat : Int) ≤ 30 ∧ ((25 : Byte).toNat : Int) + (6 : Byte).toNat - 1 ≤ 30 ∧
    ((0 : Byte).toNat : Int) + (31 : Byte).toNat - 1 ≤ 30 ∧ ((0 : Byte).toNat : Int) + (0 : Byte).toNat - 1 ≤ 30 ∧
    30 < ((25 : Byte).toNat : Int) + (7 : Byte).toNat - 1 ∧ 30 < ((31 : Byte).toNat : Int) ∧
    ([] : List Byte).length = (0 : Byte).toNat ∧
    (bench [] none).env.answersOk (51 * 6) = true ∧ (bench [] (some 306)).env.answersFailAt 306 = true ∧
    (bench [] none).env.answersOk (50 * (31 : Byte).toNat) = true := by decide

theorem test_witness_TogglesAreIdempotent (a : HostAct) : Inv (benchWith a) ∧ (benchWith a).onDouble ∧
    (benchWith a).initFlag = true := ⟨(test_witness_inv a).2, ⟨rfl, rfl, rfl⟩, rfl⟩

theorem test_witness_WireWriteRowsSendTheirFrame :
    (30 : BitVec 5).toNat ≤ 30 ∧ (0 : BitVec 5).toNat ≤ 30 ∧ 9 ≤ (9 : BitVec 5).toNat ∧
    (bench [] none).env.answersOk 51 = true ∧ (bench [] (some 51)).env.answersFailAt 51 = true ∧
    (Instr.cmdWrSecond 5, 0x80#8) ∈ [(Instr.cmdWrSecond 5, 0x80#8), (Instr.cmdWrMinute 5, 0x82#8)] := by decide

theorem test_witness_WireReadRowsSendTheirFrame :
    (30 : BitVec 5).toNat ≤ 30 ∧ 9 ≤ (9 : BitVec 5).toNat ∧ (bench [] none).env.answersOk 50 = true ∧
    (bench [] (some 50)).env.answersFailAt 50 = true := by decide

theorem test_witness_WireBurstRowsSendTheirFrame :
    ([5, 6] : List Byte).length = (2 : Byte).toNat ∧ (bench [] none).env.answersOk 75 = true ∧
    (bench [] (some 75)).env.answersFailAt 75 = true ∧ (bench [] none).env.answersOk (26 + 24 * (255 : Byte).toNat) = true := by
  decide

theorem test_witness_RequestsWriteOnlyTheirCells :
    Inv (bench [(0x80, 0xA5), (0xFC, 0x66)] none) ∧
    exec (.cmdWrSecond 1) (bench [(0x80, 0xA5), (0xFC, 0x66)] none) =
      .next (after (.cmdWrSecond 1) (bench [(0x80, 0xA5), (0xFC, 0x66)] none)) ∧
    storesTo (.cmdWrSecond 1) = [0x80] ∧ storesTo (.engReadByte 0x81) = [] ∧
    storesTo (.writeRam true 29 2 (some [1, 2])) = [0xFA, 0xFC] ∧ storesTo (.setReg true 0xFE 2 (some [1, 2])) = [0xC0] :=
  ⟨(test_witness_inv (.request [])).1, rfl, by decide, by decide, by decide, by decide⟩

theorem test_witness_WritesLandInTheirCells :
    cmdMarker 0x80 = true ∧ cmdRw 0x80 = false ∧ cmdIdx 0x80 ≠ 31 ∧ cmdIdx 0xFC ≠ 31 ∧
    (List.replicate 9 (7 : Byte)).length = (9 : Byte).toNat ∧ (List.replicate 32 (7 : Byte)).length = (32 : Byte).toNat ∧
    ([] : List Byte).length = (0 : Byte).toNat ∧ (0xBE#8, 128) ∈ [(0xBE#8, 128), (0xFE#8, 192)] ∧
    (0xFE#8, 192) ∈ [(0xBE#8, 128), (0xFE#8, 192)] := by
  decide

theorem test_witness_ReadsReturnTheCells :
    cmdMarker 0xFD = true ∧ cmdRw 0xFD = true ∧ cmdIdx 0xFD ≠ 31 ∧ (8 : Byte).toNat ≤ 8 ∧ (31 : Byte).toNat ≤ 31 ∧
    (0xBF#8, 128) ∈ [(0xBF#8, 128), (0xFF#8, 192)] ∧ (0xFF#8, 192) ∈ [(0xBF#8, 128), (0xFF#8, 192)] ∧
    cmdMarker 0x80 = true ∧ cmdRw 0x80 = false ∧ cmdIdx 0x80 ≠ 31 := by
  decide

/-- A failure in this request, and a failure of an earlier one. -/
theorem test_witness_InjectedFailureIsOneEvent :
    exec (.setCharge true 0xA5) (bench [] (some 12)) = .next (after (.setCharge true 0xA5) (bench [] (some 12))) ∧
    (bench [] (some 12)).env.responder = .double (some ⟨1, 12⟩) ∧
    (after (.setCharge true 0xA5) (bench [] (some 12))).env.requests = 1 ∧
    ((after (.setCharge true 0xA5) (bench [] (some 12))).trace.filter fun r => r.event.isPin)[11]? =
      some ⟨.clkWrite true, .fail⟩ := ⟨rfl, rfl, by decide +kernel, by decide +kernel⟩

theorem test_witness_BurstEqualsMultiple :
    (31 : Byte).toNat ≤ 31 ∧ (List.replicate 31 (7 : Byte)).length = (31 : Byte).toNat ∧ (bench [] none).initFlag = true := by
  decide

end Sys2Proof.Machine
end

section
/-! SUPPORT. What the fetch and the step answer for each first act of the inbox (00_scope.md R5; log entry 9). -/

namespace Sys2Proof.Machine

theorem fetchRecord_of_decode_ok {sp : Space} {bs : List Byte} {i : Instr} (s : State) (h : decode sp bs = .ok i) :
    fetchRecord sp bs s = .run i s := by
  simp [fetchRecord, h]

theorem fetchRecord_of_decode_error {sp : Space} {bs : List Byte} {r : Reject} (s : State)
    (h : decode sp bs = .error r) : fetchRecord sp bs s = .bad (refusalOf r) := by
  simp [fetchRecord, h]

theorem fetch_of_inbox_nil {s : State} (h : s.inbox = []) : fetch s = .idle := by
  simp [fetch, h]

theorem fetch_of_inbox_bind {s : State} {c : Cap} {on : Bool} {rest : List HostAct}
    (h : s.inbox = .bind c on :: rest) : fetch s = .bind c on { s with inbox := rest } := by
  simp [fetch, h]

/-- A record of either space is fetched by the one rule `fetchRecord`. -/
theorem fetch_of_inbox_record {s : State} {sp : Space} {bs : List Byte} {rest : List HostAct}
    (h : s.inbox = recordAct sp bs :: rest) : fetch s = fetchRecord sp bs { s with inbox := rest } := by
  cases sp with
  | request => simp [fetch, h, recordAct]
  | command => simp [fetch, h, recordAct]

theorem step_of_inbox_nil {s : State} (h : s.inbox = []) : step s = .next s := by
  simp [step, fetch_of_inbox_nil h]

theorem step_of_inbox_bind {s : State} {c : Cap} {on : Bool} {rest : List HostAct}
    (h : s.inbox = .bind c on :: rest) : step s = hostBind c on { s with inbox := rest } := by
  simp [step, fetch_of_inbox_bind h]

theorem step_of_decode_ok {s : State} {sp : Space} {bs : List Byte} {rest : List HostAct} {i : Instr}
    (h : s.inbox = recordAct sp bs :: rest) (hd : decode sp bs = .ok i) :
    step s = exec i { s with inbox := rest } := by
  simp [step, fetch_of_inbox_record h, fetchRecord_of_decode_ok _ hd]

theorem step_of_decode_error {s : State} {sp : Space} {bs : List Byte} {rest : List HostAct} {r : Reject}
    (h : s.inbox = recordAct sp bs :: rest) (hd : decode sp bs = .error r) :
    step s = .refused (refusalOf r) := by
  simp [step, fetch_of_inbox_record h, fetchRecord_of_decode_error _ hd]

end Sys2Proof.Machine
end

section
/-! CERTIFICATE. The step (00_scope.md). -/

namespace Sys2Proof.Machine

/-- Settles O7: the step's four answers, one for each kind of first act. -/
theorem stepRunsTheDecodedInstruction : Obligations.StepRunsTheDecodedInstruction :=
  ⟨fun _ _ _ _ _ => step_of_decode_ok, fun _ _ _ _ _ => step_of_decode_error,
    fun _ _ _ _ => step_of_inbox_bind, fun _ => step_of_inbox_nil⟩

end Sys2Proof.Machine
end

section
/-! SUPPORT. INIT and DEINIT: which events they issue, how they can end, and that the target never sees them
(45_lifecycle.md R600, R601; 20_memory.md R81). -/

namespace Sys2Proof.Machine

/-- The events of INIT and DEINIT: the initialisation and the release of one of the three lines. -/
def Event.isLine : Event → Bool
  | .ceInit | .ceDeinit | .clkInit | .clkDeinit | .ioInit | .ioDeinit => true
  | .ceWrite _ | .clkWrite _ | .ioWrite _ | .ioRead | .delayMs _ | .delayUs _ | .debugPrint => false

/-- A line event is answered ok or fail: it has no level and it is no delay. -/
theorem respond_line {e : Event} (he : e.isLine = true) (v : Env) :
    (v.respond e).1 = if (v.answer e).1.ok then .ok else .fail := by
  cases e <;> cases he <;> rfl

theorem respond_line_ok {e : Event} (he : e.isLine = true) {v : Env} (h : (v.respond e).1 ≠ .fail) :
    (v.respond e).1 = .ok := by
  rw [respond_line he] at h ⊢
  cases ha : (v.answer e).1.ok with
  | true => rfl
  | false => exact absurd (if_neg (by simp [ha])) h

/-- No line event reaches the double. -/
theorem observe_line {e : Event} (he : e.isLine = true) (d : Double) (w : Bool) : (d.observe w e).double = d := by
  cases e <;> cases he <;> rfl

/-- A line event leaves the double as it was, whoever answers and whatever. -/
theorem respond_line_double {e : Event} (he : e.isLine = true) (v : Env) : (v.respond e).2.double = v.double := by
  cases hr : v.responder with
  | world => exact respond_world hr e
  | double f =>
    by_cases hf : (v.respond e).1 = .fail
    · exact respond_double_fail hr hf
    · rw [respond_double hr hf, observe_line he]

theorem moves_lines_double {l : List Event} (hl : ∀ e ∈ l, e.isLine = true) (v : Env) :
    (v.moves (evs l)).double = v.double := by
  induction l generalizing v with
  | nil => rfl
  | cons e l ih =>
    rw [evs_cons, env_moves_cons, ih fun x hx => hl x (.tail _ hx)]
    exact respond_line_double (hl e (.head _)) v

/-- Line events that did not fail show in the trace as answered ok. -/
theorem moves_lines_trace {l : List Event} (hl : ∀ e ∈ l, e.isLine = true) {s : State}
    (hok : s.env.okMoves (evs l)) : (s.moves (evs l)).trace = s.trace ++ l.map fun e => ⟨e, .ok⟩ := by
  induction l generalizing s with
  | nil => simp
  | cons e l ih =>
    have hr : (s.env.respond e).1 = .ok := respond_line_ok (hl e (.head _)) hok.1
    rw [evs_cons, moves_cons, ih (fun x hx => hl x (.tail _ hx)) (by rw [move_env]; exact hok.2)]
    simp [State.move, hr]

/-- How INIT or DEINIT ends once its checks have passed: at a failed line event, with whatever line events followed it,
or after all its line events `l`, with the init flag at `flag`. -/
inductive LinesEnding (i : Instr) (l : List Event) (flag : Bool) (s t : State) : Prop where
  | failed (l' : List Event) (hl : ∀ e ∈ l', e.isLine = true)
      (ht : t = finish (.error .lifecycleFailure ((s.accept i).moves (evs l'))))
  | done (hok : (s.accept i).env.okMoves (evs l))
      (ht : t = finish (.ok .none (((s.accept i).moves (evs l)).withInit flag)))

/-- INIT ends turned away, or, with its handle and every capability bound, as its line events say (R600). -/
theorem exec_init_ending {h : Bool} {s t : State} (hx : exec (.init h) s = .next t) :
    (∃ k, k ≠ .success ∧ t = s.rejected k) ∨
    (h = true ∧ s.caps.allBound = true ∧ LinesEnding (.init h) [.ceInit, .clkInit, .ioInit] true s t) := by
  cases h with
  | false =>
    rw [exec_init_absent, Host.Outcome.next.injEq] at hx
    exact .inl ⟨.nullArgument, nofun, hx.symm⟩
  | true =>
    cases hb : s.caps.allBound with
    | false =>
      rw [exec_init_unbound s hb, Host.Outcome.next.injEq] at hx
      exact .inl ⟨.lifecycleFailure, nofun, hx.symm⟩
    | true =>
      refine .inr ⟨rfl, rfl, ?_⟩
      rw [exec_init_up s hb, Host.Outcome.next.injEq] at hx
      dsimp only at hx
      split at hx
      · exact .failed [.ceInit] (by decide) hx.symm
      · next h1 =>
        split at hx
        · exact .failed [.ceInit, .clkInit, .ceDeinit] (by decide) hx.symm
        · next h2 =>
          split at hx
          · exact .failed [.ceInit, .clkInit, .ioInit, .clkDeinit, .ceDeinit] (by decide) hx.symm
          · next h3 => exact .done ⟨h1, h2, h3, trivial⟩ hx.symm

/-- DEINIT ends turned away, or as its line events say (R601). -/
theorem exec_deinit_ending {h : Bool} {s t : State} (hx : exec (.deinit h) s = .next t) :
    (∃ k, k ≠ .success ∧ t = s.rejected k) ∨
    LinesEnding (.deinit h) [.ceDeinit, .clkDeinit, .ioDeinit] false s t := by
  cases h with
  | false =>
    rw [exec_deinit_absent, Host.Outcome.next.injEq] at hx
    exact .inl ⟨.nullArgument, nofun, hx.symm⟩
  | true =>
    cases hi : s.initFlag with
    | false =>
      rw [exec_deinit_uninit s hi, Host.Outcome.next.injEq] at hx
      exact .inl ⟨.notInitialized, nofun, hx.symm⟩
    | true =>
      refine .inr ?_
      rw [exec_deinit_down s hi, Host.Outcome.next.injEq] at hx
      dsimp only at hx
      split at hx
      · exact .failed [.ceDeinit] (by decide) hx.symm
      · next h1 =>
        split at hx
        · exact .failed [.ceDeinit, .clkDeinit] (by decide) hx.symm
        · next h2 =>
          split at hx
          · exact .failed [.ceDeinit, .clkDeinit, .ioDeinit] (by decide) hx.symm
          · next h3 => exact .done ⟨h1, h2, h3, trivial⟩ hx.symm

/-- An instruction is INIT, DEINIT or one of the others. -/
theorem lifecycle_or_other (i : Instr) :
    (∃ b, i = .init b) ∨ (∃ b, i = .deinit b) ∨ ((∀ b, i ≠ .init b) ∧ ∀ b, i ≠ .deinit b) := by
  by_cases h1 : ∃ b, i = .init b
  · exact .inl h1
  · by_cases h2 : ∃ b, i = .deinit b
    · exact .inr (.inl h2)
    · exact .inr (.inr ⟨fun b h => h1 ⟨b, h⟩, fun b h => h2 ⟨b, h⟩⟩)

/-- The three ways an instruction can end, by which kind it is. -/
theorem exec_next_cases {i : Instr} {s t : State} (h : exec i s = .next t) :
    (∃ k, k ≠ .success ∧ t = s.rejected k) ∨
    (∃ l flag, (flag = true → s.caps.allBound = true) ∧ (∀ e ∈ l, e.isLine = true) ∧ LinesEnding i l flag s t) ∨
    Ending i s t := by
  obtain ⟨b, rfl⟩ | ⟨b, rfl⟩ | ⟨h1, h2⟩ := lifecycle_or_other i
  · rcases exec_init_ending h with hk | ⟨-, hb, hl⟩
    · exact .inl hk
    · exact .inr (.inl ⟨_, true, fun _ => hb, by decide, hl⟩)
  · rcases exec_deinit_ending h with hk | hl
    · exact .inl hk
    · exact .inr (.inl ⟨_, false, nofun, by decide, hl⟩)
  · exact .inr (.inr (exec_ending h h1 h2))

end Sys2Proof.Machine
end

section
/-! SUPPORT. The reference double stays in order through every request (20_memory.md R80 to R86): its memory canonical, its
bit count in range, its clock low whenever CE is low. -/

namespace Sys2Proof.Machine

/-- What the invariant says of the double (Safety.lean, Inv). -/
structure Double.Sound (d : Double) : Prop where
  memory : Memory.wf d.mem = true
  bits : d.nbits < 8
  framed : d.framed

/-- A failed event leaves the double as it was (R86). -/
theorem respond_fail_double {v : Env} {e : Event} (h : (v.respond e).1 = .fail) :
    (v.respond e).2.double = v.double := by
  cases hr : v.responder with
  | world => exact respond_world hr e
  | double f => exact respond_double_fail hr h

/-- An event breaks neither the memory's form nor the bit count's range, whoever answers and whatever. -/
theorem respond_keeps {v : Env} (e : Event) (hm : Memory.wf v.double.mem = true) (hn : v.double.nbits < 8) :
    Memory.wf (v.respond e).2.double.mem = true ∧ (v.respond e).2.double.nbits < 8 := by
  by_cases hf : (v.respond e).1 = .fail
  · rw [respond_fail_double hf]
    exact ⟨hm, hn⟩
  · cases hr : v.responder with
    | world =>
      rw [respond_world hr]
      exact ⟨hm, hn⟩
    | double f =>
      rw [respond_double hr hf]
      exact observe_keeps hm hn

theorem moves_keep {v : Env} (l : List Move) (hm : Memory.wf v.double.mem = true) (hn : v.double.nbits < 8) :
    Memory.wf (v.moves l).double.mem = true ∧ (v.moves l).double.nbits < 8 := by
  induction l generalizing v with
  | nil => exact ⟨hm, hn⟩
  | cons m l ih =>
    cases m with
    | release => exact ih hm hn
    | ev e =>
      obtain ⟨hm', hn'⟩ := respond_keeps e hm hn
      exact ih hm' hn'

/-- Whole frames drop CE only while the clock is low, from any known lines. -/
theorem Frames.closes {l : List Move} (h : Frames l) (w : Bool × Bool) : closes w l = true := by
  induction h generalizing w with
  | nil => rfl
  | write c l _ ih => rw [closes_append, (closes_burstWrite w c l).1, (closes_burstWrite w c l).2, ih]; rfl
  | read c n _ ih => rw [closes_append, (closes_burstRead w c n).1, (closes_burstRead w c n).2, ih]; rfl

/-- Any part of whole frames, all answered ok, leaves the double framed. -/
theorem Frames.framed {a b : List Move} (h : Frames (a ++ b)) {v : Env} (hf : v.double.framed) (ha : v.okMoves a) :
    (v.moves a).double.framed := by
  cases hr : v.responder with
  | world => rwa [world_moves hr]
  | double f => exact along_at (along_framed (w := (false, false)) _ hr hf nofun nofun (h.closes _)) ha

theorem Frames.sound {a b : List Move} (h : Frames (a ++ b)) {v : Env} (hd : v.double.Sound) (ha : v.okMoves a) :
    (v.moves a).double.Sound := by
  obtain ⟨hm, hn⟩ := moves_keep a hd.memory hd.bits
  exact ⟨hm, hn, h.framed hd.framed ha⟩

/-- Every request but INIT and DEINIT leaves the double in order. -/
theorem Ending.sound {i : Instr} {s t : State} (h : Ending i s t) (hd : s.env.double.Sound) : t.env.double.Sound := by
  cases h with
  | rejected k hk ht => rwa [ht]
  | done l o hl hok ht =>
    rw [ht, finish_ok_env, moves_env]
    exact Frames.sound (b := []) (by rwa [List.append_nil]) hd hok
  | failed l e b hl hk hok he ht =>
    rw [ht, finish_error_env, State.issue_env, moves_env, respond_fail_double he]
    exact hl.sound hd hok

/-- INIT and DEINIT do not reach the double. -/
theorem LinesEnding.double {i : Instr} {l : List Event} {flag : Bool} {s t : State} (h : LinesEnding i l flag s t)
    (hl : ∀ e ∈ l, e.isLine = true) : t.env.double = s.env.double := by
  cases h with
  | failed l' hl' ht => rw [ht, finish_error_env, moves_env, moves_lines_double hl']; rfl
  | done hok ht => rw [ht, finish_ok_env, State.withInit_env, moves_env, moves_lines_double hl]; rfl

end Sys2Proof.Machine
end

section
/-! SUPPORT. What one step keeps: a request, a bind, and the step itself (10_state.md R21, R24, R27; 60_exceptions.md
R706). -/

namespace Sys2Proof.Machine

theorem Inv.sound {s : State} (h : Inv s) : s.env.double.Sound := ⟨h.memory, h.bits, h.framed⟩

/-- The invariant does not speak of the acts still pending. -/
theorem Inv.withInbox {s : State} (h : Inv s) (l : List HostAct) : Inv { s with inbox := l } :=
  ⟨h.memory, h.bits, h.framed, h.idle, h.datapath, h.output, h.bound⟩

/-- A request that a check turned away. -/
theorem Inv.rejected {s : State} (h : Inv s) (k : Status) : Inv (s.rejected k) :=
  ⟨h.memory, h.bits, h.framed, rfl, rfl, fun _ => rfl, h.bound⟩

/-- Whatever a request's end is, the block is at rest; what is left to show is the double and the capabilities. -/
theorem inv_finish {r : EStateM.Result Status State Out} (hd : (finish r).env.double.Sound)
    (hb : (finish r).initFlag = true → (finish r).caps.allBound = true) : Inv (finish r) := by
  obtain ⟨hm, hn, hf⟩ := hd
  cases r with
  | ok o s => exact ⟨hm, hn, hf, rfl, rfl, fun hs => absurd rfl hs, hb⟩
  | error k s => exact ⟨hm, hn, hf, rfl, rfl, fun _ => rfl, hb⟩

theorem Inv.ending {i : Instr} {s t : State} (h : Inv s) (he : Ending i s t) : Inv t := by
  have hd := he.sound h.sound
  cases he with
  | rejected k hk ht => exact ht ▸ h.rejected k
  | done l o hl hok ht =>
    subst ht
    exact inv_finish hd (by simpa using h.bound)
  | failed l e b hl hk hok hf ht =>
    subst ht
    exact inv_finish hd (by simpa using h.bound)

/-- INIT and DEINIT, where a flag they set needs every capability bound. -/
theorem Inv.linesEnding {i : Instr} {l : List Event} {flag : Bool} {s t : State} (h : Inv s)
    (he : LinesEnding i l flag s t) (hl : ∀ e ∈ l, e.isLine = true) (hf : flag = true → s.caps.allBound = true) :
    Inv t := by
  have hd : t.env.double.Sound := he.double hl ▸ h.sound
  cases he with
  | failed l' hl' ht =>
    subst ht
    exact inv_finish hd (by simpa using h.bound)
  | done hok ht =>
    subst ht
    exact inv_finish hd (by simpa using hf)

/-- Every request keeps the invariant. -/
theorem Inv.exec {i : Instr} {s t : State} (h : Inv s) (hx : exec i s = .next t) : Inv t := by
  rcases exec_next_cases hx with ⟨k, -, rfl⟩ | ⟨l, flag, hf, hl, he⟩ | he
  · exact h.rejected k
  · exact h.linesEnding he hl hf
  · exact h.ending he

/-! ## The host's binds -/

theorem Caps.get_set (c : Caps) (x y : Cap) (on : Bool) :
    (c.set x on).get y = if y = x then on else c.get y := by
  cases x <;> cases y <;> rfl

@[simp] theorem Caps.set_get_self (c : Caps) (x : Cap) : c.set x (c.get x) = c := by cases x <;> rfl

/-- A bind before INIT, or one that changes nothing, is done. -/
theorem hostBind_of_free {s : State} {c : Cap} {on : Bool} (h : s.initFlag = false ∨ s.caps.get c = on) :
    hostBind c on s = .next { s with caps := s.caps.set c on } := by
  rcases h with h | h <;> simp [hostBind, h]

/-- A bind that would change a capability of an initialised block has no move (decision D26). -/
theorem hostBind_of_change {s : State} {c : Cap} {on : Bool} (hi : s.initFlag = true) (hc : s.caps.get c ≠ on) :
    hostBind c on s = .fault .rebindWhileInitialised := by
  simp [hostBind, hi, hc]

theorem Inv.hostBind {s t : State} {c : Cap} {on : Bool} (h : Inv s) (hx : hostBind c on s = .next t) : Inv t := by
  by_cases hc : s.caps.get c = on
  · rw [hostBind_of_free (.inr hc), ← hc, Caps.set_get_self, Host.Outcome.next.injEq] at hx
    exact hx ▸ h
  · cases hi : s.initFlag with
    | true =>
      rw [hostBind_of_change hi hc] at hx
      cases hx
    | false =>
      rw [hostBind_of_free (.inl hi), Host.Outcome.next.injEq] at hx
      subst hx
      exact ⟨h.memory, h.bits, h.framed, h.idle, h.datapath, h.output, fun ht => nomatch hi.symm.trans ht⟩

/-! ## The step -/

/-- A step that takes a record and goes on runs the instruction the record spells. -/
theorem exec_of_step_record {s t : State} {sp : Space} {bs : List Byte} {rest : List HostAct}
    (hs : s.inbox = recordAct sp bs :: rest) (h : step s = .next t) :
    ∃ i, exec i { s with inbox := rest } = .next t := by
  cases hd : decode sp bs with
  | ok i => exact ⟨i, by rw [← h, step_of_decode_ok hs hd]⟩
  | error r =>
    rw [step_of_decode_error hs hd] at h
    cases h

/-- A step that goes on idles, binds, or runs an instruction, with the act taken off the inbox. -/
theorem step_next_cases {s t : State} (h : step s = .next t) :
    t = s ∨ ∃ rest, (∃ c on, hostBind c on { s with inbox := rest } = .next t) ∨
      ∃ i, exec i { s with inbox := rest } = .next t := by
  cases hs : s.inbox with
  | nil =>
    rw [step_of_inbox_nil hs, Host.Outcome.next.injEq] at h
    exact .inl h.symm
  | cons act rest =>
    cases act with
    | bind c on => exact .inr ⟨rest, .inl ⟨c, on, by rw [← h, step_of_inbox_bind hs]⟩⟩
    | request bs => exact .inr ⟨rest, .inr (exec_of_step_record (sp := .request) hs h)⟩
    | command bs => exact .inr ⟨rest, .inr (exec_of_step_record (sp := .command) hs h)⟩

theorem Inv.step {s t : State} (h : Inv s) (hx : step s = .next t) : Inv t := by
  rcases step_next_cases hx with rfl | ⟨rest, ⟨c, on, hb⟩ | ⟨i, hi⟩⟩
  · exact h
  · exact (h.withInbox rest).hostBind hb
  · exact (h.withInbox rest).exec hi

theorem inv_reset : Inv State.reset := ⟨rfl, by decide, nofun, rfl, rfl, fun _ => rfl, nofun⟩

end Sys2Proof.Machine
end

section
/-! CERTIFICATE. The invariant (10_state.md R21, R24, R27; 60_exceptions.md R706; 20_memory.md R80). -/

namespace Sys2Proof.Machine

/-- Settles O11: a step idles, binds or runs a request, and each keeps every part of the invariant. -/
theorem everyStepKeepsTheInvariant : Obligations.EveryStepKeepsTheInvariant := fun _ _ h hx => h.step hx

/-- Settles O10, part by part. -/
theorem resetMeetsTheInvariant : Obligations.ResetMeetsTheInvariant := inv_reset

end Sys2Proof.Machine
end

section
/-! SUPPORT. What a request leaves alone, and when INIT and DEINIT move the init flag (10_state.md R20, R21, R25). -/

namespace Sys2Proof.Machine

@[simp] theorem State.rejected_initFlag (s : State) (k : Status) : (s.rejected k).initFlag = s.initFlag := rfl
@[simp] theorem State.rejected_caps (s : State) (k : Status) : (s.rejected k).caps = s.caps := rfl
@[simp] theorem State.rejected_inbox (s : State) (k : Status) : (s.rejected k).inbox = s.inbox := rfl
@[simp] theorem State.rejected_status (s : State) (k : Status) : (s.rejected k).status = some k := rfl

/-- A request of the engine and of the layers above it keeps the block's own state. -/
theorem Ending.keeps {i : Instr} {s t : State} (h : Ending i s t) :
    t.initFlag = s.initFlag ∧ t.caps = s.caps ∧ t.inbox = s.inbox := by
  cases h with
  | rejected k hk ht => simp [ht]
  | done l o hl hok ht => simp [ht]
  | failed l e b hl hk hok he ht => simp [ht]

theorem LinesEnding.keeps {i : Instr} {l : List Event} {flag : Bool} {s t : State} (h : LinesEnding i l flag s t) :
    t.caps = s.caps ∧ t.inbox = s.inbox := by
  cases h with
  | failed l' hl ht => simp [ht]
  | done hok ht => simp [ht]

/-- No request writes the capabilities or the host's pending acts. -/
theorem exec_keeps {i : Instr} {s t : State} (h : exec i s = .next t) : t.caps = s.caps ∧ t.inbox = s.inbox := by
  rcases exec_next_cases h with ⟨k, -, rfl⟩ | ⟨l, flag, -, -, he⟩ | he
  · exact ⟨rfl, rfl⟩
  · exact he.keeps
  · exact he.keeps.2

/-- INIT and DEINIT write the flag exactly when they end with Success. -/
theorem LinesEnding.initFlag {i : Instr} {l : List Event} {flag : Bool} {s t : State} (h : LinesEnding i l flag s t) :
    t.initFlag = if t.status = some .success then flag else s.initFlag := by
  cases h with
  | failed l' hl ht => simp [ht]
  | done hok ht => simp [ht]

/-- Success of INIT and DEINIT needs all three line events answered ok. -/
theorem LinesEnding.trace_of_success {i : Instr} {l : List Event} {flag : Bool} {s t : State}
    (h : LinesEnding i l flag s t) (hl : ∀ e ∈ l, e.isLine = true) (hs : t.status = some .success) :
    t.trace = l.map fun e => ⟨e, .ok⟩ := by
  cases h with
  | failed l' hl' ht => simp [ht] at hs
  | done hok ht => simp [ht, moves_lines_trace hl hok]

/-- A request turned away without Success leaves the flag, whatever Success would have made it. -/
theorem rejected_initFlag_eq_ite {s : State} {k : Status} (hk : k ≠ .success) (flag : Bool) :
    (s.rejected k).initFlag = if (s.rejected k).status = some .success then flag else s.initFlag := by
  simp [hk]

end Sys2Proof.Machine
end

section
/-! SUPPORT. What a request does not read. An update of the state that commutes with every move is not seen by a transfer,
so the request ends as it would have without the update, up to the update itself (10_state.md R21, R24). -/

namespace Sys2Proof.Machine

/-- An update that no move of a program reads or undoes; of the datapath registers it may make anything. -/
structure Unread (g : State → State) : Prop where
  env : ∀ s, (g s).env = s.env
  issue : ∀ s e, g (s.issue e) = (g s).issue e
  release : ∀ s : State, g s.release = (g s).release
  withDp : ∀ s d, (g (s.withDp d)).bare = (g s).bare

/-- A result with its state updated. -/
def mapRes {α : Type} (g : State → State) : EStateM.Result Status State α → EStateM.Result Status State α
  | .ok a s => .ok a (g s)
  | .error k s => .error k (g s)

theorem Unread.bare_congr {g : State → State} (hg : Unread g) {s t : State} (h : s.bare = t.bare) :
    (g s).bare = (g t).bare := by
  rw [eq_withDp_of_bare h, hg.withDp]

theorem Unread.bareRes_congr {α : Type} {g : State → State} (hg : Unread g) {r r' : EStateM.Result Status State α}
    (h : bareRes r = bareRes r') : bareRes (mapRes g r) = bareRes (mapRes g r') := by
  cases r <;> cases r' <;> simp only [bareRes, reduceCtorEq, EStateM.Result.ok.injEq, EStateM.Result.error.injEq] at h
  · simp [mapRes, bareRes, h.1, hg.bare_congr h.2]
  · simp [mapRes, bareRes, h.1, hg.bare_congr h.2]

/-- The datapath registers may be overwritten after an update. -/
theorem Unread.then_withDp {g : State → State} (hg : Unread g) (d : Datapath) : Unread fun s => (g s).withDp d where
  env := hg.env
  issue s e := by rw [hg.issue, State.withDp_issue]
  release s := by rw [hg.release, State.withDp_release]
  withDp s d' := hg.withDp s d'

/-- The piece does not see an update: it goes on or raises as it would have, up to the datapath registers. -/
def Blind {α : Type} (m : Run α) : Prop :=
  ∀ g, Unread g → ∀ s, bareRes (m (g s)) = bareRes (mapRes g (m s))

theorem bareRes_mapRes_then_withDp {α : Type} (g : State → State) (d : Datapath) (r : EStateM.Result Status State α) :
    bareRes (mapRes (fun s => (g s).withDp d) r) = bareRes (mapRes g r) := by
  cases r <;> rfl

theorem bareRes_bind_unread {α β : Type} {m : Run α} {f : α → Run β} {g : State → State} (hg : Unread g) {s : State}
    (hm : bareRes (m (g s)) = bareRes (mapRes g (m s))) (hf : ∀ a, Blind (f a)) :
    bareRes ((m >>= f) (g s)) = bareRes (mapRes g ((m >>= f) s)) := by
  rw [run_bind, run_bind]
  cases h1 : m (g s) <;> cases h2 : m s <;>
    simp only [h1, h2, mapRes, bareRes, reduceCtorEq, EStateM.Result.ok.injEq, EStateM.Result.error.injEq] at hm
  case ok.ok a t b u =>
    obtain ⟨rfl, ht⟩ := hm
    have hx := hf a _ (hg.then_withDp t.dp) u
    rw [← eq_withDp_of_bare ht] at hx
    exact hx.trans (bareRes_mapRes_then_withDp g t.dp _)
  case error.error k t k' u =>
    simp [mapRes, bareRes, hm.1, hm.2]

theorem Blind.bind {α β : Type} {m : Run α} {f : α → Run β} (hm : Blind m) (hf : ∀ a, Blind (f a)) :
    Blind (m >>= f) := fun g hg s => bareRes_bind_unread hg (hm g hg s) hf

theorem Blind.pure {α : Type} (a : α) : Blind (pure a : Run α) := fun _ _ _ => rfl

theorem Blind.raise {α : Type} (k : Status) : Blind (raise k : Run α) := fun _ _ _ => rfl

theorem Blind.require (c : Bool) (k : Status) : Blind (require c k) := by
  cases c with
  | false => exact .raise k
  | true => exact .pure ()

theorem Blind.of_sim {α : Type} {m m' : Run α} (h : Sim m m') (hm : Blind m') : Blind m := fun g hg s =>
  calc bareRes (m (g s)) = bareRes (m' (g s)) := h.apply _
    _ = bareRes (mapRes g (m' s)) := hm g hg s
    _ = bareRes (mapRes g (m s)) := hg.bareRes_congr (h.apply s).symm

theorem runMoves_unread {g : State → State} (hg : Unread g) (l : List Move) (s : State) :
    runMoves l (g s) = mapRes g (runMoves l s) := by
  induction l generalizing s with
  | nil => rfl
  | cons m l ih =>
    cases m with
    | release => rw [runMoves_release, runMoves_release, ← hg.release, ih]
    | ev e =>
      rw [runMoves_ev, runMoves_ev, hg.env, ← hg.issue, ih]
      split <;> rfl

theorem Blind.runMoves (l : List Move) : Blind (runMoves l) := fun _ hg s => by rw [runMoves_unread hg]

theorem Blind.readMoves (l : List Move) : Blind (readMoves l) := by
  intro g hg s
  simp only [Machine.readMoves, runMoves_unread hg, hg.env]
  cases Machine.runMoves l s <;> rfl

/-! ## The transfers of the model -/

theorem blind_engWriteByte (c v : Byte) : Blind (engWriteByte c v) := .of_sim (sim_engWriteByte c v) (.runMoves _)

theorem blind_engReadByte (c : Byte) : Blind (engReadByte c) :=
  .of_sim (sim_engReadByte c) (.bind (.readMoves _) fun _ => .pure _)

theorem blind_regWriteMultiple (start n : Byte) (l : List Byte) : Blind (regWriteMultiple start n l) :=
  .of_sim (sim_regWriteMultiple start n l) (.runMoves _)

theorem blind_regReadMultiple (start n : Byte) : Blind (regReadMultiple start n) :=
  .of_sim (sim_regReadMultiple start n) (.bind (.readMoves _) fun _ => .pure _)

theorem blind_regBurstWrite (bc n : Byte) (l : List Byte) : Blind (regBurstWrite bc n l) :=
  .of_sim (sim_regBurstWrite bc n l) (.runMoves _)

theorem blind_regBurstRead (bc n : Byte) : Blind (regBurstRead bc n) :=
  .of_sim (sim_regBurstRead bc n) (.bind (.readMoves _) fun _ => .pure _)

theorem blind_readModifyWrite (idx : BitVec 5) (f : Byte → Byte) : Blind (readModifyWrite idx f) :=
  .of_sim (sim_readModifyWrite idx f) (.bind (.readMoves _) fun _ => .runMoves _)

theorem blind_setTimeFrames (r : TimeRecord) : Blind (setTimeFrames r) :=
  .of_sim (sim_setTimeFrames r) (.bind (.readMoves _) fun _ => .runMoves _)

/-! ## How an instruction is written -/

/-- The body of an instruction other than INIT and DEINIT: an internal one is blind as it stands, a public one is the guard
of its handle and operands, and blind after it (60_exceptions.md R710; 41_bit_engine.md R216). -/
inductive Written (i : Instr) : Run Out → Prop where
  | internal {m : Run Out} (hp : isPublic i = false) (hm : Blind m) : Written i m
  | guarded {ops : List Bool} {m : Run Out} (hp : isPublic i = true) (ho : ops.all id = operandOf i) (hm : Blind m) :
      Written i (guard (handleOf i) ops >>= fun _ => m)

/-- The instruction runs a body, from every state; or it is ill formed and refused, from every state. -/
def RunsBody (i : Instr) : Prop :=
  (∃ m, Written i m ∧ ∀ s, exec i s = .next (finish (m (s.accept i)))) ∨
  (i.wellFormed = false ∧ ∀ s, exec i s = .refused .bufferLengthMismatch)

theorem RunsBody.request {i : Instr} {m : Run Out} (hx : ∀ s, exec i s = runRequest i m s) (hw : Written i m) :
    RunsBody i := .inl ⟨m, hw, hx⟩

theorem RunsBody.buffered {i : Instr} {n : Byte} {w : Option (List Byte)} {m : Run Out}
    (hx : ∀ s, exec i s = runBuffered i n w m s) (hf : i.wellFormed = bufferFits n w) (hw : Written i m) :
    RunsBody i := by
  cases hb : bufferFits n w with
  | true => exact .inl ⟨m, hw, fun s => (hx s).trans (runBuffered_next m s hb)⟩
  | false => exact .inr ⟨hf.trans hb, fun s => by rw [hx, runBuffered, hb]; rfl⟩

theorem Written.transfer {i : Instr} {α : Type} {m : Run α} {f : α → Out} (h : Blind m)
    (hp : isPublic i = false := by rfl) : Written i (m >>= fun a => pure (f a)) :=
  .internal hp (.bind h fun _ => .pure _)

theorem Written.guardedTransfer {i : Instr} {α : Type} {ops : List Bool} {m : Run α} {f : α → Out} (h : Blind m)
    (hp : isPublic i = true := by rfl) (ho : ops.all id = operandOf i := by simp [operandOf]) :
    Written i (guard (handleOf i) ops >>= fun _ => m >>= fun a => pure (f a)) :=
  .guarded hp ho (.bind h fun _ => .pure _)

theorem Written.checkedTransfer {i : Instr} {α : Type} {ops : List Bool} {c : Bool} {m : Run α} {f : α → Out} (h : Blind m)
    (hp : isPublic i = true := by rfl) (ho : ops.all id = operandOf i := by simp [operandOf]) :
    Written i (guard (handleOf i) ops >>= fun _ => require c .invalidArgument >>= fun _ => m >>= fun a => pure (f a)) :=
  .guarded hp ho (.bind (.require _ _) fun _ => .bind h fun _ => .pure _)

/-- Every instruction but INIT and DEINIT, in the order of the table. -/
theorem runsBody {i : Instr} (h1 : ∀ b, i ≠ .init b) (h2 : ∀ b, i ≠ .deinit b) : RunsBody i := by
  cases i with
  | init b => exact absurd rfl (h1 b)
  | deinit b => exact absurd rfl (h2 b)
  | setTime b r =>
    cases r with
    | none => exact .request (fun _ => rfl) (.guarded (ops := [false]) rfl rfl (.raise _))
    | some r => exact .request (fun _ => rfl) (.checkedTransfer (ops := [true]) (blind_setTimeFrames r))
  | getTime b p => exact .request (fun _ => rfl) (.guardedTransfer (ops := [p]) (blind_regReadMultiple _ _))
  | setOscillator b en => exact .request (fun _ => rfl) (.guardedTransfer (ops := []) (blind_readModifyWrite _ _))
  | getOscillator b p => exact .request (fun _ => rfl) (.guardedTransfer (ops := [p]) (blind_engReadByte _))
  | setWriteProtect b en => exact .request (fun _ => rfl) (.guardedTransfer (ops := []) (blind_readModifyWrite _ _))
  | getWriteProtect b p => exact .request (fun _ => rfl) (.guardedTransfer (ops := [p]) (blind_engReadByte _))
  | setCharge b v => exact .request (fun _ => rfl) (.guardedTransfer (ops := []) (blind_engWriteByte _ _))
  | getCharge b p => exact .request (fun _ => rfl) (.guardedTransfer (ops := [p]) (blind_engReadByte _))
  | writeRam b a n w => exact .buffered (fun _ => rfl) rfl (.checkedTransfer (ops := [w.isSome]) (blind_regWriteMultiple _ _ _))
  | readRam b p a n => exact .request (fun _ => rfl) (.checkedTransfer (ops := [p]) (blind_regReadMultiple _ _))
  | clockBurstWrite b n w => exact .buffered (fun _ => rfl) rfl (.checkedTransfer (ops := [w.isSome]) (blind_regBurstWrite _ _ _))
  | clockBurstRead b p n => exact .request (fun _ => rfl) (.checkedTransfer (ops := [p]) (blind_regBurstRead _ _))
  | ramBurstWrite b n w => exact .buffered (fun _ => rfl) rfl (.checkedTransfer (ops := [w.isSome]) (blind_regBurstWrite _ _ _))
  | ramBurstRead b p n => exact .request (fun _ => rfl) (.checkedTransfer (ops := [p]) (blind_regBurstRead _ _))
  | setReg b r n w => exact .buffered (fun _ => rfl) rfl (.guardedTransfer (ops := [w.isSome]) (blind_regWriteMultiple _ _ _))
  | getReg b p r n => exact .request (fun _ => rfl) (.guardedTransfer (ops := [p]) (blind_regReadMultiple _ _))
  | engWriteByte c v => exact .request (fun _ => rfl) (.transfer (blind_engWriteByte _ _))
  | engReadByte c => exact .request (fun _ => rfl) (.transfer (blind_engReadByte _))
  | regWriteMultiple a n w => exact .buffered (fun _ => rfl) rfl (.transfer (blind_regWriteMultiple _ _ _))
  | regReadMultiple a n => exact .request (fun _ => rfl) (.transfer (blind_regReadMultiple _ _))
  | regBurstWrite c n w => exact .buffered (fun _ => rfl) rfl (.transfer (blind_regBurstWrite _ _ _))
  | regBurstRead c n => exact .request (fun _ => rfl) (.transfer (blind_regBurstRead _ _))
  | hexToBcd v => exact .request (fun _ => rfl) (.internal rfl (.pure _))
  | bcdToHex v => exact .request (fun _ => rfl) (.internal rfl (.pure _))
  | timeValidate r => exact .request (fun _ => rfl) (.internal rfl (.pure _))
  | timeEncode r old => exact .request (fun _ => rfl) (.internal rfl (.pure _))
  | timeDecode b => exact .request (fun _ => rfl) (.internal rfl (.pure _))
  | cmdWrSecond v => exact .request (fun _ => rfl) (.transfer (blind_engWriteByte _ _))
  | cmdRdSecond => exact .request (fun _ => rfl) (.transfer (blind_engReadByte _))
  | cmdWrMinute v => exact .request (fun _ => rfl) (.transfer (blind_engWriteByte _ _))
  | cmdRdMinute => exact .request (fun _ => rfl) (.transfer (blind_engReadByte _))
  | cmdWrHour v => exact .request (fun _ => rfl) (.transfer (blind_engWriteByte _ _))
  | cmdRdHour => exact .request (fun _ => rfl) (.transfer (blind_engReadByte _))
  | cmdWrDate v => exact .request (fun _ => rfl) (.transfer (blind_engWriteByte _ _))
  | cmdRdDate => exact .request (fun _ => rfl) (.transfer (blind_engReadByte _))
  | cmdWrMonth v => exact .request (fun _ => rfl) (.transfer (blind_engWriteByte _ _))
  | cmdRdMonth => exact .request (fun _ => rfl) (.transfer (blind_engReadByte _))
  | cmdWrWeek v => exact .request (fun _ => rfl) (.transfer (blind_engWriteByte _ _))
  | cmdRdWeek => exact .request (fun _ => rfl) (.transfer (blind_engReadByte _))
  | cmdWrYear v => exact .request (fun _ => rfl) (.transfer (blind_engWriteByte _ _))
  | cmdRdYear => exact .request (fun _ => rfl) (.transfer (blind_engReadByte _))
  | cmdWrControl v => exact .request (fun _ => rfl) (.transfer (blind_engWriteByte _ _))
  | cmdRdControl => exact .request (fun _ => rfl) (.transfer (blind_engReadByte _))
  | cmdWrCharge v => exact .request (fun _ => rfl) (.transfer (blind_engWriteByte _ _))
  | cmdRdCharge => exact .request (fun _ => rfl) (.transfer (blind_engReadByte _))
  | cmdWrClockBurst n w => exact .buffered (fun _ => rfl) rfl (.transfer (blind_regBurstWrite _ _ _))
  | cmdRdClockBurst n => exact .request (fun _ => rfl) (.transfer (blind_regBurstRead _ _))
  | cmdWrRamBurst n w => exact .buffered (fun _ => rfl) rfl (.transfer (blind_regBurstWrite _ _ _))
  | cmdRdRamBurst n => exact .request (fun _ => rfl) (.transfer (blind_regBurstRead _ _))
  | cmdWrRamSlot a v => exact .request (fun _ => rfl) (.transfer (blind_engWriteByte _ _))
  | cmdRdRamSlot a => exact .request (fun _ => rfl) (.transfer (blind_engReadByte _))
  | cmdWrClockGeneric x v => exact .request (fun _ => rfl) (.transfer (blind_engWriteByte _ _))
  | cmdRdClockGeneric x => exact .request (fun _ => rfl) (.transfer (blind_engReadByte _))
  | cmdReservedMarker0 low data =>
    cases data with
    | none => exact .request (fun _ => rfl) (.transfer (blind_engReadByte _))
    | some v => exact .request (fun _ => rfl) (.transfer (blind_engWriteByte _ _))

/-! ## Requests from an updated state -/

theorem guard_unread {g : State → State} (hf : ∀ s, (g s).initFlag = s.initFlag) (h : Bool) (ops : List Bool)
    (s : State) : guard h ops (g s) = mapRes g (guard h ops s) := by
  rw [run_guard, run_guard, hf]
  split
  · rfl
  · split
    · rfl
    · split <;> rfl

/-- A body does not see an update, if the guard of a public request finds the flag as it was. -/
theorem Written.unread {i : Instr} {m : Run Out} (hw : Written i m) {g : State → State} (hg : Unread g)
    (hf : isPublic i = true → ∀ s, (g s).initFlag = s.initFlag) (s : State) :
    bareRes (m (g s)) = bareRes (mapRes g (m s)) := by
  cases hw with
  | internal hp hm => exact hm g hg s
  | guarded hp ho hm =>
    refine bareRes_bind_unread hg ?_ fun _ => hm
    rw [guard_unread (hf hp)]

/-- From two states whose accepted forms differ by an unread update, an instruction ends alike, up to the update. -/
theorem exec_unread {i : Instr} (h1 : ∀ b, i ≠ .init b) (h2 : ∀ b, i ≠ .deinit b) {g : State → State} (hg : Unread g)
    (hf : isPublic i = true → ∀ s, (g s).initFlag = s.initFlag) {s s' : State} (ha : s'.accept i = g (s.accept i)) :
    (∃ r, exec i s = .next (finish r) ∧ exec i s' = .next (finish (mapRes g r))) ∨
    (exec i s = .refused .bufferLengthMismatch ∧ exec i s' = .refused .bufferLengthMismatch) := by
  rcases runsBody h1 h2 with ⟨m, hw, hx⟩ | ⟨-, hx⟩
  · refine .inl ⟨m (s.accept i), hx s, ?_⟩
    rw [hx, ha, finish_congr (hw.unread hg hf _)]
  · exact .inr ⟨hx s, hx s'⟩

/-! ## The past -/

/-- The state with what the past of another left behind: the datapath registers, the position, the status, the output and
the trace. -/
def State.withPastOf (s p : State) : State :=
  { s with dp := p.dp, pos := p.pos, status := p.status, out := p.out, trace := p.trace }

/-- Acceptance forgets the past, but for the datapath registers (R26, R27). -/
theorem accept_withPastOf (s p : State) (i : Instr) : (s.withPastOf p).accept i = (s.accept i).withDp p.dp := rfl

theorem unread_withDp (d : Datapath) : Unread fun s => s.withDp d :=
  ⟨fun _ => rfl, fun _ _ => rfl, fun _ => rfl, fun _ _ => rfl⟩

/-- No register survives the end of a request (R24). -/
theorem finish_mapRes_withDp (d : Datapath) (r : EStateM.Result Status State Out) :
    finish (mapRes (fun s => s.withDp d) r) = finish r := by
  cases r <;> rfl

/-- INIT writes `up_count` before it reads it. -/
theorem exec_init_withPastOf (b : Bool) (s p : State) : exec (.init b) (s.withPastOf p) = exec (.init b) s := by
  cases b with
  | false => exact (exec_init_absent (s.withPastOf p)).trans (exec_init_absent s).symm
  | true =>
    cases hb : s.caps.allBound with
    | false => exact (exec_init_unbound (s.withPastOf p) hb).trans (exec_init_unbound s hb).symm
    | true => exact (exec_init_up (s.withPastOf p) hb).trans (exec_init_up s hb).symm

theorem exec_deinit_withPastOf (b : Bool) (s p : State) : exec (.deinit b) (s.withPastOf p) = exec (.deinit b) s := by
  cases b with
  | false => exact (exec_deinit_absent (s.withPastOf p)).trans (exec_deinit_absent s).symm
  | true =>
    cases hi : s.initFlag with
    | false => exact (exec_deinit_uninit (s.withPastOf p) hi).trans (exec_deinit_uninit s hi).symm
    | true => exact (exec_deinit_down (s.withPastOf p) hi).trans (exec_deinit_down s hi).symm

/-- No instruction reads the past. -/
theorem exec_withPastOf (i : Instr) (s p : State) : exec i (s.withPastOf p) = exec i s := by
  obtain ⟨b, rfl⟩ | ⟨b, rfl⟩ | ⟨h1, h2⟩ := lifecycle_or_other i
  · exact exec_init_withPastOf b s p
  · exact exec_deinit_withPastOf b s p
  · rcases exec_unread h1 h2 (unread_withDp p.dp) (fun _ _ => rfl) (accept_withPastOf s p i) with
      ⟨r, hx, hx'⟩ | ⟨hx, hx'⟩
    · rw [hx, hx', finish_mapRes_withDp]
    · rw [hx, hx']

/-! ## The capabilities -/

/-- The state with other capabilities. -/
def State.withCaps (s : State) (c : Caps) : State := { s with caps := c }

theorem unread_withCaps (c : Caps) : Unread fun s => s.withCaps c :=
  ⟨fun _ => rfl, fun _ _ => rfl, fun _ => rfl, fun _ _ => rfl⟩

theorem finish_mapRes_withCaps (c : Caps) (r : EStateM.Result Status State Out) :
    finish (mapRes (fun s => s.withCaps c) r) = (finish r).withCaps c := by
  cases r <;> rfl

theorem exec_deinit_withCaps {b : Bool} {s t : State} (c : Caps) (h : exec (.deinit b) s = .next t) :
    exec (.deinit b) (s.withCaps c) = .next (t.withCaps c) := by
  cases b with
  | false =>
    rw [exec_deinit_absent, Host.Outcome.next.injEq] at h
    subst h
    exact exec_deinit_absent (s.withCaps c)
  | true =>
    cases hi : s.initFlag with
    | false =>
      rw [exec_deinit_uninit s hi, Host.Outcome.next.injEq] at h
      subst h
      exact exec_deinit_uninit (s.withCaps c) hi
    | true =>
      rw [exec_deinit_down s hi, Host.Outcome.next.injEq] at h
      subst h
      simp only [apply_ite (fun u : State => u.withCaps c)]
      exact exec_deinit_down (s.withCaps c) hi

/-- Only INIT reads the capabilities. -/
theorem exec_withCaps {i : Instr} {s t : State} (c : Caps) (h1 : ∀ b, i ≠ .init b) (h : exec i s = .next t) :
    exec i (s.withCaps c) = .next (t.withCaps c) := by
  obtain ⟨b, rfl⟩ | ⟨b, rfl⟩ | ⟨-, h2⟩ := lifecycle_or_other i
  · exact absurd rfl (h1 b)
  · exact exec_deinit_withCaps c h
  · rcases exec_unread (s' := s.withCaps c) h1 h2 (unread_withCaps c) (fun _ _ => rfl) rfl with ⟨r, hx, hx'⟩ | ⟨hx, -⟩
    · rw [hx, Host.Outcome.next.injEq] at h
      rw [hx', finish_mapRes_withCaps, h]
    · rw [hx] at h
      cases h

/-! ## The init flag -/

theorem finish_guard_uninit {i : Instr} {ops : List Bool} {m : Run Out} {s : State} (hi : s.initFlag = false) :
    finish ((guard true ops >>= fun _ => m) (s.accept i)) = s.rejected .notInitialized := by
  rw [run_bind, run_guard, State.accept_initFlag, hi]
  rfl

/-- The guard turns away every public request but INIT while the flag is 0 (R20; 60_exceptions.md R710). -/
theorem exec_uninit {i : Instr} {s : State} (hw : i.WellFormed) (hp : isPublic i = true) (h1 : ∀ b, i ≠ .init b)
    (hh : handleOf i = true) (hi : s.initFlag = false) : exec i s = .next (s.rejected .notInitialized) := by
  obtain ⟨b, rfl⟩ | ⟨b, rfl⟩ | ⟨-, h2⟩ := lifecycle_or_other i
  · exact absurd rfl (h1 b)
  · cases hh
    exact exec_deinit_uninit s hi
  · rcases runsBody h1 h2 with ⟨m, hm, hx⟩ | ⟨hf, -⟩
    · rw [hx]
      cases hm with
      | internal hp' _ => exact absurd hp (by simp [hp'])
      | guarded _ _ _ => rw [hh, finish_guard_uninit hi]
    · exact absurd hw (by simp [hf])

end Sys2Proof.Machine
end

section
/-! CERTIFICATE. The state and who may write it (10_state.md R20 to R27, R45; 41_bit_engine.md R204; 70_reset_and_hazards.md
R800). -/

namespace Sys2Proof.Machine

/-- Settles O8: a bind answers by whether it would change a capability of an initialised block. -/
theorem hostBindsCapabilities : Obligations.HostBindsCapabilities := fun _ _ _ =>
  ⟨fun h => ⟨_, hostBind_of_free h, (Caps.get_set _ _ _ _).trans (if_pos rfl),
      fun _ hd => (Caps.get_set _ _ _ _).trans (if_neg hd), rfl⟩, hostBind_of_change⟩

/-- Settles O9, field by field. -/
theorem resetLeavesTheStatedValues : Obligations.ResetLeavesTheStatedValues := by
  refine ⟨rfl, fun c => ?_, rfl, rfl, rfl, rfl, rfl, rfl⟩
  cases c <;> rfl

/-- Settles O13: a request keeps the capabilities, and one other than INIT is blind to them. -/
theorem capabilitiesAreTheHosts : Obligations.CapabilitiesAreTheHosts :=
  ⟨fun _ _ _ h => exec_keeps h, fun _ _ _ c h1 h => exec_withCaps c h1 h⟩

/-- Settles O14: each clause from how INIT, DEINIT and the other instructions end. -/
theorem initFlagIsWrittenOnlyByInitAndDeinit : Obligations.InitFlagIsWrittenOnlyByInitAndDeinit := by
  refine ⟨fun i s t h1 h2 h => ?_, fun b s t h => ?_, fun b s t h => ?_, fun i s => exec_uninit, rfl⟩
  · exact (exec_ending h h1 h2).keeps.1
  · rcases exec_init_ending h with ⟨k, hk, rfl⟩ | ⟨hb, hc, he⟩
    · exact ⟨rejected_initFlag_eq_ite hk true, fun hs => absurd (Option.some.inj hs) hk⟩
    · exact ⟨he.initFlag, fun hs => ⟨hb, hc, he.trace_of_success (by decide) hs⟩⟩
  · rcases exec_deinit_ending h with ⟨k, hk, rfl⟩ | he
    · exact ⟨rejected_initFlag_eq_ite hk false, fun hs => absurd (Option.some.inj hs) hk⟩
    · exact ⟨he.initFlag, he.trace_of_success (by decide)⟩

/-- Settles O26: acceptance forgets the past but for the datapath registers, to which every body is blind. -/
theorem nothingOfTheLastRequestReachesTheNext : Obligations.NothingOfTheLastRequestReachesTheNext :=
  fun i s dp pos status out trace =>
    exec_withPastOf i s { s with dp := dp, pos := pos, status := status, out := out, trace := trace }

/-- Settles O21, event by event. -/
theorem busShadowFollowsTheAnswers : Obligations.BusShadowFollowsTheAnswers := by
  refine ⟨fun b l => ⟨rfl, rfl, rfl, rfl, rfl, rfl, rfl⟩, fun b r n e he => ?_⟩
  simp only [List.mem_cons, List.not_mem_nil, or_false] at he
  rcases he with rfl | rfl | rfl | rfl | rfl | rfl | rfl | rfl | rfl | rfl <;> rfl

end Sys2Proof.Machine
end

section
/-! SUPPORT. The canonical form of the target's memory: what it says of the first cell, and that it leaves one list for
one content (20_memory.md R80; log entry 3). -/

namespace Sys2Proof.Machine

theorem wfFrom_cons_iff {lo k : Nat} {v : Byte} {m : List Host.Cell} :
    Memory.wfFrom lo ((k, v) :: m) = true ↔
      lo ≤ k ∧ isCell k = true ∧ v ≠ unlistedByte ∧ Memory.wfFrom (k + 1) m = true := by
  simp [Memory.wfFrom, and_assoc]

theorem read_cons (k a : Nat) (v : Byte) (m : List Host.Cell) :
    Memory.read ((k, v) :: m) a = if k = a then v else Memory.read m a := rfl

/-- What follows the first cell of a canonical memory does not list its address. -/
theorem read_tail {k a : Nat} {m : List Host.Cell} (h : Memory.wfFrom (k + 1) m = true) (v : Byte) :
    Memory.read m a = if a = k then unlistedByte else Memory.read ((k, v) :: m) a := by
  by_cases ha : a = k
  · rw [if_pos ha, read_below h (by omega)]
  · rw [if_neg ha, read_cons, if_neg (Ne.symm ha)]

/-- A memory that lists nothing below `k'` and reads as one whose first cell is at `k` has `k'` at most `k`. -/
theorem le_of_reads_eq {lo k k' : Nat} {v : Byte} {m m' : List Host.Cell} (h : Memory.wfFrom lo ((k, v) :: m) = true)
    (h' : Memory.wfFrom k' m' = true) (hr : ∀ a, Memory.read ((k, v) :: m) a = Memory.read m' a) : k' ≤ k := by
  obtain ⟨-, -, hv, -⟩ := wfFrom_cons_iff.1 h
  refine Nat.le_of_not_lt fun hk => hv ?_
  have hkk := hr k
  rwa [read_cons, if_pos rfl, read_below h' hk] at hkk

/-- A canonical memory that reads as the empty one is empty. -/
theorem eq_nil_of_reads_eq {lo : Nat} {m : List Host.Cell} (h : Memory.wfFrom lo m = true)
    (hr : ∀ a, Memory.read m a = Memory.read [] a) : m = [] := by
  cases m with
  | nil => rfl
  | cons c rest =>
    have hle : c.1 + 1 ≤ c.1 := le_of_reads_eq h (m' := []) rfl hr
    omega

/-- Canonical memories that read the same are the same list: their first cells agree, and so do the rests. -/
theorem eq_of_reads_eq {lo lo' : Nat} {m m' : List Host.Cell} (h : Memory.wfFrom lo m = true)
    (h' : Memory.wfFrom lo' m' = true) (hr : ∀ a, Memory.read m a = Memory.read m' a) : m = m' := by
  induction m generalizing lo lo' m' with
  | nil => exact (eq_nil_of_reads_eq h' fun a => (hr a).symm).symm
  | cons c rest ih =>
    cases m' with
    | nil => exact eq_nil_of_reads_eq h hr
    | cons c' rest' =>
      obtain ⟨k, v⟩ := c
      obtain ⟨k', v'⟩ := c'
      obtain ⟨-, hc, hv, hrest⟩ := wfFrom_cons_iff.1 h
      obtain ⟨-, hc', hv', hrest'⟩ := wfFrom_cons_iff.1 h'
      have hle := le_of_reads_eq h (wfFrom_cons_iff.2 ⟨Nat.le_refl k', hc', hv', hrest'⟩) hr
      have hge := le_of_reads_eq h' (wfFrom_cons_iff.2 ⟨Nat.le_refl k, hc, hv, hrest⟩) fun a => (hr a).symm
      obtain rfl : k = k' := by omega
      obtain rfl : v = v' := by simpa [read_cons] using hr k
      have htail : rest = rest' := ih hrest hrest' fun a => by rw [read_tail hrest v, read_tail hrest' v, hr]
      rw [htail]

end Sys2Proof.Machine
end

section
/-! CERTIFICATE. The target's memory as a list of cells (20_memory.md R80, R83; log entry 3). -/

namespace Sys2Proof.Machine

/-- Settles O12: the write keeps the form and reads back; equal contents are equal lists by `eq_of_reads_eq`. -/
theorem canonicalMemoriesReadBackAndAreUnique : Obligations.CanonicalMemoriesReadBackAndAreUnique :=
  ⟨fun _ _ _ hm ha => ⟨wf_write hm ha, read_write_same hm, fun _ hb => read_write_other hb⟩,
    fun _ _ => eq_of_reads_eq⟩

end Sys2Proof.Machine
end

section
/-! SUPPORT. The environment and the trace after any request are those of a program, so what every port event keeps
holds of every request; and which records of a trace are failures on the reference double (20_memory.md R86; log
entry 3). -/

namespace Sys2Proof.Machine

theorem Ending.moves {i : Instr} {s t : State} (h : Ending i s t) :
    ∃ l, t.env = ((s.accept i).moves l).env ∧ t.trace = ((s.accept i).moves l).trace := by
  cases h with
  | rejected k hk ht => exact ⟨[], by rw [ht]; exact ⟨rfl, rfl⟩⟩
  | done l o hl hok ht => exact ⟨l, by rw [ht]; exact ⟨rfl, rfl⟩⟩
  | failed l e b hl hk hok he ht => exact ⟨l ++ [.ev e], by rw [ht, moves_append]; exact ⟨rfl, rfl⟩⟩

theorem LinesEnding.moves {i : Instr} {l : List Event} {flag : Bool} {s t : State} (h : LinesEnding i l flag s t) :
    ∃ l, t.env = ((s.accept i).moves l).env ∧ t.trace = ((s.accept i).moves l).trace := by
  cases h with
  | failed l' hl ht => exact ⟨evs l', by rw [ht]; exact ⟨rfl, rfl⟩⟩
  | done hok ht => exact ⟨evs l, by rw [ht]; exact ⟨rfl, rfl⟩⟩

/-- Whatever an instruction is and however it ends, it ran some program after its acceptance. -/
theorem exec_moves {i : Instr} {s t : State} (h : exec i s = .next t) :
    ∃ l, t.env = ((s.accept i).moves l).env ∧ t.trace = ((s.accept i).moves l).trace := by
  rcases exec_next_cases h with ⟨k, -, rfl⟩ | ⟨l, flag, -, -, he⟩ | he
  · exact ⟨[], rfl, rfl⟩
  · exact he.moves
  · exact he.moves

/-- The pin events of a trace, in order, with their replies. -/
def pinRecords (t : List PortRecord) : List PortRecord := t.filter fun r => r.event.isPin

/-- The running request's events were answered by the double with the injected failure `f`: the pins are counted, a pin
event failed exactly if `f` names it, and no other event failed. -/
structure AnsweredBy (f : Option Injected) (s : State) : Prop where
  responder : s.env.responder = .double f
  pins : s.env.pins = (pinRecords s.trace).length
  pinFails : ∀ (k : Nat) (r : PortRecord), (pinRecords s.trace)[k]? = some r →
    (r.reply = Reply.fail ↔ f = some ⟨s.env.requests, k + 1⟩)
  delayOk : ∀ r ∈ s.trace, r.event.isPin = false → r.reply ≠ Reply.fail

theorem pinRecords_issue (s : State) (e : Event) :
    pinRecords (s.issue e).trace =
      pinRecords s.trace ++ if e.isPin then [⟨e, (s.env.respond e).1⟩] else [] := by
  simp [pinRecords, List.filter_append, List.filter_cons]

theorem AnsweredBy.issue {f : Option Injected} {s : State} (h : AnsweredBy f s) (e : Event) :
    AnsweredBy f (s.issue e) where
  responder := by rw [State.issue_env, respond_responder, h.responder]
  pins := by
    rw [State.issue_env, respond_pins, h.pins, pinRecords_issue]
    cases e.isPin <;> simp
  pinFails k r hk := by
    rw [State.issue_env, respond_requests]
    rw [pinRecords_issue, List.getElem?_append] at hk
    split at hk
    · exact h.pinFails k r hk
    · next hlt =>
      cases hp : e.isPin with
      | false => simp [hp] at hk
      | true =>
        simp only [hp, if_true, List.getElem?_singleton, Option.ite_none_right_eq_some, Option.some.injEq] at hk
        obtain ⟨h0, rfl⟩ := hk
        have hk : k = s.env.pins := by rw [h.pins]; omega
        rw [hk]
        exact respond_double_fails h.responder hp
  delayOk r hr hd := by
    rw [State.issue_trace, List.mem_append, List.mem_singleton] at hr
    rcases hr with hr | rfl
    · exact h.delayOk r hr hd
    · rw [respond_delay _ hd]
      exact nofun

theorem AnsweredBy.moves {f : Option Injected} {s : State} (h : AnsweredBy f s) (l : List Move) :
    AnsweredBy f (s.moves l) := by
  induction l generalizing s with
  | nil => exact h
  | cons m l ih =>
    cases m with
    | release => exact ih ⟨h.responder, h.pins, h.pinFails, h.delayOk⟩
    | ev e => exact ih (h.issue e)

theorem answeredBy_accept {f : Option Injected} {s : State} (h : s.env.responder = .double f) (i : Instr) :
    AnsweredBy f (s.accept i) where
  responder := h
  pins := rfl
  pinFails _ _ hk := nomatch hk
  delayOk _ hr := nomatch hr

/-- A failure that names another request is no failure of this one. -/
theorem AnsweredBy.noFailure {f : Option Injected} {s : State} (h : AnsweredBy f s)
    (hf : ∀ g, f = some g → g.request ≠ s.env.requests) : noFailure s.trace := by
  intro r hr hfail
  cases hp : r.event.isPin with
  | false => exact h.delayOk r hr hp hfail
  | true =>
    obtain ⟨k, hk⟩ := List.mem_iff_getElem?.1 (List.mem_filter.2 ⟨hr, hp⟩ : r ∈ pinRecords s.trace)
    exact hf _ ((h.pinFails k r hk).1 hfail) rfl

end Sys2Proof.Machine
end

section
/-! CERTIFICATE. The injected failure of the reference double (20_memory.md R86; log entry 3). -/

namespace Sys2Proof.Machine

/-- Settles O59: every port event keeps `AnsweredBy`, and only acceptance counts a request. -/
theorem injectedFailureIsOneEvent : Obligations.InjectedFailureIsOneEvent := by
  intro i s t f hx hr
  obtain ⟨l, henv, htrace⟩ := exec_moves hx
  have ha := (answeredBy_accept hr i).moves l
  have hreq : ((s.accept i).moves l).env.requests = s.env.requests + 1 := by
    rw [moves_env, moves_requests, State.accept_env]
  rw [henv, htrace]
  refine ⟨ha.responder, hreq, fun k r hk => ?_, fun hf => ha.noFailure fun g hg => ?_⟩
  · rw [← hreq]
    exact ha.pinFails k r hk
  · have := hf g hg
    omega

end Sys2Proof.Machine
end

section
/-! SUPPORT. Which cells each instruction may store to (20_memory.md R82, R83): its body keeps every cell outside
`storesTo`, whatever is answered. -/

namespace Sys2Proof.Machine

/-- A read-coded command stores nothing (R82). -/
theorem frameCells_of_read {c : Byte} (h : cmdRw c = true) (n : Nat) : frameCells c n = [] := by
  simp [frameCells, h]

/-- A command without its marker stores nothing (R82). -/
theorem frameCells_of_unmarked {c : Byte} (h : cmdMarker c = false) (n : Nat) : frameCells c n = [] := by
  simp [frameCells, h]

theorem cmdRw_cmdByte (bank : Bool) (idx : BitVec 5) (rw : Bool) : cmdRw (cmdByte bank idx rw) = rw := by
  cases bank <;> cases rw <;> simp [cmdRw, cmdByte]

theorem cmdMarker_setWidth (low : BitVec 7) : cmdMarker (low.setWidth 8) = false := by
  simp [cmdMarker]

theorem memSpec_engReadByte_of_nil {c : Byte} (h : frameCells c 1 = []) (S : List Nat) : MemSpec S (engReadByte c) :=
  memSpec_engReadByte c (by rw [h]; nofun)

theorem memSpec_engWriteByte_of_nil {c : Byte} (h : frameCells c 1 = []) (v : Byte) (S : List Nat) :
    MemSpec S (engWriteByte c v) :=
  memSpec_engWriteByte c v (by rw [h]; nofun)

theorem memSpec_engWriteByte_self (c v : Byte) : MemSpec (frameCells c 1) (engWriteByte c v) :=
  memSpec_engWriteByte c v fun _ ha => ha

theorem memSpec_readReg (bank : Bool) (idx : BitVec 5) (S : List Nat) :
    MemSpec S (engReadByte (cmdByte bank idx true)) :=
  memSpec_engReadByte_of_nil (frameCells_of_read (cmdRw_cmdByte bank idx true) 1) S

theorem memSpec_rmw (idx : BitVec 5) (f : Byte → Byte) :
    MemSpec (frameCells (clockWrite idx) 1) (readModifyWrite idx f) :=
  memSpec_readModifyWrite idx f (frameCells_of_read (cmdRw_cmdByte false idx true) 1)

theorem MemSpec.raise {α : Type} {S : List Nat} (k : Status) : MemSpec S (raise k : Run α) :=
  fun _ hc => ⟨fun _ _ => rfl, hc⟩

theorem memSpec_out {α : Type} {S : List Nat} {m : Run α} {f : α → Out} (h : MemSpec S m) :
    MemSpec S (m >>= fun a => pure (f a)) := .bind h fun _ => .pure _

theorem memSpec_guarded {α : Type} {S : List Nat} {b : Bool} {ops : List Bool} {m : Run α} {f : α → Out}
    (h : MemSpec S m) : MemSpec S (guard b ops >>= fun _ => m >>= fun a => pure (f a)) := .guard (memSpec_out h)

theorem memSpec_checked {α : Type} {S : List Nat} {b c : Bool} {ops : List Bool} {k : Status} {m : Run α}
    {f : α → Out} (h : MemSpec S m) :
    MemSpec S (guard b ops >>= fun _ => require c k >>= fun _ => m >>= fun a => pure (f a)) :=
  .guard (.require (memSpec_out h))

/-- A body that keeps the cells outside `S`, run as a request. -/
theorem sameCells_of_memSpec {i : Instr} {s t : State} {S : List Nat} {body : Run Out}
    (hx : Host.Outcome.next (finish (body (s.accept i))) = (.next t : Host.Outcome State Fault Refusal))
    (hm : MemSpec S body) (hf : s.env.double.framed) : SameCellsBut S s.env.double t.env.double := by
  rw [Host.Outcome.next.injEq] at hx
  have h := (hm (s.accept i) hf).1
  rw [← hx]
  cases hr : body (s.accept i) <;> rw [hr] at h <;> exact h

/-- INIT or DEINIT, turned away or not, leaves the double. -/
theorem lifecycle_double {i : Instr} {l : List Event} {flag : Bool} {s t : State}
    (h : (∃ k, k ≠ .success ∧ t = s.rejected k) ∨ LinesEnding i l flag s t) (hl : ∀ e ∈ l, e.isLine = true) :
    t.env.double = s.env.double := by
  rcases h with ⟨k, -, rfl⟩ | he
  · rfl
  · exact he.double hl

theorem sameCellsBut_of_eq {S : List Nat} {d e : Double} (h : e = d) : SameCellsBut S d e := fun _ _ => by rw [h]

/-- Every instruction but INIT and DEINIT, in the order of the table. -/
theorem exec_sameCells {i : Instr} {s t : State} (h : exec i s = .next t) (hf : s.env.double.framed)
    (h1 : ∀ b, i ≠ .init b) (h2 : ∀ b, i ≠ .deinit b) : SameCellsBut (storesTo i) s.env.double t.env.double := by
  cases i with
  | init b => exact absurd rfl (h1 b)
  | deinit b => exact absurd rfl (h2 b)
  | setTime b r =>
    cases r with
    | none => exact sameCells_of_memSpec h (.guard (.raise _)) hf
    | some r => exact sameCells_of_memSpec h (memSpec_checked (memSpec_setTimeFrames r)) hf
  | getTime b p => exact sameCells_of_memSpec h (memSpec_guarded (memSpec_regReadMultiple _ _ _)) hf
  | setOscillator b en => exact sameCells_of_memSpec h (memSpec_guarded (memSpec_rmw _ _)) hf
  | getOscillator b p => exact sameCells_of_memSpec h (memSpec_guarded (memSpec_readReg _ _ _)) hf
  | setWriteProtect b en => exact sameCells_of_memSpec h (memSpec_guarded (memSpec_rmw _ _)) hf
  | getWriteProtect b p => exact sameCells_of_memSpec h (memSpec_guarded (memSpec_readReg _ _ _)) hf
  | setCharge b v => exact sameCells_of_memSpec h (memSpec_guarded (memSpec_engWriteByte_self _ _)) hf
  | getCharge b p => exact sameCells_of_memSpec h (memSpec_guarded (memSpec_readReg _ _ _)) hf
  | writeRam b a n w =>
    exact sameCells_of_memSpec (next_of_buffered h) (memSpec_checked (memSpec_regWriteMultiple _ _ _)) hf
  | readRam b p a n => exact sameCells_of_memSpec h (memSpec_checked (memSpec_regReadMultiple _ _ _)) hf
  | clockBurstWrite b n w =>
    exact sameCells_of_memSpec (next_of_buffered h) (memSpec_checked (memSpec_regBurstWrite _ _ _)) hf
  | clockBurstRead b p n => exact sameCells_of_memSpec h (memSpec_checked (memSpec_regBurstRead _ _ _)) hf
  | ramBurstWrite b n w =>
    exact sameCells_of_memSpec (next_of_buffered h) (memSpec_checked (memSpec_regBurstWrite _ _ _)) hf
  | ramBurstRead b p n => exact sameCells_of_memSpec h (memSpec_checked (memSpec_regBurstRead _ _ _)) hf
  | setReg b r n w =>
    exact sameCells_of_memSpec (next_of_buffered h) (memSpec_guarded (memSpec_regWriteMultiple _ _ _)) hf
  | getReg b p r n => exact sameCells_of_memSpec h (memSpec_guarded (memSpec_regReadMultiple _ _ _)) hf
  | engWriteByte c v => exact sameCells_of_memSpec h (memSpec_out (memSpec_engWriteByte_self _ _)) hf
  | engReadByte c => exact sameCells_of_memSpec h (memSpec_out (memSpec_engReadByte c fun _ ha => ha)) hf
  | regWriteMultiple a n w =>
    exact sameCells_of_memSpec (next_of_buffered h) (memSpec_out (memSpec_regWriteMultiple _ _ _)) hf
  | regReadMultiple a n => exact sameCells_of_memSpec h (memSpec_out (memSpec_regReadMultiple _ _ _)) hf
  | regBurstWrite c n w =>
    exact sameCells_of_memSpec (next_of_buffered h) (memSpec_out (memSpec_regBurstWrite _ _ _)) hf
  | regBurstRead c n => exact sameCells_of_memSpec h (memSpec_out (memSpec_regBurstRead _ _ _)) hf
  | hexToBcd v => exact sameCells_of_memSpec h (.pure _) hf
  | bcdToHex v => exact sameCells_of_memSpec h (.pure _) hf
  | timeValidate r => exact sameCells_of_memSpec h (.pure _) hf
  | timeEncode r old => exact sameCells_of_memSpec h (.pure _) hf
  | timeDecode b => exact sameCells_of_memSpec h (.pure _) hf
  | cmdWrSecond v => exact sameCells_of_memSpec h (memSpec_out (memSpec_engWriteByte_self _ _)) hf
  | cmdRdSecond => exact sameCells_of_memSpec h (memSpec_out (memSpec_readReg _ _ _)) hf
  | cmdWrMinute v => exact sameCells_of_memSpec h (memSpec_out (memSpec_engWriteByte_self _ _)) hf
  | cmdRdMinute => exact sameCells_of_memSpec h (memSpec_out (memSpec_readReg _ _ _)) hf
  | cmdWrHour v => exact sameCells_of_memSpec h (memSpec_out (memSpec_engWriteByte_self _ _)) hf
  | cmdRdHour => exact sameCells_of_memSpec h (memSpec_out (memSpec_readReg _ _ _)) hf
  | cmdWrDate v => exact sameCells_of_memSpec h (memSpec_out (memSpec_engWriteByte_self _ _)) hf
  | cmdRdDate => exact sameCells_of_memSpec h (memSpec_out (memSpec_readReg _ _ _)) hf
  | cmdWrMonth v => exact sameCells_of_memSpec h (memSpec_out (memSpec_engWriteByte_self _ _)) hf
  | cmdRdMonth => exact sameCells_of_memSpec h (memSpec_out (memSpec_readReg _ _ _)) hf
  | cmdWrWeek v => exact sameCells_of_memSpec h (memSpec_out (memSpec_engWriteByte_self _ _)) hf
  | cmdRdWeek => exact sameCells_of_memSpec h (memSpec_out (memSpec_readReg _ _ _)) hf
  | cmdWrYear v => exact sameCells_of_memSpec h (memSpec_out (memSpec_engWriteByte_self _ _)) hf
  | cmdRdYear => exact sameCells_of_memSpec h (memSpec_out (memSpec_readReg _ _ _)) hf
  | cmdWrControl v => exact sameCells_of_memSpec h (memSpec_out (memSpec_engWriteByte_self _ _)) hf
  | cmdRdControl => exact sameCells_of_memSpec h (memSpec_out (memSpec_readReg _ _ _)) hf
  | cmdWrCharge v => exact sameCells_of_memSpec h (memSpec_out (memSpec_engWriteByte_self _ _)) hf
  | cmdRdCharge => exact sameCells_of_memSpec h (memSpec_out (memSpec_readReg _ _ _)) hf
  | cmdWrClockBurst n w =>
    exact sameCells_of_memSpec (next_of_buffered h) (memSpec_out (memSpec_regBurstWrite _ _ _)) hf
  | cmdRdClockBurst n => exact sameCells_of_memSpec h (memSpec_out (memSpec_regBurstRead _ _ _)) hf
  | cmdWrRamBurst n w =>
    exact sameCells_of_memSpec (next_of_buffered h) (memSpec_out (memSpec_regBurstWrite _ _ _)) hf
  | cmdRdRamBurst n => exact sameCells_of_memSpec h (memSpec_out (memSpec_regBurstRead _ _ _)) hf
  | cmdWrRamSlot a v => exact sameCells_of_memSpec h (memSpec_out (memSpec_engWriteByte_self _ _)) hf
  | cmdRdRamSlot a => exact sameCells_of_memSpec h (memSpec_out (memSpec_readReg _ _ _)) hf
  | cmdWrClockGeneric x v => exact sameCells_of_memSpec h (memSpec_out (memSpec_engWriteByte_self _ _)) hf
  | cmdRdClockGeneric x => exact sameCells_of_memSpec h (memSpec_out (memSpec_readReg _ _ _)) hf
  | cmdReservedMarker0 low data =>
    have hn := frameCells_of_unmarked (cmdMarker_setWidth low) 1
    cases data with
    | none => exact sameCells_of_memSpec h (memSpec_out (memSpec_engReadByte_of_nil hn _)) hf
    | some v => exact sameCells_of_memSpec h (memSpec_out (memSpec_engWriteByte_of_nil hn v _)) hf

end Sys2Proof.Machine
end

section
/-! CERTIFICATE. The memory frame of every instruction (20_memory.md R82, R83; 41_bit_engine.md R209, R210). -/

namespace Sys2Proof.Machine

/-- Settles O56: INIT and DEINIT do not reach the double, and the body of every other instruction keeps the cells
outside `storesTo`. -/
theorem requestsWriteOnlyTheirCells : Obligations.RequestsWriteOnlyTheirCells := by
  intro i s t hinv hx
  obtain ⟨b, rfl⟩ | ⟨b, rfl⟩ | ⟨h1, h2⟩ := lifecycle_or_other i
  · exact sameCellsBut_of_eq (lifecycle_double ((exec_init_ending hx).imp_right fun h => h.2.2) (by decide))
  · exact sameCellsBut_of_eq (lifecycle_double (exec_deinit_ending hx) (by decide))
  · exact exec_sameCells hx hinv.framed h1 h2

end Sys2Proof.Machine
end

section
/-! SUPPORT. The cells a command names, and what a write frame leaves in them (20_memory.md R64, R82, R83). -/

namespace Sys2Proof.Machine

/-! ## The cells a command names -/

theorem toNat_getLsbD (c : Byte) (k : Nat) : (c.getLsbD k).toNat = c.toNat / 2 ^ k % 2 := Nat.toNat_testBit c.toNat k

theorem cmdIdx_toNat (c : Byte) : (cmdIdx c).toNat = c.toNat / 2 % 32 := by
  simp [cmdIdx, BitVec.extractLsb'_toNat, Nat.shiftRight_eq_div_pow]

theorem cellAddr_eq (bank : Bool) (n : Nat) : cellAddr bank n = 128 + 64 * bank.toNat + 2 * n := by
  cases bank <;> rfl

/-- A marked command is its cell's address, and one more where it is read-coded (R64; 30_encoding.md R101). -/
theorem toNat_of_marked {c : Byte} (h : cmdMarker c = true) :
    c.toNat = cellAddr (cmdBank c) (cmdIdx c).toNat + (cmdRw c).toNat := by
  have hc := c.isLt
  have hm : c.toNat / 2 ^ 7 % 2 = 1 := by rw [← toNat_getLsbD]; exact congrArg Bool.toNat h
  rw [cellAddr_eq, cmdIdx_toNat, cmdBank, cmdRw, toNat_getLsbD, toNat_getLsbD]
  omega

/-- A command of an index other than the burst index names one cell, for the first data byte. -/
theorem dataCell_single {c : Byte} (h : cmdIdx c ≠ idxBurst) (j : Nat) :
    dataCell c j = if j = 0 then some (cellAddr (cmdBank c) (cmdIdx c).toNat) else none := by
  rw [dataCell, if_neg h]

/-- A marked write command of such an index is its cell's address. -/
theorem dataCell_writeCommand {c : Byte} (hm : cmdMarker c = true) (hr : cmdRw c = false) (h : cmdIdx c ≠ 31)
    (j : Nat) : dataCell c j = if j = 0 then some c.toNat else none := by
  rw [dataCell_single h, toNat_of_marked hm, hr]
  rfl

/-- The burst index names the cells of its bank in order, up to the bank's last. -/
theorem dataCell_burstIndex {c : Byte} (h : cmdIdx c = idxBurst) (j : Nat) :
    dataCell c j = if j ≤ (if cmdBank c then 30 else 7) then some (cellAddr (cmdBank c) j) else none := by
  rw [dataCell, if_pos h]
  cases cmdBank c <;> rfl

theorem dataCell_clockBurst (j : Nat) : dataCell 0xBE#8 j = if j ≤ 7 then some (128 + 2 * j) else none := rfl

theorem dataCell_ramBurst (j : Nat) : dataCell 0xFE#8 j = if j ≤ 30 then some (192 + 2 * j) else none := rfl

/-- No two data bytes of a frame go to one cell. -/
theorem dataCell_inj {c : Byte} {i j a : Nat} (hi : dataCell c i = some a) (hj : dataCell c j = some a) : i = j := by
  by_cases h : cmdIdx c = idxBurst
  · simp only [dataCell_burstIndex h, Option.ite_none_right_eq_some, Option.some.injEq, cellAddr_eq] at hi hj
    omega
  · simp only [dataCell_single h, Option.ite_none_right_eq_some] at hi hj
    omega

/-! ## What a write frame leaves in them -/

/-- A data byte that goes to a cell is what the cell reads after it and the later ones. -/
theorem storeBytes_same {m : List Host.Cell} {c : Byte} {j i a : Nat} {l : List Byte} (hm : Memory.wf m = true)
    (hi : i < l.length) (ha : dataCell c (j + i) = some a) : Memory.read (storeBytes m c j l) a = l.getD i 0 := by
  induction l generalizing m j i with
  | nil => cases hi
  | cons v vs ih =>
    rw [storeBytes]
    cases i with
    | zero =>
      rw [Nat.add_zero] at ha
      rw [storeBytes_other fun i' _ h' => absurd (dataCell_inj h' ha) (by omega), ha]
      exact read_write_same hm
    | succ i =>
      refine ih ?_ (Nat.lt_of_succ_lt_succ hi) (by rwa [Nat.add_assoc, Nat.add_comm 1])
      split
      · next b hb => exact wf_write hm (isCell_dataCell hb)
      · exact hm

/-- A cell after a write frame: the data byte `k` that went to it, if `p` says one did, or what it held. -/
theorem read_storeFrame {m : List Host.Cell} {c : Byte} {l : List Byte} {a k : Nat} {p : Prop} [Decidable p]
    (hm : Memory.wf m = true) (hw : (cmdMarker c && !cmdRw c) = true)
    (hp : p → k < l.length ∧ dataCell c k = some a) (hn : ¬p → ∀ i < l.length, dataCell c i ≠ some a) :
    Memory.read (storeFrame m c l) a = if p then l.getD k 0 else Memory.read m a := by
  rw [storeFrame, if_pos hw]
  split
  · next h =>
    obtain ⟨hk, hd⟩ := hp h
    exact storeBytes_same hm hk (by rwa [Nat.zero_add])
  · next h => exact storeBytes_other fun i hi => by rw [Nat.zero_add]; exact hn h i hi

end Sys2Proof.Machine
end

section
/-! SUPPORT. Requests on the reference double with no failure injected: they run to their end, and what their write
frames store (20_memory.md R82 to R86). -/

namespace Sys2Proof.Machine

/-- With no failure injected, every answer of the double is ok (R86). -/
theorem State.onDouble.okMoves {s : State} (h : s.onDouble) (i : Instr) (l : List Move) : (s.accept i).env.okMoves l :=
  okMoves_of_answersOk (n := movePins l) (by rw [Env.answersOk, h.1]) rfl

/-- A request whose body runs one program, on the double. -/
theorem exec_onDouble {i : Instr} {s : State} {body : Run Out} {l : List Move} {f : List Bool → Out} (h : s.onDouble)
    (hx : exec i s = .next (finish (body (s.accept i)))) (hs : Sim body (readMoves l >>= fun x => pure (f x))) :
    exec i s = .next (finish (.ok (f ((s.accept i).env.levels l)) ((s.accept i).moves l))) := by
  rw [hx, hs.finish, run_bind, readMoves_ok (h.okMoves i l)]
  rfl

/-! ## Write frames -/

/-- A request that is one write frame. -/
theorem exec_burstWrite_onDouble {i : Instr} {s : State} {m : Run Unit} {c : Byte} {l : List Byte} (h : s.onDouble)
    (hx : exec i s = .next (finish ((m >>= fun _ => pure Out.none) (s.accept i))))
    (hs : Sim m (runMoves (burstWriteFrame c l))) :
    ∃ t, exec i s = .next t ∧ t.status = some .success ∧ t.env.double.mem = storeFrame s.env.double.mem c l := by
  refine ⟨_, exec_onDouble h hx (sim_out_of_unit hs), rfl, ?_⟩
  rw [finish_ok_env, moves_env, (burstWrite_double c l (v := (s.accept i).env) h.1 h.2.2 (h.okMoves i _)).1]
  exact if_pos h.2.1

/-- ENG_WRITE_BYTE stores its byte in the cell its command names. -/
theorem engWriteByte_stores {s : State} {c : Byte} {cell : Nat} (h : s.onDouble)
    (hm : Memory.wf s.env.double.mem = true) (hw : (cmdMarker c && !cmdRw c) = true) (hd : dataCell c 0 = some cell)
    (v : Byte) :
    ∃ t, exec (.engWriteByte c v) s = .next t ∧ t.status = some .success ∧
      ∀ a, Memory.read t.env.double.mem a = if a = cell then v else Memory.read s.env.double.mem a := by
  obtain ⟨t, hx, hst, hmem⟩ := exec_burstWrite_onDouble (i := .engWriteByte c v) h rfl
    (writeFrame_burst c v ▸ sim_engWriteByte c v)
  refine ⟨t, hx, hst, fun a => ?_⟩
  rw [hmem]
  refine read_storeFrame (k := 0) hm hw (fun ha => ⟨Nat.one_pos, by rw [hd, ha]⟩) fun ha i hi => ?_
  rw [Nat.lt_one_iff.1 hi, hd]
  exact fun he => ha (Option.some.inj he).symm

/-- REG_BURST_WRITE stores in each cell `a` its byte `k a`, if `p a` says that it has one for it. -/
theorem regBurstWrite_stores {s : State} {c n : Byte} {w : List Byte} {p : Nat → Prop} [DecidablePred p] {k : Nat → Nat}
    (h : s.onDouble) (hm : Memory.wf s.env.double.mem = true) (hn : w.length = n.toNat)
    (hw : (cmdMarker c && !cmdRw c) = true) (hp : ∀ a, p a → k a < w.length ∧ dataCell c (k a) = some a)
    (hq : ∀ a, ¬p a → ∀ i < w.length, dataCell c i ≠ some a) :
    ∃ t, exec (.regBurstWrite c n w) s = .next t ∧ t.status = some .success ∧
      ∀ a, Memory.read t.env.double.mem a = if p a then w.getD (k a) 0 else Memory.read s.env.double.mem a := by
  have hf : bufferFits n (some w) = true := by simp [bufferFits, hn]
  obtain ⟨t, hx, hst, hmem⟩ := exec_burstWrite_onDouble (i := .regBurstWrite c n w) h (runBuffered_next _ s hf)
    (sim_regBurstWrite c n w)
  exact ⟨t, hx, hst, fun a => by rw [hmem]; exact read_storeFrame hm hw (hp a) (hq a)⟩

/-- A burst write whose command names the cells from `base` on, byte by byte, up to byte `last`. -/
theorem regBurstWrite_stores_from {s : State} {c n : Byte} {w : List Byte} {base last : Nat} (h : s.onDouble)
    (hm : Memory.wf s.env.double.mem = true) (hn : w.length = n.toNat) (hw : (cmdMarker c && !cmdRw c) = true)
    (hd : ∀ j, dataCell c j = if j ≤ last then some (base + 2 * j) else none) (hb : base % 2 = 0) :
    ∃ t, exec (.regBurstWrite c n w) s = .next t ∧ t.status = some .success ∧
      ∀ a, Memory.read t.env.double.mem a =
        if a % 2 = 0 ∧ base ≤ a ∧ a ≤ base + 2 * last ∧ (a - base) / 2 < w.length then w.getD ((a - base) / 2) 0
        else Memory.read s.env.double.mem a := by
  refine regBurstWrite_stores (k := fun a => (a - base) / 2) h hm hn hw (fun a ha => ?_) fun a ha i hi he => ?_
  · obtain ⟨heven, hlo, hhi, hlen⟩ := ha
    refine ⟨hlen, ?_⟩
    rw [hd, if_pos (by omega), Option.some.injEq]
    omega
  · rw [hd, Option.ite_none_right_eq_some, Option.some.injEq] at he
    omega

end Sys2Proof.Machine
end

section
/-! CERTIFICATE. Writes on the reference double (20_memory.md R82, R83). -/

namespace Sys2Proof.Machine

/-- Settles O57: each clause names the cells of its frame's data bytes, and `read_storeFrame` says what they hold. -/
theorem writesLandInTheirCells : Obligations.WritesLandInTheirCells := by
  intro s hinv h
  refine ⟨fun c v hm hr hi => ?_, fun c v cell hc => ?_, fun c n w hm hr hi hn => ?_, fun n w hn => ?_,
    fun n w hn => ?_⟩
  · exact engWriteByte_stores h hinv.memory (by simp [hm, hr]) (dataCell_writeCommand hm hr hi 0) v
  · simp only [List.mem_cons, Prod.mk.injEq, List.not_mem_nil, or_false] at hc
    obtain ⟨rfl, rfl⟩ | ⟨rfl, rfl⟩ := hc
    · exact engWriteByte_stores h hinv.memory (by decide) (dataCell_clockBurst 0) v
    · exact engWriteByte_stores h hinv.memory (by decide) (dataCell_ramBurst 0) v
  · have hd := dataCell_writeCommand hm hr hi
    have hw : (cmdMarker c && !cmdRw c) = true := by simp [hm, hr]
    refine regBurstWrite_stores (k := fun _ => 0) h hinv.memory hn hw (fun a ha => ?_) fun a ha j hj he => ?_
    · obtain ⟨rfl, hne⟩ := ha
      exact ⟨List.length_pos_iff.2 hne, hd 0⟩
    · rw [hd, Option.ite_none_right_eq_some, Option.some.injEq] at he
      exact ha ⟨he.2.symm, List.length_pos_iff.1 (Nat.zero_lt_of_lt hj)⟩
  · exact regBurstWrite_stores_from h hinv.memory hn (by decide) dataCell_clockBurst rfl
  · exact regBurstWrite_stores_from h hinv.memory hn (by decide) dataCell_ramBurst rfl

end Sys2Proof.Machine
end

section
/-! SUPPORT. What a read frame on the reference double gives, and that it leaves the memory (20_memory.md R82, R85). -/

namespace Sys2Proof.Machine

/-! ## The read command's cells -/

theorem cmdIdx_withRead (c : Byte) : cmdIdx (withRead c) = cmdIdx c := by
  simp [cmdIdx, withRead, BitVec.extractLsb'_or]

theorem cmdBank_withRead (c : Byte) : cmdBank (withRead c) = cmdBank c := by
  simp [cmdBank, withRead]

theorem cmdMarker_withRead (c : Byte) : cmdMarker (withRead c) = cmdMarker c := by
  simp [cmdMarker, withRead]

/-- The read selector moves no cell (30_encoding.md R101). -/
theorem dataCell_withRead (c : Byte) (j : Nat) : dataCell (withRead c) j = dataCell c j := by
  simp only [dataCell, cmdIdx_withRead, cmdBank_withRead]

/-- A marked read command of an index other than the burst index is one more than its cell's address. -/
theorem dataCell_readCommand {c : Byte} (hm : cmdMarker c = true) (hr : cmdRw c = true) (h : cmdIdx c ≠ 31) :
    dataCell c 0 = some (c.toNat - 1) := by
  rw [dataCell_single h, toNat_of_marked hm, hr]
  rfl

/-! ## The levels of a read frame -/

theorem levels_release (v : Env) : v.levels [.release] = [] := rfl

/-- Only the IN slots of a read frame sample. -/
theorem levels_burstReadFrame (v : Env) (c : Byte) (n : Nat) :
    v.levels (burstReadFrame c n) = (v.moves (commandMoves c)).levels (evs (inSlots (8 * n))) := by
  have hc : v.levels (commandMoves c) = [] := levels_none v (by simp [ioRead_notMem_outByte])
  rw [burstReadFrame_slots, levels_append, hc, levels_append, levels_append,
    levels_none _ (l := [.ceWrite false]) (by simp), List.append_nil, levels_release, env_moves_release,
    List.nil_append, List.nil_append]

/-- A longer burst samples first what the single read frame samples. -/
theorem levels_burstReadFrame_succ (v : Env) (c : Byte) (n : Nat) :
    ∃ rest, v.levels (burstReadFrame c (n + 1)) = v.levels (readFrame c) ++ rest := by
  have e : evs (inSlots (8 * (n + 1))) = evs (inSlots (8 * 1)) ++ evs (inSlots (8 * n)) := by
    rw [← evs_append, ← inSlots_add, Nat.mul_succ, Nat.add_comm]
  rw [readFrame_burst, levels_burstReadFrame, levels_burstReadFrame, e, levels_append]
  exact ⟨_, rfl⟩

theorem length_bytesOfBits (n : Nat) (l : List Bool) : (bytesOfBits n l).length = n := by
  induction n generalizing l with
  | zero => rfl
  | succ n ih => rw [bytesOfBits, List.length_cons, ih]

theorem bytesOfBits_succ {l : List Bool} (h : l.length = 8) (n : Nat) (rest : List Bool) :
    bytesOfBits (n + 1) (l ++ rest) = byteOfBits l :: bytesOfBits n rest := by
  rw [bytesOfBits, List.take_left' h, List.drop_left' h]

theorem length_levels_readFrame {v : Env} {c : Byte} (h : v.okMoves (readFrame c)) :
    (v.levels (readFrame c)).length = 8 := by
  rw [levels_length v _ h, readFrame_reads]

/-- The byte a single read frame samples from a double whose lines are low: its cell (R85). -/
theorem byteOfBits_readFrame {v : Env} {f : Option Injected} {c : Byte} {cell : Nat} (hr : v.responder = .double f)
    (hq : v.double.quiet) (hm : cmdMarker c = true) (hrw : cmdRw c = true) (hd : dataCell c 0 = some cell)
    (h : v.okMoves (readFrame c)) : byteOfBits (v.levels (readFrame c)) = Memory.read v.double.mem cell := by
  have hb := burstRead_levels c 1 hr hq.2 hq.1 hm hrw (fun _ => cell) (fun j hj => by rwa [Nat.lt_one_iff.1 hj])
    (readFrame_burst c ▸ h)
  rw [← readFrame_burst, ← List.append_nil (v.levels _), bytesOfBits_succ (length_levels_readFrame h)] at hb
  exact (List.cons.inj hb).1

/-! ## Requests -/

/-- ENG_READ_BYTE gives the cell its command names. -/
theorem engReadByte_reads {s : State} {c : Byte} {cell : Nat} (h : s.onDouble) (hm : cmdMarker c = true)
    (hr : cmdRw c = true) (hd : dataCell c 0 = some cell) :
    ∃ t, exec (.engReadByte c) s = .next t ∧ t.status = some .success ∧
      t.out = .byte (Memory.read s.env.double.mem cell) ∧ t.env.double.mem = s.env.double.mem := by
  have hok := h.okMoves (.engReadByte c)
  refine ⟨_, exec_onDouble h rfl (sim_out_of_read (sim_engReadByte c) .byte), rfl, ?_, ?_⟩
  · rw [finish_ok_out, byteOfBits_readFrame (v := (s.accept _).env) h.1 h.2 hm hr hd (hok _)]
    rfl
  · rw [finish_ok_env, moves_env, readFrame_burst]
    exact (burstRead_double c 1 (v := (s.accept _).env) h.1 h.2.2 (fun _ => by simp [hr]) (hok _)).1

/-- REG_BURST_READ gives the bytes its frame samples. -/
theorem exec_regBurstRead_onDouble {s : State} (h : s.onDouble) (c n : Byte) :
    ∃ t, exec (.regBurstRead c n) s = .next t ∧ t.status = some .success ∧
      t.out = .bytes (bytesOfBits n.toNat
        ((s.accept (.regBurstRead c n)).env.levels (burstReadFrame (withRead c) n.toNat))) ∧
      t.env.double.mem = s.env.double.mem := by
  refine ⟨_, exec_onDouble h rfl (sim_out_of_read (sim_regBurstRead c n) .bytes), rfl, rfl, ?_⟩
  rw [finish_ok_env, moves_env]
  exact (burstRead_double _ _ (v := (s.accept _).env) h.1 h.2.2 (fun _ => notWrite_withRead c) (h.okMoves _ _)).1

/-- A burst read within the cells its command names gives them, in order. -/
theorem regBurstRead_reads {s : State} {c n : Byte} (cell : Nat → Nat) (h : s.onDouble) (hm : cmdMarker c = true)
    (hd : ∀ j < n.toNat, dataCell c j = some (cell j)) :
    ∃ t, exec (.regBurstRead c n) s = .next t ∧ t.status = some .success ∧
      t.out = .bytes ((List.range n.toNat).map fun j => Memory.read s.env.double.mem (cell j)) ∧
      t.env.double.mem = s.env.double.mem := by
  obtain ⟨t, hx, hst, ho, hmem⟩ := exec_regBurstRead_onDouble h c n
  refine ⟨t, hx, hst, ?_, hmem⟩
  rw [ho, burstRead_levels (withRead c) n.toNat (v := (s.accept _).env) h.1 h.2.2 h.2.1
    ((cmdMarker_withRead c).trans hm) (cmdRw_withRead c) cell (fun j hj => (dataCell_withRead c j).trans (hd j hj))
    (h.okMoves _ _)]
  rfl

/-- A burst read gives the cell its command names as its first byte. -/
theorem regBurstRead_reads_first {s : State} {c n : Byte} {cell : Nat} (h : s.onDouble) (hm : cmdMarker c = true)
    (hd : dataCell c 0 = some cell) :
    ∃ t l, exec (.regBurstRead c n) s = .next t ∧ t.status = some .success ∧ t.out = .bytes l ∧
      l.length = n.toNat ∧ (n ≠ 0 → l[0]? = some (Memory.read s.env.double.mem cell)) ∧
      t.env.double.mem = s.env.double.mem := by
  obtain ⟨t, hx, hst, ho, hmem⟩ := exec_regBurstRead_onDouble h c n
  refine ⟨t, _, hx, hst, ho, length_bytesOfBits _ _, fun hn => ?_, hmem⟩
  have hok := h.okMoves (.regBurstRead c n) (readFrame (withRead c))
  obtain ⟨k, hk⟩ : ∃ k, n.toNat = k + 1 := Nat.exists_eq_succ_of_ne_zero fun h0 => hn (BitVec.eq_of_toNat_eq h0)
  obtain ⟨rest, hrest⟩ := levels_burstReadFrame_succ (s.accept (.regBurstRead c n)).env (withRead c) k
  rw [hk, hrest, bytesOfBits_succ (length_levels_readFrame hok), List.getElem?_cons_zero,
    byteOfBits_readFrame (v := (s.accept _).env) h.1 h.2 ((cmdMarker_withRead c).trans hm) (cmdRw_withRead c)
      ((dataCell_withRead c 0).trans hd) hok]
  rfl

end Sys2Proof.Machine
end

section
/-! CERTIFICATE. Reads on the reference double (20_memory.md R82, R85). -/

namespace Sys2Proof.Machine

/-- Settles O58: each clause names the cells its command reads. -/
theorem readsReturnTheCells : Obligations.ReadsReturnTheCells := by
  intro s h
  refine ⟨fun c hm hr hi => ?_, fun c cell hc => ?_, fun c n hm hr hi => ?_, fun n hn => ?_, fun n hn => ?_⟩
  · exact engReadByte_reads h hm hr (dataCell_readCommand hm hr hi)
  · simp only [List.mem_cons, Prod.mk.injEq, List.not_mem_nil, or_false] at hc
    obtain ⟨rfl, rfl⟩ | ⟨rfl, rfl⟩ := hc
    · exact engReadByte_reads h (by decide) (by decide) rfl
    · exact engReadByte_reads h (by decide) (by decide) rfl
  · exact regBurstRead_reads_first h hm (dataCell_writeCommand hm hr hi 0)
  · refine regBurstRead_reads (fun j => 128 + 2 * j) h (by decide) fun j hj => ?_
    rw [dataCell_clockBurst, if_pos (by omega)]
  · refine regBurstRead_reads (fun j => 192 + 2 * j) h (by decide) fun j hj => ?_
    rw [dataCell_ramBurst, if_pos (by omega)]

end Sys2Proof.Machine
end

section
/-! SUPPORT. The decoder, parser by parser: the byte lists each one accepts, as what the encoder writes followed by a
rest (30_encoding.md R110, R111, R120; log entry 6). -/

namespace Sys2Proof

/-! ## Parsers -/

/-- A parser after another accepts what the one and then the other accept. -/
theorem parser_bind_eq_ok {α β : Type} {p : Parser α} {f : α → Parser β} {bs rest : List Byte} {b : β} :
    (p >>= f) bs = .ok (b, rest) ↔ ∃ a mid, p bs = .ok (a, mid) ∧ f a mid = .ok (b, rest) := by
  change Except.bind (p bs) (fun x => f x.1 x.2) = _ ↔ _
  cases p bs with
  | error r => simp [Except.bind]
  | ok x => simp [Except.bind, Prod.ext_iff, and_assoc]

theorem parser_bind_of_ok {α β : Type} {p : Parser α} (f : α → Parser β) {bs mid : List Byte} {a : α}
    (h : p bs = .ok (a, mid)) : (p >>= f) bs = f a mid := by
  change Except.bind (p bs) (fun x => f x.1 x.2) = _
  rw [h]
  rfl

theorem parser_bind_of_error {α β : Type} {p : Parser α} (f : α → Parser β) {bs : List Byte} {r : Reject}
    (h : p bs = .error r) : (p >>= f) bs = .error r := by
  change Except.bind (p bs) (fun x => f x.1 x.2) = _
  rw [h]
  rfl

theorem parser_pure_eq_ok {α : Type} {a b : α} {bs rest : List Byte} :
    (pure a : Parser α) bs = .ok (b, rest) ↔ a = b ∧ bs = rest := by
  change Except.ok (a, bs) = _ ↔ _
  simp

theorem reject_eq_ok {α : Type} {r : Reject} {bs rest : List Byte} {a : α} :
    (reject r : Parser α) bs = .ok (a, rest) ↔ False := by
  simp [reject]

theorem pByte_eq_ok {bs rest : List Byte} {b : Byte} : pByte bs = .ok (b, rest) ↔ bs = b :: rest := by
  cases bs <;> simp [pByte]

theorem pBit_eq_ok {bs rest : List Byte} {x : Bool} : pBit bs = .ok (x, rest) ↔ bs = eBit x :: rest := by
  simp only [pBit, parser_bind_eq_ok, pByte_eq_ok]
  constructor
  · rintro ⟨b, mid, rfl, h⟩
    by_cases h0 : b = 0#8
    · rw [if_pos h0] at h
      obtain ⟨rfl, rfl⟩ := parser_pure_eq_ok.1 h
      rw [h0]; rfl
    · by_cases h1 : b = 1#8
      · rw [if_neg h0, if_pos h1] at h
        obtain ⟨rfl, rfl⟩ := parser_pure_eq_ok.1 h
        rw [h1]; rfl
      · rw [if_neg h0, if_neg h1] at h
        exact (reject_eq_ok.1 h).elim
  · rintro rfl
    cases x <;> exact ⟨_, _, rfl, rfl⟩

/-- The flag byte of a request with a slot is any two bits; of one without, bit 1 is clear. -/
theorem eq_eFlags_iff {f : Byte} {hasSlot h p : Bool} :
    (f.toNat < (if hasSlot then 4 else 2) ∧ (!f.getLsbD 0) = h ∧ (!f.getLsbD 1) = p) ↔
      f = eFlags h p ∧ (hasSlot = false → p = true) := by
  revert f hasSlot h p; decide

/-- A check before a parser. -/
theorem parser_check_eq_ok {α : Type} {c : Prop} [Decidable c] {p : Parser α} {r : Reject} {bs rest : List Byte}
    {a : α} : (if c then p else reject r) bs = .ok (a, rest) ↔ c ∧ p bs = .ok (a, rest) := by
  by_cases h : c
  · rw [if_pos h]
    exact (and_iff_right h).symm
  · rw [if_neg h, reject_eq_ok]
    exact iff_of_false id fun hc => h hc.1

theorem pFlags_eq_ok {hasSlot h p : Bool} {bs rest : List Byte} :
    pFlags hasSlot bs = .ok ((h, p), rest) ↔ bs = eFlags h p :: rest ∧ (hasSlot = false → p = true) := by
  simp only [pFlags, parser_bind_eq_ok, pByte_eq_ok, parser_check_eq_ok, parser_pure_eq_ok, Prod.mk.injEq]
  constructor
  · rintro ⟨f, _, rfl, hlt, ⟨hh, hp⟩, rfl⟩
    obtain ⟨rfl, hs⟩ := eq_eFlags_iff.1 ⟨hlt, hh, hp⟩
    exact ⟨rfl, hs⟩
  · rintro ⟨rfl, hs⟩
    obtain ⟨hlt, hh, hp⟩ := eq_eFlags_iff.2 ⟨rfl, hs⟩
    exact ⟨_, _, rfl, hlt, ⟨hh, hp⟩, rfl⟩

theorem pFlags_true_eq_ok {h p : Bool} {bs rest : List Byte} :
    pFlags true bs = .ok ((h, p), rest) ↔ bs = eFlags h p :: rest :=
  pFlags_eq_ok.trans (and_iff_left nofun)

theorem pHandle_eq_ok {h : Bool} {bs rest : List Byte} :
    pHandle bs = .ok (h, rest) ↔ bs = eFlags h true :: rest := by
  simp only [pHandle, parser_bind_eq_ok, parser_pure_eq_ok, Prod.exists]
  constructor
  · rintro ⟨_, p, _, hf, rfl, rfl⟩
    obtain ⟨rfl, hp⟩ := pFlags_eq_ok.1 hf
    rw [hp rfl]
  · rintro rfl
    exact ⟨h, true, _, pFlags_eq_ok.2 ⟨rfl, fun _ => rfl⟩, rfl, rfl⟩

theorem pBytes_eq_ok {k : Nat} {w bs rest : List Byte} :
    pBytes k bs = .ok (w, rest) ↔ w.length = k ∧ bs = w ++ rest := by
  induction k generalizing w bs rest with
  | zero =>
    rw [pBytes, parser_pure_eq_ok, List.length_eq_zero_iff]
    constructor <;> (rintro ⟨rfl, rfl⟩; exact ⟨rfl, rfl⟩)
  | succ k ih =>
    simp only [pBytes, parser_bind_eq_ok, pByte_eq_ok, parser_pure_eq_ok, ih]
    constructor
    · rintro ⟨b, _, rfl, v, _, ⟨rfl, rfl⟩, rfl, rfl⟩
      exact ⟨rfl, rfl⟩
    · rintro ⟨hl, rfl⟩
      obtain ⟨b, v, rfl⟩ := List.exists_cons_of_length_eq_add_one hl
      exact ⟨b, _, rfl, v, _, ⟨Nat.succ.inj hl, rfl⟩, rfl, rfl⟩

theorem bufferFits_some {n : Byte} {w : List Byte} : bufferFits n (some w) = true ↔ w.length = n.toNat := by
  simp [bufferFits]

theorem ofNat_length_of_fits {n : Byte} {w : List Byte} (h : w.length = n.toNat) : BitVec.ofNat 8 w.length = n := by
  rw [h, BitVec.ofNat_toNat, BitVec.setWidth_eq]

theorem pBuffer_eq_ok {n : Byte} {w bs rest : List Byte} :
    pBuffer n bs = .ok (w, rest) ↔ bufferFits n (some w) = true ∧ bs = eBuffer w ++ rest := by
  simp only [pBuffer, parser_bind_eq_ok, pByte_eq_ok, parser_check_eq_ok, pBytes_eq_ok, bufferFits_some, eBuffer,
    List.cons_append]
  constructor
  · rintro ⟨_, _, rfl, rfl, hw, rfl⟩
    exact ⟨hw, by rw [ofNat_length_of_fits hw]⟩
  · rintro ⟨hw, rfl⟩
    exact ⟨_, _, rfl, ofNat_length_of_fits hw, by rw [ofNat_length_of_fits hw, hw], rfl⟩

theorem pOptBuffer_eq_ok {present : Bool} {n : Byte} {w : Option (List Byte)} {bs rest : List Byte} :
    pOptBuffer present n bs = .ok (w, rest) ↔
      w.isSome = present ∧ bufferFits n w = true ∧ bs = eOptBuffer w ++ rest := by
  cases present with
  | false =>
    rw [pOptBuffer, if_neg Bool.false_ne_true, parser_pure_eq_ok]
    constructor
    · rintro ⟨rfl, rfl⟩
      exact ⟨rfl, rfl, rfl⟩
    · rintro ⟨hw, -, rfl⟩
      obtain rfl := Option.not_isSome_iff_eq_none.1 (Bool.eq_false_iff.1 hw)
      exact ⟨rfl, rfl⟩
  | true =>
    rw [pOptBuffer, if_pos rfl, parser_bind_eq_ok]
    constructor
    · rintro ⟨v, _, hv, h⟩
      obtain ⟨rfl, rfl⟩ := parser_pure_eq_ok.1 h
      exact ⟨rfl, pBuffer_eq_ok.1 hv⟩
    · rintro ⟨hw, hf, rfl⟩
      obtain ⟨v, rfl⟩ := Option.isSome_iff_exists.1 hw
      exact ⟨v, _, pBuffer_eq_ok.2 ⟨hf, rfl⟩, parser_pure_eq_ok.2 ⟨rfl, rfl⟩⟩

/-- The year's two bytes, low byte first. -/
theorem year_bytes (hi lo : Byte) :
    (hi ++ lo : Half).setWidth 8 = lo ∧ ((hi ++ lo : Half) >>> 8).setWidth 8 = hi := by
  refine ⟨BitVec.setWidth_append_eq_right, ?_⟩
  rw [BitVec.setWidth_ushiftRight_eq_extractLsb, BitVec.extractLsb'_append_eq_left]

theorem year_of_bytes (y : Half) : ((y >>> 8).setWidth 8 : Byte) ++ (y.setWidth 8 : Byte) = y := by
  rw [BitVec.setWidth_ushiftRight_eq_extractLsb, BitVec.setWidth_eq_extractLsb' (by decide),
    BitVec.extractLsb'_append_extractLsb']

theorem pRecord_eq_ok {r : TimeRecord} {bs rest : List Byte} :
    pRecord bs = .ok (r, rest) ↔ bs = eRecord r ++ rest := by
  simp only [pRecord, parser_bind_eq_ok, pByte_eq_ok, pBit_eq_ok, parser_pure_eq_ok]
  constructor
  · rintro ⟨lo, _, rfl, hi, _, rfl, _, _, rfl, _, _, rfl, _, _, rfl, _, _, rfl, _, _, rfl, _, _, rfl, _, _, rfl, _, _,
      rfl, rfl, rfl⟩
    obtain ⟨hlo, hhi⟩ := year_bytes hi lo
    rw [eRecord, hlo, hhi]
    rfl
  · rintro rfl
    exact ⟨_, _, rfl, _, _, rfl, _, _, rfl, _, _, rfl, _, _, rfl, _, _, rfl, _, _, rfl, _, _, rfl, _, _, rfl, _, _,
      rfl, by rw [year_of_bytes], rfl⟩

theorem pOptRecord_eq_ok {present : Bool} {r : Option TimeRecord} {bs rest : List Byte} :
    pOptRecord present bs = .ok (r, rest) ↔ r.isSome = present ∧ bs = eOptRecord r ++ rest := by
  cases present with
  | false =>
    rw [pOptRecord, if_neg Bool.false_ne_true, parser_pure_eq_ok]
    constructor
    · rintro ⟨rfl, rfl⟩
      exact ⟨rfl, rfl⟩
    · rintro ⟨hr, rfl⟩
      obtain rfl := Option.not_isSome_iff_eq_none.1 (Bool.eq_false_iff.1 hr)
      exact ⟨rfl, rfl⟩
  | true =>
    rw [pOptRecord, if_pos rfl, parser_bind_eq_ok]
    constructor
    · rintro ⟨v, _, hv, h⟩
      obtain ⟨rfl, rfl⟩ := parser_pure_eq_ok.1 h
      exact ⟨rfl, pRecord_eq_ok.1 hv⟩
    · rintro ⟨hr, rfl⟩
      obtain ⟨v, rfl⟩ := Option.isSome_iff_exists.1 hr
      exact ⟨v, _, pRecord_eq_ok.2 rfl, parser_pure_eq_ok.2 ⟨rfl, rfl⟩⟩

theorem pTimeBytes_eq_ok {b : TimeBytes} {bs rest : List Byte} :
    pTimeBytes bs = .ok (b, rest) ↔ bs = b.toList ++ rest := by
  simp only [pTimeBytes, parser_bind_eq_ok, pByte_eq_ok, parser_pure_eq_ok]
  constructor
  · rintro ⟨_, _, rfl, _, _, rfl, _, _, rfl, _, _, rfl, _, _, rfl, _, _, rfl, _, _, rfl, rfl, rfl⟩
    rfl
  · rintro rfl
    exact ⟨_, _, rfl, _, _, rfl, _, _, rfl, _, _, rfl, _, _, rfl, _, _, rfl, _, _, rfl, rfl, rfl⟩

/-! ## Requests -/

theorem Tag.ofByte_code (t : Tag) : Tag.ofByte t.code = some t := by
  cases t <;> rfl

theorem Tag.code_of_ofByte {b : Byte} {t : Tag} (h : Tag.ofByte b = some t) : t.code = b := by
  simpa using List.find?_some h

theorem parseRequest_of_tag {b : Byte} {t : Tag} (h : Tag.ofByte b = some t) (bs : List Byte) :
    parseRequest (b :: bs) = pOperands t bs := by
  refine (parser_bind_of_ok _ rfl).trans ?_
  simp only [h]

theorem parseRequest_of_no_tag {b : Byte} (h : Tag.ofByte b = none) (bs : List Byte) :
    parseRequest (b :: bs) = .error (.unknownTag b) := by
  refine (parser_bind_of_ok _ rfl).trans ?_
  simp only [h, reject]

theorem parseRequest_code (t : Tag) (bs : List Byte) : parseRequest (t.code :: bs) = pOperands t bs :=
  parseRequest_of_tag t.ofByte_code bs

/-- What the operands of a tag spell is well formed, and is that tag's request with those operand bytes: the tags by
their operands, and by whether a buffer is among them (R110). -/
theorem pOperands_sound {t : Tag} {bs rest : List Byte} {i : Instr} (h : pOperands t bs = .ok (i, rest)) :
    i.WellFormed ∧ i.space = .request ∧ leadByte i = t.code ∧ bs = operandBytes i ++ rest := by
  cases t <;> simp only [pOperands, parser_bind_eq_ok, parser_pure_eq_ok, pByte_eq_ok, pBit_eq_ok, pHandle_eq_ok,
    pFlags_true_eq_ok, pBuffer_eq_ok, pOptBuffer_eq_ok, pRecord_eq_ok, pOptRecord_eq_ok, pTimeBytes_eq_ok,
    Prod.exists] at h
  case init | deinit | engReadByte | hexToBcd | bcdToHex | timeValidate | timeDecode =>
    obtain ⟨_, _, rfl, rfl, rfl⟩ := h
    exact ⟨rfl, rfl, rfl, rfl⟩
  case getTime | getOscillator | getWriteProtect | getCharge =>
    obtain ⟨_, _, _, rfl, rfl, rfl⟩ := h
    exact ⟨rfl, rfl, rfl, rfl⟩
  case setOscillator | setWriteProtect | setCharge | engWriteByte | regReadMultiple | regBurstRead | timeEncode =>
    obtain ⟨_, _, rfl, _, _, rfl, rfl, rfl⟩ := h
    exact ⟨rfl, rfl, rfl, rfl⟩
  case setTime =>
    obtain ⟨_, _, _, rfl, _, _, ⟨rfl, rfl⟩, rfl, rfl⟩ := h
    exact ⟨rfl, rfl, rfl, rfl⟩
  case clockBurstRead | ramBurstRead =>
    obtain ⟨_, _, _, rfl, _, _, rfl, rfl, rfl⟩ := h
    exact ⟨rfl, rfl, rfl, rfl⟩
  case readRam | getReg =>
    obtain ⟨_, _, _, rfl, _, _, rfl, _, _, rfl, rfl, rfl⟩ := h
    exact ⟨rfl, rfl, rfl, rfl⟩
  case regWriteMultiple | regBurstWrite =>
    obtain ⟨_, _, rfl, _, _, rfl, _, _, ⟨hf, rfl⟩, rfl, rfl⟩ := h
    exact ⟨hf, rfl, rfl, rfl⟩
  case clockBurstWrite | ramBurstWrite =>
    obtain ⟨_, _, _, rfl, _, _, rfl, _, _, ⟨rfl, hf, rfl⟩, rfl, rfl⟩ := h
    exact ⟨hf, rfl, rfl, rfl⟩
  case writeRam | setReg =>
    obtain ⟨_, _, _, rfl, _, _, rfl, _, _, rfl, _, _, ⟨rfl, hf, rfl⟩, rfl, rfl⟩ := h
    exact ⟨hf, rfl, rfl, rfl⟩

/-- The operands of a well-formed request, read back: its operand bytes one after another. -/
theorem parseRequest_encode (rest : List Byte) {i : Instr} (hw : i.WellFormed) (hs : i.space = .request) :
    parseRequest (encode i ++ rest) = .ok (i, rest) := by
  cases i <;> cases hs <;> simp only [encode, leadByte, operandBytes, List.cons_append, List.nil_append,
    List.append_assoc, parseRequest_code, pOperands, parser_bind_eq_ok, parser_pure_eq_ok, pByte_eq_ok, pBit_eq_ok,
    pHandle_eq_ok, pFlags_true_eq_ok, pBuffer_eq_ok, pOptBuffer_eq_ok, pRecord_eq_ok, pOptRecord_eq_ok,
    pTimeBytes_eq_ok, Prod.exists]
  case init | deinit | engReadByte | hexToBcd | bcdToHex | timeValidate | timeDecode => exact ⟨_, _, rfl, rfl, rfl⟩
  case getTime | getOscillator | getWriteProtect | getCharge => exact ⟨_, _, _, rfl, rfl, rfl⟩
  case setOscillator | setWriteProtect | setCharge | engWriteByte | regReadMultiple | regBurstRead | timeEncode =>
    exact ⟨_, _, rfl, _, _, rfl, rfl, rfl⟩
  case setTime => exact ⟨_, _, _, rfl, _, _, ⟨rfl, rfl⟩, rfl, rfl⟩
  case clockBurstRead | ramBurstRead => exact ⟨_, _, _, rfl, _, _, rfl, rfl, rfl⟩
  case readRam | getReg => exact ⟨_, _, _, rfl, _, _, rfl, _, _, rfl, rfl, rfl⟩
  case regWriteMultiple | regBurstWrite => exact ⟨_, _, rfl, _, _, rfl, _, _, ⟨hw, rfl⟩, rfl, rfl⟩
  case clockBurstWrite | ramBurstWrite => exact ⟨_, _, _, rfl, _, _, rfl, _, _, ⟨rfl, hw, rfl⟩, rfl, rfl⟩
  case writeRam | setReg => exact ⟨_, _, _, rfl, _, _, rfl, _, _, rfl, _, _, ⟨rfl, hw, rfl⟩, rfl, rfl⟩

theorem parseRequest_sound {bs rest : List Byte} {i : Instr} (h : parseRequest bs = .ok (i, rest)) :
    i.WellFormed ∧ i.space = .request ∧ bs = encode i ++ rest := by
  obtain ⟨b, mid, hb, -⟩ := parser_bind_eq_ok.1 h
  obtain rfl := pByte_eq_ok.1 hb
  cases ht : Tag.ofByte b with
  | some t =>
    rw [parseRequest_of_tag ht] at h
    obtain ⟨hw, hs, hl, rfl⟩ := pOperands_sound h
    exact ⟨hw, hs, by rw [encode, hl, Tag.code_of_ofByte ht]; rfl⟩
  | none =>
    rw [parseRequest_of_no_tag ht] at h
    cases h

end Sys2Proof
end

section
/-! SUPPORT. The command byte by its fields, and the command records (30_encoding.md R101 to R106, R120; log entry 6). -/

namespace Sys2Proof

open Machine (cmdRw_cmdByte cmdIdx_toNat cellAddr_eq toNat_of_marked)

/-! ## The command byte -/

theorem toNat_cmdByte (bank : Bool) (idx : BitVec 5) (rw : Bool) :
    (cmdByte bank idx rw).toNat = 0x80 + 64 * bank.toNat + 2 * idx.toNat + rw.toNat := by
  revert bank idx rw; decide

theorem cmdByte_eq_ofNat {bank : Bool} {idx : BitVec 5} {rw : Bool} {k : Nat}
    (h : 0x80 + 64 * bank.toNat + 2 * idx.toNat + rw.toNat = k) : cmdByte bank idx rw = BitVec.ofNat 8 k := by
  rw [← h, ← toNat_cmdByte, BitVec.ofNat_toNat, BitVec.setWidth_eq]

theorem cmdMarker_cmdByte (bank : Bool) (idx : BitVec 5) (rw : Bool) : cmdMarker (cmdByte bank idx rw) = true := by
  cases bank <;> cases rw <;> simp [cmdMarker, cmdByte]

theorem cmdBank_cmdByte (bank : Bool) (idx : BitVec 5) (rw : Bool) : cmdBank (cmdByte bank idx rw) = bank := by
  cases bank <;> cases rw <;> simp [cmdBank, cmdByte]

theorem cmdIdx_cmdByte (bank : Bool) (idx : BitVec 5) (rw : Bool) : cmdIdx (cmdByte bank idx rw) = idx := by
  have := idx.isLt
  have := bank.toNat_lt
  have := rw.toNat_lt
  apply BitVec.eq_of_toNat_eq
  rw [cmdIdx_toNat, toNat_cmdByte]
  omega

/-- A marked command byte is formed by its fields (R101). -/
theorem cmdByte_of_fields {c : Byte} (h : cmdMarker c = true) : cmdByte (cmdBank c) (cmdIdx c) (cmdRw c) = c := by
  apply BitVec.eq_of_toNat_eq
  rw [toNat_cmdByte, toNat_of_marked h, cellAddr_eq]

/-- An unmarked command byte is its bits 6:0 (R120 (c)). -/
theorem setWidth_of_unmarked {c : Byte} (h : cmdMarker c = false) : (c.setWidth 7).setWidth 8 = c := by
  revert c; decide

theorem getLsbD_zero_setWidth (c : Byte) : (c.setWidth 7).getLsbD 0 = cmdRw c := by
  revert c; decide

theorem cmdRw_setWidth (low : BitVec 7) : cmdRw (low.setWidth 8) = low.getLsbD 0 := by
  revert low; decide

theorem setWidth_setWidth_low (low : BitVec 7) : (low.setWidth 8 : Byte).setWidth 7 = low := by
  revert low; decide

/-! ## Command records -/

theorem ne_idxBurst_iff {idx : BitVec 5} : idx ≠ idxBurst ↔ idx.toNat ≤ 30 := by
  revert idx; decide

/-- The indices of the named registers (R104). -/
def namedIdx : List (BitVec 5) :=
  [idxSecond, idxMinute, idxHour, idxDate, idxMonth, idxWeek, idxYear, idxControl, idxCharge]

theorem mem_namedIdx_iff {idx : BitVec 5} : idx ∈ namedIdx ↔ idx.toNat < 9 := by
  revert idx; decide

/-- The row of an index without a name is the generic one (R101, R120 (d)). -/
theorem row_of_unnamed {idx : BitVec 5} (h : 9 ≤ idx.toNat) (v : Byte) :
    writeRow false idx v = .cmdWrClockGeneric idx v ∧ readRow false idx = .cmdRdClockGeneric idx := by
  have hn : idx ∉ namedIdx := fun hm => absurd (mem_namedIdx_iff.1 hm) (by omega)
  simp only [namedIdx, List.mem_cons, List.not_mem_nil, or_false, not_or] at hn
  simp [writeRow, readRow, hn]

/-- The rows of a marked code other than the burst's: both are well formed and spell the code (R101, R102, R104). -/
theorem row_spells {idx : BitVec 5} (bank : Bool) (v : Byte) (hi : idx ≠ idxBurst) :
    ((writeRow bank idx v).WellFormed ∧ (writeRow bank idx v).space = .command ∧
      encode (writeRow bank idx v) = [cmdByte bank idx false, v]) ∧
    (readRow bank idx).WellFormed ∧ (readRow bank idx).space = .command ∧
      encode (readRow bank idx) = [cmdByte bank idx true] := by
  have h30 := ne_idxBurst_iff.1 hi
  cases bank with
  | true => exact ⟨⟨decide_eq_true h30, rfl, rfl⟩, decide_eq_true h30, rfl, rfl⟩
  | false =>
    rcases Nat.lt_or_ge idx.toNat 9 with h9 | h9
    · have hn := mem_namedIdx_iff.2 h9
      simp only [namedIdx, List.mem_cons, List.not_mem_nil, or_false] at hn
      rcases hn with rfl | rfl | rfl | rfl | rfl | rfl | rfl | rfl | rfl <;>
        exact ⟨⟨rfl, rfl, rfl⟩, rfl, rfl, rfl⟩
    · obtain ⟨hw, hr⟩ := row_of_unnamed h9 v
      rw [hw, hr]
      exact ⟨⟨decide_eq_true ⟨h9, h30⟩, rfl, rfl⟩, decide_eq_true ⟨h9, h30⟩, rfl, rfl⟩

/-! ### What stands after a command byte, by its marker, its index and its selector (R100, R106) -/

section

variable {c : Byte} {bs rest : List Byte} {i : Instr}

theorem parseCommand_unmarkedWrite_iff (hm : cmdMarker c = false) (hr : cmdRw c = false) :
    parseCommand (c :: bs) = .ok (i, rest) ↔
      ∃ v, i = .cmdReservedMarker0 (c.setWidth 7) (some v) ∧ bs = v :: rest := by
  rw [parseCommand, parser_bind_of_ok _ (pByte_eq_ok.2 rfl), if_pos hm, if_neg (Bool.eq_false_iff.1 hr)]
  simp only [parser_bind_eq_ok, pByte_eq_ok, parser_pure_eq_ok]
  constructor
  · rintro ⟨v, _, rfl, rfl, rfl⟩
    exact ⟨v, rfl, rfl⟩
  · rintro ⟨v, rfl, rfl⟩
    exact ⟨v, _, rfl, rfl, rfl⟩

theorem parseCommand_unmarkedRead_iff (hm : cmdMarker c = false) (hr : cmdRw c = true) :
    parseCommand (c :: bs) = .ok (i, rest) ↔ i = .cmdReservedMarker0 (c.setWidth 7) none ∧ bs = rest := by
  rw [parseCommand, parser_bind_of_ok _ (pByte_eq_ok.2 rfl), if_pos hm, if_pos hr, parser_pure_eq_ok, eq_comm]

theorem parseCommand_burstWrite_iff (hm : cmdMarker c = true) (hi : cmdIdx c = idxBurst) (hr : cmdRw c = false) :
    parseCommand (c :: bs) = .ok (i, rest) ↔
      ∃ n w, i = (if cmdBank c then .cmdWrRamBurst n w else .cmdWrClockBurst n w) ∧ w.length = n.toNat ∧
        bs = n :: (w ++ rest) := by
  rw [parseCommand, parser_bind_of_ok _ (pByte_eq_ok.2 rfl), if_neg (Bool.not_eq_false _ ▸ hm), if_pos hi]
  simp only [hr, Bool.false_eq_true, if_false, parser_bind_eq_ok, pByte_eq_ok, pBytes_eq_ok, parser_pure_eq_ok]
  constructor
  · rintro ⟨n, _, rfl, w, _, ⟨hw, rfl⟩, rfl, rfl⟩
    exact ⟨n, w, rfl, hw, rfl⟩
  · rintro ⟨n, w, rfl, hw, rfl⟩
    exact ⟨n, _, rfl, w, _, ⟨hw, rfl⟩, rfl, rfl⟩

theorem parseCommand_burstRead_iff (hm : cmdMarker c = true) (hi : cmdIdx c = idxBurst) (hr : cmdRw c = true) :
    parseCommand (c :: bs) = .ok (i, rest) ↔
      ∃ n, i = (if cmdBank c then .cmdRdRamBurst n else .cmdRdClockBurst n) ∧ bs = n :: rest := by
  rw [parseCommand, parser_bind_of_ok _ (pByte_eq_ok.2 rfl), if_neg (Bool.not_eq_false _ ▸ hm), if_pos hi]
  simp only [hr, if_true, parser_bind_eq_ok, pByte_eq_ok, parser_pure_eq_ok]
  constructor
  · rintro ⟨n, _, rfl, rfl, rfl⟩
    exact ⟨n, rfl, rfl⟩
  · rintro ⟨n, rfl, rfl⟩
    exact ⟨n, _, rfl, rfl, rfl⟩

theorem parseCommand_write_iff (hm : cmdMarker c = true) (hi : cmdIdx c ≠ idxBurst) (hr : cmdRw c = false) :
    parseCommand (c :: bs) = .ok (i, rest) ↔ ∃ v, i = writeRow (cmdBank c) (cmdIdx c) v ∧ bs = v :: rest := by
  rw [parseCommand, parser_bind_of_ok _ (pByte_eq_ok.2 rfl), if_neg (Bool.not_eq_false _ ▸ hm), if_neg hi,
    if_neg (Bool.eq_false_iff.1 hr)]
  simp only [parser_bind_eq_ok, pByte_eq_ok, parser_pure_eq_ok]
  constructor
  · rintro ⟨v, _, rfl, rfl, rfl⟩
    exact ⟨v, rfl, rfl⟩
  · rintro ⟨v, rfl, rfl⟩
    exact ⟨v, _, rfl, rfl, rfl⟩

theorem parseCommand_read_iff (hm : cmdMarker c = true) (hi : cmdIdx c ≠ idxBurst) (hr : cmdRw c = true) :
    parseCommand (c :: bs) = .ok (i, rest) ↔ i = readRow (cmdBank c) (cmdIdx c) ∧ bs = rest := by
  rw [parseCommand, parser_bind_of_ok _ (pByte_eq_ok.2 rfl), if_neg (Bool.not_eq_false _ ▸ hm), if_neg hi, if_pos hr,
    parser_pure_eq_ok, eq_comm]

end

/-! ### Both directions -/

/-- What a command record spells is well formed, and its encoding: by the marker, the burst index and the selector of its
command byte (R100 to R106). -/
theorem parseCommand_sound {bs rest : List Byte} {i : Instr} (h : parseCommand bs = .ok (i, rest)) :
    i.WellFormed ∧ i.space = .command ∧ bs = encode i ++ rest := by
  obtain ⟨c, mid, hb, -⟩ := parser_bind_eq_ok.1 h
  obtain rfl := pByte_eq_ok.1 hb
  cases hm : cmdMarker c with
  | false =>
    have hc : c = (c.setWidth 7).setWidth 8 := (setWidth_of_unmarked hm).symm
    cases hr : cmdRw c with
    | false =>
      obtain ⟨v, rfl, rfl⟩ := (parseCommand_unmarkedWrite_iff hm hr).1 h
      exact ⟨beq_iff_eq.2 (by rw [getLsbD_zero_setWidth, hr]; rfl), rfl, congrArg (· :: v :: rest) hc⟩
    | true =>
      obtain ⟨rfl, rfl⟩ := (parseCommand_unmarkedRead_iff hm hr).1 h
      exact ⟨beq_iff_eq.2 (by rw [getLsbD_zero_setWidth, hr]; rfl), rfl, congrArg (· :: mid) hc⟩
  | true =>
    have hc : c = cmdByte (cmdBank c) (cmdIdx c) (cmdRw c) := (cmdByte_of_fields hm).symm
    by_cases hi : cmdIdx c = idxBurst
    · cases hr : cmdRw c with
      | false =>
        obtain ⟨n, w, rfl, hw, rfl⟩ := (parseCommand_burstWrite_iff hm hi hr).1 h
        rw [hi, hr] at hc
        cases hb : cmdBank c <;> rw [hb] at hc <;>
          exact ⟨bufferFits_some.2 hw, rfl, congrArg (· :: n :: (w ++ rest)) hc⟩
      | true =>
        obtain ⟨n, rfl, rfl⟩ := (parseCommand_burstRead_iff hm hi hr).1 h
        rw [hi, hr] at hc
        cases hb : cmdBank c <;> rw [hb] at hc <;> exact ⟨rfl, rfl, congrArg (· :: n :: rest) hc⟩
    · cases hr : cmdRw c with
      | false =>
        obtain ⟨v, rfl, rfl⟩ := (parseCommand_write_iff hm hi hr).1 h
        obtain ⟨⟨hw, hs, he⟩, -⟩ := row_spells (cmdBank c) v hi
        exact ⟨hw, hs, by rw [he, ← hr, ← hc]; rfl⟩
      | true =>
        obtain ⟨rfl, rfl⟩ := (parseCommand_read_iff hm hi hr).1 h
        obtain ⟨-, hw, hs, he⟩ := row_spells (cmdBank c) 0 hi
        exact ⟨hw, hs, by rw [he, ← hr, ← hc]; rfl⟩

theorem parseCommand_writeRow (bank : Bool) {idx : BitVec 5} (hi : idx ≠ idxBurst) (v : Byte) (rest : List Byte) :
    parseCommand (cmdByte bank idx false :: v :: rest) = .ok (writeRow bank idx v, rest) :=
  (parseCommand_write_iff (cmdMarker_cmdByte _ _ _) (by rwa [cmdIdx_cmdByte]) (cmdRw_cmdByte _ _ _)).2
    ⟨v, by rw [cmdBank_cmdByte, cmdIdx_cmdByte], rfl⟩

theorem parseCommand_readRow (bank : Bool) {idx : BitVec 5} (hi : idx ≠ idxBurst) (rest : List Byte) :
    parseCommand (cmdByte bank idx true :: rest) = .ok (readRow bank idx, rest) :=
  (parseCommand_read_iff (cmdMarker_cmdByte _ _ _) (by rwa [cmdIdx_cmdByte]) (cmdRw_cmdByte _ _ _)).2
    ⟨by rw [cmdBank_cmdByte, cmdIdx_cmdByte], rfl⟩

theorem parseCommand_burstWrite (bank : Bool) {n : Byte} {w : List Byte} (hw : w.length = n.toNat) (rest : List Byte) :
    parseCommand (cmdByte bank idxBurst false :: n :: (w ++ rest)) =
      .ok (if bank then .cmdWrRamBurst n w else .cmdWrClockBurst n w, rest) :=
  (parseCommand_burstWrite_iff (cmdMarker_cmdByte _ _ _) (cmdIdx_cmdByte _ _ _) (cmdRw_cmdByte _ _ _)).2
    ⟨n, w, by rw [cmdBank_cmdByte], hw, rfl⟩

theorem parseCommand_burstRead (bank : Bool) (n : Byte) (rest : List Byte) :
    parseCommand (cmdByte bank idxBurst true :: n :: rest) =
      .ok (if bank then .cmdRdRamBurst n else .cmdRdClockBurst n, rest) :=
  (parseCommand_burstRead_iff (cmdMarker_cmdByte _ _ _) (cmdIdx_cmdByte _ _ _) (cmdRw_cmdByte _ _ _)).2
    ⟨n, by rw [cmdBank_cmdByte], rfl⟩

theorem parseCommand_unmarked {low : BitVec 7} {data : Option Byte} (hd : data.isSome = !low.getLsbD 0)
    (rest : List Byte) :
    parseCommand (low.setWidth 8 :: (data.toList ++ rest)) = .ok (.cmdReservedMarker0 low data, rest) := by
  have hm := Machine.cmdMarker_setWidth low
  have hr : cmdRw (low.setWidth 8) = !data.isSome := by rw [hd, Bool.not_not, cmdRw_setWidth]
  cases data with
  | none => exact (parseCommand_unmarkedRead_iff hm hr).2 ⟨by rw [setWidth_setWidth_low], rfl⟩
  | some v => exact (parseCommand_unmarkedWrite_iff hm hr).2 ⟨v, by rw [setWidth_setWidth_low], rfl⟩

theorem parseCommand_encode (rest : List Byte) {i : Instr} (hw : i.WellFormed) (hs : i.space = .command) :
    parseCommand (encode i ++ rest) = .ok (i, rest) := by
  cases i <;> cases hs <;> simp only [encode, leadByte, operandBytes, List.cons_append, List.nil_append]
  case cmdWrSecond | cmdWrMinute | cmdWrHour | cmdWrDate | cmdWrMonth | cmdWrWeek | cmdWrYear | cmdWrControl |
      cmdWrCharge => exact parseCommand_writeRow false (by decide) _ rest
  case cmdRdSecond | cmdRdMinute | cmdRdHour | cmdRdDate | cmdRdMonth | cmdRdWeek | cmdRdYear | cmdRdControl |
      cmdRdCharge => exact parseCommand_readRow false (by decide) rest
  case cmdWrClockBurst n w => exact parseCommand_burstWrite false (bufferFits_some.1 hw) rest
  case cmdWrRamBurst n w => exact parseCommand_burstWrite true (bufferFits_some.1 hw) rest
  case cmdRdClockBurst n => exact parseCommand_burstRead false n rest
  case cmdRdRamBurst n => exact parseCommand_burstRead true n rest
  case cmdWrRamSlot a v => exact parseCommand_writeRow true (ne_idxBurst_iff.2 (of_decide_eq_true hw)) v rest
  case cmdRdRamSlot a => exact parseCommand_readRow true (ne_idxBurst_iff.2 (of_decide_eq_true hw)) rest
  case cmdWrClockGeneric i v =>
    obtain ⟨h9, h30⟩ := of_decide_eq_true hw
    exact (parseCommand_writeRow false (ne_idxBurst_iff.2 h30) v rest).trans (by rw [(row_of_unnamed h9 v).1])
  case cmdRdClockGeneric i =>
    obtain ⟨h9, h30⟩ := of_decide_eq_true hw
    exact (parseCommand_readRow false (ne_idxBurst_iff.2 h30) rest).trans (by rw [(row_of_unnamed h9 0).2])
  case cmdReservedMarker0 low data => exact parseCommand_unmarked (eq_of_beq hw) rest

end Sys2Proof
end

section
/-! SUPPORT. The two spaces together: a parser accepts exactly the encodings of its space's well-formed instructions,
and which records it rejects (30_encoding.md R110, R120; log entry 6). -/

namespace Sys2Proof

/-- A space's parser accepts exactly the encodings of its well-formed instructions, each followed by any rest. -/
theorem parse_eq_ok {sp : Space} {bs rest : List Byte} {i : Instr} :
    parse sp bs = .ok (i, rest) ↔ i.WellFormed ∧ i.space = sp ∧ bs = encode i ++ rest := by
  constructor
  · cases sp with
    | request => exact parseRequest_sound
    | command => exact parseCommand_sound
  · rintro ⟨hw, hs, rfl⟩
    cases sp with
    | request => exact parseRequest_encode rest hw hs
    | command => exact parseCommand_encode rest hw hs

theorem decode_eq_ok {sp : Space} {bs : List Byte} {i : Instr} : decode sp bs = .ok i ↔ parse sp bs = .ok (i, []) := by
  constructor
  · intro h
    rw [decode] at h
    split at h
    · next hp =>
      cases h
      exact hp
    · cases h
    · cases h
  · intro h
    rw [decode, h]

theorem decode_of_parse_error {sp : Space} {bs : List Byte} {r : Reject} (h : parse sp bs = .error r) :
    decode sp bs = .error r := by
  rw [decode, h]

/-! ## Rejected records -/

theorem Tag.ofByte_of_unlisted {b : Byte} (h : b ∉ Tag.all.map Tag.code) : Tag.ofByte b = none := by
  simpa [Tag.ofByte] using h

/-- A flag byte of at most one bit says that the slot is present. -/
theorem eq_eFlags_of_lt_two {f : Byte} (h : f.toNat < 2) : f = eFlags (!f.getLsbD 0) true := by
  revert f; decide

theorem pBit_of_two_le {e : Byte} (h : 2 ≤ e.toNat) (rest : List Byte) : pBit (e :: rest) = .error .badBit := by
  have h0 : e ≠ 0#8 := by rintro rfl; exact absurd h (by decide)
  have h1 : e ≠ 1#8 := by rintro rfl; exact absurd h (by decide)
  refine (parser_bind_of_ok _ (rfl : pByte (e :: rest) = .ok (e, rest))).trans ?_
  rw [if_neg h0, if_neg h1]
  rfl

theorem pRecord_of_two_le {e : Byte} (h : 2 ≤ e.toNat) (y0 y1 mo wk dt hr mi se fm : Byte) (rest : List Byte) :
    pRecord (y0 :: y1 :: mo :: wk :: dt :: hr :: mi :: se :: fm :: e :: rest) = .error .badBit := by
  iterate 9 refine (parser_bind_of_ok _ rfl).trans ?_
  exact parser_bind_of_error _ (pBit_of_two_le h rest)

theorem parseRequest_badBit {tag flags e : Byte} (ht : tag = 0x20#8 ∨ tag = 0x22#8) (hf : flags.toNat < 2)
    (he : 2 ≤ e.toNat) : parseRequest [tag, flags, e] = .error .badBit := by
  have hh : pHandle [flags, e] = .ok (!flags.getLsbD 0, [e]) :=
    pHandle_eq_ok.2 (congrArg (· :: [e]) (eq_eFlags_of_lt_two hf))
  have hb := pBit_of_two_le he []
  rcases ht with rfl | rfl
  · exact (parseRequest_code .setOscillator _).trans ((parser_bind_of_ok _ hh).trans (parser_bind_of_error _ hb))
  · exact (parseRequest_code .setWriteProtect _).trans ((parser_bind_of_ok _ hh).trans (parser_bind_of_error _ hb))

/-- A record whose `am_pm` is not one bit, where a request has one. -/
theorem parseRequest_badRecord {flags e : Byte} (hf : flags.toNat < 2) (he : 2 ≤ e.toNat)
    (y0 y1 mo wk dt hr mi se fm old : Byte) :
    parseRequest [0x10#8, flags, y0, y1, mo, wk, dt, hr, mi, se, fm, e] = .error .badBit ∧
    parseRequest [0x92#8, y0, y1, mo, wk, dt, hr, mi, se, fm, e] = .error .badBit ∧
    parseRequest [0x93#8, y0, y1, mo, wk, dt, hr, mi, se, fm, e, old] = .error .badBit := by
  have hr' := pRecord_of_two_le he y0 y1 mo wk dt hr mi se fm
  refine ⟨?_, ?_, ?_⟩
  · have hp : pFlags true (flags :: [y0, y1, mo, wk, dt, hr, mi, se, fm, e]) = .ok ((!flags.getLsbD 0, true), _) :=
      pFlags_eq_ok.2 ⟨congrArg (· :: _) (eq_eFlags_of_lt_two hf), nofun⟩
    refine (parseRequest_code .setTime _).trans ((parser_bind_of_ok _ hp).trans ?_)
    exact parser_bind_of_error (p := pOptRecord true) _ (parser_bind_of_error _ (hr' []))
  · exact (parseRequest_code .timeValidate _).trans (parser_bind_of_error _ (hr' []))
  · exact (parseRequest_code .timeEncode _).trans (parser_bind_of_error _ (hr' [old]))

/-! ## Refused buffers -/

open Machine in
theorem runBuffered_of_length_ne {i : Instr} {n : Byte} {w : List Byte} (h : w.length ≠ n.toNat) (body : Run Out)
    (s : State) : runBuffered i n (some w) body s = .refused .bufferLengthMismatch :=
  if_neg fun hf => h (bufferFits_some.1 hf)

end Sys2Proof
end

section
/-! CERTIFICATE. Decoding and encoding (30_encoding.md R101, R110, R111, R120). -/

namespace Sys2Proof

/-- Settles O1: what `parse_eq_ok` says of an encoding. -/
theorem decodeReadsBackEveryEncoding : Obligations.DecodeReadsBackEveryEncoding := fun _ _ hw =>
  ⟨parse_eq_ok.2 ⟨hw, rfl, rfl⟩, decode_eq_ok.2 (parse_eq_ok.2 ⟨hw, rfl, (List.append_nil _).symm⟩)⟩

/-- Settles O2: what `parse_eq_ok` says of an accepted record. -/
theorem decodeAcceptsOnlyEncodings : Obligations.DecodeAcceptsOnlyEncodings := by
  intro sp bs i h
  obtain ⟨hw, hs, he⟩ := parse_eq_ok.1 (decode_eq_ok.1 h)
  exact ⟨hw, hs, (he.trans (List.append_nil _)).symm⟩

open Machine in
/-- Settles O3: the decoder rejects each record by name, and a buffer that does not fit is refused before the guard. -/
theorem undefinedRecordsAreRefused : Obligations.UndefinedRecordsAreRefused := by
  refine ⟨fun s tag bs rest ht => ?_, fun s h a n w hw => ?_, fun s rest tag flags e ht hf he => ?_,
    fun s rest flags y0 y1 mo wk dt hr mi se fm e old hf he => ?_⟩
  · have hr := parseRequest_of_no_tag (Tag.ofByte_of_unlisted ht) bs
    exact step_of_decode_error (sp := .request) rfl (decode_of_parse_error hr)
  · have hx := fun i body => runBuffered_of_length_ne (i := i) hw body s
    exact ⟨hx _ _, hx _ _, hx _ _, hx _ _, hx _ _, hx _ _, hx _ _, hx _ _⟩
  · exact step_of_decode_error (sp := .request) rfl (decode_of_parse_error (parseRequest_badBit ht hf he))
  · obtain ⟨h1, h2, h3⟩ := parseRequest_badRecord hf he y0 y1 mo wk dt hr mi se fm old
    exact ⟨step_of_decode_error (sp := .request) rfl (decode_of_parse_error h1),
      step_of_decode_error (sp := .request) rfl (decode_of_parse_error h2),
      step_of_decode_error (sp := .request) rfl (decode_of_parse_error h3)⟩

end Sys2Proof
end

section
/-! SUPPORT. A request whose body is one frame: it completes with the frame's events, or fails at any of its pin events
(30_encoding.md R106; 41_bit_engine.md R209, R210; 42_register_access.md R304, R305). -/

namespace Sys2Proof.Machine

variable {i : Instr} {s : State} {bus : Bus}

/-- One program that gives no value. -/
theorem ends_of_unit {m : Run Unit} {l : List Move} {n : Nat}
    (hx : exec i s = .next (finish ((m >>= fun _ => pure Out.none) (s.accept i)))) (hs : Sim m (runMoves l))
    (hn : movePins l = n) (hbus : s.bus.moves l = bus) :
    (s.env.answersOk n = true → Completes i s (fun _ => moveEvents l) (fun _ => .none) bus) ∧
    (∀ p, p ≤ n → s.env.answersFailAt p = true → FailsAt i s p (fun _ => moveEvents l)) :=
  ⟨fun hok => completes_of_sim hx rfl (sim_out_of_unit hs) hok hn hbus,
    fun _ hp hf => failsAt_of_sim hx rfl (sim_out_of_unit hs) hf (hn ▸ hp)⟩

/-- One program that gives a value of what it sampled. -/
theorem ends_of_read {α : Type} {m : Run α} {l : List Move} {g : List Bool → α} {f : α → Out} {n : Nat}
    (hx : exec i s = .next (finish ((m >>= fun a => pure (f a)) (s.accept i))))
    (hs : Sim m (readMoves l >>= fun x => pure (g x))) (hn : movePins l = n) (hbus : s.bus.moves l = bus) :
    (s.env.answersOk n = true → Completes i s (fun _ => moveEvents l) (fun x => f (g x)) bus) ∧
    (∀ p, p ≤ n → s.env.answersFailAt p = true → FailsAt i s p (fun _ => moveEvents l)) :=
  ⟨fun hok => completes_of_sim hx rfl (sim_out_of_read hs f) hok hn hbus,
    fun _ hp hf => failsAt_of_sim hx rfl (sim_out_of_read hs f) hf (hn ▸ hp)⟩

theorem wireWrite_ends {c v : Byte} (hx : exec i s = wireWrite i c v s) :
    (s.env.answersOk 51 = true → Completes i s (fun _ => singleWrite c v) (fun _ => .none) Bus.afterWrite) ∧
    (∀ p, p ≤ 51 → s.env.answersFailAt p = true → FailsAt i s p (fun _ => singleWrite c v)) :=
  moveEvents_writeFrame c v ▸
    ends_of_unit hx (sim_engWriteByte c v) (pins_writeFrame c v) (bus_writeFrame s.bus c v)

theorem wireRead_ends {c : Byte} (hx : exec i s = wireRead i c s) :
    (s.env.answersOk 50 = true →
      Completes i s (fun _ => singleRead c) (fun l => .byte (byteOfBits l)) Bus.afterRead) ∧
    (∀ p, p ≤ 50 → s.env.answersFailAt p = true → FailsAt i s p (fun _ => singleRead c)) :=
  moveEvents_readFrame c ▸ ends_of_read hx (sim_engReadByte c) (pins_readFrame c) (bus_readFrame s.bus c)

theorem wireBurstWrite_ends {c n : Byte} {w : List Byte} (hw : w.length = n.toNat)
    (hx : exec i s = wireBurstWrite i c n w s) :
    (s.env.answersOk (27 + 24 * w.length) = true →
      Completes i s (fun _ => burstWrite c w) (fun _ => .none) Bus.afterWrite) ∧
    (∀ p, p ≤ 27 + 24 * w.length → s.env.answersFailAt p = true → FailsAt i s p (fun _ => burstWrite c w)) :=
  moveEvents_burstWriteFrame c w ▸
    ends_of_unit (hx.trans (runBuffered_next _ s (by simp [bufferFits, hw]))) (sim_regBurstWrite c n w)
      (pins_burstWriteFrame c w) (bus_burstWriteFrame s.bus c w)

theorem wireBurstRead_ends {c n : Byte} (hx : exec i s = wireBurstRead i c n s) :
    (s.env.answersOk (26 + 24 * n.toNat) = true →
      Completes i s (fun _ => burstRead (withRead c) n.toNat) (fun l => .bytes (bytesOfBits n.toNat l))
        Bus.afterRead) ∧
    (∀ p, p ≤ 26 + 24 * n.toNat → s.env.answersFailAt p = true →
      FailsAt i s p (fun _ => burstRead (withRead c) n.toNat)) :=
  moveEvents_burstReadFrame (withRead c) n.toNat ▸
    ends_of_read hx (sim_regBurstRead c n) (pins_burstReadFrame _ _) (bus_burstReadFrame s.bus _ _)

end Sys2Proof.Machine
end

section
/-! CERTIFICATE. The command byte and the records written out by hand (30_encoding.md R101 to R104, R110, R120). -/

namespace Sys2Proof.Machine

/-- Settles O4: the fields by the lemmas about `cmdByte`, the literals by evaluation. -/
theorem commandBytesAreFormedByFields : Obligations.CommandBytesAreFormedByFields := by
  refine ⟨fun bank idx rw => ⟨toNat_cmdByte bank idx rw, cmdMarker_cmdByte bank idx rw, cmdBank_cmdByte bank idx rw,
      cmdIdx_cmdByte bank idx rw, cmdRw_cmdByte bank idx rw⟩,
    fun c => ⟨rfl, rfl, cmdIdx_toNat c, rfl⟩, fun a _ => ⟨?_, ?_⟩, by decide⟩
  · rw [toNat_cmdByte, Bool.toNat_true, Bool.toNat_false]
    omega
  · rw [toNat_cmdByte, Bool.toNat_true]
    omega

/-- Settles O6, record by record. -/
theorem handWrittenWordsDecode : Obligations.HandWrittenWordsDecode :=
  ⟨rfl, rfl, rfl, rfl, rfl, rfl, rfl, rfl, rfl, rfl, rfl, rfl, rfl, rfl, rfl, rfl, rfl, rfl, rfl, rfl, rfl, rfl, rfl,
    rfl, rfl⟩

end Sys2Proof.Machine
end

section
/-! SUPPORT. How many delay events each frame has (30_encoding.md R106). -/

namespace Sys2Proof.Machine

theorem delaysOf_append (a b : List Event) : delaysOf (a ++ b) = delaysOf a ++ delaysOf b := List.filter_append ..

theorem delays_outByte (x : Byte) : (delaysOf (outByte x)).length = 24 := by
  rw [outByte_eq]; rfl

theorem delays_inByte : (delaysOf inByte).length = 16 := rfl

theorem delays_outBytes (l : List Byte) : (delaysOf (outBytes l)).length = 24 * l.length := by
  induction l with
  | nil => rfl
  | cons v vs ih =>
    have e : outBytes (v :: vs) = outByte v ++ outBytes vs := by simp [outBytes]
    rw [e, delaysOf_append, List.length_append, delays_outByte, ih, List.length_cons]
    omega

theorem delays_inBytes (n : Nat) : (delaysOf (inBytes n)).length = 16 * n := by
  induction n with
  | zero => rfl
  | succ n ih =>
    have e : inBytes (n + 1) = inBytes n ++ inByte := by simp [inBytes, List.range_succ]
    rw [e, delaysOf_append, List.length_append, ih, delays_inByte]
    omega

theorem burstWrite_single (c v : Byte) : burstWrite c [v] = singleWrite c v := by
  simp [burstWrite, singleWrite, outBytes]

theorem burstRead_single (c : Byte) : burstRead c 1 = singleRead c := by
  simp [burstRead, singleRead, inBytes]

theorem delays_burstWrite (c : Byte) (l : List Byte) : (delaysOf (burstWrite c l)).length = 24 + 24 * l.length := by
  simp only [burstWrite, delaysOf_append, List.length_append, delays_outByte, delays_outBytes]
  simp [delaysOf, Event.isPin]

theorem delays_burstRead (c : Byte) (n : Nat) : (delaysOf (burstRead c n)).length = 24 + 16 * n := by
  simp only [burstRead, delaysOf_append, List.length_append, delays_outByte, delays_inBytes]
  simp [delaysOf, Event.isPin]

theorem pins_burstWrite (c : Byte) (l : List Byte) : (pinsOf (burstWrite c l)).length = 27 + 24 * l.length := by
  rw [← moveEvents_burstWriteFrame]
  exact pins_burstWriteFrame c l

theorem pins_burstRead (c : Byte) (n : Nat) : (pinsOf (burstRead c n)).length = 26 + 24 * n := by
  rw [← moveEvents_burstReadFrame]
  exact pins_burstReadFrame c n

end Sys2Proof.Machine
end

section
/-! CERTIFICATE. The wire formats and the wire rows (30_encoding.md R101 to R106, R120). -/

namespace Sys2Proof.Machine

/-- Settles O28: the bursts' counts, and the single frames as bursts of one byte. -/
theorem frameEventCounts : Obligations.FrameEventCounts := by
  intro c v l n
  refine ⟨?_, ?_, ?_, ?_, pins_burstWrite c l, delays_burstWrite c l, pins_burstRead c n, delays_burstRead c n,
    burstWrite_single c v, burstRead_single c⟩
  · rw [← burstWrite_single]; exact pins_burstWrite c [v]
  · rw [← burstWrite_single]; exact delays_burstWrite c [v]
  · rw [← burstRead_single]; exact pins_burstRead c 1
  · rw [← burstRead_single]; exact delays_burstRead c 1

/-- Settles O53: every write row is a single write frame, with its command byte written out. -/
theorem wireWriteRowsSendTheirFrame : Obligations.WireWriteRowsSendTheirFrame := by
  rintro s v a low i c (hn | ⟨-, rfl, rfl⟩ | ⟨-, -, rfl, rfl⟩ | ⟨rfl, rfl⟩)
  · simp only [List.mem_cons, Prod.mk.injEq, List.not_mem_nil, or_false] at hn
    rcases hn with ⟨rfl, rfl⟩ | ⟨rfl, rfl⟩ | ⟨rfl, rfl⟩ | ⟨rfl, rfl⟩ | ⟨rfl, rfl⟩ | ⟨rfl, rfl⟩ | ⟨rfl, rfl⟩ |
      ⟨rfl, rfl⟩ | ⟨rfl, rfl⟩ <;> exact wireWrite_ends rfl
  · rw [← cmdByte_eq_ofNat (bank := true) (idx := a) (rw := false) (by simp)]
    exact wireWrite_ends rfl
  · rw [← cmdByte_eq_ofNat (bank := false) (idx := a) (rw := false) (by simp)]
    exact wireWrite_ends rfl
  · rw [BitVec.ofNat_toNat]
    exact wireWrite_ends rfl

/-- Settles O54: every read row is a single read frame, with its command byte written out. -/
theorem wireReadRowsSendTheirFrame : Obligations.WireReadRowsSendTheirFrame := by
  rintro s a low i c (hn | ⟨-, rfl, rfl⟩ | ⟨-, -, rfl, rfl⟩ | ⟨rfl, rfl⟩)
  · simp only [List.mem_cons, Prod.mk.injEq, List.not_mem_nil, or_false] at hn
    rcases hn with ⟨rfl, rfl⟩ | ⟨rfl, rfl⟩ | ⟨rfl, rfl⟩ | ⟨rfl, rfl⟩ | ⟨rfl, rfl⟩ | ⟨rfl, rfl⟩ | ⟨rfl, rfl⟩ |
      ⟨rfl, rfl⟩ | ⟨rfl, rfl⟩ <;> exact wireRead_ends rfl
  · rw [← cmdByte_eq_ofNat (bank := true) (idx := a) (rw := true) (by rw [Bool.toNat_true]; omega)]
    exact wireRead_ends rfl
  · rw [← cmdByte_eq_ofNat (bank := false) (idx := a) (rw := true)
      (by rw [Bool.toNat_true, Bool.toNat_false]; omega)]
    exact wireRead_ends rfl
  · rw [BitVec.ofNat_toNat]
    exact wireRead_ends rfl

/-- Settles O55: every burst row is a burst frame, with its command byte written out. -/
theorem wireBurstRowsSendTheirFrame : Obligations.WireBurstRowsSendTheirFrame := by
  refine fun s n w => ⟨fun i c hw hc => ?_, fun i c hc => ?_⟩ <;>
    simp only [List.mem_cons, Prod.mk.injEq, List.not_mem_nil, or_false] at hc
  · rcases hc with ⟨rfl, rfl⟩ | ⟨rfl, rfl⟩ <;> exact wireBurstWrite_ends hw rfl
  · rcases hc with ⟨rfl, rfl⟩ | ⟨rfl, rfl⟩
    · exact wireBurstRead_ends (c := clockBurstCmd) rfl
    · exact wireBurstRead_ends (c := ramBurstCmd) rfl

end Sys2Proof.Machine
end

section
/-! SUPPORT. A body blind to updates does not see which request it runs in (10_state.md R27), so a public request past
its checks ends as the internal request it expands to (30_encoding.md R126). -/

namespace Sys2Proof.Machine

/-- The state with the position at rest. -/
def State.atRest (s : State) : State := { s with pos := .idle }

theorem unread_atRest : Unread State.atRest :=
  ⟨fun _ => rfl, fun _ _ => rfl, fun _ => rfl, fun _ _ => rfl⟩

theorem finish_mapRes_atRest (r : EStateM.Result Status State Out) : finish (mapRes State.atRest r) = finish r := by
  cases r <;> rfl

/-- Acceptance names the request in the position only. -/
theorem accept_atRest (s : State) (i j : Instr) : (s.accept i).atRest = (s.accept j).atRest := rfl

theorem finish_atRest {m : Run Out} (hm : Blind m) (s : State) : finish (m s.atRest) = finish (m s) :=
  (finish_congr (hm _ unread_atRest s)).trans (finish_mapRes_atRest _)

theorem finish_accept {m : Run Out} (hm : Blind m) (s : State) (i j : Instr) :
    finish (m (s.accept i)) = finish (m (s.accept j)) := by
  rw [← finish_atRest hm (s.accept i), accept_atRest s i j, finish_atRest hm]

/-- A request whose checks pass ends as one whose body is what they let through. -/
theorem runRequest_expands {i j : Instr} {body m : Run Out} {s : State} (hb : body (s.accept i) = m (s.accept i))
    (hm : Blind m) : runRequest i body s = runRequest j m s := by
  rw [runRequest, hb, finish_accept hm s i j, runRequest]

theorem runBuffered_expands {i j : Instr} {n : Byte} {w : Option (List Byte)} {body m : Run Out} {s : State}
    (hb : body (s.accept i) = m (s.accept i)) (hm : Blind m) : runBuffered i n w body s = runBuffered j n w m s := by
  rw [runBuffered, runRequest_expands hb hm, runBuffered]

theorem Blind.output {α : Type} {m : Run α} {f : α → Out} (h : Blind m) : Blind (m >>= fun a => Pure.pure (f a)) :=
  h.bind fun _ => .pure _

theorem ramInBounds_of_le {a n : Byte} (h : a.toNat ≤ 30) (hn : a.toNat + n.toNat ≤ 31) : ramInBounds a n = true := by
  rw [ramInBounds, ramMaxAddr, Bool.and_eq_true]
  exact ⟨decide_eq_true (by omega), decide_eq_true (by omega)⟩

end Sys2Proof.Machine
end

section
/-! CERTIFICATE. The public requests that are pure compositions (30_encoding.md R126). -/

namespace Sys2Proof.Machine

/-- Settles O39: past its checks each request runs the body of its internal one, blind to the request's name. -/
theorem publicRequestsExpand : Obligations.PublicRequestsExpand := by
  intro s a n v w hi
  refine ⟨fun h => ?_, fun h => ?_, fun h => ?_, fun h => ?_, ?_, ?_, fun ha hn => ⟨?_, ?_⟩, ?_, ?_⟩
  · exact runBuffered_expands (checked_passes hi rfl (decide_eq_true h)) (blind_regBurstWrite _ _ _).output
  · exact runRequest_expands (checked_passes hi rfl (decide_eq_true h)) (blind_regBurstRead _ _).output
  · exact runBuffered_expands (checked_passes hi rfl (decide_eq_true h)) (blind_regBurstWrite _ _ _).output
  · exact runRequest_expands (checked_passes hi rfl (decide_eq_true h)) (blind_regBurstRead _ _).output
  · exact runBuffered_expands (guard_passes hi rfl) (blind_regWriteMultiple _ _ _).output
  · exact runRequest_expands (guard_passes hi rfl) (blind_regReadMultiple _ _).output
  · exact runBuffered_expands (checked_passes hi rfl (ramInBounds_of_le ha hn)) (blind_regWriteMultiple _ _ _).output
  · exact runRequest_expands (checked_passes hi rfl (ramInBounds_of_le ha hn)) (blind_regReadMultiple _ _).output
  · exact runRequest_expands (guard_passes hi rfl) (blind_engWriteByte _ _).output
  · exact runRequest_expands (guard_passes hi rfl) (blind_engReadByte _).output

end Sys2Proof.Machine
end

section
/-! SUPPORT. Which pin event stands where in a frame (41_bit_engine.md R209, R210; 42_register_access.md R304, R305). -/

namespace Sys2Proof.Machine

/-- The pin events of one slot that `first` opens (30_encoding.md R105). -/
def slotPins (first : Event) : List Event := [first, .clkWrite true, .clkWrite false]

theorem pinsOf_append (a b : List Event) : pinsOf (a ++ b) = pinsOf a ++ pinsOf b := List.filter_append ..

theorem pinsOf_outByte (x : Byte) :
    pinsOf (outByte x) = (List.range 8).flatMap fun k => slotPins (.ioWrite (x.getLsbD k)) :=
  List.filter_flatMap

theorem pinsOf_inByte : pinsOf inByte = (List.range 8).flatMap fun _ => slotPins .ioRead := rfl

theorem length_slots (f : Nat → Event) (n : Nat) :
    ((List.range n).flatMap fun k => slotPins (f k)).length = 3 * n := by
  induction n with
  | zero => rfl
  | succ n ih => rw [List.range_succ, List.flatMap_append, List.length_append, ih]; rfl

/-- Pin event `r` of slot `k`, in a row of slots. -/
theorem getElem?_slots (f : Nat → Event) {n k r : Nat} (hk : k < n) (hr : r < 3) :
    ((List.range n).flatMap fun k => slotPins (f k))[3 * k + r]? = (slotPins (f k))[r]? := by
  induction n with
  | zero => omega
  | succ n ih =>
    have hlen := length_slots f n
    rw [List.range_succ, List.flatMap_append, List.flatMap_singleton]
    by_cases hkn : k < n
    · rw [List.getElem?_append_left (by omega), ih hkn]
    · obtain rfl : k = n := by omega
      rw [List.getElem?_append_right (by omega), hlen, Nat.add_sub_cancel_left]

/-- Pin events 1 to 25 of every frame: CE_WRITE(1) and the eight slots of its command byte, before the pins `rest`. -/
def framePins (c : Byte) (rest : List Event) : List Event := .ceWrite true :: (pinsOf (outByte c) ++ rest)

theorem pinsOf_singleWrite (c v : Byte) :
    pinsOf (singleWrite c v) = framePins c (pinsOf (outByte v) ++ [.ioWrite false, .ceWrite false]) := by
  rw [singleWrite, pinsOf_append, pinsOf_append, pinsOf_append, List.append_assoc, List.append_assoc]
  rfl

theorem pinsOf_singleRead (c : Byte) : pinsOf (singleRead c) = framePins c (pinsOf inByte ++ [.ceWrite false]) := by
  rw [singleRead, pinsOf_append, pinsOf_append, pinsOf_append, List.append_assoc, List.append_assoc]
  rfl

theorem framePins_rest (c : Byte) (rest : List Event) (k : Nat) : (framePins c rest)[25 + k]? = rest[k]? := by
  rw [framePins, show 25 + k = 24 + k + 1 by omega, List.getElem?_cons_succ,
    List.getElem?_append_right (by rw [pins_outByte]; omega), pins_outByte, Nat.add_sub_cancel_left]

/-- Slot `j` of the command byte. -/
theorem framePins_command (c : Byte) (rest : List Event) {j : Nat} (hj : j < 8) :
    (framePins c rest)[1 + 3 * j]? = some (.ioWrite (c.getLsbD j)) ∧
    (framePins c rest)[2 + 3 * j]? = some (.clkWrite true) ∧
    (framePins c rest)[3 + 3 * j]? = some (.clkWrite false) := by
  have h : ∀ r, r < 3 → (framePins c rest)[1 + r + 3 * j]? = (slotPins (.ioWrite (c.getLsbD j)))[r]? := fun r hr => by
    rw [framePins, show 1 + r + 3 * j = 3 * j + r + 1 by omega, List.getElem?_cons_succ,
      List.getElem?_append_left (by rw [pins_outByte]; omega), pinsOf_outByte, getElem?_slots _ hj hr]
  exact ⟨h 0 (by decide), h 1 (by decide), h 2 (by decide)⟩

/-- Slot `j` after the command. -/
theorem framePins_data (c : Byte) (f : Nat → Event) (closing : List Event) {n j : Nat} (hj : j < n) :
    let l := framePins c (((List.range n).flatMap fun k => slotPins (f k)) ++ closing)
    l[25 + 3 * j]? = some (f j) ∧ l[26 + 3 * j]? = some (.clkWrite true) ∧ l[27 + 3 * j]? = some (.clkWrite false) := by
  intro l
  have h : ∀ r, r < 3 → l[25 + r + 3 * j]? = (slotPins (f j))[r]? := fun r hr => by
    rw [show 25 + r + 3 * j = 25 + (3 * j + r) by omega, framePins_rest,
      List.getElem?_append_left (by rw [length_slots]; omega), getElem?_slots f hj hr]
  exact ⟨h 0 (by decide), h 1 (by decide), h 2 (by decide)⟩

end Sys2Proof.Machine
end

section
/-! SUPPORT. The byte of eight samples, bit by bit (41_bit_engine.md R206). -/

namespace Sys2Proof.Machine

theorem testBit_bitsToNat (l : List Bool) (j : Nat) : (bitsToNat l).testBit j = l[j]?.getD false := by
  induction l generalizing j with
  | nil => simp [bitsToNat]
  | cons b l ih =>
    cases j with
    | zero => cases b <;> simp [bitsToNat, Nat.testBit_zero]
    | succ j =>
      rw [List.getElem?_cons_succ, ← ih j, Nat.testBit_succ, bitsToNat]
      have hb := b.toNat_lt
      congr 1
      omega

theorem getLsbD_byteOfBits (l : List Bool) {j : Nat} (hj : j < 8) : (byteOfBits l).getLsbD j = l[j]?.getD false := by
  rw [byteOfBits, BitVec.getLsbD_ofNat, decide_eq_true hj, Bool.true_and, testBit_bitsToNat]

end Sys2Proof.Machine
end

section
/-! SUPPORT. The internal requests and the wire rows are blind to the lifecycle gate (41_bit_engine.md R216). -/

namespace Sys2Proof.Machine

/-- The state with another init flag and other capabilities, all that a guard or INIT reads (10_state.md R20, R21). -/
def State.withGate (s : State) (flag : Bool) (c : Caps) : State := { s with initFlag := flag, caps := c }

theorem unread_withGate (flag : Bool) (c : Caps) : Unread fun s => s.withGate flag c :=
  ⟨fun _ => rfl, fun _ _ => rfl, fun _ => rfl, fun _ _ => rfl⟩

theorem finish_mapRes_withGate (flag : Bool) (c : Caps) (r : EStateM.Result Status State Out) :
    finish (mapRes (fun s => s.withGate flag c) r) = (finish r).withGate flag c := by
  cases r <;> rfl

theorem exec_withGate {i : Instr} {s t : State} (flag : Bool) (c : Caps) (hp : isPublic i = false)
    (h : exec i s = .next t) : exec i (s.withGate flag c) = .next (t.withGate flag c) := by
  have h1 : ∀ b, i ≠ .init b := by rintro b rfl; cases hp
  have h2 : ∀ b, i ≠ .deinit b := by rintro b rfl; cases hp
  have hf : isPublic i = true → ∀ u : State, (u.withGate flag c).initFlag = u.initFlag := by simp [hp]
  rcases exec_unread (s' := s.withGate flag c) h1 h2 (unread_withGate flag c) hf rfl with ⟨r, hx, hx'⟩ | ⟨hx, -⟩
  · rw [hx, Host.Outcome.next.injEq] at h
    rw [hx', finish_mapRes_withGate, h]
  · rw [hx] at h
    cases h

end Sys2Proof.Machine
end

section
/-! CERTIFICATE. The two engine operations (41_bit_engine.md R209, R210, R216). -/

namespace Sys2Proof.Machine

/-- Settles O27: an internal body is blind to the gate. -/
theorem internalRequestsAreUnguarded : Obligations.InternalRequestsAreUnguarded :=
  fun _ _ _ flag c hp h => exec_withGate flag c hp h

/-- Settles O29: the frame's ends, and its pins slot by slot. -/
theorem engWriteByteSendsOneFrame : Obligations.EngWriteByteSendsOneFrame := by
  intro s c v
  obtain ⟨hok, hfail⟩ := wireWrite_ends (i := .engWriteByte c v) (s := s) (c := c) (v := v) rfl
  refine ⟨hok, hfail, ?_⟩
  have hp := pinsOf_singleWrite c v
  rw [pinsOf_outByte v] at hp
  rw [hp]
  refine ⟨rfl, fun j hj => ?_, framePins_rest c _ 24, framePins_rest c _ 25⟩
  obtain ⟨h0, h1, h2⟩ := framePins_command c _ hj
  exact ⟨h0, h1, h2, framePins_data c (fun k => .ioWrite (v.getLsbD k)) _ hj⟩

/-- Settles O30: the frame's ends, its pins slot by slot, and the sampled byte bit by bit. -/
theorem engReadByteSendsOneFrame : Obligations.EngReadByteSendsOneFrame := by
  intro s c
  obtain ⟨hok, hfail⟩ := wireRead_ends (i := .engReadByte c) (s := s) (c := c) rfl
  refine ⟨hok, hfail, ?_⟩
  rw [pinsOf_singleRead, pinsOf_inByte]
  refine ⟨rfl, fun j hj => ?_, framePins_rest c _ 24, fun l _ j hj => getLsbD_byteOfBits l hj⟩
  obtain ⟨h0, h1, h2⟩ := framePins_command c _ hj
  exact ⟨h0, h1, h2, framePins_data c (fun _ => .ioRead) _ hj⟩

end Sys2Proof.Machine
end

section
/-! SUPPORT. The bus shadow at the end of a request, and where in a frame a failure fell (41_bit_engine.md R204, R211;
10_state.md R22). -/

namespace Sys2Proof.Machine

/-! ## The whole trace -/

/-- No line event shows in the shadow (R22). -/
theorem after_line {e : Event} (h : e.isLine = true) (b : Bus) (r : Reply) : b.after e r = b := by
  cases e <;> cases h <;> rfl

theorem releasesBefore_line {e : Event} (h : e.isLine = true) (w : Bool) : releasesBefore w e = false := by
  cases e <;> cases h <;> rfl

theorem replayOne_line {r : PortRecord} (h : r.event.isLine = true) (b : Bus) (w : Bool) : b.replayOne w r = b := by
  rw [Bus.replayOne, releasesBefore_line h]
  exact after_line h b r.reply

theorem replayReleasing_lines {t : List PortRecord} (h : ∀ r ∈ t, r.event.isLine = true) (b : Bus) (w : Bool) :
    b.replayReleasing w t = b := by
  induction t generalizing w with
  | nil => rfl
  | cons r t ih =>
    rw [replayReleasing_cons, replayOne_line (h r (.head _)), ih fun x hx => h x (.tail _ hx)]

theorem moves_lines_bus {l : List Event} (hl : ∀ e ∈ l, e.isLine = true) (s : State) : (s.moves (evs l)).bus = s.bus := by
  induction l generalizing s with
  | nil => rfl
  | cons e l ih =>
    rw [evs_cons, moves_cons, ih fun x hx => hl x (.tail _ hx)]
    exact after_line (hl e (.head _)) s.bus _

/-- Line events after acceptance leave the shadow, and so does the replay of their records. -/
theorem moves_lines_replay {l : List Event} (hl : ∀ e ∈ l, e.isLine = true) (s : State) (i : Instr) :
    ((s.accept i).moves (evs l)).bus = s.bus.replayReleasing false ((s.accept i).moves (evs l)).trace := by
  rw [moves_lines_bus hl, replayReleasing_lines fun r hr => hl r.event ?_, State.accept_bus]
  have he := moves_eventsOf (s.accept i) (evs l)
  rw [moveEvents_evs, State.accept_trace, List.map_nil, List.nil_append] at he
  exact he ▸ List.mem_map_of_mem hr

theorem LinesEnding.bus {i : Instr} {l : List Event} {flag : Bool} {s t : State} (h : LinesEnding i l flag s t)
    (hl : ∀ e ∈ l, e.isLine = true) : t.bus = s.bus.replayReleasing false t.trace := by
  cases h with
  | failed l' hl' ht => rw [ht]; exact moves_lines_replay hl' s i
  | done hok ht => rw [ht]; exact moves_lines_replay hl s i

theorem Ending.bus {i : Instr} {s t : State} (h : Ending i s t) : t.bus = s.bus.replayReleasing false t.trace := by
  cases h with
  | rejected k hk ht => rw [ht]; rfl
  | done l o hl hok ht =>
    rw [ht]
    exact (moves_replay l (r := []) hok rfl (by rw [List.append_nil]; exact hl.placed _)).1 rfl
  | failed l e b hl hk hok he ht =>
    rw [ht]
    exact (moves_replay l hok rfl (hl.placed _)).2 e b rfl

/-- After every request, however it ends, the shadow is the replay of the trace with the releases in their place. -/
theorem exec_bus {i : Instr} {s t : State} (h : exec i s = .next t) : t.bus = s.bus.replayReleasing false t.trace := by
  rcases exec_next_cases h with ⟨k, -, rfl⟩ | ⟨l, flag, -, hl, he⟩ | he
  · rfl
  · exact he.bus hl
  · exact he.bus

/-! ## The failing event -/

theorem after_ce_clk {b b' : Bus} (hce : b.ce = b'.ce) (hclk : b.clk = b'.clk) (e : Event) (r : Reply) :
    (b.after e r).ce = (b'.after e r).ce ∧ (b.after e r).clk = (b'.after e r).clk := by
  cases e with
  | ceWrite l => exact ⟨rfl, hclk⟩
  | clkWrite l => exact ⟨hce, rfl⟩
  | _ => exact ⟨hce, hclk⟩

/-- CE and the clock do not see the releases. -/
theorem replayReleasing_ce_clk (t : List PortRecord) {b b' : Bus} (w : Bool) (hce : b.ce = b'.ce)
    (hclk : b.clk = b'.clk) :
    (b.replayReleasing w t).ce = (b'.replay t).ce ∧ (b.replayReleasing w t).clk = (b'.replay t).clk := by
  induction t generalizing b b' w with
  | nil => exact ⟨hce, hclk⟩
  | cons r t ih =>
    have hrel : (if releasesBefore w r.event then b.released else b).ce = b'.ce ∧
        (if releasesBefore w r.event then b.released else b).clk = b'.clk := by
      split <;> exact ⟨hce, hclk⟩
    obtain ⟨hce', hclk'⟩ := after_ce_clk hrel.1 hrel.2 r.event r.reply
    exact ih _ hce' hclk'

/-- Only an instruction that ran frames ends with TransferFailure after a failed event: it stopped there, with CE as the
frame held it. -/
theorem transferFailure_ce {i : Instr} {s t : State} {front : List PortRecord} {e : Event} (h : exec i s = .next t)
    (hs : t.status = some .transferFailure) (ht : t.trace = front ++ [⟨e, .fail⟩]) :
    (∃ l, e = .ceWrite l) ∨ t.bus.ce = .high := by
  rcases exec_next_cases h with ⟨k, -, rfl⟩ | ⟨l, flag, -, -, he⟩ | he
  · simp [State.rejected] at ht
  · cases he with
    | failed l' hl' hf => simp [hf] at hs
    | done hok hf => simp [hf] at hs
  · cases he with
    | rejected k hk hf => simp [hf, State.rejected] at ht
    | done l o hl hok hf => simp [hf] at hs
    | failed l e' b hl hk hok he hf =>
      subst hf
      obtain ⟨-, hr⟩ := List.append_inj' (ht : _ ++ [_] = _) rfl
      obtain rfl : e' = e := congrArg PortRecord.event (List.singleton_inj.1 hr)
      rcases inFrame_at hl.inFrame.1 with hce | hce
      · cases e' <;> cases hce
        exact .inl ⟨_, rfl⟩
      · have hb := ce_high (h := false) hok nofun hce
        cases e' with
        | ceWrite x => exact .inl ⟨x, rfl⟩
        | _ => exact .inr hb

/-- What the failing event, the last of the trace, shows of the bus (R211). -/
theorem bus_of_transferFailure {i : Instr} {s t : State} {front : List PortRecord} {e : Event} (h : exec i s = .next t)
    (hs : t.status = some .transferFailure) (ht : t.trace = front ++ [⟨e, .fail⟩]) :
    ((∃ l, e = Event.ceWrite l) → t.bus.ce = .x) ∧
    ((∀ l, e ≠ Event.ceWrite l) → t.bus.ce = .high) ∧
    ((∃ l, e = Event.clkWrite l) → t.bus.clk = .x) ∧
    ((∃ l, e = Event.ioWrite l) → t.bus.io = .x ∧ t.bus.ioDir = .x) ∧
    (e = Event.ioRead → t.bus.io = .x ∧ t.bus.ioDir = .inp) := by
  have hb : t.bus = (s.bus.replayReleasing false front).replayOne (endsWriting false front) ⟨e, .fail⟩ := by
    rw [exec_bus h, ht, replayReleasing_snoc]
  refine ⟨?_, fun hne => ?_, ?_, ?_, ?_⟩
  · rintro ⟨l, rfl⟩; rw [hb]; rfl
  · exact (transferFailure_ce h hs ht).resolve_left fun ⟨l, hl⟩ => hne l hl
  · rintro ⟨l, rfl⟩; rw [hb]; rfl
  · rintro ⟨l, rfl⟩; rw [hb]; exact ⟨rfl, rfl⟩
  · rintro rfl; rw [hb]; exact ⟨rfl, rfl⟩

/-! ## Where in a program the failure fell -/

theorem length_pinsOf_throughPin {p : Nat} {l : List Event} (hp : p ≤ (pinsOf l).length) :
    (pinsOf (throughPin p l)).length = p := by
  induction l generalizing p with
  | nil =>
    obtain rfl : p = 0 := Nat.le_zero.1 hp
    rfl
  | cons e l ih =>
    cases p with
    | zero => rfl
    | succ p =>
      cases he : e.isPin with
      | false =>
        have hp' : p + 1 ≤ (pinsOf l).length := by simpa [pinsOf, he] using hp
        simpa [throughPin, pinsOf, he] using ih hp'
      | true =>
        have hp' : p ≤ (pinsOf l).length := by simpa [pinsOf, he] using hp
        by_cases h0 : p = 0
        · simp [throughPin, pinsOf, he, h0]
        · simpa [throughPin, pinsOf, he, h0] using ih hp'

/-- A request whose body runs one program stops at the pin event that is answered fail, with the bus and the trace of the
program up to it. -/
theorem stops_of_sim {i : Instr} {s : State} {body : Run Out} {l : List Move} {f : List Bool → Out} {p : Nat}
    (hx : exec i s = .next (finish (body (s.accept i)))) (hs : Sim body (readMoves l >>= fun x => pure (f x)))
    (hf : s.env.answersFailAt p = true) (hp : p ≤ movePins l) :
    ∃ a e b, l = a ++ .ev e :: b ∧ e.isPin = true ∧ movePins a + 1 = p ∧
      exec i s = .next (finish (.error .transferFailure ((s.accept i).moves (a ++ [.ev e])))) := by
  obtain ⟨a, e, b, hl, ha, he, ht⟩ := fail_split (v := (s.accept i).env) (willFailAt_of_answersFailAt hf) hp
  have hpin : e.isPin = true := by
    cases hd : e.isPin with
    | true => rfl
    | false =>
      rw [respond_delay _ hd] at he
      cases he
  refine ⟨a, e, b, hl, hpin, ?_, ?_⟩
  · calc movePins a + 1 = movePins (a ++ [.ev e]) := by rw [movePins_append, movePins_ev_pin [] hpin, movePins_nil]
      _ = (pinsOf (throughPin p (moveEvents l))).length := by rw [← ht, movePins, moveEvents_append]; rfl
      _ = p := length_pinsOf_throughPin hp
  · rw [hx]
    refine congrArg _ (finish_congr ?_)
    rw [hs.apply, run_bind, hl, moves_append]
    simp only [readMoves, runMoves_fail ha he]
    rfl

/-- A failure in a program with one release falls before it or after it. -/
theorem stop_before_or_after_release {u x a b : List Move} {e : Event} (h : u ++ .release :: x = a ++ .ev e :: b) :
    (∃ b', u = a ++ .ev e :: b') ∨ ∃ a', a = u ++ .release :: a' ∧ x = a' ++ .ev e :: b := by
  rcases List.append_eq_append_iff.1 h with ⟨a', ha, hx⟩ | ⟨b', hu, hx⟩
  · cases a' with
    | nil => cases hx
    | cons m a' =>
      obtain ⟨rfl, hx'⟩ := List.cons.inj hx
      exact .inr ⟨a', ha, hx'⟩
  · cases b' with
    | nil => cases hx
    | cons m b' =>
      obtain ⟨rfl, -⟩ := List.cons.inj hx
      exact .inl ⟨b', hu⟩

/-! ## The data line before and after the release -/

/-- A program with no release leaves what its answered events left. -/
theorem moves_bus_replay {l : List Move} (h : Move.release ∉ l) {s : State} {b : Bus} (hb : s.bus = b.replay s.trace) :
    (s.moves l).bus = b.replay (s.moves l).trace := by
  induction l generalizing s with
  | nil => exact hb
  | cons m l ih =>
    rw [List.mem_cons, not_or] at h
    cases m with
    | release => exact absurd rfl h.1
    | ev e =>
      refine ih h.2 (s := s.issue e) ?_
      rw [State.issue_bus, State.issue_trace, Bus.replay, List.foldl_append, hb]
      rfl

theorem release_notMem_evs (l : List Event) : Move.release ∉ evs l := by simp [evs]

/-- The data line is X and its direction IN (R204). -/
def Bus.dataReleased (b : Bus) : Prop := b.io = .x ∧ b.ioDir = .inp

theorem after_dataReleased {b : Bus} {e : Event} (he : e.isIoWrite = false) (h : b.dataReleased) (r : Reply) :
    (b.after e r).dataReleased := by
  cases e with
  | ioWrite l => cases he
  | _ => exact h

/-- A released data line stays released while no IO_WRITE is issued, whatever is answered. -/
theorem moves_dataReleased {l : List Move} (hl : ∀ e, Move.ev e ∈ l → e.isIoWrite = false) {s : State}
    (h : s.bus.dataReleased) : (s.moves l).bus.dataReleased := by
  induction l generalizing s with
  | nil => exact h
  | cons m l ih =>
    refine ih (fun e he => hl e (.tail _ he)) ?_
    cases m with
    | release => exact ⟨rfl, rfl⟩
    | ev e => exact after_dataReleased (hl e (.head _)) h _

/-- The part of a read frame after the release. -/
theorem not_ioWrite_of_mem_inBytes {n : Nat} {e : Event} (h : e ∈ inBytes n ++ [.ceWrite false]) :
    e.isIoWrite = false := by
  rw [List.mem_append, List.mem_singleton, inBytes, List.mem_flatMap] at h
  obtain ⟨-, -, h⟩ | rfl := h
  · exact (by decide : ∀ e ∈ inByte, e.isIoWrite = false) e h
  · rfl

section

variable {i : Instr} {s : State} {body : Run Out} {f : List Bool → Out} {p : Nat}

/-- A failure in a program of events only: the bus is as the answered events left it. -/
theorem bus_of_stop_events {l : List Event} (hx : exec i s = .next (finish (body (s.accept i))))
    (hs : Sim body (readMoves (evs l) >>= fun x => pure (f x))) (hf : s.env.answersFailAt p = true)
    (hp : p ≤ movePins (evs l)) : ∃ t, exec i s = .next t ∧ t.bus = s.bus.replay t.trace := by
  obtain ⟨a, e, b, hl, -, -, ht⟩ := stops_of_sim hx hs hf hp
  refine ⟨_, ht, moves_bus_replay (s := s.accept i) (fun hm => release_notMem_evs l ?_) rfl⟩
  rw [hl, List.append_cons]
  exact List.mem_append_left _ hm

/-- A failure in a read frame: the bus is as the answered events left it up to the last command slot, and its data line is
released from the first IN slot on. -/
theorem bus_of_stop_read {c : Byte} {n : Nat} (hx : exec i s = .next (finish (body (s.accept i))))
    (hs : Sim body (readMoves (burstReadFrame c n) >>= fun x => pure (f x))) (hf : s.env.answersFailAt p = true)
    (hp : p ≤ 26 + 24 * n) :
    ∃ t, exec i s = .next t ∧ if p ≤ 25 then t.bus = s.bus.replay t.trace else t.bus.io = .x ∧ t.bus.ioDir = .inp := by
  obtain ⟨a, e, b, hl, hpin, hpa, ht⟩ := stops_of_sim hx hs hf (by rw [pins_burstReadFrame]; exact hp)
  refine ⟨_, ht, ?_⟩
  have hc := pins_commandMoves c
  rcases stop_before_or_after_release hl with ⟨b', hu⟩ | ⟨a', rfl, hx'⟩
  · rw [hu, movePins_append, movePins_ev_pin b' hpin] at hc
    rw [if_pos (by omega)]
    refine moves_bus_replay (s := s.accept i) (fun hm => release_notMem_evs (.ceWrite true :: outByte c) ?_) rfl
    rw [← commandMoves, hu, List.append_cons]
    exact List.mem_append_left _ hm
  · rw [movePins_append, hc] at hpa
    rw [if_neg (by omega), finish_error_bus, List.append_assoc, List.cons_append, moves_append, moves_cons]
    refine moves_dataReleased (fun x hm => not_ioWrite_of_mem_inBytes (n := n) ?_) ⟨rfl, rfl⟩
    have hmem : Move.ev x ∈ evs (inBytes n ++ [.ceWrite false]) := by
      rw [hx', List.append_cons]
      exact List.mem_append_left _ hm
    obtain ⟨y, hy, hyx⟩ := List.mem_map.1 hmem
    exact Move.ev.inj hyx ▸ hy

end

end Sys2Proof.Machine
end

section
/-! CERTIFICATE. The bus after a transfer failure, and after every request (41_bit_engine.md R204, R211; 10_state.md R22). -/

namespace Sys2Proof.Machine

/-- Settles O20: the whole shadow is the replayed trace, the failing event is its last record, and a frame's program says on
which side of the release it fell. -/
theorem busAfterATransferFailure : Obligations.BusAfterATransferFailure := by
  refine ⟨fun i s t front e h hs ht => ?_, fun s c p hp hf => ?_, fun s bc n p hp hf => ?_, fun s c v p hp hf => ?_,
    fun s bc n w p hw hp hf => ?_, fun i s t => exec_bus⟩
  · obtain ⟨hce, hhigh, hclk, hwrite, hread⟩ := bus_of_transferFailure h hs ht
    refine ⟨hce, hhigh, hclk, hwrite, hread, ?_⟩
    rw [exec_bus h]
    exact replayReleasing_ce_clk t.trace false rfl rfl
  · exact bus_of_stop_read (n := 1) rfl (readFrame_burst c ▸ sim_out_of_read (sim_engReadByte c) .byte) hf hp
  · exact bus_of_stop_read rfl (sim_out_of_read (sim_regBurstRead bc n) .bytes) hf hp
  · exact bus_of_stop_events rfl (sim_out_of_unit (sim_engWriteByte c v)) hf
      ((pins_writeFrame c v).symm ▸ hp)
  · exact bus_of_stop_events (runBuffered_next _ s (by simp [bufferFits, hw]))
      (sim_out_of_unit (sim_regBurstWrite bc n w)) hf ((pins_burstWriteFrame bc w).symm ▸ hp)

end Sys2Proof.Machine
end

section
/-! SUPPORT. Stepped addresses as numbers and as command bytes (42_register_access.md R301). -/

namespace Sys2Proof.Machine

theorem toNat_aw (start : Byte) (i : Nat) : (aw start i).toNat = (start.toNat + 2 * i) % 256 := BitVec.toNat_ofNat ..

theorem toNat_clearRead (c : Byte) : (c &&& 0xFE#8).toNat = c.toNat / 2 * 2 := by
  revert c; decide

/-- The read selector hides bit 0. -/
theorem toNat_withRead (c : Byte) : (withRead c).toNat = c.toNat / 2 * 2 + 1 := by
  revert c; decide

/-- A step of two keeps bit 0. -/
theorem getLsbD_zero_aw (start : Byte) (i : Nat) : (aw start i).getLsbD 0 = start.getLsbD 0 := by
  have h : (start.toNat + 2 * i) % 256 % 2 = start.toNat % 2 := by omega
  rw [BitVec.getLsbD, BitVec.getLsbD, toNat_aw, Nat.testBit_zero, Nat.testBit_zero, h]

/-- A read address does not depend on bit 0 of its start. -/
theorem ar_clearRead (start : Byte) (i : Nat) : ar (start &&& 0xFE#8) i = ar start i := by
  apply BitVec.eq_of_toNat_eq
  rw [ar, ar, toNat_withRead, toNat_withRead, toNat_aw, toNat_aw, toNat_clearRead]
  omega

theorem withRead_cmdByte (bank : Bool) (idx : BitVec 5) : withRead (cmdByte bank idx false) = cmdByte bank idx true := by
  revert bank idx; decide

/-- Steps from a bank's first address go through its indices. -/
theorem aw_eq_cmdByte {start : Byte} {bank : Bool} {i idx : Nat} (hidx : idx < 32)
    (h : start.toNat + 2 * i = 0x80 + 64 * bank.toNat + 2 * idx) :
    aw start i = cmdByte bank (BitVec.ofNat 5 idx) false := by
  refine (cmdByte_eq_ofNat ?_).symm
  rw [BitVec.toNat_ofNat, Nat.mod_eq_of_lt hidx, Bool.toNat_false, Nat.add_zero, h]

theorem aw_ramSlot {a i : Nat} (h : a + i ≤ 30) :
    aw (BitVec.ofNat 8 (0xC0 + 2 * a)) i = cmdByte true (BitVec.ofNat 5 (a + i)) false := by
  refine aw_eq_cmdByte (by omega) ?_
  rw [BitVec.toNat_ofNat, Bool.toNat_true]
  omega

end Sys2Proof.Machine
end

section
/-! SUPPORT. Multiple transfers and bursts: how they end, and which pin event stands where in a burst frame
(42_register_access.md R302 to R305). -/

namespace Sys2Proof.Machine

/-! ## How they end -/

section
variable {i : Instr} {s : State}

/-- A request that runs REG_WRITE_MULTIPLE. -/
theorem multiWrite_ends {start n : Byte} {w : List Byte} (hw : w.length = n.toNat)
    (hx : exec i s = runBuffered i n (some w) (regWriteMultiple start n w >>= fun _ => pure .none) s) :
    (s.env.answersOk (51 * w.length) = true →
      Completes i s (fun _ => multiWrite start 0 w) (fun _ => .none) (if w = [] then s.bus else Bus.afterWrite)) ∧
    (∀ p, p ≤ 51 * w.length → s.env.answersFailAt p = true → FailsAt i s p (fun _ => multiWrite start 0 w)) :=
  moveEvents_writeMultiMoves start 0 w ▸
    ends_of_unit (hx.trans (runBuffered_next _ s (bufferFits_some.2 hw))) (sim_regWriteMultiple start n w)
      (pins_writeMultiMoves start 0 w) (bus_writeMultiMoves s.bus start 0 w)

/-- A request that runs REG_READ_MULTIPLE. -/
theorem multiRead_ends {start n : Byte}
    (hx : exec i s = runRequest i (regReadMultiple start n >>= fun r => pure (.bytes r)) s) :
    (s.env.answersOk (50 * n.toNat) = true →
      Completes i s (fun _ => multiRead start 0 n.toNat) (fun l => .bytes (bytesOfBits n.toNat l))
        (if n = 0 then s.bus else Bus.afterRead)) ∧
    (∀ p, p ≤ 50 * n.toNat → s.env.answersFailAt p = true → FailsAt i s p (fun _ => multiRead start 0 n.toNat)) := by
  have hbus := bus_readMultiMoves s.bus start 0 n.toNat
  simp only [← BitVec.toNat_inj (y := (0 : Byte))]
  exact moveEvents_readMultiMoves start 0 n.toNat ▸
    ends_of_read hx (sim_regReadMultiple start n) (pins_readMultiMoves start 0 n.toNat) hbus

/-! ## The public requests, past their checks, run the internal ones (30_encoding.md R126) -/

theorem clockBurstWrite_runs {n : Byte} {w : List Byte} (hi : s.initFlag = true) (h : n.toNat ≤ 8) :
    exec (.clockBurstWrite true n (some w)) s =
      wireBurstWrite (.clockBurstWrite true n (some w)) clockBurstCmd n w s :=
  runBuffered_expands (checked_passes hi rfl (decide_eq_true h)) (blind_regBurstWrite _ _ _).output

theorem ramBurstWrite_runs {n : Byte} {w : List Byte} (hi : s.initFlag = true) (h : n.toNat ≤ 31) :
    exec (.ramBurstWrite true n (some w)) s = wireBurstWrite (.ramBurstWrite true n (some w)) ramBurstCmd n w s :=
  runBuffered_expands (checked_passes hi rfl (decide_eq_true h)) (blind_regBurstWrite _ _ _).output

theorem clockBurstRead_runs {n : Byte} (hi : s.initFlag = true) (h : n.toNat ≤ 8) :
    exec (.clockBurstRead true true n) s = wireBurstRead (.clockBurstRead true true n) clockBurstCmd n s :=
  runRequest_expands (checked_passes hi rfl (decide_eq_true h)) (blind_regBurstRead _ _).output

theorem ramBurstRead_runs {n : Byte} (hi : s.initFlag = true) (h : n.toNat ≤ 31) :
    exec (.ramBurstRead true true n) s = wireBurstRead (.ramBurstRead true true n) ramBurstCmd n s :=
  runRequest_expands (checked_passes hi rfl (decide_eq_true h)) (blind_regBurstRead _ _).output

theorem setReg_runs {reg n : Byte} {w : List Byte} (hi : s.initFlag = true) :
    exec (.setReg true reg n (some w)) s = runBuffered (.setReg true reg n (some w)) n (some w)
      (regWriteMultiple reg n w >>= fun _ => pure .none) s :=
  runBuffered_expands (guard_passes hi rfl) (blind_regWriteMultiple _ _ _).output

theorem getReg_runs {reg n : Byte} (hi : s.initFlag = true) :
    exec (.getReg true true reg n) s = runRequest (.getReg true true reg n)
      (regReadMultiple reg n >>= fun r => pure (.bytes r)) s :=
  runRequest_expands (guard_passes hi rfl) (blind_regReadMultiple _ _).output

theorem writeRam_runs {addr n : Byte} {w : List Byte} (hi : s.initFlag = true) (ha : addr.toNat ≤ 30)
    (hn : addr.toNat + n.toNat ≤ 31) :
    exec (.writeRam true addr n (some w)) s = runBuffered (.writeRam true addr n (some w)) n (some w)
      (regWriteMultiple (ramStart addr) n w >>= fun _ => pure .none) s :=
  runBuffered_expands (checked_passes hi rfl (ramInBounds_of_le ha hn)) (blind_regWriteMultiple _ _ _).output

theorem readRam_runs {addr n : Byte} (hi : s.initFlag = true) (ha : addr.toNat ≤ 30)
    (hn : addr.toNat + n.toNat ≤ 31) :
    exec (.readRam true true addr n) s = runRequest (.readRam true true addr n)
      (regReadMultiple (ramStart addr) n >>= fun r => pure (.bytes r)) s :=
  runRequest_expands (checked_passes hi rfl (ramInBounds_of_le ha hn)) (blind_regReadMultiple _ _).output

/-- A request turned away by the check after its guard. -/
theorem finish_check_fails {ops : List Bool} {c : Bool} {k : Status} {m : Run Out} (hi : s.initFlag = true)
    (ho : ops.all id = true) (hc : c = false) :
    finish ((guard true ops >>= fun _ => require c k >>= fun _ => m) (s.accept i)) = s.rejected k := by
  rw [guard_passes hi ho, hc]
  rfl

end

/-! ## The pins of a burst frame -/

theorem pinsOf_burstWrite (c : Byte) (l : List Byte) :
    pinsOf (burstWrite c l) = framePins c (pinsOf (outBytes l) ++ [.ioWrite false, .ceWrite false]) := by
  rw [burstWrite, pinsOf_append, pinsOf_append, pinsOf_append, List.append_assoc, List.append_assoc]
  rfl

theorem pinsOf_burstRead (c : Byte) (n : Nat) :
    pinsOf (burstRead c n) = framePins c (pinsOf (inBytes n) ++ [.ceWrite false]) := by
  rw [burstRead, pinsOf_append, pinsOf_append, pinsOf_append, List.append_assoc, List.append_assoc]
  rfl

/-- Data bytes are one row of slots: slot `k` carries bit `k % 8` of byte `k / 8`. -/
theorem pinsOf_outBytes (l : List Byte) :
    pinsOf (outBytes l) =
      (List.range (8 * l.length)).flatMap fun k => slotPins (.ioWrite ((l.getD (k / 8) 0).getLsbD (k % 8))) := by
  induction l with
  | nil => rfl
  | cons v vs ih =>
    have e : outBytes (v :: vs) = outByte v ++ outBytes vs := by simp [outBytes]
    rw [e, pinsOf_append, pinsOf_outByte, ih, List.length_cons, Nat.mul_succ, Nat.add_comm, List.range_add,
      List.flatMap_append, List.flatMap_map]
    congr 1
    simp [Nat.add_mod_left, Nat.add_div_left]

/-- IN bytes are one row of slots. -/
theorem pinsOf_inBytes (n : Nat) : pinsOf (inBytes n) = (List.range (8 * n)).flatMap fun _ => slotPins .ioRead := by
  induction n with
  | zero => rfl
  | succ n ih =>
    have e : inBytes (n + 1) = inBytes n ++ inByte := by simp [inBytes, List.range_succ]
    rw [e, pinsOf_append, ih, pinsOf_inByte, Nat.mul_succ, List.range_add, List.flatMap_append, List.flatMap_map]

end Sys2Proof.Machine
end

section
/-! CERTIFICATE. Stepped addresses, and the internal requests of the multiplexer (42_register_access.md R301 to R305). -/

namespace Sys2Proof.Machine

/-- Settles O5: the formulas as numbers, and each bank's addresses as its command bytes. -/
theorem steppedAddresses : Obligations.SteppedAddresses := by
  refine ⟨fun start i => ⟨toNat_aw start i, rfl, getLsbD_zero_aw start i, (ar_clearRead start i).symm⟩,
    fun a i h => ⟨aw_ramSlot h, ?_⟩, fun i h => ?_, fun i h => ?_, by decide⟩
  · rw [ar, aw_ramSlot h, withRead_cmdByte]
  · exact aw_eq_cmdByte (by omega) rfl
  · refine aw_eq_cmdByte (by omega) ?_
    rw [Bool.toNat_true, show (0x80#8).toNat = 128 from rfl]
    omega

/-- Settles O31: the multiple write's ends. -/
theorem regWriteMultipleSendsAFramePerByte : Obligations.RegWriteMultipleSendsAFramePerByte :=
  fun _ _ _ _ hw => multiWrite_ends hw rfl

/-- Settles O32: the multiple read's ends. -/
theorem regReadMultipleSendsAFramePerByte : Obligations.RegReadMultipleSendsAFramePerByte :=
  fun _ _ _ => multiRead_ends rfl

/-- Settles O33: the frame's ends, and its pins slot by slot. -/
theorem regBurstWriteSendsOneFrame : Obligations.RegBurstWriteSendsOneFrame := by
  intro s bc n w hw
  obtain ⟨hok, hfail⟩ := wireBurstWrite_ends (i := .regBurstWrite bc n w) (s := s) (c := bc) hw rfl
  have hclose : ∀ k, (pinsOf (burstWrite bc w))[25 + (24 * w.length + k)]? =
      [Event.ioWrite false, Event.ceWrite false][k]? := fun k => by
    rw [pinsOf_burstWrite, framePins_rest, List.getElem?_append_right (by rw [pins_outBytes]; omega), pins_outBytes,
      Nat.add_sub_cancel_left]
  refine ⟨hok, hfail, ?_, fun j hj => ?_, fun k j hk hj => ?_, hclose 0, ?_⟩
  · rw [pinsOf_burstWrite]; rfl
  · rw [pinsOf_burstWrite]
    exact framePins_command bc _ hj
  · have hdata := framePins_data bc (fun k => .ioWrite ((w.getD (k / 8) 0).getLsbD (k % 8)))
      [.ioWrite false, .ceWrite false] (n := 8 * w.length) (j := 8 * k + j) (by omega)
    rw [← pinsOf_outBytes, ← pinsOf_burstWrite, show (8 * k + j) / 8 = k by omega, show (8 * k + j) % 8 = j by omega,
      Nat.mul_add, ← Nat.mul_assoc] at hdata
    simpa only [Nat.add_assoc] using hdata
  · rw [show 26 + 24 * w.length = 25 + (24 * w.length + 1) by omega]
    exact hclose 1

/-- Settles O34: the frame's ends, and its pins slot by slot. -/
theorem regBurstReadSendsOneFrame : Obligations.RegBurstReadSendsOneFrame := by
  intro s bc n
  obtain ⟨hok, hfail⟩ := wireBurstRead_ends (i := .regBurstRead bc n) (s := s) (c := bc) (n := n) rfl
  refine ⟨hok, hfail, ?_⟩
  rw [pinsOf_burstRead]
  refine ⟨rfl, fun j hj => framePins_command bc _ hj, fun k hk => ?_, ?_⟩
  · rw [pinsOf_inBytes]
    exact framePins_data bc (fun _ => .ioRead) _ hk
  · rw [framePins_rest, List.getElem?_append_right (Nat.le_of_eq (pins_inBytes _)), pins_inBytes, Nat.sub_self]
    rfl

end Sys2Proof.Machine
end

section
/-! CERTIFICATE. The public wrappers over the multiplexer (42_register_access.md R306 to R311). -/

namespace Sys2Proof.Machine

/-- Settles O35: past its checks each request is a burst write frame; a length over its maximum fails the check. -/
theorem burstWriteRequests : Obligations.BurstWriteRequests := by
  intro s n w hi hw
  have hf := bufferFits_some.2 hw
  refine ⟨fun h => (wireBurstWrite_ends hw (clockBurstWrite_runs hi h)).1,
    fun h => (wireBurstWrite_ends hw (clockBurstWrite_runs hi h)).2, fun h => ?_,
    fun h => (wireBurstWrite_ends hw (ramBurstWrite_runs hi h)).1,
    fun h => (wireBurstWrite_ends hw (ramBurstWrite_runs hi h)).2, fun h => ?_⟩
  · exact (runBuffered_next _ s hf).trans (congrArg _ (finish_check_fails hi rfl (decide_eq_false (Nat.not_le_of_lt h))))
  · exact (runBuffered_next _ s hf).trans (congrArg _ (finish_check_fails hi rfl (decide_eq_false (Nat.not_le_of_lt h))))

/-- Settles O36: past its checks each request is a burst read frame; a length over its maximum fails the check. -/
theorem burstReadRequests : Obligations.BurstReadRequests := by
  intro s n hi
  refine ⟨fun h => (wireBurstRead_ends (clockBurstRead_runs hi h)).1,
    fun h => (wireBurstRead_ends (clockBurstRead_runs hi h)).2, fun h => ?_,
    fun h => (wireBurstRead_ends (ramBurstRead_runs hi h)).1,
    fun h => (wireBurstRead_ends (ramBurstRead_runs hi h)).2, fun h => ?_⟩
  · exact congrArg _ (finish_check_fails hi rfl (decide_eq_false (Nat.not_le_of_lt h)))
  · exact congrArg _ (finish_check_fails hi rfl (decide_eq_false (Nat.not_le_of_lt h)))

/-- Settles O37: past its guard each request is the multiple transfer. -/
theorem rawRegisterRequests : Obligations.RawRegisterRequests := by
  intro s reg n w hi hw
  obtain ⟨hset, hsetFail⟩ := multiWrite_ends hw (setReg_runs (reg := reg) hi)
  obtain ⟨hget, hgetFail⟩ := multiRead_ends (getReg_runs (reg := reg) (n := n) hi)
  exact ⟨hset, hsetFail, hget, hgetFail⟩

end Sys2Proof.Machine
end

section
/-! SUPPORT. A program cut at a pin event: whole frames before it, and the frame it falls in (42_register_access.md
R313). -/

namespace Sys2Proof.Machine

/-- The events through a pin event of the second part: the first part in full. -/
theorem throughPin_append_right (a b : List Event) {q : Nat} (hq : 1 ≤ q) :
    throughPin ((pinsOf a).length + q) (a ++ b) = a ++ throughPin q b := by
  obtain ⟨q, rfl⟩ := Nat.exists_eq_add_of_le' hq
  induction a with
  | nil => rw [pinsOf, List.filter_nil, List.length_nil, Nat.zero_add, List.nil_append, List.nil_append]
  | cons e a ih =>
    cases he : e.isPin with
    | false =>
      have hp : pinsOf (e :: a) = pinsOf a := List.filter_cons_of_neg (by simp [he])
      rw [hp, List.cons_append, List.cons_append, ← ih, ← Nat.add_assoc, throughPin, if_neg (by simp [he])]
    | true =>
      have hp : (pinsOf (e :: a)).length = (pinsOf a).length + 1 := by simp [pinsOf, he]
      rw [hp, List.cons_append, List.cons_append, ← ih, Nat.add_right_comm, throughPin, if_pos he,
        if_neg (by omega)]

/-- The events through a pin event of the first part: nothing of the second. -/
theorem throughPin_append_left {a : List Event} (b : List Event) {p : Nat} (hp : p ≤ (pinsOf a).length) :
    throughPin p (a ++ b) = throughPin p a := by
  induction a generalizing p with
  | nil =>
    obtain rfl : p = 0 := Nat.le_zero.1 hp
    rw [throughPin, throughPin]
  | cons e a ih =>
    cases p with
    | zero => rw [throughPin, throughPin]
    | succ p =>
      cases he : e.isPin with
      | false =>
        have hp' : p + 1 ≤ (pinsOf a).length := by simpa [pinsOf, he] using hp
        simp [throughPin, he, ih hp']
      | true =>
        have hp' : p ≤ (pinsOf a).length := by simpa [pinsOf, he] using hp
        simp [throughPin, he, ih hp']

/-- The frames of a multiple write before, at and after byte `k`. -/
theorem multiWrite_split {start v : Byte} {i k : Nat} {w : List Byte} (h : w[k]? = some v) :
    multiWrite start i w = multiWrite start i (w.take k) ++
      (singleWrite (aw start (i + k)) v ++ multiWrite start (i + k + 1) (w.drop (k + 1))) := by
  induction w generalizing i k with
  | nil => cases h
  | cons x w ih =>
    cases k with
    | zero =>
      obtain rfl : x = v := Option.some.inj h
      rfl
    | succ k =>
      rw [List.getElem?_cons_succ] at h
      rw [List.take_succ_cons, List.drop_succ_cons, multiWrite, multiWrite, ih h, List.append_assoc,
        Nat.add_right_comm i 1 k]
      rfl

theorem pins_multiWrite (start : Byte) (i : Nat) (l : List Byte) :
    (pinsOf (multiWrite start i l)).length = 51 * l.length := by
  rw [← moveEvents_writeMultiMoves]
  exact pins_writeMultiMoves start i l

theorem pins_singleWrite (c v : Byte) : (pinsOf (singleWrite c v)).length = 51 := by
  rw [← moveEvents_writeFrame]
  exact pins_writeFrame c v

/-- A multiple write up to pin event `q` of its frame `k`. -/
theorem throughPin_multiWrite {start v : Byte} {k q : Nat} {w : List Byte} (h : w[k]? = some v) (h1 : 1 ≤ q)
    (h51 : q ≤ 51) :
    throughPin (51 * k + q) (multiWrite start 0 w) =
      multiWrite start 0 (w.take k) ++ throughPin q (singleWrite (aw start k) v) := by
  have hk : (w.take k).length = k := List.length_take_of_le (Nat.le_of_lt (List.getElem?_eq_some_iff.1 h).1)
  have hpins : (pinsOf (multiWrite start 0 (w.take k))).length = 51 * k := by rw [pins_multiWrite, hk]
  rw [multiWrite_split h, ← hpins, throughPin_append_right _ _ h1,
    throughPin_append_left _ (by rwa [pins_singleWrite]), Nat.zero_add]

end Sys2Proof.Machine
end

section
/-! CERTIFICATE. Partial multiple writes (42_register_access.md R313). -/

namespace Sys2Proof.Machine

/-- Settles O38: each request fails as the multiple write does, and `throughPin_multiWrite` cuts its program. -/
theorem partialWritesPersist : Obligations.PartialWritesPersist := by
  intro s start addr n w k q v hw hv h1 h51 hf
  have hp : 51 * k + q ≤ 51 * w.length := by
    have hk : k < w.length := (List.getElem?_eq_some_iff.1 hv).1
    omega
  refine ⟨?_, fun hi => ?_, fun hi hn ha => ?_, throughPin_multiWrite hv h1 h51⟩
  · exact (multiWrite_ends hw rfl).2 _ hp hf
  · exact (multiWrite_ends hw (setReg_runs hi)).2 _ hp hf
  · exact (multiWrite_ends hw (writeRam_runs hi ha hn)).2 _ hp hf

end Sys2Proof.Machine
end

section
/-! SUPPORT. Multiple transfers on the reference double with no failure injected: what they read and store, and how often
each transfer raises CE (20_memory.md R83, R85; 42_register_access.md R312). -/

namespace Sys2Proof.Machine

/-! ## Frame after frame -/

/-- A multiple read of a double whose lines are low gives the cells its commands name: each frame leaves the memory, and
the lines low for the next. -/
theorem multiRead_levels {v : Env} {f : Option Injected} {start : Byte} {i n : Nat} (cell : Nat → Nat)
    (hr : v.responder = .double f) (hq : v.double.quiet)
    (hm : ∀ k, i ≤ k → k < i + n → cmdMarker (ar start k) = true)
    (hd : ∀ k, i ≤ k → k < i + n → dataCell (ar start k) 0 = some (cell k))
    (h : v.okMoves (readMultiMoves start i n)) :
    bytesOfBits n (v.levels (readMultiMoves start i n)) =
      (List.range' i n).map fun k => Memory.read v.double.mem (cell k) := by
  induction n generalizing i v with
  | zero => rfl
  | succ n ih =>
    rw [readMultiMoves] at h ⊢
    obtain ⟨hfirst, hrest⟩ := (okMoves_append _ _ _).1 h
    obtain ⟨hmem, hclk, hce⟩ := burstRead_double (ar start i) 1 hr hq.2 (fun _ => notWrite_withRead _)
      (readFrame_burst _ ▸ hfirst)
    rw [← readFrame_burst] at hmem hclk hce
    rw [levels_append, bytesOfBits_succ (length_levels_readFrame hfirst),
      byteOfBits_readFrame hr hq (hm i (by omega) (by omega)) (cmdRw_withRead _) (hd i (by omega) (by omega)) hfirst,
      ih ((moves_responder _ _).trans hr) ⟨hce, hclk⟩ (fun k _ _ => hm k (by omega) (by omega))
        (fun k _ _ => hd k (by omega) (by omega)) hrest, hmem, List.range'_succ, List.map_cons]

/-- The frames of a multiple write store pair by pair. -/
theorem multiWrite_double {v : Env} {f : Option Injected} (start : Byte) (i : Nat) (l : List Byte)
    (hr : v.responder = .double f) (hq : v.double.quiet) (h : v.okMoves (writeMultiMoves start i l)) :
    (v.moves (writeMultiMoves start i l)).double.mem = storePairs v.double.mem (multiPairs start i l) := by
  induction l generalizing v i with
  | nil => rfl
  | cons x l ih =>
    rw [writeMultiMoves_cons, writeFrame_burst] at h ⊢
    obtain ⟨hfirst, hrest⟩ := (okMoves_append _ _ _).1 h
    obtain ⟨hmem, hclk, hce⟩ := burstWrite_double (aw start i) [x] hr hq.2 hfirst
    rw [if_pos hq.1] at hmem
    rw [env_moves_append, ih _ ((moves_responder _ _).trans hr) ⟨hce, hclk⟩ hrest, hmem, multiPairs, storePairs]

/-! ## Slot after slot -/

/-- Step `k` from 0xC0 is the write command of RAM slot `k`. -/
theorem aw_ram {k : Nat} (hk : k ≤ 30) : aw 0xC0#8 k = cmdByte true (BitVec.ofNat 5 k) false :=
  aw_eq_cmdByte (by omega) rfl

theorem cmdMarker_aw_ram {k : Nat} (hk : k ≤ 30) : cmdMarker (aw 0xC0#8 k) = true := by
  rw [aw_ram hk, cmdMarker_cmdByte]

theorem cmdRw_aw_ram {k : Nat} (hk : k ≤ 30) : cmdRw (aw 0xC0#8 k) = false := by
  rw [aw_ram hk, cmdRw_cmdByte]

theorem cmdIdx_aw_ram {k : Nat} (hk : k ≤ 30) : cmdIdx (aw 0xC0#8 k) ≠ idxBurst := fun h => by
  have hidx : k % 32 = 31 := by
    rw [aw_ram hk, cmdIdx_cmdByte] at h
    exact (BitVec.toNat_ofNat k 5).symm.trans (congrArg BitVec.toNat h)
  omega

/-- It names the cell that byte `k` of a RAM burst goes to. -/
theorem dataCell_aw_ram {k : Nat} (hk : k ≤ 30) : dataCell (aw 0xC0#8 k) 0 = some (192 + 2 * k) := by
  rw [dataCell_single (cmdIdx_aw_ram hk), if_pos rfl, aw_ram hk, cmdBank_cmdByte, cmdIdx_cmdByte, BitVec.toNat_ofNat,
    Nat.mod_eq_of_lt (by omega)]
  rfl

/-- Byte by byte, the single frames store as the burst does. -/
theorem storePairs_multiPairs_ram (m : List Host.Cell) (i : Nat) (l : List Byte) (h : i + l.length ≤ 31) :
    storePairs m (multiPairs 0xC0#8 i l) = storeBytes m 0xFE#8 i l := by
  induction l generalizing m i with
  | nil => rfl
  | cons v l ih =>
    rw [List.length_cons] at h
    have hi : i ≤ 30 := by omega
    have hw : (cmdMarker (aw 0xC0#8 i) && !cmdRw (aw 0xC0#8 i)) = true := by
      rw [cmdMarker_aw_ram hi, cmdRw_aw_ram hi]
      rfl
    rw [multiPairs, storePairs, ih _ _ (by omega), storeBytes, storeFrame, if_pos hw, storeBytes, storeBytes,
      dataCell_aw_ram hi, dataCell_ramBurst, if_pos hi]

/-! ## How often CE rises -/

/-- How many of a list's events raise CE. -/
def ceRises (l : List Event) : Nat := (l.filter fun e => e = Event.ceWrite true).length

theorem ceRises_append (a b : List Event) : ceRises (a ++ b) = ceRises a + ceRises b := by
  rw [ceRises, List.filter_append, List.length_append]
  rfl

theorem ceRises_outByte (x : Byte) : ceRises (outByte x) = 0 := by
  rw [outByte_eq]; rfl

theorem ceRises_outBytes (l : List Byte) : ceRises (outBytes l) = 0 := by
  induction l with
  | nil => rfl
  | cons v vs ih =>
    have e : outBytes (v :: vs) = outByte v ++ outBytes vs := by simp [outBytes]
    rw [e, ceRises_append, ceRises_outByte, ih]

theorem ceRises_inBytes (n : Nat) : ceRises (inBytes n) = 0 := by
  induction n with
  | zero => rfl
  | succ n ih =>
    have e : inBytes (n + 1) = inBytes n ++ inByte := by simp [inBytes, List.range_succ]
    rw [e, ceRises_append, ih]
    rfl

/-- A write frame raises CE once, however many bytes it carries. -/
theorem ceRises_burstWrite (c : Byte) (l : List Byte) : ceRises (burstWrite c l) = 1 := by
  rw [burstWrite, ceRises_append, ceRises_append, ceRises_append, ceRises_outByte, ceRises_outBytes]
  rfl

/-- A read frame raises CE once, however many bytes it carries. -/
theorem ceRises_burstRead (c : Byte) (n : Nat) : ceRises (burstRead c n) = 1 := by
  rw [burstRead, ceRises_append, ceRises_append, ceRises_append, ceRises_outByte, ceRises_inBytes]
  rfl

theorem ceRises_multiWrite (start : Byte) (i : Nat) (l : List Byte) : ceRises (multiWrite start i l) = l.length := by
  induction l generalizing i with
  | nil => rfl
  | cons v l ih =>
    rw [multiWrite, ceRises_append, ← burstWrite_single, ceRises_burstWrite, ih, List.length_cons, Nat.add_comm]

theorem ceRises_multiRead (start : Byte) (i n : Nat) : ceRises (multiRead start i n) = n := by
  induction n generalizing i with
  | zero => rfl
  | succ n ih => rw [multiRead, ceRises_append, ← burstRead_single, ceRises_burstRead, ih, Nat.add_comm]

/-! ## Requests -/

section
variable {i : Instr} {s : State}

/-- What a request whose body runs one program shows on the double: its value, the program's events, and the double the
program leaves. -/
theorem exec_onDouble_ends {body : Run Out} {l : List Move} {f : List Bool → Out} (h : s.onDouble)
    (hx : exec i s = .next (finish (body (s.accept i)))) (hs : Sim body (readMoves l >>= fun x => pure (f x))) :
    ∃ t, exec i s = .next t ∧ t.status = some .success ∧ t.out = f ((s.accept i).env.levels l) ∧
      eventsOf t.trace = moveEvents l ∧ t.env.double = ((s.accept i).env.moves l).double := by
  refine ⟨_, exec_onDouble h hx hs, rfl, rfl, ?_, ?_⟩
  · rw [finish_ok_trace, eventsOf, moves_eventsOf]
    rfl
  · rw [finish_ok_env, moves_env]

/-- A request that reads RAM slots 0 to `n - 1`, each in a frame of its own. -/
theorem multiRead_ram_onDouble {n : Byte} (h : s.onDouble) (hn : n.toNat ≤ 31)
    (hx : exec i s = runRequest i (regReadMultiple 0xC0#8 n >>= fun r => pure (.bytes r)) s) :
    ∃ t, exec i s = .next t ∧ t.status = some .success ∧
      t.out = .bytes ((List.range n.toNat).map fun k => Memory.read s.env.double.mem (192 + 2 * k)) ∧
      ceRises (eventsOf t.trace) = n.toNat := by
  obtain ⟨t, ht, hst, ho, he, -⟩ := exec_onDouble_ends h hx (sim_out_of_read (sim_regReadMultiple 0xC0#8 n) .bytes)
  refine ⟨t, ht, hst, ?_, ?_⟩
  · rw [ho, multiRead_levels (v := (s.accept i).env) (fun k => 192 + 2 * k) h.1 h.2
      (fun k _ hk => (cmdMarker_withRead _).trans (cmdMarker_aw_ram (by omega)))
      (fun k _ hk => (dataCell_withRead _ 0).trans (dataCell_aw_ram (by omega))) (h.okMoves i _),
      List.range_eq_range']
    rfl
  · rw [he, moveEvents_readMultiMoves, ceRises_multiRead]

/-- A request that reads RAM slots 0 to `n - 1` in one burst. -/
theorem burstRead_ram_onDouble {n : Byte} (h : s.onDouble) (hn : n.toNat ≤ 31)
    (hx : exec i s = wireBurstRead i ramBurstCmd n s) :
    ∃ t, exec i s = .next t ∧ t.status = some .success ∧
      t.out = .bytes ((List.range n.toNat).map fun k => Memory.read s.env.double.mem (192 + 2 * k)) ∧
      ceRises (eventsOf t.trace) = 1 := by
  obtain ⟨t, ht, hst, ho, he, -⟩ := exec_onDouble_ends h hx (sim_out_of_read (sim_regBurstRead ramBurstCmd n) .bytes)
  refine ⟨t, ht, hst, ?_, ?_⟩
  · rw [ho, burstRead_levels (v := (s.accept i).env) _ _ h.1 h.2.2 h.2.1 (by decide) (by decide)
      (fun k => 192 + 2 * k) (fun k hk => ?_) (h.okMoves i _)]
    · rfl
    · rw [dataCell_withRead]
      exact (dataCell_ramBurst k).trans (if_pos (by omega))
  · rw [he, moveEvents_burstReadFrame, ceRises_burstRead]

/-- A request that writes RAM slots 0 on, each in a frame of its own. -/
theorem multiWrite_ram_onDouble {n : Byte} {w : List Byte} (h : s.onDouble) (hw : w.length = n.toNat)
    (hn : n.toNat ≤ 31)
    (hx : exec i s = runBuffered i n (some w) (regWriteMultiple 0xC0#8 n w >>= fun _ => pure .none) s) :
    ∃ t, exec i s = .next t ∧ t.status = some .success ∧
      t.env.double.mem = storeBytes s.env.double.mem ramBurstCmd 0 w ∧ ceRises (eventsOf t.trace) = n.toNat := by
  obtain ⟨t, ht, hst, -, he, hd⟩ := exec_onDouble_ends h (hx.trans (runBuffered_next _ s (bufferFits_some.2 hw)))
    (sim_out_of_unit (sim_regWriteMultiple 0xC0#8 n w))
  refine ⟨t, ht, hst, ?_, ?_⟩
  · rw [hd, multiWrite_double (v := (s.accept i).env) _ _ _ h.1 h.2 (h.okMoves i _),
      storePairs_multiPairs_ram _ _ _ (by omega)]
    rfl
  · rw [he, moveEvents_writeMultiMoves, ceRises_multiWrite, hw]

/-- A request that writes RAM slots 0 on in one burst. -/
theorem burstWrite_ram_onDouble {n : Byte} {w : List Byte} (h : s.onDouble) (hw : w.length = n.toNat)
    (hx : exec i s = wireBurstWrite i ramBurstCmd n w s) :
    ∃ t, exec i s = .next t ∧ t.status = some .success ∧
      t.env.double.mem = storeBytes s.env.double.mem ramBurstCmd 0 w ∧ ceRises (eventsOf t.trace) = 1 := by
  obtain ⟨t, ht, hst, -, he, hd⟩ := exec_onDouble_ends h (hx.trans (runBuffered_next _ s (bufferFits_some.2 hw)))
    (sim_out_of_unit (sim_regBurstWrite ramBurstCmd n w))
  refine ⟨t, ht, hst, ?_, ?_⟩
  · rw [hd, (burstWrite_double (v := (s.accept i).env) _ _ h.1 h.2.2 (h.okMoves i _)).1]
    exact if_pos h.2.1
  · rw [he, moveEvents_burstWriteFrame, ceRises_burstWrite]

end

end Sys2Proof.Machine
end

section
/-! CERTIFICATE. RAM bursts against multiple transfers on the reference double (42_register_access.md R312). -/

namespace Sys2Proof.Machine

/-- Settles O60: both reads give the slots in order, both writes store the same bytes in the same order; the frames
count the rises of CE. -/
theorem burstEqualsMultiple : Obligations.BurstEqualsMultiple := by
  intro s n w _ h hi hn hw
  have h0 : (0 : Byte).toNat + n.toNat ≤ 31 := Nat.le_trans (Nat.le_of_eq (Nat.zero_add _)) hn
  obtain ⟨t, ht, hts, hto, htc⟩ := multiRead_ram_onDouble h hn (readRam_runs hi (Nat.zero_le _) h0)
  obtain ⟨u, hu, hus, huo, huc⟩ := burstRead_ram_onDouble h hn (ramBurstRead_runs hi hn)
  obtain ⟨t', ht', hts', htm, htc'⟩ := multiWrite_ram_onDouble h hw hn (writeRam_runs hi (Nat.zero_le _) h0)
  obtain ⟨u', hu', hus', hum, huc'⟩ := burstWrite_ram_onDouble h hw (ramBurstWrite_runs hi hn)
  exact ⟨⟨t, u, _, ht, hts, hto, hu, hus, huo, htc, huc⟩,
    t', u', ht', hts', hu', hus', htm.trans hum.symm, htc', huc'⟩

end Sys2Proof.Machine
end

section
/-! SUPPORT. The BCD converters as numbers (43_bcd_codec.md R400, R401, R405). -/

namespace Sys2Proof.Machine

/-- The two digits share no bit (R400). -/
theorem bcdDigits_or (n : Nat) : n / 10 * 16 ||| n % 10 = n / 10 * 16 + n % 10 := by
  rw [← Nat.shiftLeft_eq (n / 10) 4, Nat.shiftLeft_add_eq_or_of_lt (by omega)]

theorem toNat_hexToBcd (v : Byte) : (hexToBcd v).toNat = (v.toNat / 10 * 16 + v.toNat % 10) % 256 := by
  rw [hexToBcd, BitVec.toNat_ofNat, Nat.shiftLeft_eq, ← bcdDigits_or]

/-- Up to 159 nothing is cut off. -/
theorem toNat_hexToBcd_of_le {v : Byte} (hv : v.toNat ≤ 159) :
    (hexToBcd v).toNat = v.toNat / 10 * 16 + v.toNat % 10 := by
  rw [toNat_hexToBcd, Nat.mod_eq_of_lt (by omega)]

theorem toNat_bcdToHex (b : Byte) : (bcdToHex b).toNat = b.toNat / 16 * 10 + b.toNat % 16 := by
  have hb := b.isLt
  rw [bcdToHex, BitVec.toNat_ofNat, Nat.shiftRight_eq_div_pow, show 0x0F = 2 ^ 4 - 1 from rfl,
    Nat.and_two_pow_sub_one_eq_mod]
  omega

/-- Up to 159 the high digit fits its nibble, and the round trip is exact; from 160 on it is cut off (R405). -/
theorem bcdToHex_hexToBcd_iff (v : Byte) : bcdToHex (hexToBcd v) = v ↔ v.toNat ≤ 159 := by
  have hv := v.isLt
  rw [← BitVec.toNat_inj, toNat_bcdToHex, toNat_hexToBcd]
  omega

theorem hexToBcd_bcdToHex {b : Byte} (hl : b.toNat % 16 ≤ 9) : hexToBcd (bcdToHex b) = b := by
  rw [← BitVec.toNat_inj, toNat_hexToBcd, toNat_bcdToHex]
  omega

/-- A decode mask of `k` low bits keeps a value whose digits fit in them (decision D16). -/
theorem bcdToHex_hexToBcd_and {v mask : Byte} (k : Nat) (hk : mask.toNat = 2 ^ k - 1)
    (hv : v.toNat / 10 * 16 + v.toNat % 10 < 2 ^ k) (hv' : v.toNat ≤ 159) : bcdToHex (hexToBcd v &&& mask) = v := by
  have h : hexToBcd v &&& mask = hexToBcd v := by
    rw [← BitVec.toNat_inj, BitVec.toNat_and, hk, Nat.and_two_pow_sub_one_eq_mod, toNat_hexToBcd_of_le hv',
      Nat.mod_eq_of_lt hv]
  rw [h, (bcdToHex_hexToBcd_iff v).2 hv']

end Sys2Proof.Machine
end

section
/-! SUPPORT. TIME_VALIDATE and TIME_ENCODE, clause by clause (43_bcd_codec.md R402 to R404). -/

namespace Sys2Proof.Machine

theorem inRange_iff {lo v hi : Nat} : inRange lo v hi = true ↔ lo ≤ v ∧ v ≤ hi := by
  rw [inRange, Bool.and_eq_true, decide_eq_true_eq, decide_eq_true_eq]

theorem format_eq_h12_iff {f : Byte} : f = formatH12 ↔ f.toNat = 1 := BitVec.toNat_inj.symm

theorem format_eq_h24_iff {f : Byte} : f = formatH24 ↔ f.toNat = 0 := BitVec.toNat_inj.symm

/-- The hour check, for the two format codes. -/
theorem hourValid_iff {f h : Byte} (hf : f.toNat = 0 ∨ f.toNat = 1) :
    hourValid f h = true ↔ (f.toNat = 1 → 1 ≤ h.toNat ∧ h.toNat ≤ 12) ∧ (f.toNat = 0 → h.toNat ≤ 23) := by
  by_cases h12 : f.toNat = 1
  · rw [hourValid, if_pos (format_eq_h12_iff.2 h12), inRange_iff]
    omega
  · rw [hourValid, if_neg (mt format_eq_h12_iff.1 h12), inRange_iff]
    omega

/-- A check in the chain of TIME_VALIDATE. -/
theorem check_eq_success {c : Bool} {k : Status} :
    (if !c then Status.invalidArgument else k) = .success ↔ c = true ∧ k = .success := by
  cases c <;> simp

theorem timeValidate_eq_success_iff (r : TimeRecord) : timeValidate r = .success ↔ timeInRange r := by
  simp only [timeValidate, check_eq_success, Bool.and_eq_true, Bool.or_eq_true, beq_iff_eq, inRange_iff,
    format_eq_h12_iff, format_eq_h24_iff, Nat.zero_le, true_and, and_true, timeInRange]
  rw [or_comm]
  exact and_congr_right fun hf => by simp only [hourValid_iff hf, and_assoc]; exact Iff.rfl

/-- A check in the chain gives no third kind. -/
theorem check_cases {c : Bool} {k : Status} (h : k = .success ∨ k = .invalidArgument) :
    (if !c then Status.invalidArgument else k) = .success ∨
      (if !c then Status.invalidArgument else k) = .invalidArgument := by
  cases c
  · exact .inr rfl
  · exact h

theorem timeValidate_eq_invalidArgument {r : TimeRecord} (h : ¬timeInRange r) : timeValidate r = .invalidArgument := by
  have hk : timeValidate r = .success ∨ timeValidate r = .invalidArgument :=
    check_cases <| check_cases <| check_cases <| check_cases <| check_cases <| check_cases <| check_cases <| .inl rfl
  exact hk.resolve_left (mt (timeValidate_eq_success_iff r).1 h)

/-- The seven register bytes of a record, in address order, with the oscillator bit of `old`. -/
def registerBytes (r : TimeRecord) (old : Byte) : TimeBytes where
  second := (old &&& 0x80#8) ||| hexToBcd r.second
  minute := hexToBcd r.minute
  hour := hourEnc r.format r.amPm r.hour
  date := hexToBcd r.date
  month := hexToBcd r.month
  week := hexToBcd r.week
  year := yearByte r.year

/-- TIME_ENCODE writes the register bytes, the week before the date (R404), with the commands of 30_encoding.md R104. -/
theorem timeEncode_eq (r : TimeRecord) (old : Byte) :
    timeEncode r old =
      [(0x80#8, (registerBytes r old).second), (0x82#8, (registerBytes r old).minute),
       (0x84#8, (registerBytes r old).hour), (0x8A#8, (registerBytes r old).week),
       (0x86#8, (registerBytes r old).date), (0x88#8, (registerBytes r old).month),
       (0x8C#8, (registerBytes r old).year)] := rfl

theorem hourEnc_h12 (p : Bool) (h : Byte) :
    hourEnc formatH12 p h = 0x80#8 ||| (if p then 0x20#8 else 0x00#8) ||| hexToBcd h := by
  cases p <;> rfl

theorem hourEnc_h24 (p : Bool) (h : Byte) : hourEnc formatH24 p h = hexToBcd h &&& 0x7F#8 := rfl

end Sys2Proof.Machine
end

section
/-! SUPPORT. TIME_DECODE of what TIME_ENCODE writes (43_bcd_codec.md R404, R406, R413). -/

namespace Sys2Proof.Machine

/-- Bits that the mask clears do not reach the decoder. -/
theorem or_and_mask {a b mask : Byte} (h : a &&& mask = 0) : (a ||| b) &&& mask = b &&& mask := by
  rw [BitVec.and_or_distrib_right, h]
  exact BitVec.zero_or

/-- Bit 5 of an hour's digits is the upper bit of the tens, set from 20 on. -/
theorem getLsbD_five_hexToBcd {h : Byte} (hh : h.toNat ≤ 39) : (hexToBcd h).getLsbD 5 = decide (20 ≤ h.toNat) := by
  rw [BitVec.getLsbD, Nat.testBit_eq_decide_div_mod_eq, toNat_hexToBcd_of_le (by omega), decide_eq_decide]
  have hlow : h.toNat < 20 → h.toNat / 10 * 16 + h.toNat % 10 < 32 := by omega
  have hhigh : h.toNat / 10 * 16 + h.toNat % 10 < 64 := by omega
  omega

theorem getLsbD_seven_hexToBcd {h : Byte} (hh : h.toNat ≤ 79) : (hexToBcd h).getLsbD 7 = false := by
  rw [BitVec.getLsbD, toNat_hexToBcd_of_le (by omega), Nat.testBit_lt_two_pow (by omega)]

/-- The oscillator bit is not part of the second (R404, R406). -/
theorem decode_second {r : TimeRecord} (old : Byte) (h : r.second.toNat ≤ 59) :
    bcdToHex ((registerBytes r old).second &&& 0x7F#8) = r.second := by
  have hold : old &&& 0x80#8 &&& 0x7F#8 = 0 := by rw [BitVec.and_assoc]; exact BitVec.and_zero
  rw [registerBytes, or_and_mask hold, bcdToHex_hexToBcd_and 7 rfl (by omega) (by omega)]

/-- The year byte counts from 2000 (R404). -/
theorem decode_year {year : Half} (h : 2000 ≤ year.toNat ∧ year.toNat ≤ 2100) :
    BitVec.ofNat 16 (yearBase + (bcdToHex (yearByte year)).toNat) = year := by
  obtain ⟨hlo, hhi⟩ := h
  have hy : (BitVec.ofInt 8 ((year.toNat : Int) - yearBase)).toNat = year.toNat - 2000 := by
    rw [BitVec.toNat_ofInt, yearBase]
    omega
  rw [← BitVec.toNat_inj, yearByte, (bcdToHex_hexToBcd_iff _).2 (by omega), hy, BitVec.toNat_ofNat, yearBase]
  omega

/-- What the hour byte of a 12-hour record decodes to. -/
theorem decode_hour_h12 {h : Byte} (p : Bool) (hh : h.toNat ≤ 12) :
    (hourEnc formatH12 p h).getLsbD 7 = true ∧ (hourEnc formatH12 p h).getLsbD 5 = p ∧
      bcdToHex (hourEnc formatH12 p h &&& 0x1F#8) = h := by
  have h5 : (hexToBcd h).getLsbD 5 = false := by
    rw [getLsbD_five_hexToBcd (by omega)]
    exact decide_eq_false (by omega)
  refine ⟨?_, ?_, ?_⟩
  · rw [hourEnc_h12, BitVec.getLsbD_or, BitVec.getLsbD_or]
    rfl
  · rw [hourEnc_h12, BitVec.getLsbD_or, BitVec.getLsbD_or, h5]
    cases p <;> rfl
  · rw [hourEnc_h12, or_and_mask (by cases p <;> rfl), bcdToHex_hexToBcd_and 5 rfl (by omega) (by omega)]

/-- What the hour byte of a 24-hour record decodes to: bit 5, the place of AM/PM, is a digit's bit (decision D18). -/
theorem decode_hour_h24 {h : Byte} (p : Bool) (hh : h.toNat ≤ 23) :
    (hourEnc formatH24 p h).getLsbD 7 = false ∧ (hourEnc formatH24 p h).getLsbD 5 = decide (20 ≤ h.toNat) ∧
      bcdToHex (hourEnc formatH24 p h &&& 0x3F#8) = h := by
  refine ⟨?_, ?_, ?_⟩
  · rw [hourEnc_h24, BitVec.getLsbD_and, getLsbD_seven_hexToBcd (by omega), Bool.false_and]
  · rw [hourEnc_h24, BitVec.getLsbD_and, getLsbD_five_hexToBcd (by omega)]
    exact Bool.and_true _
  · rw [hourEnc_h24, BitVec.and_assoc]
    exact bcdToHex_hexToBcd_and 6 rfl (by omega) (by omega)

/-- What the hour byte of a record in range decodes to. -/
theorem decode_hour {r : TimeRecord} (h : timeInRange r) :
    hourFormat (hourEnc r.format r.amPm r.hour) = r.format ∧
      (hourEnc r.format r.amPm r.hour).getLsbD 5 =
        (if r.format = formatH12 then r.amPm else decide (20 ≤ r.hour.toNat)) ∧
      bcdToHex (hourEnc r.format r.amPm r.hour &&&
        (if (hourEnc r.format r.amPm r.hour).getLsbD 7 then 0x1F#8 else 0x3F#8)) = r.hour := by
  obtain ⟨hf, -, -, -, -, h12, h24, -⟩ := h
  rcases hf with hf | hf
  · obtain ⟨h7, h5, hh⟩ := decode_hour_h24 r.amPm (h24 hf)
    rw [format_eq_h24_iff.2 hf, hourFormat, h7, h5]
    exact ⟨rfl, rfl, hh⟩
  · obtain ⟨h7, h5, hh⟩ := decode_hour_h12 r.amPm (h12 hf).2
    rw [format_eq_h12_iff.2 hf, hourFormat, h7, h5]
    exact ⟨rfl, rfl, hh⟩

/-- A record in range comes back from its register bytes, but for AM/PM in 24-hour format (R413). -/
theorem timeDecode_registerBytes {r : TimeRecord} (old : Byte) (h : timeInRange r) :
    timeDecode (registerBytes r old) =
      { r with amPm := if r.format = 0x01#8 then r.amPm else decide (20 ≤ r.hour.toNat) } := by
  obtain ⟨hformat, ham, hhour⟩ := decode_hour h
  obtain ⟨-, hyear, hmonth, hweek, hdate, -, -, hminute, hsecond⟩ := h
  have hy := decode_year hyear
  have hmo : bcdToHex (hexToBcd r.month &&& 0x1F#8) = r.month := bcdToHex_hexToBcd_and 5 rfl (by omega) (by omega)
  have hwk : bcdToHex (hexToBcd r.week &&& 0x07#8) = r.week := bcdToHex_hexToBcd_and 3 rfl (by omega) (by omega)
  have hdt : bcdToHex (hexToBcd r.date &&& 0x3F#8) = r.date := bcdToHex_hexToBcd_and 6 rfl (by omega) (by omega)
  have hmi : bcdToHex (hexToBcd r.minute &&& 0x7F#8) = r.minute := bcdToHex_hexToBcd_and 7 rfl (by omega) (by omega)
  have hse := decode_second old hsecond
  exact (TimeRecord.mk.injEq ..).mpr ⟨hy, hmo, hwk, hdt, hhour, hmi, hse, hformat, ham⟩

end Sys2Proof.Machine
end

section
/-! SUPPORT. A request that issues no event and gives a value (43_bcd_codec.md, opening). -/

namespace Sys2Proof.Machine

theorem completes_of_pure {i : Instr} {s : State} {o : Out} (hx : exec i s = runRequest i (pure o) s) :
    Completes i s (fun _ => []) (fun _ => o) s.bus :=
  completes_of_path (l := []) (body := pure o) hx trivial rfl rfl rfl rfl

end Sys2Proof.Machine
end

section
/-! CERTIFICATE. The codec (43_bcd_codec.md R400 to R406). -/

namespace Sys2Proof.Machine

/-- Settles O40: the formulas by the model's own, the ranges by `toNat_hexToBcd`, the corner values by evaluation. -/
theorem bcdConverters : Obligations.BcdConverters := by
  refine ⟨fun s v => ⟨?_, ?_, rfl, rfl⟩, fun v hv => ?_, fun v hlo hhi => ?_, fun v => bcdDigits_or v.toNat,
    fun v => ?_, by decide⟩
  · rw [bcdDigits_or, ← toNat_hexToBcd, BitVec.ofNat_toNat, BitVec.setWidth_eq]
    exact completes_of_pure rfl
  · rw [← toNat_bcdToHex, BitVec.ofNat_toNat, BitVec.setWidth_eq]
    exact completes_of_pure rfl
  · rw [toNat_hexToBcd_of_le (by omega)]
    omega
  · rw [toNat_hexToBcd_of_le hhi]
    omega
  · have hv := v.isLt
    rw [toNat_bcdToHex]
    omega

/-- Settles O41: 159 is where the high digit stops fitting its nibble. -/
theorem bcdLaws : Obligations.BcdLaws :=
  ⟨fun v hv => (bcdToHex_hexToBcd_iff v).2 (by omega), fun v hv => (bcdToHex_hexToBcd_iff v).2 hv,
    fun v hv => mt (bcdToHex_hexToBcd_iff v).1 (by omega), rfl, rfl, fun _ _ hl => hexToBcd_bcdToHex hl⟩

/-- Settles O42: the result is TIME_VALIDATE's kind. -/
theorem timeValidateChecksEveryRange : Obligations.TimeValidateChecksEveryRange := by
  refine fun s r => ⟨rfl, fun h => ?_, fun h => ?_⟩
  · rw [← (timeValidate_eq_success_iff r).2 h]
    exact completes_of_pure rfl
  · rw [← timeValidate_eq_invalidArgument h]
    exact completes_of_pure rfl

/-- Settles O43: the hour byte is HOUR_ENC's, free for a third format code. -/
theorem timeEncodeGivesTheSevenWrites : Obligations.TimeEncodeGivesTheSevenWrites :=
  fun _ r _ => ⟨rfl, hourEnc r.format r.amPm r.hour, fun hf => hf ▸ hourEnc_h12 r.amPm r.hour,
    fun hf => hf ▸ hourEnc_h24 r.amPm r.hour, completes_of_pure rfl⟩

/-- Settles O44: the fields are the model's own, and the year does not wrap. -/
theorem timeDecodeMasksEveryField : Obligations.TimeDecodeMasksEveryField := by
  refine fun s b => ⟨rfl, timeDecode b, completes_of_pure rfl, rfl, rfl, rfl, rfl, ?_, rfl, rfl, rfl, ?_⟩
  · rw [timeDecode]
    split <;> rfl
  · have hb := b.year.isLt
    rw [timeDecode, BitVec.toNat_ofNat, toNat_bcdToHex, yearBase]
    omega

end Sys2Proof.Machine
end

section
/-! SUPPORT. A request that runs a program and then, by what it sampled, writes: it completes with the events of both,
or fails at any of their pin events (41_bit_engine.md R211; 43_bcd_codec.md R411; 44_chip_control.md R500, R502). -/

namespace Sys2Proof.Machine

/-- A program that follows by what was sampled is the one program of the levels that the responder will give. -/
theorem readMoves_bind_runMoves (a : List Move) (b : List Bool → List Move) (s : State) :
    (readMoves a >>= fun x => runMoves (b x)) s = runMoves (a ++ b (s.env.levels a)) s := by
  rw [runMoves_append, run_bind, run_bind, readMoves]
  cases runMoves a s <;> rfl

/-- The failing pin event lies past a program with fewer pins: that program runs to its end. -/
theorem willFailAt_moves {v : Env} {l : List Move} {p : Nat} (hp : 1 ≤ p) (h : v.willFailAt (movePins l + p)) :
    v.okMoves l ∧ (v.moves l).willFailAt p := by
  induction l generalizing v with
  | nil => exact ⟨trivial, by rwa [movePins_nil, Nat.zero_add] at h⟩
  | cons m l ih =>
    cases m with
    | release =>
      obtain ⟨hok, hf⟩ := ih h
      exact ⟨⟨trivial, hok⟩, hf⟩
    | ev e =>
      cases he : e.isPin with
      | false =>
        have hm : v.move (.ev e) = v := by rw [Env.move, respond_delay v he]
        rw [movePins_ev_delay l he] at h
        obtain ⟨hok, hf⟩ := ih h
        exact ⟨⟨by simp [Env.okMove, respond_delay v he], by rwa [hm]⟩, by rwa [env_moves_cons, hm]⟩
      | true =>
        obtain ⟨q, hq⟩ : ∃ q, movePins l + p = q + 1 := Nat.exists_eq_add_of_le' (by omega)
        rw [movePins_ev_pin l he, Nat.add_right_comm, hq] at h
        obtain ⟨hok, hf⟩ := willFailAt_next he h
        obtain ⟨hok', hf'⟩ := ih (hq ▸ hf)
        exact ⟨⟨hok, hok'⟩, hf'⟩

/-- A request that failed at a pin event shows only what its program has up to there. -/
theorem FailsAt.congr {i : Instr} {s : State} {p : Nat} {events events' : List Bool → List Event}
    (h : FailsAt i s p events) (he : ∀ l, throughPin p (events l) = throughPin p (events' l)) :
    FailsAt i s p events' := by
  obtain ⟨t, hx, hst, ho, hev, hrest⟩ := h
  exact ⟨t, hx, hst, ho, hev.trans (he _), hrest⟩

/-- The body of such a request, as one program. -/
theorem bareRes_read_then_write {m : Run Unit} {a : List Move} {b : List Bool → List Move}
    (hs : Sim m (readMoves a >>= fun x => runMoves (b x))) (s : State) :
    bareRes ((m >>= fun _ => pure Out.none : Run Out) s) =
      bareRes ((runMoves (a ++ b (s.env.levels a)) >>= fun _ => pure Out.none) s) := by
  rw [(hs.bind fun _ => Sim.pure Out.none).apply, run_bind, readMoves_bind_runMoves, run_bind]

section
variable {i : Instr} {s : State} {m : Run Unit} {a : List Move} {b : List Bool → List Event} {bus : Bus} {na nb p : Nat}
  (hx : exec i s = .next (finish ((m >>= fun _ => pure Out.none) (s.accept i))))
  (hs : Sim m (readMoves a >>= fun x => runMoves (evs (b x)))) (hb : ∀ x, Event.ioRead ∉ b x) (ha : movePins a = na)
  (hn : ∀ x, (pinsOf (b x)).length = nb) (hbus : ∀ x, s.bus.moves (a ++ evs (b x)) = bus)

include hx hs hb ha hn hbus in
theorem completes_of_read_then_write (hok : s.env.answersOk (na + nb) = true) :
    Completes i s (fun x => moveEvents a ++ b x) (fun _ => .none) bus := by
  have hpins : ∀ x, movePins (a ++ evs (b x)) = na + nb := fun x => by
    rw [movePins_append, ha, movePins, moveEvents_evs, hn]
  have ho : (s.accept i).env.okMoves (a ++ evs (b ((s.accept i).env.levels a))) := okMoves_of_answersOk hok (hpins _)
  refine completes_of_path (l := a ++ evs (b ((s.accept i).env.levels a))) hx ho ?_ ?_ rfl (hbus _)
  · rw [bareRes_read_then_write (b := fun x => evs (b x)) hs, run_bind, runMoves_ok ho]
    rfl
  · rw [levels_append, levels_none _ (hb _), List.append_nil, moveEvents_append, moveEvents_evs]

include hx hs in
/-- A failure in the first program: nothing of the second is run. -/
theorem failsAt_of_read_before_write (hp : p ≤ movePins a) (hf : s.env.answersFailAt p = true) :
    FailsAt i s p (fun _ => moveEvents a) := by
  obtain ⟨c, e, d, hl, hc, he, ht⟩ := fail_split (v := (s.accept i).env) (willFailAt_of_answersFailAt hf) hp
  refine failsAt_of_path (l := c) (e := e) hx hc he ?_ ht.symm
  rw [bareRes_read_then_write (b := fun x => evs (b x)) hs, run_bind]
  generalize evs (b _) = w
  rw [hl, List.append_assoc, List.cons_append, runMoves_fail hc he]
  rfl

include hx hs hb hn in
/-- A failure in the second program: all of the first is run, and what it sampled is known. -/
theorem failsAt_of_write_after_read (h1 : 1 ≤ p) (hp : p ≤ nb)
    (hf : s.env.answersFailAt (movePins a + p) = true) :
    FailsAt i s (movePins a + p) (fun x => moveEvents a ++ b x) := by
  obtain ⟨hok, hw⟩ := willFailAt_moves (v := (s.accept i).env) h1 (willFailAt_of_answersFailAt hf)
  obtain ⟨c, e, d, hl, hc, he, ht⟩ := fail_split (l := evs (b ((s.accept i).env.levels a))) hw
    (by rwa [movePins, moveEvents_evs, hn])
  obtain ⟨c, rest, hcr, rfl, -⟩ := List.map_eq_append_iff.1 hl
  have hlv : (s.accept i).env.levels (a ++ evs c) = (s.accept i).env.levels a := by
    have hc' : Event.ioRead ∉ c := fun h => hb _ (hcr ▸ List.mem_append_left _ h)
    rw [levels_append, levels_none _ hc', List.append_nil]
  refine failsAt_of_path (l := a ++ evs c) (e := e) hx ((okMoves_append _ _ _).2 ⟨hok, hc⟩) ?_ ?_ ?_
  · rw [env_moves_append]
    exact he
  · rw [bareRes_read_then_write (b := fun x => evs (b x)) hs, run_bind, hl, ← List.append_assoc,
      runMoves_fail ((okMoves_append _ _ _).2 ⟨hok, hc⟩) (by rw [env_moves_append]; exact he)]
    rfl
  · rw [hlv, movePins, throughPin_append_right _ _ h1, moveEvents_append, List.append_assoc]
    rw [moveEvents_evs] at ht
    exact congrArg _ ht.symm

include hx hs hb ha hn hbus in
/-- How a request ends that reads and then, by what it read, writes. -/
theorem ends_of_read_then_write :
    (s.env.answersOk (na + nb) = true → Completes i s (fun x => moveEvents a ++ b x) (fun _ => .none) bus) ∧
    (∀ p, p ≤ na → s.env.answersFailAt p = true → FailsAt i s p (fun _ => moveEvents a)) ∧
    (∀ p, p ≤ na + nb → s.env.answersFailAt p = true → FailsAt i s p (fun x => moveEvents a ++ b x)) := by
  have hread : ∀ p, p ≤ na → s.env.answersFailAt p = true → FailsAt i s p (fun _ => moveEvents a) :=
    fun p hp => failsAt_of_read_before_write hx hs (ha ▸ hp)
  refine ⟨completes_of_read_then_write hx hs hb ha hn hbus, hread, fun p hp hf => ?_⟩
  rcases Nat.lt_or_ge na p with hlt | hle
  · obtain ⟨q, rfl⟩ : ∃ q, p = movePins a + q := ⟨p - movePins a, by omega⟩
    exact failsAt_of_write_after_read hx hs hb hn (by omega) (by omega) hf
  · exact (hread p hle hf).congr fun x => (throughPin_append_left _ (le_of_le_of_eq hle ha.symm)).symm

end

end Sys2Proof.Machine
end

section
/-! SUPPORT. The programs of SET_TIME and GET_TIME (43_bcd_codec.md R411, R412). -/

namespace Sys2Proof.Machine

theorem ioRead_notMem_singleWrite (c v : Byte) : Event.ioRead ∉ singleWrite c v := by
  simp [singleWrite, ioRead_notMem_outByte]

theorem ioRead_notMem_pairWrites (l : List (Byte × Byte)) : Event.ioRead ∉ pairWrites l := by
  simp [pairWrites, ioRead_notMem_singleWrite]

theorem pins_pairWrites (l : List (Byte × Byte)) : (pinsOf (pairWrites l)).length = 51 * l.length := by
  rw [← moveEvents_pairMoves]
  exact pins_pairMoves l

/-- The seven frames of GET_TIME's multiple read. -/
theorem multiRead_time :
    multiRead 0x80#8 0 7 = singleRead 0x81#8 ++ singleRead 0x83#8 ++ singleRead 0x85#8 ++ singleRead 0x87#8 ++
      singleRead 0x89#8 ++ singleRead 0x8B#8 ++ singleRead 0x8D#8 := by
  simp only [multiRead, List.append_nil, List.append_assoc]
  rfl

section
variable {s : State} {r : TimeRecord}

/-- SET_TIME of a record in range, past its checks. -/
theorem setTime_runs (hi : s.initFlag = true) (h : timeInRange r) :
    exec (.setTime true (some r)) s =
      runRequest (.setTime true (some r)) (setTimeFrames r >>= fun _ => pure .none) s :=
  runRequest_expands (checked_passes hi rfl (beq_iff_eq.2 ((timeValidate_eq_success_iff r).2 h)))
    (blind_setTimeFrames r).output

/-- SET_TIME of a record out of range stops at its check. -/
theorem setTime_rejects (hi : s.initFlag = true) (h : ¬timeInRange r) :
    exec (.setTime true (some r)) s = .next (s.rejected .invalidArgument) :=
  congrArg _ (finish_check_fails hi rfl (by rw [timeValidate_eq_invalidArgument h]; rfl))

/-- GET_TIME past its guard. -/
theorem getTime_runs (hi : s.initFlag = true) :
    exec (.getTime true true) s = runRequest (.getTime true true)
      (regReadMultiple 0x80#8 7 >>= fun b => pure (.record (timeDecode (timeBytesOf b)))) s :=
  runRequest_expands (guard_passes hi rfl) (blind_regReadMultiple _ _).output

end

end Sys2Proof.Machine
end

section
/-! CERTIFICATE. The public time requests (43_bcd_codec.md R411, R412). -/

namespace Sys2Proof.Machine

/-- Settles O45: past its check SET_TIME reads, and by the byte read writes seven frames. -/
theorem setTimeReadsThenWritesSeven : Obligations.SetTimeReadsThenWritesSeven := by
  intro s r hi
  have hends (h : timeInRange r) :=
    moveEvents_readFrame (clockRead idxSecond) ▸
      ends_of_read_then_write (nb := 357) (b := fun x => pairWrites (timeEncode r (byteOfBits x)))
        (setTime_runs hi h) (sim_setTimeFrames r) (fun _ => ioRead_notMem_pairWrites _) (pins_readFrame _)
        (fun _ => pins_pairWrites _) (fun x => by rw [bus_moves_append]; exact bus_pairMoves _ _)
  exact ⟨setTime_rejects hi, fun h => (hends h).1, fun h => (hends h).2.1, fun h => (hends h).2.2⟩

/-- Settles O46: past its guard GET_TIME is a multiple read of seven frames, and decodes what it gives. -/
theorem getTimeReadsSevenAndDecodes : Obligations.GetTimeReadsSevenAndDecodes := by
  intro s hi
  rw [← multiRead_time, ← moveEvents_readMultiMoves]
  exact ends_of_read (f := fun b => .record (timeDecode (timeBytesOf b))) (getTime_runs hi)
    (sim_regReadMultiple 0x80#8 7) (pins_readMultiMoves _ 0 7) (bus_readMultiMoves _ _ 0 7)

end Sys2Proof.Machine
end

section
/-! SUPPORT. Single write frames of named cells on the reference double: each cell holds its byte (20_memory.md R82,
R83), and the lines are low for the next frame. -/

namespace Sys2Proof.Machine

/-- A marked write command of an index other than the burst index: it names one cell, at its own address (R64). -/
def writesOwnCell (c : Byte) : Bool := cmdMarker c && !cmdRw c && cmdIdx c != idxBurst

theorem storeFrame_ownCell {m : List Host.Cell} {c : Byte} (hc : writesOwnCell c = true) (v : Byte) :
    isCell c.toNat = true ∧ storeFrame m c [v] = Memory.write m c.toNat v := by
  simp only [writesOwnCell, Bool.and_eq_true, Bool.not_eq_true', bne_iff_ne] at hc
  obtain ⟨⟨hm, hr⟩, hidx⟩ := hc
  have hd := dataCell_writeCommand hm hr hidx 0
  rw [if_pos rfl] at hd
  refine ⟨isCell_dataCell hd, ?_⟩
  rw [storeFrame, if_pos (by rw [hm, hr]; rfl), storeBytes, storeBytes, hd]

/-- Frames of other commands leave a cell. -/
theorem read_storePairs_other {m : List Host.Cell} {l : List (Byte × Byte)} {c : Byte}
    (hl : ∀ p ∈ l, writesOwnCell p.1 = true) (hc : ∀ p ∈ l, p.1 ≠ c) :
    Memory.read (storePairs m l) c.toNat = Memory.read m c.toNat := by
  induction l generalizing m with
  | nil => rfl
  | cons p l ih =>
    rw [List.forall_mem_cons] at hl hc
    rw [storePairs, ih hl.2 hc.2, (storeFrame_ownCell hl.1 p.2).2,
      read_write_other fun h => hc.1 (BitVec.eq_of_toNat_eq h).symm]

/-- Of frames with commands all different, each leaves its byte in its cell. -/
theorem read_storePairs {m : List Host.Cell} {l : List (Byte × Byte)} {c v : Byte} (hm : Memory.wf m = true)
    (hl : ∀ p ∈ l, writesOwnCell p.1 = true) (hn : (l.map Prod.fst).Nodup) (h : (c, v) ∈ l) :
    Memory.read (storePairs m l) c.toNat = v := by
  induction l generalizing m with
  | nil => cases h
  | cons p l ih =>
    rw [List.forall_mem_cons] at hl
    rw [List.map_cons, List.nodup_cons] at hn
    obtain ⟨hcell, hw⟩ := storeFrame_ownCell (m := m) hl.1 p.2
    rw [storePairs, hw]
    rcases List.mem_cons.1 h with rfl | h
    · rw [read_storePairs_other hl.2 fun q hq hqc => hn.1 (List.mem_map.2 ⟨q, hq, hqc⟩), read_write_same hm]
    · exact ih (wf_write hm hcell) hl.2 hn.2 h

/-- The frames of a list of pairs store pair by pair. -/
theorem pairMoves_double {v : Env} {f : Option Injected} (l : List (Byte × Byte)) (hr : v.responder = .double f)
    (hq : v.double.quiet) (h : v.okMoves (pairMoves l)) :
    (v.moves (pairMoves l)).double.mem = storePairs v.double.mem l ∧ (v.moves (pairMoves l)).double.quiet := by
  induction l generalizing v with
  | nil => exact ⟨rfl, hq⟩
  | cons p l ih =>
    rw [pairMoves_cons, writeFrame_burst] at h ⊢
    obtain ⟨hfirst, hrest⟩ := (okMoves_append _ _ _).1 h
    obtain ⟨hmem, hclk, hce⟩ := burstWrite_double p.1 [p.2] hr hq.2 hfirst
    rw [if_pos hq.1] at hmem
    obtain ⟨hmem', hq'⟩ := ih ((moves_responder _ _).trans hr) ⟨hce, hclk⟩ hrest
    rw [env_moves_append]
    exact ⟨by rw [hmem', hmem, storePairs], hq'⟩

/-- A read frame before them changes nothing of that. -/
theorem readFrame_pairMoves_double {v : Env} {f : Option Injected} {c : Byte} (l : List (Byte × Byte))
    (hr : v.responder = .double f) (hq : v.double.quiet) (hc : cmdRw c = true)
    (h : v.okMoves (readFrame c ++ pairMoves l)) :
    (v.moves (readFrame c ++ pairMoves l)).double.mem = storePairs v.double.mem l ∧
      (v.moves (readFrame c ++ pairMoves l)).double.quiet := by
  obtain ⟨hread, hwrite⟩ := (okMoves_append _ _ _).1 h
  rw [env_moves_append]
  rw [readFrame_burst] at hread hwrite ⊢
  obtain ⟨hmem, hclk, hce⟩ := burstRead_double c 1 hr hq.2 (fun _ => by simp [hc]) hread
  rw [← hmem]
  exact pairMoves_double l ((moves_responder _ _).trans hr) ⟨hce, hclk⟩ hwrite

end Sys2Proof.Machine
end

section
/-! SUPPORT. SET_TIME and GET_TIME on the reference double with no failure injected (20_memory.md R82 to R86;
43_bcd_codec.md R413). -/

namespace Sys2Proof.Machine

/-- A request that reads and then, by what it read, writes, on the double. -/
theorem exec_read_then_write_onDouble {i : Instr} {s : State} {m : Run Unit} {a : List Move} {b : List Bool → List Move}
    (h : s.onDouble) (hx : exec i s = .next (finish ((m >>= fun _ => pure Out.none) (s.accept i))))
    (hs : Sim m (readMoves a >>= fun x => runMoves (b x))) :
    ∃ x, x = (s.accept i).env.levels a ∧ exec i s = .next (finish (.ok .none ((s.accept i).moves (a ++ b x)))) := by
  refine ⟨_, rfl, ?_⟩
  rw [hx, finish_congr (bareRes_read_then_write hs _), run_bind, runMoves_ok (h.okMoves i _)]
  rfl

/-- SET_TIME stores its seven pairs, and leaves the lines low. -/
theorem setTime_onDouble {s : State} {r : TimeRecord} (h : s.onDouble) (hi : s.initFlag = true) (hr : timeInRange r) :
    ∃ t old, exec (.setTime true (some r)) s = .next t ∧ t.status = some .success ∧ t.onDouble ∧ t.initFlag = true ∧
      t.env.double.mem = storePairs s.env.double.mem (timeEncode r old) := by
  obtain ⟨x, -, hx⟩ := exec_read_then_write_onDouble h (setTime_runs hi hr) (sim_setTimeFrames r)
  refine ⟨_, byteOfBits x, hx, rfl, ?_⟩
  rw [State.onDouble, finish_ok_env, finish_ok_initFlag, moves_env, moves_responder, moves_initFlag]
  obtain ⟨hmem, hq⟩ := readFrame_pairMoves_double (v := (s.accept (.setTime true (some r))).env)
    (c := clockRead idxSecond) (timeEncode r (byteOfBits x)) h.1 h.2 (by decide) (h.okMoves _ _)
  exact ⟨⟨h.1, hq⟩, hi, hmem⟩

/-- The commands of GET_TIME's frames name the cells from 0x80 on. -/
theorem getTime_cells : ∀ k < 7, cmdMarker (ar 0x80#8 k) = true ∧ dataCell (ar 0x80#8 k) 0 = some (0x80 + 2 * k) := by
  decide

/-- GET_TIME decodes the cells. -/
theorem getTime_onDouble {s : State} (h : s.onDouble) (hi : s.initFlag = true) :
    ∃ t, exec (.getTime true true) s = .next t ∧ t.status = some .success ∧
      t.out = .record (timeDecode (timeBytesOf
        ((List.range' 0 7).map fun k => Memory.read s.env.double.mem (0x80 + 2 * k)))) := by
  obtain ⟨t, ht, hst, ho, -⟩ := exec_onDouble_ends h (getTime_runs hi)
    (sim_out_of_read (sim_regReadMultiple 0x80#8 7) fun b => .record (timeDecode (timeBytesOf b)))
  refine ⟨t, ht, hst, ho.trans ?_⟩
  have hlv := multiRead_levels (v := (s.accept (.getTime true true)).env) (start := 0x80#8) (i := 0) (n := 7)
    (fun k => 0x80 + 2 * k) h.1 h.2 (fun k _ hk => (getTime_cells k (by omega)).1)
    (fun k _ hk => (getTime_cells k (by omega)).2) (h.okMoves _ _)
  exact congrArg (fun b => Out.record (timeDecode (timeBytesOf b))) hlv

/-- The commands of TIME_ENCODE, in the write order. -/
theorem timeEncode_commands (r : TimeRecord) (old : Byte) :
    (timeEncode r old).map Prod.fst = [0x80#8, 0x82#8, 0x84#8, 0x8A#8, 0x86#8, 0x88#8, 0x8C#8] := rfl

/-- The cells of GET_TIME hold the register bytes that SET_TIME stored. -/
theorem timeBytes_storePairs {m : List Host.Cell} (hm : Memory.wf m = true) (r : TimeRecord) (old : Byte) :
    timeBytesOf ((List.range' 0 7).map fun k => Memory.read (storePairs m (timeEncode r old)) (0x80 + 2 * k)) =
      registerBytes r old := by
  have hown : ∀ c ∈ (timeEncode r old).map Prod.fst, writesOwnCell c = true := by
    rw [timeEncode_commands]
    decide
  have hnodup : ((timeEncode r old).map Prod.fst).Nodup := by
    rw [timeEncode_commands]
    decide
  have hcell : ∀ (k : Nat) (c v : Byte), (timeEncode r old)[k]? = some (c, v) →
      Memory.read (storePairs m (timeEncode r old)) c.toNat = v := fun _ _ _ hk =>
    read_storePairs hm (fun p hp => hown p.1 (List.mem_map_of_mem hp)) hnodup (List.mem_of_getElem? hk)
  exact (TimeBytes.mk.injEq ..).mpr ⟨hcell 0 0x80#8 _ rfl, hcell 1 0x82#8 _ rfl, hcell 2 0x84#8 _ rfl,
    hcell 4 0x86#8 _ rfl, hcell 5 0x88#8 _ rfl, hcell 3 0x8A#8 _ rfl, hcell 6 0x8C#8 _ rfl⟩

end Sys2Proof.Machine
end

section
/-! CERTIFICATE. The time round trip (43_bcd_codec.md R413). -/

namespace Sys2Proof.Machine

/-- Settles O47: GET_TIME decodes the register bytes, from the double's cells or from any responder that returns them,
and `timeDecode_registerBytes` gives the record back. -/
theorem timeRoundTrip : Obligations.TimeRoundTrip := by
  refine ⟨fun s r hinv h hi hr => ?_, fun s t r old se mi hr wk dt mo yr hi hrange henc hok hx hbytes => ?_⟩
  · obtain ⟨t, old, ht, hst, htd, hti, hmem⟩ := setTime_onDouble h hi hr
    obtain ⟨u, hu, hsu, hout⟩ := getTime_onDouble htd hti
    rw [hmem, timeBytes_storePairs hinv.memory, timeDecode_registerBytes old hr] at hout
    refine ⟨t, u, _, ht, hst, hu, hsu, hout, rfl, rfl, rfl, rfl, rfl, rfl, rfl, rfl, fun hf => if_pos hf, fun hf => ?_⟩
    show (if r.format = 0x01#8 then r.amPm else decide (20 ≤ r.hour.toNat)) = true ↔ _
    rw [if_neg (by rw [hf]; decide), decide_eq_true_eq]
  · obtain ⟨t', hx', hst, -, hout, -⟩ := (getTimeReadsSevenAndDecodes s hi).1 hok
    obtain rfl : t' = t := Host.Outcome.next.inj (hx'.symm.trans hx)
    simp only [hbytes] at hout
    rw [timeEncode_eq] at henc
    simp only [List.cons.injEq, Prod.mk.injEq, true_and, and_true] at henc
    obtain ⟨rfl, rfl, rfl, rfl, rfl, rfl, rfl⟩ := henc
    refine ⟨hst, hout.trans (congrArg Out.record ?_)⟩
    exact timeDecode_registerBytes old hrange

end Sys2Proof.Machine
end

section
/-! SUPPORT. The chip control requests past their guards: what each runs, and how a read-modify-write and a register read
end (44_chip_control.md R500 to R507). -/

namespace Sys2Proof.Machine

section
variable {i : Instr} {s : State}

/-! ## The requests, past their guards -/

theorem setOscillator_runs {en : Bool} (hi : s.initFlag = true) :
    exec (.setOscillator true en) s = runRequest (.setOscillator true en)
      (readModifyWrite idxSecond (oscillatorByte en) >>= fun _ => pure .none) s :=
  runRequest_expands (guard_passes hi rfl) (blind_readModifyWrite _ _).output

theorem getOscillator_runs (hi : s.initFlag = true) :
    exec (.getOscillator true true) s = runRequest (.getOscillator true true)
      (engReadByte (clockRead idxSecond) >>= fun v => pure (.bit (oscillatorEnabled v))) s :=
  runRequest_expands (guard_passes hi rfl) (blind_engReadByte _).output

theorem setWriteProtect_runs {en : Bool} (hi : s.initFlag = true) :
    exec (.setWriteProtect true en) s = runRequest (.setWriteProtect true en)
      (readModifyWrite idxControl (writeProtectByte en) >>= fun _ => pure .none) s :=
  runRequest_expands (guard_passes hi rfl) (blind_readModifyWrite _ _).output

theorem getWriteProtect_runs (hi : s.initFlag = true) :
    exec (.getWriteProtect true true) s = runRequest (.getWriteProtect true true)
      (engReadByte (clockRead idxControl) >>= fun v => pure (.bit (writeProtectEnabled v))) s :=
  runRequest_expands (guard_passes hi rfl) (blind_engReadByte _).output

theorem setCharge_runs {v : Byte} (hi : s.initFlag = true) :
    exec (.setCharge true v) s = wireWrite (.setCharge true v) (clockWrite idxCharge) v s :=
  runRequest_expands (guard_passes hi rfl) (blind_engWriteByte _ _).output

theorem getCharge_runs (hi : s.initFlag = true) :
    exec (.getCharge true true) s = wireRead (.getCharge true true) (clockRead idxCharge) s :=
  runRequest_expands (guard_passes hi rfl) (blind_engReadByte _).output

/-! ## The RAM bounds -/

/-- The bounds are those of unbounded integers: a length of 0 ends one below its address (R506). -/
theorem ramInBounds_eq_false {a n : Byte} (h : 30 < (a.toNat : Int) ∨ 30 < (a.toNat : Int) + n.toNat - 1) :
    ramInBounds a n = false := by
  rw [ramInBounds, ramMaxAddr, Bool.and_eq_false_iff]
  exact h.imp (fun ha => decide_eq_false (by omega)) fun hn => decide_eq_false (by omega)

theorem writeRam_rejects {a n : Byte} {w : List Byte} (hi : s.initFlag = true) (hw : w.length = n.toNat)
    (h : ramInBounds a n = false) : exec (.writeRam true a n (some w)) s = .next (s.rejected .invalidArgument) :=
  (runBuffered_next _ s (bufferFits_some.2 hw)).trans (congrArg _ (finish_check_fails hi rfl h))

theorem readRam_rejects {a n : Byte} (hi : s.initFlag = true) (h : ramInBounds a n = false) :
    exec (.readRam true true a n) s = .next (s.rejected .invalidArgument) :=
  congrArg _ (finish_check_fails hi rfl h)

/-! ## How they end -/

/-- A request that is a read-modify-write: the read frame, then always the write frame of the changed byte. -/
theorem readModifyWrite_ends {idx : BitVec 5} {f : Byte → Byte}
    (hx : exec i s = runRequest i (readModifyWrite idx f >>= fun _ => pure .none) s) :
    (s.env.answersOk 101 = true →
      Completes i s (fun l => singleRead (clockRead idx) ++ singleWrite (clockWrite idx) (f (byteOfBits l)))
        (fun _ => .none) Bus.afterWrite) ∧
    (∀ p, p ≤ 50 → s.env.answersFailAt p = true → FailsAt i s p (fun _ => singleRead (clockRead idx))) ∧
    (∀ p, p ≤ 101 → s.env.answersFailAt p = true →
      FailsAt i s p
        (fun l => singleRead (clockRead idx) ++ singleWrite (clockWrite idx) (f (byteOfBits l)))) :=
  moveEvents_readFrame (clockRead idx) ▸
    ends_of_read_then_write (nb := 51) (b := fun x => singleWrite (clockWrite idx) (f (byteOfBits x))) hx
      (sim_readModifyWrite idx f) (fun _ => ioRead_notMem_singleWrite _ _) (pins_readFrame _)
      (fun _ => pins_singleWrite _ _) (fun x => by rw [bus_moves_append]; exact bus_writeFrame _ _ _)

/-- A request that is one read frame and gives a value of its byte. -/
theorem readRegister_ends {c : Byte} {g : Byte → Out}
    (hx : exec i s = runRequest i (engReadByte c >>= fun v => pure (g v)) s) :
    (s.env.answersOk 50 = true →
      Completes i s (fun _ => singleRead c) (fun l => g (byteOfBits l)) Bus.afterRead) ∧
    (∀ p, p ≤ 50 → s.env.answersFailAt p = true → FailsAt i s p (fun _ => singleRead c)) :=
  moveEvents_readFrame c ▸ ends_of_read hx (sim_engReadByte c) (pins_readFrame c) (bus_readFrame s.bus c)

end

end Sys2Proof.Machine
end

section
/-! CERTIFICATE. The chip control requests (44_chip_control.md R500 to R507). -/

namespace Sys2Proof.Machine

/-- Settles O48: a read-modify-write of the second register, and a read of it. -/
theorem oscillatorRequests : Obligations.OscillatorRequests := by
  intro s en hi
  obtain ⟨hset, hread, hwrite⟩ := readModifyWrite_ends (setOscillator_runs (en := en) hi)
  obtain ⟨hget, hgetFail⟩ := readRegister_ends (g := fun v => .bit (oscillatorEnabled v)) (getOscillator_runs hi)
  exact ⟨hset, hread, hwrite, hget, hgetFail⟩

/-- Settles O49: a read-modify-write of the control register, and a read of it. -/
theorem writeProtectRequests : Obligations.WriteProtectRequests := by
  intro s en hi
  obtain ⟨hset, hread, hwrite⟩ := readModifyWrite_ends (setWriteProtect_runs (en := en) hi)
  obtain ⟨hget, hgetFail⟩ := readRegister_ends (g := fun v => .bit (writeProtectEnabled v)) (getWriteProtect_runs hi)
  exact ⟨hset, hread, hwrite, hget, hgetFail⟩

/-- Settles O50: past its guard each request is one frame of the charge register. -/
theorem chargeRequests : Obligations.ChargeRequests := by
  intro s v hi
  obtain ⟨hset, hsetFail⟩ := wireWrite_ends (setCharge_runs (v := v) hi)
  obtain ⟨hget, hgetFail⟩ := wireRead_ends (getCharge_runs hi)
  exact ⟨hset, hsetFail, hget, hgetFail⟩

/-- Settles O51: a request out of bounds stops at its check, any other is the multiple transfer. -/
theorem ramRequests : Obligations.RamRequests := by
  intro s a n w hi hw
  refine ⟨fun h => ⟨writeRam_rejects hi hw (ramInBounds_eq_false h), readRam_rejects hi (ramInBounds_eq_false h)⟩,
    fun ha hn => ?_⟩
  have ha' : a.toNat ≤ 30 := by omega
  have hn' : a.toNat + n.toNat ≤ 31 := by omega
  obtain ⟨hwrite, hwriteFail⟩ := multiWrite_ends hw (writeRam_runs hi ha' hn')
  obtain ⟨hread, hreadFail⟩ := multiRead_ends (readRam_runs hi ha' hn')
  exact ⟨hwrite, hwriteFail, hread, hreadFail⟩

end Sys2Proof.Machine
end

section
/-! SUPPORT. The bytes of the two toggles: what each change leaves and what the getter makes of it (44_chip_control.md
R500 to R503, R508). -/

namespace Sys2Proof.Machine

theorem setBit7_setBit7 (b : Byte) : setBit7 (setBit7 b) = setBit7 b := by
  rw [setBit7, setBit7, BitVec.or_assoc, BitVec.or_self]

theorem clearBit7_clearBit7 (b : Byte) : clearBit7 (clearBit7 b) = clearBit7 b := by
  rw [clearBit7, clearBit7, BitVec.and_assoc, BitVec.and_self]

theorem getLsbD_seven_setBit7 (b : Byte) : (setBit7 b).getLsbD 7 = true := by
  rw [setBit7, BitVec.getLsbD_or]
  exact Bool.or_true _

theorem getLsbD_seven_clearBit7 (b : Byte) : (clearBit7 b).getLsbD 7 = false := by
  rw [clearBit7, BitVec.getLsbD_and]
  exact Bool.and_false _

theorem setBit7_low (b : Byte) : setBit7 b &&& 0x7F#8 = b &&& 0x7F#8 := by
  rw [setBit7, BitVec.or_comm, or_and_mask (by decide)]

theorem clearBit7_low (b : Byte) : clearBit7 b &&& 0x7F#8 = b &&& 0x7F#8 := clearBit7_clearBit7 b

/-- A second change to the same value changes nothing. -/
theorem writeProtectByte_writeProtectByte (en : Bool) (b : Byte) :
    writeProtectByte en (writeProtectByte en b) = writeProtectByte en b := by
  cases en
  · exact clearBit7_clearBit7 b
  · exact setBit7_setBit7 b

theorem writeProtectEnabled_writeProtectByte (en : Bool) (b : Byte) :
    writeProtectEnabled (writeProtectByte en b) = en := by
  cases en
  · exact getLsbD_seven_clearBit7 b
  · exact getLsbD_seven_setBit7 b

theorem writeProtectByte_low (en : Bool) (b : Byte) : writeProtectByte en b &&& 0x7F#8 = b &&& 0x7F#8 := by
  cases en
  · exact clearBit7_low b
  · exact setBit7_low b

/-- The oscillator bit is the write-protect bit of the other value (R500, inverted sense). -/
theorem oscillatorByte_eq (en : Bool) : oscillatorByte en = writeProtectByte (!en) := by
  cases en <;> rfl

theorem oscillatorEnabled_oscillatorByte (en : Bool) (b : Byte) : oscillatorEnabled (oscillatorByte en b) = en := by
  rw [oscillatorByte_eq]
  exact (congrArg not (writeProtectEnabled_writeProtectByte (!en) b)).trans (Bool.not_not en)

end Sys2Proof.Machine
end

section
/-! SUPPORT. Read-modify-writes and register reads on the reference double with no failure injected (20_memory.md R82 to
R86; 44_chip_control.md R508). -/

namespace Sys2Proof.Machine

variable {idx : BitVec 5} {f : Byte → Byte} {g : Byte → Out}

/-- A clock register's read command names the cell at its write command's address. -/
theorem dataCell_clockRead (h : idx ≠ idxBurst) : dataCell (clockRead idx) 0 = some (clockWrite idx).toNat := by
  have hidx : cmdIdx (clockWrite idx) ≠ idxBurst := by rwa [clockWrite, cmdIdx_cmdByte]
  rw [clockRead, ← withRead_cmdByte, dataCell_withRead]
  exact dataCell_writeCommand (cmdMarker_cmdByte _ _ _) (cmdRw_cmdByte _ _ _) hidx 0

theorem writesOwnCell_clockWrite (h : idx ≠ idxBurst) : writesOwnCell (clockWrite idx) = true := by
  rw [writesOwnCell, clockWrite, cmdMarker_cmdByte, cmdRw_cmdByte, cmdIdx_cmdByte]
  exact bne_iff_ne.2 h

theorem pairMoves_single (c v : Byte) : pairMoves [(c, v)] = writeFrame c v := by
  rw [pairMoves_cons]
  exact List.append_nil _

/-- A read frame gives the register's cell. -/
theorem byteOfBits_clockRead {s : State} (h : s.onDouble) (hidx : idx ≠ idxBurst) (i : Instr) :
    byteOfBits ((s.accept i).env.levels (readFrame (clockRead idx))) =
      Memory.read s.env.double.mem (clockWrite idx).toNat :=
  byteOfBits_readFrame (v := (s.accept i).env) h.1 h.2 (cmdMarker_cmdByte _ _ _) (cmdRw_cmdByte _ _ _)
    (dataCell_clockRead hidx) (h.okMoves i _)

section
variable {i : Instr} {s : State} (h : s.onDouble) (hidx : idx ≠ idxBurst)

include h hidx in
/-- A request that is a read-modify-write of a register leaves the changed byte in its cell, and the lines low. -/
theorem readModifyWrite_onDouble (hm : Memory.wf s.env.double.mem = true)
    (hx : exec i s = runRequest i (readModifyWrite idx f >>= fun _ => pure .none) s) :
    ∃ t, exec i s = .next t ∧ t.status = some .success ∧ t.onDouble ∧ t.initFlag = s.initFlag ∧
      Memory.read t.env.double.mem (clockWrite idx).toNat = f (Memory.read s.env.double.mem (clockWrite idx).toNat) := by
  obtain ⟨x, rfl, hx⟩ := exec_read_then_write_onDouble h hx (sim_readModifyWrite idx f)
  rw [byteOfBits_clockRead h hidx] at hx
  refine ⟨_, hx, rfl, ?_⟩
  rw [State.onDouble, finish_ok_env, finish_ok_initFlag, moves_env, moves_responder, moves_initFlag]
  obtain ⟨hmem, hq⟩ := readFrame_pairMoves_double (v := (s.accept i).env) (c := clockRead idx)
    [(clockWrite idx, f (Memory.read s.env.double.mem (clockWrite idx).toNat))] h.1 h.2 (cmdRw_cmdByte _ _ _)
    (h.okMoves i _)
  rw [pairMoves_single] at hmem hq
  refine ⟨⟨h.1, hq⟩, rfl, ?_⟩
  rw [hmem]
  exact read_storePairs hm (List.forall_mem_singleton.2 (writesOwnCell_clockWrite hidx)) (List.pairwise_singleton _ _)
    (List.mem_singleton_self _)

include h hidx in
/-- A request that reads a register gives a value of its cell, and leaves the memory. -/
theorem readRegister_onDouble (hx : exec i s = runRequest i (engReadByte (clockRead idx) >>= fun v => pure (g v)) s) :
    ∃ t, exec i s = .next t ∧ t.status = some .success ∧
      t.out = g (Memory.read s.env.double.mem (clockWrite idx).toNat) ∧ t.env.double.mem = s.env.double.mem := by
  obtain ⟨t, ht, hst, ho, -, hd⟩ := exec_onDouble_ends h hx (sim_out_of_read (sim_engReadByte _) g)
  refine ⟨t, ht, hst, ?_, ?_⟩
  · rw [ho, byteOfBits_clockRead h hidx]
  · rw [hd, readFrame_burst]
    exact (burstRead_double (v := (s.accept i).env) (clockRead idx) 1 h.1 h.2.2
      (fun _ => by simp [clockRead, cmdRw_cmdByte]) (h.okMoves i _)).1

end

/-- Setting a register twice and reading it: the setter's change of its cell, made twice. -/
theorem setTwice_get_onDouble {set get : Instr} {s : State} (hinv : Inv s) (h : s.onDouble) (hi : s.initFlag = true)
    (hidx : idx ≠ idxBurst)
    (hset : ∀ s, s.initFlag = true →
      exec set s = runRequest set (readModifyWrite idx f >>= fun _ => pure .none) s)
    (hget : ∀ s, s.initFlag = true →
      exec get s = runRequest get (engReadByte (clockRead idx) >>= fun v => pure (g v)) s) :
    ∃ t u v, exec set s = .next t ∧ t.status = some .success ∧ exec set t = .next u ∧ u.status = some .success ∧
      exec get u = .next v ∧ v.status = some .success ∧
      v.out = g (f (f (Memory.read s.env.double.mem (clockWrite idx).toNat))) ∧
      Memory.read v.env.double.mem (clockWrite idx).toNat =
        f (f (Memory.read s.env.double.mem (clockWrite idx).toNat)) := by
  obtain ⟨t, ht, hst, htd, hti, htm⟩ := readModifyWrite_onDouble h hidx hinv.memory (hset s hi)
  rw [hi] at hti
  obtain ⟨u, hu, hsu, hud, hui, hum⟩ := readModifyWrite_onDouble htd hidx (hinv.exec ht).memory (hset t hti)
  rw [hti] at hui
  obtain ⟨v, hv, hsv, hvo, hvm⟩ := readRegister_onDouble hud hidx (hget u hui)
  rw [htm] at hum
  rw [hum] at hvo
  exact ⟨t, u, v, ht, hst, hu, hsu, hv, hsv, hvo, by rw [hvm, hum]⟩

end Sys2Proof.Machine
end

section
/-! CERTIFICATE. Toggle idempotence (44_chip_control.md R508). -/

namespace Sys2Proof.Machine

/-- Settles O52: the cell holds the setter's change made twice, which is the change made once. -/
theorem togglesAreIdempotent : Obligations.TogglesAreIdempotent := by
  intro s en hinv h hi
  constructor
  · obtain ⟨t, u, v, ht, hst, hu, hsu, hv, hsv, ho, hm⟩ := setTwice_get_onDouble hinv h hi (by decide)
      (fun _ => setOscillator_runs (en := en)) fun _ => getOscillator_runs
    refine ⟨t, u, v, ht, hst, hu, hsu, hv, hsv, ?_, ?_⟩
    · rw [ho, oscillatorEnabled_oscillatorByte]
    · rw [show 0x80 = (clockWrite idxSecond).toNat from rfl, hm, oscillatorByte_eq, writeProtectByte_writeProtectByte,
        writeProtectByte_low]
  · obtain ⟨t, u, v, ht, hst, hu, hsu, hv, hsv, ho, hm⟩ := setTwice_get_onDouble hinv h hi (by decide)
      (fun _ => setWriteProtect_runs (en := en)) fun _ => getWriteProtect_runs
    refine ⟨t, u, v, ht, hst, hu, hsu, hv, hsv, ?_, ?_⟩
    · rw [ho, writeProtectEnabled_writeProtectByte]
    · rw [show 0x8E = (clockWrite idxControl).toNat from rfl, hm, writeProtectByte_writeProtectByte,
        writeProtectByte_low]

end Sys2Proof.Machine
end

section
/-! SUPPORT. How INIT and DEINIT end when the answers are known, and the public requests with the handle absent
(45_lifecycle.md R600 to R602; 60_exceptions.md R710). -/

namespace Sys2Proof.Machine

/-! ## From the answers to the end of a lifecycle request -/

section
variable {i : Instr} {s : State} {l : List Event}

theorem eventsOf_accept_lines (i : Instr) (s : State) (l : List Event) :
    eventsOf ((s.accept i).moves (evs l)).trace = l := (moves_eventsOf _ _).trans (moveEvents_evs l)

theorem accept_lines_double (hl : ∀ e ∈ l, e.isLine = true) (i : Instr) (s : State) :
    ((s.accept i).moves (evs l)).env.double = s.env.double := by
  rw [moves_env, moves_lines_double hl]
  rfl

/-- The line events `l`, then LifecycleFailure: the flag stays (R600, R601). -/
theorem lifecycleEnds_of_failed {flag : Bool} (hl : ∀ e ∈ l, e.isLine = true) (hi : s.initFlag = flag)
    (hx : exec i s = .next (finish (.error .lifecycleFailure ((s.accept i).moves (evs l))))) :
    LifecycleEnds i s .lifecycleFailure l flag :=
  ⟨_, hx, rfl, rfl, eventsOf_accept_lines i s l, by simp [hi], moves_lines_bus hl _, by simp, by simp, by simp,
    accept_lines_double hl i s, rfl, rfl⟩

/-- The line events `l`, then the write of the flag and Success (R600, R601). -/
theorem lifecycleEnds_of_done {flag : Bool} (hl : ∀ e ∈ l, e.isLine = true)
    (hx : exec i s = .next (finish (.ok .none (((s.accept i).moves (evs l)).withInit flag)))) :
    LifecycleEnds i s .success l flag :=
  ⟨_, hx, rfl, rfl, eventsOf_accept_lines i s l, rfl, moves_lines_bus hl _, by simp, by simp, by simp,
    accept_lines_double hl i s, rfl, rfl⟩

/-- When pin event `p` is the one to fail, a program of `p - 1` pin events runs to its end and the pin event after it
fails. -/
theorem ok_then_fail_of_answersFailAt {p : Nat} (hf : s.env.answersFailAt p = true) (i : Instr) (a : List Move) {e : Event}
    (hp : movePins a + 1 = p) (he : e.isPin = true) :
    (s.accept i).env.okMoves a ∧ (((s.accept i).env.moves a).respond e).1 = .fail := by
  obtain ⟨hok, hw⟩ := willFailAt_moves (Nat.le_refl 1) (willFailAt_of_answersFailAt (hp ▸ hf))
  exact ⟨hok, willFailAt_first he hw⟩

end

/-! ## Requests turned away before and after the block's initialised life -/

/-- Every public request but INIT begins with the guard of its handle and operands (R710). -/
theorem exec_guarded {i : Instr} (hw : i.WellFormed) (hp : isPublic i = true) (h1 : ∀ b, i ≠ .init b) :
    ∃ (ops : List Bool) (m : Run Out),
      ∀ s, exec i s = .next (finish ((guard (handleOf i) ops >>= fun _ => m) (s.accept i))) := by
  obtain ⟨b, rfl⟩ | ⟨b, rfl⟩ | ⟨-, h2⟩ := lifecycle_or_other i
  · exact absurd rfl (h1 b)
  · exact ⟨[], _, fun _ => rfl⟩
  · rcases runsBody h1 h2 with ⟨m, hm, hx⟩ | ⟨hf, -⟩
    · cases hm with
      | internal hp' _ => exact absurd hp (by simp [hp'])
      | guarded _ _ _ => exact ⟨_, _, hx⟩
    · exact absurd hw (by simp [hf])

/-- The guard reports an absent handle before it reads the flag (R710). -/
theorem exec_absent {i : Instr} (hw : i.WellFormed) (hp : isPublic i = true) (h1 : ∀ b, i ≠ .init b)
    (hh : handleOf i = false) (s : State) : exec i s = .next (s.rejected .nullArgument) := by
  obtain ⟨ops, m, hx⟩ := exec_guarded hw hp h1
  rw [hx, hh, run_bind, run_guard]
  rfl

/-- A DEINIT that ended with Success cleared the flag (R601). -/
theorem initFlag_of_deinit_success {h : Bool} {s t : State} (hx : exec (.deinit h) s = .next t)
    (hs : t.status = some .success) : t.initFlag = false := by
  rcases exec_deinit_ending hx with ⟨k, hk, rfl⟩ | he
  · exact absurd (Option.some.inj hs) hk
  · rw [he.initFlag, if_pos hs]

end Sys2Proof.Machine
end

section
/-! CERTIFICATE. The lifecycle requests (45_lifecycle.md R600 to R602). -/

namespace Sys2Proof.Machine

/-- Settles O16: the guard reads the handle, then the flag, which is 0 at reset and after a DEINIT that succeeded. -/
theorem uninitialisedRequestsAreTurnedAway : Obligations.UninitialisedRequestsAreTurnedAway := by
  intro i hw hp h1
  refine ⟨fun s hi => ?_, fun hh => exec_uninit hw hp h1 hh rfl, fun h s t hx hs hh => ?_⟩
  · cases hh : handleOf i with
    | false => exact exec_absent hw hp h1 hh s
    | true => exact exec_uninit hw hp h1 hh hi
  · exact exec_uninit hw hp h1 hh (initFlag_of_deinit_success hx hs)

/-- Settles O22: the answers pick the branch of the bring-up, at each of the three lines. -/
theorem initBringsTheLinesUp : Obligations.InitBringsTheLinesUp := by
  refine ⟨fun _ => rfl, exec_init_absent, exec_init_unbound, fun s hb => ?_⟩
  have hx := exec_init_up s hb
  refine ⟨fun hok => ?_, fun hf => ?_, fun hf => ?_, fun hf => ?_⟩
  · obtain ⟨h1, h2, h3, -⟩ := okMoves_of_answersOk (i := .init true) (l := evs [.ceInit, .clkInit, .ioInit]) hok rfl
    exact lifecycleEnds_of_done (by decide) (hx.trans (congrArg _ ((if_neg h1).trans ((if_neg h2).trans (if_neg h3)))))
  · obtain ⟨-, h1⟩ := ok_then_fail_of_answersFailAt hf (.init true) (evs []) (e := .ceInit) rfl rfl
    exact lifecycleEnds_of_failed (by decide) rfl (hx.trans (congrArg _ (if_pos h1)))
  · obtain ⟨⟨h1, -⟩, h2⟩ := ok_then_fail_of_answersFailAt hf (.init true) (evs [.ceInit]) (e := .clkInit) rfl rfl
    exact lifecycleEnds_of_failed (by decide) rfl (hx.trans (congrArg _ ((if_neg h1).trans (if_pos h2))))
  · obtain ⟨⟨h1, h2, -⟩, h3⟩ :=
      ok_then_fail_of_answersFailAt hf (.init true) (evs [.ceInit, .clkInit]) (e := .ioInit) rfl rfl
    exact lifecycleEnds_of_failed (by decide) rfl
      (hx.trans (congrArg _ ((if_neg h1).trans ((if_neg h2).trans (if_pos h3)))))

/-- Settles O23: the answers pick the branch of the bring-down, at each of the three lines. -/
theorem deinitBringsTheLinesDown : Obligations.DeinitBringsTheLinesDown := by
  refine ⟨fun _ => rfl, exec_deinit_absent, exec_deinit_uninit, fun s hi => ?_⟩
  have hx := exec_deinit_down s hi
  refine ⟨fun hok => ?_, fun hf => ?_, fun hf => ?_, fun hf => ?_⟩
  · obtain ⟨h1, h2, h3, -⟩ :=
      okMoves_of_answersOk (i := .deinit true) (l := evs [.ceDeinit, .clkDeinit, .ioDeinit]) hok rfl
    exact lifecycleEnds_of_done (by decide) (hx.trans (congrArg _ ((if_neg h1).trans ((if_neg h2).trans (if_neg h3)))))
  · obtain ⟨-, h1⟩ := ok_then_fail_of_answersFailAt hf (.deinit true) (evs []) (e := .ceDeinit) rfl rfl
    exact lifecycleEnds_of_failed (by decide) hi (hx.trans (congrArg _ (if_pos h1)))
  · obtain ⟨⟨h1, -⟩, h2⟩ := ok_then_fail_of_answersFailAt hf (.deinit true) (evs [.ceDeinit]) (e := .clkDeinit) rfl rfl
    exact lifecycleEnds_of_failed (by decide) hi (hx.trans (congrArg _ ((if_neg h1).trans (if_pos h2))))
  · obtain ⟨⟨h1, h2, -⟩, h3⟩ :=
      ok_then_fail_of_answersFailAt hf (.deinit true) (evs [.ceDeinit, .clkDeinit]) (e := .ioDeinit) rfl rfl
    exact lifecycleEnds_of_failed (by decide) hi
      (hx.trans (congrArg _ ((if_neg h1).trans ((if_neg h2).trans (if_pos h3)))))

end Sys2Proof.Machine
end

section
/-! SUPPORT. What a program of frames can fail at: a write or a read of one of the three lines (60_exceptions.md R704;
41_bit_engine.md R212). -/

namespace Sys2Proof.Machine

theorem isPin_of_fail {v : Env} {e : Event} (h : (v.respond e).1 = .fail) : e.isPin = true := by
  cases hp : e.isPin with
  | true => rfl
  | false =>
    rw [respond_delay v hp] at h
    cases h

theorem isLine_outByte {x : Byte} {e : Event} (h : e ∈ outByte x) : e.isLine = false := by
  obtain ⟨k, -, h⟩ := List.mem_flatMap.1 h
  exact (by decide : ∀ b, ∀ e ∈ outSlot b, e.isLine = false) _ e h

theorem isLine_outBytes {l : List Byte} {e : Event} (h : e ∈ outBytes l) : e.isLine = false := by
  obtain ⟨x, -, h⟩ := List.mem_flatMap.1 h
  exact isLine_outByte h

theorem isLine_inBytes {n : Nat} {e : Event} (h : e ∈ inBytes n) : e.isLine = false := by
  obtain ⟨-, -, h⟩ := List.mem_flatMap.1 h
  exact (by decide : ∀ e ∈ inByte, e.isLine = false) e h

theorem isLine_burstWrite {c : Byte} {l : List Byte} {e : Event} (h : e ∈ burstWrite c l) : e.isLine = false := by
  simp only [burstWrite, List.mem_append] at h
  obtain ((h | h) | h) | h := h
  · exact (by decide : ∀ e ∈ [Event.ceWrite true], e.isLine = false) e h
  · exact isLine_outByte h
  · exact isLine_outBytes h
  · exact (by decide : ∀ e ∈ [Event.ioWrite false, Event.ceWrite false], e.isLine = false) e h

theorem isLine_burstRead {c : Byte} {n : Nat} {e : Event} (h : e ∈ burstRead c n) : e.isLine = false := by
  simp only [burstRead, List.mem_append] at h
  obtain ((h | h) | h) | h := h
  · exact (by decide : ∀ e ∈ [Event.ceWrite true], e.isLine = false) e h
  · exact isLine_outByte h
  · exact isLine_inBytes h
  · exact (by decide : ∀ e ∈ [Event.ceWrite false], e.isLine = false) e h

/-- No frame brings a line up or down. -/
theorem Frames.isLine {l : List Move} (h : Frames l) : ∀ e ∈ moveEvents l, e.isLine = false := by
  induction h with
  | nil => exact fun _ he => nomatch he
  | write c l _ ih =>
    intro e he
    rw [moveEvents_append, moveEvents_burstWriteFrame, List.mem_append] at he
    exact he.elim isLine_burstWrite (ih e)
  | read c n _ ih =>
    intro e he
    rw [moveEvents_append, moveEvents_burstReadFrame, List.mem_append] at he
    exact he.elim isLine_burstRead (ih e)

/-- A pin event that is none of the lines' initialisations and releases writes or reads a line. -/
theorem writes_or_reads {e : Event} (hp : e.isPin = true) (hl : e.isLine = false) :
    e = .ioRead ∨ ∃ l, e = .ceWrite l ∨ e = .clkWrite l ∨ e = .ioWrite l := by
  cases e with
  | ioRead => exact .inl rfl
  | ceWrite l => exact .inr ⟨l, .inl rfl⟩
  | clkWrite l => exact .inr ⟨l, .inr (.inl rfl)⟩
  | ioWrite l => exact .inr ⟨l, .inr (.inr rfl)⟩
  | ceInit | ceDeinit | clkInit | clkDeinit | ioInit | ioDeinit => cases hl
  | delayMs n | delayUs n | debugPrint => cases hp

/-- What a failing event inside frames can be. -/
theorem Frames.failing_event {l b : List Move} {e : Event} (h : Frames (l ++ .ev e :: b)) {v : Env}
    (he : (v.respond e).1 = .fail) : e = .ioRead ∨ ∃ l, e = .ceWrite l ∨ e = .clkWrite l ∨ e = .ioWrite l :=
  writes_or_reads (isPin_of_fail he) (h.isLine e (by simp [moveEvents]))

end Sys2Proof.Machine
end

section
/-! SUPPORT. How a body that runs frames ends, and what the checks in front of it can turn away (60_exceptions.md R701 to
R704, R709, R710). -/

namespace Sys2Proof.Machine

/-! ## Frames to their end, or up to the first failed event -/

theorem noFailure_accept_moves {s : State} {i : Instr} {l : List Move} (h : (s.accept i).env.okMoves l) :
    noFailure ((s.accept i).moves l).trace := moves_noFail h fun _ hr => nomatch hr

/-- A request stopped at its first failed event, a write or a read of a line, and left the rest of the block (R704). -/
def StoppedAtFailure (s t : State) : Prop :=
  t.status = some .transferFailure ∧ t.out = .none ∧ Kept s t ∧
    ∃ front e, t.trace = front ++ [⟨e, .fail⟩] ∧ noFailure front ∧
      (e = Event.ioRead ∨ ∃ l, e = Event.ceWrite l ∨ e = Event.clkWrite l ∨ e = Event.ioWrite l)

theorem stoppedAtFailure_of_frames {i : Instr} {s : State} {l b : List Move} {e : Event} (hl : Frames (l ++ .ev e :: b))
    (hok : (s.accept i).env.okMoves l) (he : (((s.accept i).env.moves l).respond e).1 = .fail) :
    StoppedAtFailure s (finish (.error .transferFailure (((s.accept i).moves l).issue e))) := by
  refine ⟨rfl, rfl, ⟨by simp, by simp, by simp, ?_, rfl, rfl⟩, ((s.accept i).moves l).trace, e, ?_,
    noFailure_accept_moves hok, hl.failing_event he⟩
  · rw [finish_error_env, State.issue_env, respond_responder, moves_env, moves_responder]; rfl
  · rw [finish_error_trace, State.issue_trace, moves_env, he]

/-- A body that runs frames ends with Success and no failure, or stops at its first failed event. -/
theorem TransfersAt.finish_cases {m : Run Out} {i : Instr} {s : State} (h : TransfersAt m (s.accept i)) :
    ((finish (m (s.accept i))).status = some .success ∧ noFailure (finish (m (s.accept i))).trace) ∨
      StoppedAtFailure s (finish (m (s.accept i))) := by
  obtain ⟨l, hok, ⟨-, o, hr⟩ | ⟨e, b, he, hl, hr⟩⟩ := h
  · rw [finish_congr (r' := .ok o ((s.accept i).moves l)) hr]
    exact .inl ⟨rfl, noFailure_accept_moves hok⟩
  · rw [finish_congr (r' := .error .transferFailure (((s.accept i).moves l).issue e)) hr]
    exact .inr (stoppedAtFailure_of_frames hl hok he)

/-! ## The checks in front of the frames -/

/-- The body of an instruction other than INIT and DEINIT: frames alone for an internal one; for a public one the guard of
its handle and operands, a check of its arguments where it makes one, then frames. Where the record is absent SET_TIME has
nothing to send. -/
inductive Checked (i : Instr) : Run Out → Prop where
  | internal {m : Run Out} (hp : isPublic i = false) (hm : Transfers m) : Checked i m
  | absent {ops : List Bool} (ho : ops.all id = operandOf i) (hf : operandOf i = false) :
      Checked i (guard (handleOf i) ops >>= fun _ => raise .nullArgument)
  | guarded {ops : List Bool} {m : Run Out} (ho : ops.all id = operandOf i) (hr : ArgsInRange i) (hm : Transfers m) :
      Checked i (guard (handleOf i) ops >>= fun _ => m)
  | ranged {ops : List Bool} {c : Bool} {m : Run Out} (ho : ops.all id = operandOf i) (hc : c = true ↔ ArgsInRange i)
      (hm : Transfers m) :
      Checked i (guard (handleOf i) ops >>= fun _ => require c .invalidArgument >>= fun _ => m)

/-- The kinds a check reports (R701 to R703). -/
def checkKinds : List Status := [.nullArgument, .notInitialized, .invalidArgument]

theorem Checked.paths {i : Instr} {m : Run Out} (h : Checked i m) : Paths checkKinds m := by
  cases h with
  | internal hp hm => exact .of_transfers hm
  | absent ho hf => exact .guard (by decide) (by decide) fun s => .inl ⟨.nullArgument, by decide, rfl⟩
  | guarded ho hr hm => exact .guard (by decide) (by decide) (.of_transfers hm)
  | ranged ho hc hm => exact .guard (by decide) (by decide) (.require (by decide) (.of_transfers hm))

theorem TransfersAt.congr {α : Type} {m m' : Run α} {u : State} (h : TransfersAt m u) (he : m' u = m u) :
    TransfersAt m' u := by
  unfold TransfersAt at h ⊢
  rwa [he]

section
variable {i : Instr} {s : State} {m : Run Out}

/-- The guard reports an absent operand once the handle is present and the flag is 1. -/
theorem finish_guard_absentOperand {ops : List Bool} (hi : s.initFlag = true) (ho : ops.all id = false) :
    finish ((guard true ops >>= fun _ => m) (s.accept i)) = s.rejected .nullArgument := by
  rw [run_bind, run_guard, State.accept_initFlag, hi, ho]
  rfl

theorem Checked.absentOperand (h : Checked i m) (hp : isPublic i = true) (hh : handleOf i = true)
    (hi : s.initFlag = true) (hf : operandOf i = false) : finish (m (s.accept i)) = s.rejected .nullArgument := by
  cases h with
  | internal hp' hm => simp [hp] at hp'
  | absent ho _ => rw [hh, finish_guard_absentOperand hi (ho.trans hf)]
  | guarded ho hr hm => rw [hh, finish_guard_absentOperand hi (ho.trans hf)]
  | ranged ho hc hm => rw [hh, finish_guard_absentOperand hi (ho.trans hf)]

theorem Checked.outOfRange (h : Checked i m) (hp : isPublic i = true) (hh : handleOf i = true)
    (hi : s.initFlag = true) (ht : operandOf i = true) (ha : ¬ArgsInRange i) :
    finish (m (s.accept i)) = s.rejected .invalidArgument := by
  cases h with
  | internal hp' hm => simp [hp] at hp'
  | absent ho hf => simp [ht] at hf
  | guarded ho hr hm => exact absurd hr ha
  | ranged ho hc hm => rw [hh, finish_check_fails hi (ho.trans ht) (Bool.eq_false_iff.2 (mt hc.1 ha))]

/-- Past every check the body is its frames. -/
theorem Checked.passed (h : Checked i m) (hh : handleOf i = true) (hi : s.initFlag = true) (ht : operandOf i = true)
    (ha : ArgsInRange i) : TransfersAt m (s.accept i) := by
  cases h with
  | internal hp hm => exact hm _
  | absent ho hf => simp [ht] at hf
  | guarded ho hr hm => exact (hm _).congr (by rw [hh, guard_passes hi (ho.trans ht)])
  | ranged ho hc hm => exact (hm _).congr (by rw [hh, checked_passes hi (ho.trans ht) (hc.2 ha)])

end

theorem ramInBounds_iff {a n : Byte} : ramInBounds a n = true ↔ a.toNat ≤ 30 ∧ a.toNat + n.toNat ≤ 31 := by
  rw [ramInBounds, ramMaxAddr, Bool.and_eq_true, decide_eq_true_iff, decide_eq_true_iff]
  omega

theorem lengthAtMost_iff {n : Byte} {max : Nat} : lengthAtMost n max = true ↔ n.toNat ≤ max := decide_eq_true_iff

/-! ## Every instruction's checks -/

/-- The instruction ran a body with its checks. -/
def RanChecked (i : Instr) (s t : State) : Prop := ∃ m, Checked i m ∧ t = finish (m (s.accept i))

theorem RanChecked.of_next {i : Instr} {s t : State} {m : Run Out} (hm : Checked i m)
    (h : Host.Outcome.next (finish (m (s.accept i))) = (.next t : Host.Outcome State Fault Refusal)) :
    RanChecked i s t := ⟨m, hm, (Host.Outcome.next.inj h).symm⟩

section
variable {i : Instr} {s t : State} {α : Type} {m : Run α} {f : α → Out}

theorem RanChecked.transfer (hm : Transfers m)
    (h : Host.Outcome.next (finish ((m >>= fun a => pure (f a)) (s.accept i))) =
      (.next t : Host.Outcome State Fault Refusal)) (hp : isPublic i = false := by rfl) : RanChecked i s t :=
  .of_next (.internal hp (.bind hm fun _ => .pure _)) h

theorem RanChecked.guarded (ops : List Bool) (hm : Transfers m)
    (h : Host.Outcome.next (finish ((guard (handleOf i) ops >>= fun _ => m >>= fun a => pure (f a)) (s.accept i))) =
      (.next t : Host.Outcome State Fault Refusal)) (ho : ops.all id = operandOf i := by simp [operandOf])
    (hr : ArgsInRange i := by trivial) : RanChecked i s t :=
  .of_next (.guarded ho hr (.bind hm fun _ => .pure _)) h

theorem RanChecked.ranged (ops : List Bool) {c : Bool} (hc : c = true ↔ ArgsInRange i) (hm : Transfers m)
    (h : Host.Outcome.next (finish ((guard (handleOf i) ops >>= fun _ => require c .invalidArgument >>= fun _ => m >>=
      fun a => pure (f a)) (s.accept i))) = (.next t : Host.Outcome State Fault Refusal))
    (ho : ops.all id = operandOf i := by simp [operandOf]) : RanChecked i s t :=
  .of_next (.ranged ho hc (.bind hm fun _ => .pure _)) h

end

/-- Every instruction but INIT and DEINIT, by the transfer it makes. -/
theorem exec_checked {i : Instr} {s t : State} (h : exec i s = .next t) (h1 : ∀ b, i ≠ .init b)
    (h2 : ∀ b, i ≠ .deinit b) : RanChecked i s t := by
  cases i with
  | init b => exact absurd rfl (h1 b)
  | deinit b => exact absurd rfl (h2 b)
  | setTime b r =>
    cases r with
    | none => exact .of_next (.absent (ops := [false]) rfl rfl) h
    | some r => exact .ranged [true] (beq_iff_eq.trans (timeValidate_eq_success_iff r)) (transfers_setTimeFrames r) h
  | writeRam b a n w => exact .ranged [w.isSome] ramInBounds_iff (transfers_regWriteMultiple _ _ _) (next_of_buffered h)
  | readRam b p a n => exact .ranged [p] ramInBounds_iff (transfers_regReadMultiple _ _) h
  | clockBurstWrite b n w | ramBurstWrite b n w =>
    exact .ranged [w.isSome] lengthAtMost_iff (transfers_regBurstWrite _ _ _) (next_of_buffered h)
  | clockBurstRead b p n | ramBurstRead b p n => exact .ranged [p] lengthAtMost_iff (transfers_regBurstRead _ _) h
  | getTime b p => exact .guarded [p] (transfers_regReadMultiple _ _) h
  | setReg b r n w => exact .guarded [w.isSome] (transfers_regWriteMultiple _ _ _) (next_of_buffered h)
  | getReg b p r n => exact .guarded [p] (transfers_regReadMultiple _ _) h
  | setOscillator b en | setWriteProtect b en => exact .guarded [] (transfers_readModifyWrite _ _) h
  | getOscillator b p | getWriteProtect b p | getCharge b p => exact .guarded [p] (transfers_engReadByte _) h
  | setCharge b v => exact .guarded [] (transfers_engWriteByte _ _) h
  | engWriteByte c v => exact .transfer (transfers_engWriteByte _ _) h
  | engReadByte c => exact .transfer (transfers_engReadByte _) h
  | regWriteMultiple a n w => exact .transfer (transfers_regWriteMultiple _ _ _) (next_of_buffered h)
  | regReadMultiple a n => exact .transfer (transfers_regReadMultiple _ _) h
  | regBurstWrite c n w | cmdWrClockBurst n w | cmdWrRamBurst n w =>
    exact .transfer (transfers_regBurstWrite _ _ _) (next_of_buffered h)
  | regBurstRead c n | cmdRdClockBurst n | cmdRdRamBurst n => exact .transfer (transfers_regBurstRead _ _) h
  | hexToBcd v | bcdToHex v | timeValidate r | timeEncode r old | timeDecode b =>
    exact .of_next (.internal rfl (.pure _)) h
  | cmdWrSecond v | cmdWrMinute v | cmdWrHour v | cmdWrDate v | cmdWrMonth v | cmdWrWeek v | cmdWrYear v | cmdWrControl v
  | cmdWrCharge v | cmdWrRamSlot a v | cmdWrClockGeneric x v => exact .transfer (transfers_engWriteByte _ _) h
  | cmdRdSecond | cmdRdMinute | cmdRdHour | cmdRdDate | cmdRdMonth | cmdRdWeek | cmdRdYear | cmdRdControl | cmdRdCharge
  | cmdRdRamSlot a | cmdRdClockGeneric x => exact .transfer (transfers_engReadByte _) h
  | cmdReservedMarker0 low data =>
    cases data with
    | none => exact .transfer (transfers_engReadByte _) h
    | some v => exact .transfer (transfers_engWriteByte _ _) h

end Sys2Proof.Machine
end

section
/-! SUPPORT. Where INIT and DEINIT stop, and with which kinds they end (45_lifecycle.md R600, R601; 60_exceptions.md R709,
R710). -/

namespace Sys2Proof.Machine

/-- How INIT or DEINIT ends once its checks have passed: at the first failed one of its line events `l`, with whatever of
`rolls` it then rolled back, or after all of them, with the init flag at `flag`. -/
inductive LinesStop (i : Instr) (l rolls : List Event) (flag : Bool) (s t : State) : Prop where
  | failed (a : List Event) (e : Event) (back : List Event) (hl : a ++ [e] <+: l) (hb : back ⊆ rolls)
      (hok : (s.accept i).env.okMoves (evs a)) (he : (((s.accept i).env.moves (evs a)).respond e).1 = .fail)
      (ht : t = finish (.error .lifecycleFailure ((s.accept i).moves (evs (a ++ e :: back)))))
  | done (hok : (s.accept i).env.okMoves (evs l))
      (ht : t = finish (.ok .none (((s.accept i).moves (evs l)).withInit flag)))

/-- INIT with its handle and every capability bound, branch by branch (R600). -/
theorem exec_init_stop {s t : State} (hb : s.caps.allBound = true) (h : exec (.init true) s = .next t) :
    LinesStop (.init true) [.ceInit, .clkInit, .ioInit] [.clkDeinit, .ceDeinit] true s t := by
  rw [exec_init_up s hb, Host.Outcome.next.injEq] at h
  dsimp only at h
  split at h
  next h1 => exact .failed [] .ceInit [] (by decide) (by decide) trivial h1 h.symm
  next h1 =>
    split at h
    next h2 => exact .failed [.ceInit] .clkInit [.ceDeinit] (by decide) (by decide) ⟨h1, trivial⟩ h2 h.symm
    next h2 =>
      split at h
      next h3 =>
        exact .failed [.ceInit, .clkInit] .ioInit [.clkDeinit, .ceDeinit] (by decide) (by decide) ⟨h1, h2, trivial⟩ h3
          h.symm
      next h3 => exact .done ⟨h1, h2, h3, trivial⟩ h.symm

/-- DEINIT with its handle and the flag 1, branch by branch (R601). -/
theorem exec_deinit_stop {s t : State} (hi : s.initFlag = true) (h : exec (.deinit true) s = .next t) :
    LinesStop (.deinit true) [.ceDeinit, .clkDeinit, .ioDeinit] [] false s t := by
  rw [exec_deinit_down s hi, Host.Outcome.next.injEq] at h
  dsimp only at h
  split at h
  next h1 => exact .failed [] .ceDeinit [] (by decide) (by decide) trivial h1 h.symm
  next h1 =>
    split at h
    next h2 => exact .failed [.ceDeinit] .clkDeinit [] (by decide) (by decide) ⟨h1, trivial⟩ h2 h.symm
    next h2 =>
      split at h
      next h3 => exact .failed [.ceDeinit, .clkDeinit] .ioDeinit [] (by decide) (by decide) ⟨h1, h2, trivial⟩ h3 h.symm
      next h3 => exact .done ⟨h1, h2, h3, trivial⟩ h.symm

/-- A program only adds records to the trace, one for each of its events. -/
theorem moves_trace_append (s : State) (l : List Move) :
    ∃ r, (s.moves l).trace = s.trace ++ r ∧ eventsOf r = moveEvents l := by
  induction l generalizing s with
  | nil => exact ⟨[], (List.append_nil _).symm, rfl⟩
  | cons m l ih =>
    cases m with
    | release => exact ih s.release
    | ev e =>
      obtain ⟨r, hr, he⟩ := ih (s.issue e)
      refine ⟨⟨e, (s.env.respond e).1⟩ :: r, ?_, congrArg (e :: ·) he⟩
      rw [moves_cons, State.move, hr, State.issue_trace, List.append_assoc]
      rfl

/-- Success with no failure, or LifecycleFailure at the first failed line event, the rollback's events after it. -/
theorem LinesStop.cases {i : Instr} {l rolls : List Event} {flag : Bool} {s t : State} (h : LinesStop i l rolls flag s t) :
    (t.status = some .success ∧ noFailure t.trace) ∨
    (t.status = some .lifecycleFailure ∧ ∃ front e back, t.trace = front ++ ⟨e, .fail⟩ :: back ∧ noFailure front ∧
      eventsOf front ++ [e] <+: l ∧ ∀ r ∈ back, r.event ∈ rolls) := by
  cases h with
  | done hok ht =>
    rw [ht]
    exact .inl ⟨rfl, noFailure_accept_moves hok⟩
  | failed a e back hl hb hok he ht =>
    obtain ⟨r, hr, hev⟩ := moves_trace_append (((s.accept i).moves (evs a)).issue e) (evs back)
    rw [moveEvents_evs] at hev
    refine .inr ⟨by rw [ht]; rfl, ((s.accept i).moves (evs a)).trace, e, r, ?_, noFailure_accept_moves hok, ?_, ?_⟩
    · rw [ht, finish_error_trace, evs_append, evs_cons, moves_append, moves_cons, State.move, hr, State.issue_trace,
        moves_env, he, List.append_assoc]
      rfl
    · rw [eventsOf_accept_lines]
      exact hl
    · intro x hx
      exact hb (hev ▸ List.mem_map_of_mem hx)

theorem LinesStop.status {i : Instr} {l rolls : List Event} {flag : Bool} {s t : State}
    (h : LinesStop i l rolls flag s t) : t.status = some .success ∨ t.status = some .lifecycleFailure :=
  h.cases.imp And.left And.left

/-! ## The kinds of every request (60_exceptions.md R709) -/

/-- A state with Success, or with a kind of the instruction's row. -/
def EndsInRow (i : Instr) (t : State) : Prop := ∃ k, t.status = some k ∧ (k = .success ∨ k ∈ errorKinds i)

theorem endsInRow_rejected {i : Instr} {k : Status} (hk : k ∈ errorKinds i) (s : State) : EndsInRow i (s.rejected k) :=
  ⟨k, rfl, .inr hk⟩

theorem endsInRow_of_exec_rejected {i : Instr} {k : Status} {s t : State} (hx : exec i s = .next (s.rejected k))
    (h : exec i s = .next t) (hk : k ∈ errorKinds i := by decide) : EndsInRow i t :=
  Host.Outcome.next.inj (hx.symm.trans h) ▸ endsInRow_rejected hk s

theorem LinesStop.endsInRow {i : Instr} {l rolls : List Event} {flag : Bool} {s t : State}
    (h : LinesStop i l rolls flag s t) (hk : .lifecycleFailure ∈ errorKinds i) : EndsInRow i t :=
  h.status.elim (fun hs => ⟨_, hs, .inl rfl⟩) fun hs => ⟨_, hs, .inr hk⟩

theorem Ending.endsInRow {i : Instr} {s t : State} (h : Ending i s t) : EndsInRow i t := by
  cases h with
  | rejected k hk ht => exact ht ▸ endsInRow_rejected hk s
  | done l o hl hok ht => exact ⟨.success, by rw [ht]; rfl, .inl rfl⟩
  | failed l e b hl hk hok he ht => exact ⟨.transferFailure, by rw [ht]; rfl, .inr hk⟩

theorem exec_init_endsInRow {b : Bool} {s t : State} (h : exec (.init b) s = .next t) : EndsInRow (.init b) t := by
  cases b with
  | false => exact endsInRow_of_exec_rejected (exec_init_absent s) h
  | true =>
    cases hb : s.caps.allBound with
    | false => exact endsInRow_of_exec_rejected (exec_init_unbound s hb) h
    | true => exact (exec_init_stop hb h).endsInRow (by decide)

theorem exec_deinit_endsInRow {b : Bool} {s t : State} (h : exec (.deinit b) s = .next t) : EndsInRow (.deinit b) t := by
  cases b with
  | false => exact endsInRow_of_exec_rejected (exec_deinit_absent s) h
  | true =>
    cases hi : s.initFlag with
    | false => exact endsInRow_of_exec_rejected (exec_deinit_uninit s hi) h
    | true => exact (exec_deinit_stop hi h).endsInRow (by decide)

theorem exec_endsInRow {i : Instr} {s t : State} (h : exec i s = .next t) : EndsInRow i t := by
  obtain ⟨b, rfl⟩ | ⟨b, rfl⟩ | ⟨h1, h2⟩ := lifecycle_or_other i
  · exact exec_init_endsInRow h
  · exact exec_deinit_endsInRow h
  · exact (exec_ending h h1 h2).endsInRow

/-! ## Every request ends by `finish` -/

/-- A well-formed instruction answers a next state. -/
theorem exec_next_of_wellFormed {i : Instr} (hw : i.WellFormed) (s : State) : ∃ t, exec i s = .next t := by
  obtain ⟨b, rfl⟩ | ⟨b, rfl⟩ | ⟨h1, h2⟩ := lifecycle_or_other i
  · exact ⟨_, rfl⟩
  · exact ⟨_, rfl⟩
  · rcases runsBody h1 h2 with ⟨m, -, hx⟩ | ⟨hf, -⟩
    · exact ⟨_, hx s⟩
    · exact absurd hw (by simp [hf])

theorem exec_finish {i : Instr} {s t : State} (h : exec i s = .next t) : ∃ r, t = finish r := by
  obtain ⟨b, rfl⟩ | ⟨b, rfl⟩ | ⟨h1, h2⟩ := lifecycle_or_other i
  · exact ⟨_, (Host.Outcome.next.inj h).symm⟩
  · exact ⟨_, (Host.Outcome.next.inj h).symm⟩
  · obtain ⟨m, -, ht⟩ := exec_checked h h1 h2
    exact ⟨_, ht⟩

/-- The block at rest after a request (R706, R708). -/
theorem finish_rests (r : EStateM.Result Status State Out) :
    (finish r).pos = .idle ∧ (finish r).dp = Datapath.cleared ∧
      ((finish r).status ≠ some .success → (finish r).out = .none) := by
  cases r with
  | ok o s => exact ⟨rfl, rfl, fun hs => absurd rfl hs⟩
  | error k s => exact ⟨rfl, rfl, fun _ => rfl⟩

/-! ## Failures and the status -/

theorem noFailure_rejected (s : State) (k : Status) : noFailure (s.rejected k).trace := fun _ hr => nomatch hr

/-- Success needs every answer ok. -/
theorem noFailure_of_success {i : Instr} {s t : State} (h : exec i s = .next t) (hs : t.status = some .success) :
    noFailure t.trace := by
  rcases exec_next_cases h with ⟨k, -, rfl⟩ | ⟨l, flag, -, -, he⟩ | he
  · exact noFailure_rejected s k
  · cases he with
    | failed l' hl ht => simp [ht] at hs
    | done hok ht => rw [ht]; exact noFailure_accept_moves hok
  · cases he with
    | rejected k hk ht => rw [ht]; exact noFailure_rejected s k
    | done l o hl hok ht => rw [ht]; exact noFailure_accept_moves hok
    | failed l e b hl hk hok he ht => simp [ht] at hs

/-- Only an instruction that ran frames ends with TransferFailure, and it stopped there. -/
theorem stoppedAtFailure_of_transferFailure {i : Instr} {s t : State} (h : exec i s = .next t)
    (hs : t.status = some .transferFailure) : StoppedAtFailure s t := by
  obtain ⟨k, hk, hrow⟩ := exec_endsInRow h
  obtain rfl : k = .transferFailure := Option.some.inj (hk.symm.trans hs)
  obtain ⟨b, rfl⟩ | ⟨b, rfl⟩ | ⟨h1, h2⟩ := lifecycle_or_other i
  · simp [errorKinds] at hrow
  · simp [errorKinds] at hrow
  · obtain ⟨m, hm, rfl⟩ := exec_checked h h1 h2
    rcases hm.paths (s.accept i) with ⟨k, hk, hr⟩ | ht
    · rw [hr, finish_error_status, Option.some.injEq] at hs
      subst hs
      simp [checkKinds] at hk
    · exact ht.finish_cases.resolve_left fun ⟨hok, _⟩ => nomatch hok.symm.trans hs

/-! ## What a public request reports (60_exceptions.md R710) -/

theorem exec_runs_checked {i : Instr} (hw : i.WellFormed) (h1 : ∀ b, i ≠ .init b) (h2 : ∀ b, i ≠ .deinit b)
    (s : State) : ∃ m, Checked i m ∧ exec i s = .next (finish (m (s.accept i))) := by
  obtain ⟨t, hx⟩ := exec_next_of_wellFormed hw s
  obtain ⟨m, hm, rfl⟩ := exec_checked hx h1 h2
  exact ⟨m, hm, hx⟩

section
variable {i : Instr} {s : State}

theorem exec_absentOperand (hw : i.WellFormed) (hp : isPublic i = true) (h1 : ∀ b, i ≠ .init b)
    (hh : handleOf i = true) (hi : s.initFlag = true) (hf : operandOf i = false) :
    exec i s = .next (s.rejected .nullArgument) := by
  have h2 : ∀ b, i ≠ .deinit b := by rintro b rfl; cases hf
  obtain ⟨m, hm, hx⟩ := exec_runs_checked hw h1 h2 s
  rw [hx, hm.absentOperand hp hh hi hf]

theorem exec_outOfRange (hw : i.WellFormed) (hp : isPublic i = true) (h1 : ∀ b, i ≠ .init b)
    (hh : handleOf i = true) (hi : s.initFlag = true) (ho : operandOf i = true) (ha : ¬ArgsInRange i) :
    exec i s = .next (s.rejected .invalidArgument) := by
  have h2 : ∀ b, i ≠ .deinit b := by rintro b rfl; exact ha trivial
  obtain ⟨m, hm, hx⟩ := exec_runs_checked hw h1 h2 s
  rw [hx, hm.outOfRange hp hh hi ho ha]

/-- Past every check a request ends with Success and no failure, or at its first failed event. -/
theorem exec_passed (hw : i.WellFormed) (h1 : ∀ b, i ≠ .init b) (hh : handleOf i = true) (hi : s.initFlag = true)
    (ho : operandOf i = true) (ha : ArgsInRange i) :
    ∃ t, exec i s = .next t ∧
      ((t.status = some .success ∧ noFailure t.trace) ∨
       ((t.status = some .transferFailure ∨ (i = .deinit true ∧ t.status = some .lifecycleFailure)) ∧
        ∃ front e, t.trace = front ++ [⟨e, .fail⟩] ∧ noFailure front)) := by
  obtain ⟨b, rfl⟩ | ⟨b, rfl⟩ | ⟨-, h2⟩ := lifecycle_or_other i
  · exact absurd rfl (h1 b)
  · obtain rfl : b = true := hh
    obtain ⟨t, hx⟩ := exec_next_of_wellFormed hw s
    refine ⟨t, hx, (exec_deinit_stop hi hx).cases.imp_right ?_⟩
    rintro ⟨hs, front, e, back, ht, hfront, -, hback⟩
    obtain rfl : back = [] := List.eq_nil_iff_forall_not_mem.2 fun r hr => nomatch hback r hr
    exact ⟨.inr ⟨rfl, hs⟩, front, e, ht, hfront⟩
  · obtain ⟨m, hm, hx⟩ := exec_runs_checked hw h1 h2 s
    refine ⟨_, hx, (hm.passed hh hi ho ha).finish_cases.imp_right ?_⟩
    rintro ⟨hs, -, -, front, e, ht, hfront, -⟩
    exact ⟨.inl hs, front, e, ht, hfront⟩

end

end Sys2Proof.Machine
end

section
/-! CERTIFICATE. How requests report and end (60_exceptions.md R700 to R710). -/

namespace Sys2Proof.Machine

/-- Settles O15: the guard, then the range check, then the frames; INIT by its own checks and branches. -/
theorem checksReportInOrder : Obligations.ChecksReportInOrder := by
  refine ⟨fun i s hw hp h1 => ⟨fun hh => exec_absent hw hp h1 hh s, exec_uninit hw hp h1, exec_absentOperand hw hp h1,
    exec_outOfRange hw hp h1, exec_passed hw h1⟩, exec_init_absent, exec_init_unbound, fun s hb => ?_⟩
  obtain ⟨t, hx⟩ := exec_next_of_wellFormed (i := .init true) rfl s
  refine ⟨t, hx, (exec_init_stop hb hx).cases.imp_right ?_⟩
  rintro ⟨hs, front, e, back, ht, hfront, hl, hback⟩
  exact ⟨hs, front, e, back, ht, hfront, hl, fun r hr => by simpa using hback r hr⟩

/-- Settles O17: a well-formed instruction answers, in its row of R709, and `finish` leaves the block at rest. -/
theorem everyRequestEndsWithOneStatus : Obligations.EveryRequestEndsWithOneStatus := by
  intro i s hw
  obtain ⟨t, hx⟩ := exec_next_of_wellFormed hw s
  obtain ⟨k, hk, hrow⟩ := exec_endsInRow hx
  obtain ⟨r, rfl⟩ := exec_finish hx
  obtain ⟨hpos, hdp, -⟩ := finish_rests r
  exact ⟨_, k, hx, hk, hrow, hpos, by rw [State.req, hpos], hdp⟩

/-- Settles O18: `finish` gives an output to Success alone. -/
theorem outputsExistOnlyOnSuccess : Obligations.OutputsExistOnlyOnSuccess := by
  intro i s t h
  obtain ⟨r, rfl⟩ := exec_finish h
  obtain ⟨-, -, hout⟩ := finish_rests r
  exact hout

/-- Settles O19: TransferFailure comes only from a failed event of a frame, Success only from none. -/
theorem transferFailuresArePrecise : Obligations.TransferFailuresArePrecise :=
  ⟨fun _ _ _ h hs => (stoppedAtFailure_of_transferFailure h hs).right, fun _ _ _ => noFailure_of_success⟩

end Sys2Proof.Machine
end

section
/-! SUPPORT. The world's answers: which of the scripted ones the running request has taken (60_exceptions.md R721; log
entry 2). -/

namespace Sys2Proof.Machine

/-- The world's next scripted answer is the answer to a pin event. -/
theorem respond_scripted {v : Env} {e : Event} {x : Answer} {rest : List Answer} (hr : v.responder = .world)
    (ha : v.answers = x :: rest) (hp : e.isPin = true) :
    v.respond e = (e.reply x, { v with answers := rest, pins := v.pins + 1 }) := by
  simp only [Env.respond, hp, if_true, Env.answer, hr, Env.worldAnswer, ha]

/-- The running request's events were answered by the world, from the script `script` at draw number `draws`: no delay has
an answer, and as long as the script lasts the pin events have taken its head, one answer each, and drawn nothing. -/
structure ScriptedBy (script : List Answer) (draws : Nat) (s : State) : Prop where
  responder : s.env.responder = .world
  delays : ∀ r ∈ s.trace, r.event.isPin = false → r.reply = .none
  inOrder : (pinRecords s.trace).length ≤ script.length →
    ∃ used, script = used ++ s.env.answers ∧ (pinRecords s.trace).length = used.length ∧
      (pinRecords s.trace).map (fun r => r.reply) =
        List.zipWith (fun r a => r.event.reply a) (pinRecords s.trace) used ∧
      s.env.draws = draws

theorem ScriptedBy.issue {script : List Answer} {draws : Nat} {s : State} (h : ScriptedBy script draws s) (e : Event) :
    ScriptedBy script draws (s.issue e) where
  responder := by rw [State.issue_env, respond_responder, h.responder]
  delays r hr hd := by
    rw [State.issue_trace, List.mem_append, List.mem_singleton] at hr
    rcases hr with hr | rfl
    · exact h.delays r hr hd
    · exact congrArg Prod.fst (respond_delay s.env hd)
  inOrder hlen := by
    rw [pinRecords_issue] at hlen ⊢
    cases hp : e.isPin with
    | false =>
      rw [hp, if_neg Bool.false_ne_true, List.append_nil] at hlen
      rw [if_neg Bool.false_ne_true, List.append_nil, State.issue_env, respond_delay _ hp]
      exact h.inOrder hlen
    | true =>
      rw [hp, if_pos rfl, List.length_append, List.length_singleton] at hlen
      obtain ⟨used, hs, hl, hmap, hd⟩ := h.inOrder (Nat.le_of_succ_le hlen)
      cases ha : s.env.answers with
      | nil =>
        rw [hs, ha, List.append_nil, hl] at hlen
        exact absurd hlen (Nat.not_succ_le_self _)
      | cons x rest =>
        rw [if_pos rfl, State.issue_env, respond_scripted h.responder ha hp]
        exact ⟨used ++ [x], by simp [hs, ha], by simp [hl], by simp [List.zipWith_append hl, hmap], hd⟩

theorem ScriptedBy.moves {script : List Answer} {draws : Nat} {s : State} (h : ScriptedBy script draws s)
    (l : List Move) : ScriptedBy script draws (s.moves l) := by
  induction l generalizing s with
  | nil => exact h
  | cons m l ih =>
    cases m with
    | release => exact ih ⟨h.responder, h.delays, h.inOrder⟩
    | ev e => exact ih (h.issue e)

theorem scriptedBy_accept {s : State} (h : s.env.responder = .world) (i : Instr) :
    ScriptedBy s.env.answers s.env.draws (s.accept i) where
  responder := h
  delays _ hr := nomatch hr
  inOrder _ := ⟨[], rfl, rfl, rfl, rfl⟩

end Sys2Proof.Machine
end

section
/-! CERTIFICATE. The world as responder (60_exceptions.md R720, R721; 00_scope.md R10). -/

namespace Sys2Proof.Machine

/-- Settles O25: every port event keeps `ScriptedBy`, and what it says of the head of the script is the statement. -/
theorem theWorldsAnswersAreTakenInOrder : Obligations.TheWorldsAnswersAreTakenInOrder := by
  intro i s t hx hr
  obtain ⟨l, henv, htrace⟩ := exec_moves hx
  obtain ⟨-, hdelays, hpins⟩ := (scriptedBy_accept hr i).moves l
  rw [← htrace] at hdelays hpins
  rw [← henv] at hpins
  refine ⟨hdelays, fun hlen => ?_⟩
  obtain ⟨used, hs, hl, hmap, hd⟩ := hpins hlen
  have hzip := List.zipWith_append (f := fun (r : PortRecord) a => r.event.reply a) (l₁' := []) (l₂' := t.env.answers) hl
  rw [List.append_nil, List.zipWith_nil_left, List.append_nil] at hzip
  refine ⟨?_, ?_, hd⟩
  · rw [hs]
    exact hmap.trans hzip.symm
  · rw [hs]
    exact (List.drop_left' hl.symm).symm

end Sys2Proof.Machine
end

section
/-! SUPPORT. The trace of INIT and DEINIT (45_lifecycle.md R600, R601): line events alone, whatever the answers. -/

namespace Sys2Proof.Machine

/-- The line events, as the list of them. -/
theorem mem_lines_of_isLine {e : Event} (he : e.isLine = true) :
    e ∈ [Event.ceInit, Event.clkInit, Event.ioInit, Event.ceDeinit, Event.clkDeinit, Event.ioDeinit] := by
  cases e <;> cases he <;> decide

theorem accept_lines_isLine {l : List Event} (hl : ∀ e ∈ l, e.isLine = true) (i : Instr) (s : State) :
    ∀ r ∈ ((s.accept i).moves (evs l)).trace, r.event.isLine = true := fun r hr =>
  hl r.event (eventsOf_accept_lines i s l ▸ List.mem_map_of_mem hr)

theorem LinesEnding.isLine {i : Instr} {l : List Event} {flag : Bool} {s t : State} (h : LinesEnding i l flag s t)
    (hl : ∀ e ∈ l, e.isLine = true) : ∀ r ∈ t.trace, r.event.isLine = true := by
  cases h with
  | failed l' hl' ht => rw [ht]; exact accept_lines_isLine hl' i s
  | done hok ht => rw [ht]; exact accept_lines_isLine hl i s

/-- INIT or DEINIT, turned away with no event or not, shows line events alone. -/
theorem lifecycle_isLine {i : Instr} {l : List Event} {flag : Bool} {s t : State}
    (h : (∃ k, k ≠ .success ∧ t = s.rejected k) ∨ LinesEnding i l flag s t) (hl : ∀ e ∈ l, e.isLine = true) :
    ∀ r ∈ t.trace, r.event.isLine = true := by
  rcases h with ⟨k, -, rfl⟩ | he
  · exact fun _ hr => nomatch hr
  · exact he.isLine hl

/-- An instruction that showed line events alone left the shadow: the shadow is the replay of the trace (R22). -/
theorem bus_of_isLine {i : Instr} {s t : State} (hx : exec i s = .next t) (h : ∀ r ∈ t.trace, r.event.isLine = true) :
    t.bus = s.bus := (exec_bus hx).trans (replayReleasing_lines h s.bus false)

/-- INIT or DEINIT, turned away or not, leaves the double, the shadow and the capabilities, and shows line events alone. -/
theorem lifecycle_leaves {i : Instr} {l : List Event} {flag : Bool} {s t : State} (hx : exec i s = .next t)
    (h : (∃ k, k ≠ .success ∧ t = s.rejected k) ∨ LinesEnding i l flag s t) (hl : ∀ e ∈ l, e.isLine = true) :
    (∀ r ∈ t.trace,
      r.event ∈ [Event.ceInit, Event.clkInit, Event.ioInit, Event.ceDeinit, Event.clkDeinit, Event.ioDeinit]) ∧
    t.env.double = s.env.double ∧ t.bus = s.bus ∧ t.caps = s.caps := by
  have hline := lifecycle_isLine h hl
  obtain ⟨hcaps, -⟩ := exec_keeps hx
  exact ⟨fun r hr => mem_lines_of_isLine (hline r hr), lifecycle_double h hl, bus_of_isLine hx hline, hcaps⟩

end Sys2Proof.Machine
end

section
/-! CERTIFICATE. INIT and DEINIT leave the target (70_reset_and_hazards.md R801, R802; 10_state.md R45). -/

namespace Sys2Proof.Machine

/-- Settles O24: however INIT or DEINIT ends, its events are line events, which reach neither the double nor the shadow. -/
theorem lifecycleLeavesTheTarget : Obligations.LifecycleLeavesTheTarget := by
  intro h s t hx
  rcases hx with hx | hx
  · exact lifecycle_leaves hx ((exec_init_ending hx).imp_right fun he => he.2.2) (by decide)
  · exact lifecycle_leaves hx (exec_deinit_ending hx) (by decide)

end Sys2Proof.Machine
end
